-- ==== Sys2Proof/Word.lean ====
section
/-! DEFINITION. The word types of the WF412: register window words, slot numbers, generations and
positions in the computer's memory. -/

namespace Sys2Proof

/-- A word is 16 bits: register window locations, record words and mask words (spec/00 section 3). -/
abbrev Word := BitVec 16

/-- One of the 24 slots of the window table, 0..23 (R1). -/
abbrev SlotId := Fin 24

/-- A slot's generation, 0..15, counted modulo 16 (R1, R11). -/
abbrev Generation := BitVec 4

/-- A word of the computer's memory: bank (8 bits) and word address (16 bits) counted together as one
position in a space of 16,777,216 words (R114). -/
abbrev Position := BitVec 24

end Sys2Proof
end

