-- ==== Sys2Proof/Syntax.lean ====
section
/-! DEFINITION. The commands of the WF412: one constructor for each row of spec/opcode_table.json, with
its operands.

A row that the computer starts by writing the command word (NOOP to UNKNOWN_COMMAND) carries the IE bit
of that write; its arguments are those that stand in ARG0 to ARG2 when it is taken (R157), where
REGISTER_WRITE puts them.
A row of an input carries the input and, where R126 gives the event a time, that time in samples. -/

namespace Sys2Proof

/-- The two composite inputs (spec/00 section 2.1). -/
inductive Input where
  | feedA
  | feedB
  deriving DecidableEq, Repr

/-- The parity of a field (R126). -/
inductive Parity where
  | first
  | second
  deriving DecidableEq, Repr

/-- The register window words that a write can overrun: the command word and ARG0 to ARG2 (R158). -/
inductive CommandGroup where
  | command
  | arg0
  | arg1
  | arg2
  deriving DecidableEq, Repr

/-- The register window words whose write has no behaviour of its own (R154): the argument words, which
store it, and the read-only words, which ignore it. -/
inductive PlainWord where
  | arg0
  | arg1
  | arg2
  | result0
  | result1
  | summary0
  | summary1
  | programStatus
  | feedAStatus
  | feedBStatus
  | fieldCounter
  deriving DecidableEq, Repr

/-- The commands, in the order of spec/opcode_table.json. -/
inductive Instr where
  | powerOn
  | busReset
  | noop (ie : Bool)
  | openRecord (ie : Bool)
  | clone (ie : Bool)
  | retire (ie : Bool)
  | find (ie : Bool)
  | publish (ie : Bool)
  | withdraw (ie : Bool)
  | push (ie : Bool)
  | lift (ie : Bool)
  | raise (ie : Bool)
  | lower (ie : Bool)
  | clearAir (ie : Bool)
  | guard (ie : Bool)
  | setGeometry (ie : Bool)
  | select (ie : Bool)
  | queryInput (ie : Bool)
  | imageIn (ie : Bool)
  | imageOut (ie : Bool)
  | unknownCommand (code : BitVec 5) (ie : Bool)
  | commandWordUpdate (value : Word)
  | overrunWrite (target : CommandGroup) (value : Word)
  | eventFlagsWrite (value : Word)
  | eventMaskWrite (value : Word)
  | accessPointerWrite (value : Word)
  | accessDataRead
  | accessDataWrite (value : Word)
  | registerWrite (target : PlainWord) (value : Word)
  | fieldStart
  | adoption (slot : SlotId)
  | lifetimeExpiry (slot : SlotId)
  | expiryAutoRetire (slot : SlotId)
  | blinkToggle (slot : SlotId)
  | blinkHide (slot : SlotId)
  | guardExpiry
  | pushApply
  | liftApply
  | raiseApply
  | lowerApply
  | clearAirApply
  | retireApply
  | heldSelectTimeout
  | heldSelectExamine
  | lineBegin (line : Nat)
  | takingPoint
  | busGrant
  | maskReadAnswer (word : Word)
  | imageInWordAnswer (word : Word)
  | imageOutWordAck
  | busTimeout
  | syncPulse (input : Input) (time : Nat)
  | lineStart (input : Input) (time : Nat)
  | verifyPass (input : Input) (time : Nat)
  | verticalSyncSequence (input : Input) (time : Nat) (parity : Parity)
  | missingLineStart (input : Input)
  | holdoverRelock (input : Input) (time : Nat)
  | holdoverLimit (input : Input)
  | lossTimerExpiry (input : Input)
  | cutSwitch
  | slewSwitch
  | computerLineEnd
  | busResetRelease
  deriving DecidableEq, Repr

end Sys2Proof
end

