-- ==== Sys2Proof/WellFormed.lean ====
section
/-! DEFINITION. Which commands are well formed: the checks on operands that their types do not make. -/

namespace Sys2Proof

/-- A command's operands are those its row is for.
UNKNOWN_COMMAND is a command with function code 18 to 31 (R160); COMMAND_WORD_UPDATE is a write of the
command word with READY, bit 7, written 1 (R157); LINE_BEGIN begins a picture line, 0..P-1, and P is at
most 288 (R95). -/
def Instr.wf : Instr → Bool
  | .powerOn => true
  | .busReset => true
  | .noop _ => true
  | .openRecord _ => true
  | .clone _ => true
  | .retire _ => true
  | .find _ => true
  | .publish _ => true
  | .withdraw _ => true
  | .push _ => true
  | .lift _ => true
  | .raise _ => true
  | .lower _ => true
  | .clearAir _ => true
  | .guard _ => true
  | .setGeometry _ => true
  | .select _ => true
  | .queryInput _ => true
  | .imageIn _ => true
  | .imageOut _ => true
  | .unknownCommand code _ => decide (18 ≤ code.toNat)
  | .commandWordUpdate value => value.getLsbD 7
  | .overrunWrite _ _ => true
  | .eventFlagsWrite _ => true
  | .eventMaskWrite _ => true
  | .accessPointerWrite _ => true
  | .accessDataRead => true
  | .accessDataWrite _ => true
  | .registerWrite _ _ => true
  | .fieldStart => true
  | .adoption _ => true
  | .lifetimeExpiry _ => true
  | .expiryAutoRetire _ => true
  | .blinkToggle _ => true
  | .blinkHide _ => true
  | .guardExpiry => true
  | .pushApply => true
  | .liftApply => true
  | .raiseApply => true
  | .lowerApply => true
  | .clearAirApply => true
  | .retireApply => true
  | .heldSelectTimeout => true
  | .heldSelectExamine => true
  | .lineBegin line => decide (line < 288)
  | .takingPoint => true
  | .busGrant => true
  | .maskReadAnswer _ => true
  | .imageInWordAnswer _ => true
  | .imageOutWordAck => true
  | .busTimeout => true
  | .syncPulse _ _ => true
  | .lineStart _ _ => true
  | .verifyPass _ _ => true
  | .verticalSyncSequence _ _ _ => true
  | .missingLineStart _ => true
  | .holdoverRelock _ _ => true
  | .holdoverLimit _ => true
  | .lossTimerExpiry _ => true
  | .cutSwitch => true
  | .slewSwitch => true
  | .computerLineEnd => true
  | .busResetRelease => true

end Sys2Proof
end

