-- ==== Sys2Proof/Decode.lean ====
section
/-! DEFINITION. The commands that a word spells by the bits of spec/opcode_table.json. -/

namespace Sys2Proof

/-- The command that a word of nbits bits spells by the table's bits.
No row of spec/opcode_table.json gives bits (spec/98_reader.md: n_rows_with_fixed is 0), so no word spells a
command. -/
def decodeTableWord (_nbits _w : Nat) : Option Instr :=
  none

end Sys2Proof
end

