-- ==== Sys2Proof/Config.lean ====
section
/-! DEFINITION. What is fixed for the part: the capacities, tolerances and times the spec states.
The spec leaves no value free, so nothing here is opaque. -/

namespace Sys2Proof.Config

/-- The layer stack never holds more than 8 entries (R43). -/
abbrev stackDepth : Nat := 8

/-- The silo never holds more than 16 words (R109). -/
abbrev siloDepth : Nat := 16

/-- At most four windows are served on a line, each by a line descriptor (R108, R111). -/
abbrev descriptorPlaces : Nat := 4

/-- The bus response timeout, 10 µs of 13.5 samples each (R118, R125). -/
abbrev busTimeoutSamples : Nat := 135

/-- The search window reaches 64 samples to either side of the prediction (R132). -/
abbrev searchWindow : Nat := 64

/-- A line start within 6 samples of its prediction is no jump (R132). -/
abbrev jumpTolerance : Nat := 6

/-- The line period tolerance of VERIFY, in samples (R130). -/
abbrev verifyTolerance : Nat := 8

/-- The head-switch zone is the last 10 expected lines of a field (R126). -/
abbrev zoneLines : Nat := 10

/-- Consecutive missing line starts that end LOCKED (R134). -/
abbrev missingLimit : Nat := 3

/-- Consecutive good line starts that end HOLDOVER (R135). -/
abbrev goodLimit : Nat := 8

/-- Fields VERIFY examines (R130). -/
abbrev verifyFields : Nat := 4

/-- The loss timer runs for 8 line periods (R127). -/
abbrev lossPeriods : Nat := 8

/-- The field starts a held SELECT waits (R153). -/
abbrev heldSelectLimit : Nat := 48

/-- The most lines a slew takes from or gives to one computer field (R145). -/
abbrev slewLines : Nat := 4

/-- The cut-blanking count a CUT sets (R106). -/
abbrev cutBlankingFields : Nat := 2

/-- The most words one image transfer moves (R159). -/
abbrev imageWords : Nat := 576

/-- The last active sample of the raster (R95). -/
abbrev lastSample : Int := 719

/-- The indefinite value of a derived geometry word (R77). -/
abbrev indefinite : Int := -32768

end Sys2Proof.Config
end

