-- ==== Sys2Proof/Machine/State.lean ====
section
/-! DEFINITION. The state of the WF412, block by block, and the state after power-on. Plain data only. -/

namespace Sys2Proof.Machine

/-! ### The window table (chapter 1) -/

/-- The five record states (R9). -/
inductive RecState where
  | free
  | draft
  | standby
  | onAir
  | faulted
  deriving DecidableEq, Repr

/-- The names of the five attention flags, in the order of live word 17 (R19, R156). -/
inductive AttentionFlag where
  | evicted
  | late
  | convert
  | expired
  | fetchFault
  deriving DecidableEq, Repr

/-- The five attention flags of a record (R19). -/
structure Attention where
  evicted : Bool
  late : Bool
  convert : Bool
  expired : Bool
  fetchFault : Bool
  deriving DecidableEq, Repr

/-- A copy of a record's words 0 to 15 (R1). -/
abbrev Copy := Vector Word 16

/-- The counter values of a record (R62): current mix level, remaining lifetime, blink phase (hidden or
visible) and crawl-halted indicator. -/
structure Counters where
  mix : Nat
  lifetime : Nat
  hidden : Bool
  halted : Bool
  deriving DecidableEq, Repr

/-- What the Position Converter holds for a slot (R77). -/
structure Geometry where
  left : Int
  right : Int
  top : Int
  bottom : Int
  maskOrigin : Int
  rowBase : Int
  offRaster : Bool
  deriving DecidableEq, Repr

/-- One slot of the window table (R1).
`pending` holds the pending indicator and the publication countdown: none is "not pending, countdown 0"
(R24).
The layer position is not stored here: it is the slot's place on the layer stack (R1, R44). -/
structure Slot where
  state : RecState
  gen : Generation
  staging : Copy
  active : Option Copy
  pending : Option Nat
  counters : Counters
  geometry : Geometry
  attention : Attention
  deriving DecidableEq, Repr

/-! ### The Layer Stack (chapter 3) -/

/-- The one held field-aligned request: its kind and, for all kinds but CLEAR AIR, the handle as taken
(R46). -/
inductive HeldRequest where
  | push (slot : SlotId) (gen : Generation)
  | lift (slot : SlotId) (gen : Generation)
  | raise (slot : SlotId) (gen : Generation)
  | lower (slot : SlotId) (gen : Generation)
  | clearAir
  | retire (slot : SlotId) (gen : Generation)
  deriving DecidableEq, Repr

/-- The air guard: setting, count of field starts since the last command taken, and the guard-expired
indicator (R56). -/
structure AirGuard where
  setting : Nat
  count : Nat
  expired : Bool
  deriving DecidableEq, Repr

/-! ### The Program Timebase (chapter 9) -/

/-- The line structure of a picture: 525 or 625 lines (R125, R141). -/
inductive Standard where
  | lines525
  | lines625
  deriving DecidableEq, Repr

/-- The four timebase states, numbered as R155 numbers them. -/
inductive TimebaseState where
  | freeRun
  | slew
  | follow
  | coast
  deriving DecidableEq, Repr

/-- The two modes of a source switch (R149). -/
inductive SwitchMode where
  | cut
  | slew
  deriving DecidableEq, Repr

/-- The switch item: none, scheduled with its input and mode, or made and not yet brought to FOLLOW
(R141). -/
inductive SwitchItem where
  | none
  | scheduled (input : Input) (mode : SwitchMode)
  | made
  deriving DecidableEq, Repr

/-- The held SELECT with its arguments and its count of field starts (R141, R153). -/
structure HeldSelect where
  input : Input
  mode : SwitchMode
  confirm : Bool
  count : Nat
  deriving DecidableEq, Repr

/-- The five values latched at each field start (R147). -/
structure Latched where
  scale : Nat
  trim : Int
  h : Int
  v : Int
  standard : Standard
  deriving DecidableEq, Repr

/-- The Program Timebase (R141), with the computer's timing that R142 to R145 speak of: the parity of the
computer's field in progress, the line count of the input's field that it is made by in SLEW (`inputLines`, R145),
the lines it has run, the lines of the field before it, and the computer's line in progress: the sample at which it
started, the start of the line before it, and what it was made with as it started, since every change of line length
is made at the end of a line (R143): its length, the samples by which h moves at its end (`lineSlew`, R145), and
whether it ends at the program input's next line start in place of its own length (`lineFollows`).
SWITCHING is not stored: it is set exactly while the switch is scheduled or made. -/
structure Timebase where
  state : TimebaseState
  standard : Standard
  program : Input
  h : Int
  v : Int
  runPeriod : Nat
  setScale : Nat
  setTrim : Int
  latched : Latched
  switch : SwitchItem
  heldSelect : Option HeldSelect
  fieldCounter : Word
  parity : Parity
  inputLines : Nat
  linesRun : Nat
  lastField : Nat
  lineStartAt : Nat
  previousLineAt : Nat
  lineLength : Nat
  lineSlew : Int
  lineFollows : Bool
  deriving DecidableEq, Repr

/-! ### The Input Lock Tracker (chapter 8) -/

/-- The five lock states, numbered as R155 numbers them. -/
inductive LockState where
  | noSignal
  | hunt
  | verify
  | locked
  | holdover
  deriving DecidableEq, Repr

/-- One lock context (R125).
`reference` is the flywheel's reference line start, a time in samples; in HUNT and VERIFY it is the previous
line start.
`found` says whether that line start was found rather than predicted (R132).
`run` is the count of consecutive missing line starts (LOCKED) or good ones (HOLDOVER).
`huntLines` is the HUNT reference, held as the line starts counted since it (R129).
`huntAt` is the moment, in samples, at which HUNT was entered (R129).
`verified` is VERIFY progress, `heldLines` HOLDOVER progress, and `lastPulse` the loss timer, held as the
time of the last sync pulse (none: the timer is stopped). -/
structure LockContext where
  lock : LockState
  standard : Option Standard
  remembered : Option Standard
  period : Option Nat
  parity : Parity
  line : Nat
  headSwitch : Nat
  sourceChanged : Bool
  reference : Option Nat
  found : Bool
  run : Nat
  huntLines : Option Nat
  huntAt : Option Nat
  verified : Nat
  heldLines : Nat
  lastPulse : Option Nat
  deriving DecidableEq, Repr

/-! ### The Mask Fetch Engine (chapter 7) -/

/-- The condition of a line descriptor (R111, R117, R120). -/
inductive DescCondition where
  | opened
  | abandoned
  | dropped
  deriving DecidableEq, Repr

/-- A line descriptor (R111). `toFetch` lists the needed words not yet presented to the bus (its head is the
next word), `toTake` those the Keyer has not yet taken. -/
structure Descriptor where
  slot : SlotId
  gen : Generation
  row : Int
  rowAddress : Position
  origin : Int
  left : Int
  right : Int
  toFetch : List Nat
  toTake : List Nat
  condition : DescCondition
  deriving DecidableEq, Repr

/-- A word of the silo with the line, descriptor place and word number it was fetched for (R108). -/
structure SiloWord where
  line : Nat
  place : Nat
  k : Nat
  data : Word
  deriving DecidableEq, Repr

/-- The channel (R108): idle, awaiting grant, or one operation in flight.
`since` is the sample at which its address was presented (R118).
`current` is clear once the line the read was made for has been closed (R116). -/
inductive Channel where
  | idle
  | awaiting
  | maskRead (line place k : Nat) (slot : SlotId) (gen : Generation) (address : Position) (current : Bool) (since : Nat)
  | imageRead (address : Position) (since : Nat)
  | imageWrite (address : Position) (data : Word) (since : Nat)
  deriving DecidableEq, Repr

/-- The Mask Fetch Engine (R108). A descriptor's place is its index in `descs`. `drawn` says that the Keyer has begun
the open line since the engine opened it: the Keyer draws that line, or the line before it (R108). -/
structure Engine where
  openLine : Option Nat
  drawn : Bool
  descs : List Descriptor
  silo : List SiloWord
  channel : Channel
  deriving DecidableEq, Repr

/-! ### The Keyer (chapter 6) -/

/-- The four key modes, numbered as R156 numbers them. -/
inductive KeyMode where
  | luma
  | colour
  | mask
  | matte
  deriving DecidableEq, Repr

/-- One entry of the line snapshot (R96), with what happens to a MASK entry along the line: whether it has a
line descriptor (R97), the words taken for it (R104) and the sample from which it is abandoned (R104, R105). -/
structure SnapEntry where
  slot : SlotId
  mode : KeyMode
  keyValue : Nat
  holdOff : Bool
  mix : Nat
  hidden : Bool
  left : Int
  right : Int
  top : Int
  bottom : Int
  maskOrigin : Int
  rowBase : Int
  wordsPerLine : Nat
  described : Bool
  taken : List (Nat × Word)
  abandonedFrom : Option Int
  deriving DecidableEq, Repr

/-- The snapshot of a line (R96): the picture line, the sample time at which the line began, the start of the computer
line beside it where it is a line of the timebase's own structure (`ownAt`, R95), the entries top first, whether the
timebase is in FOLLOW, whether cut blanking is active, the program input, whether it is NO SIGNAL, and the latched
values the line's computer pixels are placed by (R94). -/
structure Snapshot where
  line : Nat
  beganAt : Int
  ownAt : Option Int
  entries : List SnapEntry
  follow : Bool
  blanked : Bool
  program : Input
  noSignal : Bool
  latched : Latched
  deriving DecidableEq, Repr

/-- The Keyer: the cut-blanking count (R92) and the snapshot of the line last begun (R96). -/
structure Keyer where
  cutBlanking : Nat
  snapshot : Option Snapshot
  deriving DecidableEq, Repr

/-! ### The Command Unit and the Access Port (chapter 10) -/

/-- The completion codes in the order of R155, from 0. -/
inductive Completion where
  | ok
  | unknownCommand
  | badArgument
  | staleHandle
  | noSlot
  | noneFound
  | badRecord
  | alreadyPending
  | notPending
  | notReady
  | notOnAir
  | faulted
  | atLimit
  | gone
  | noLock
  | unconfirmed
  | standardMismatch
  | timeout
  | partialDone
  | busFault
  | reset
  deriving DecidableEq, Repr

/-- The Command Unit (R157): function field, IE, READY, completion code, argument and result words. -/
structure CommandUnit where
  func : BitVec 5
  ie : Bool
  ready : Bool
  completion : Completion
  arg0 : Word
  arg1 : Word
  arg2 : Word
  result0 : Word
  result1 : Word
  deriving DecidableEq, Repr

/-- The step modes of the access pointer (R161). -/
inductive StepMode where
  | up
  | down
  | hold
  deriving DecidableEq, Repr

/-- The access pointer (R161). `wrap` is the carry mode: WRAP when set, CARRY when clear. -/
structure Pointer where
  slot : SlotId
  word : Fin 24
  mode : StepMode
  wrap : Bool
  deriving DecidableEq, Repr

/-- An image transfer in flight (R161): its direction, the next memory position, the words still to move and
the words moved. -/
structure Transfer where
  toMemory : Bool
  position : Position
  left : Nat
  moved : Nat
  deriving DecidableEq, Repr

/-- The Access Port (R161). `readData` is the model's own field: the value the last read of the data word
returned on the computer's bus (R162). -/
structure AccessPort where
  pointer : Pointer
  transfer : Option Transfer
  readData : Word
  deriving DecidableEq, Repr

/-! ### The Event Register (chapter 11) -/

/-- One bit for each of the seven events, in the order of R155: used for the flags and for the mask (R168). -/
structure EventBits where
  done : Bool
  window : Bool
  lock : Bool
  timebase : Bool
  guard : Bool
  overrun : Bool
  access : Bool
  deriving DecidableEq, Repr

/-! ### The whole part -/

/-- What a CUT that comes at the end of a computer field needs of the field start that has just come, since that one
field start carries the effects of the CUT (R150): the records and WINDOW as they stood before the conversion that the
CUT supersedes, with the attention flags that other causes have set since. The model's own (log 16). -/
structure FieldMarks where
  records : Vector Slot 24
  window : Bool
  deriving DecidableEq, Repr

/-- The state of the WF412, the computer's reset line (R167), the sample clock as a count of samples (R125;
the model's own), the marks of the latest field start (the model's own) and the queue of commands that wait (the
model's own). -/
structure State where
  now : Nat
  resetLine : Bool
  slots : Vector Slot 24
  stack : List SlotId
  held : Option HeldRequest
  guard : AirGuard
  keyer : Keyer
  engine : Engine
  feedA : LockContext
  feedB : LockContext
  tb : Timebase
  cmd : CommandUnit
  port : AccessPort
  events : EventBits
  mask : EventBits
  marks : Option FieldMarks
  pending : List Instr
  deriving DecidableEq, Repr

/-- Why the machine stops with a fault. The spec gives every command an effect in every state, so no
constructor is needed. -/
inductive Fault where
  deriving DecidableEq, Repr

/-- Why a command is refused. -/
inductive Refusal where
  /-- Raised by an arm of exec whose command has no meaning yet; safe. No arm raises it now. -/
  | notModelled (mnemonic : String)
  deriving DecidableEq, Repr

/-- The outcome of a step of this machine. -/
abbrev Result := Host.Outcome State Fault Refusal

/-! ### The values after power-on -/

/-- No attention flag (R22). -/
def Attention.none : Attention :=
  { evicted := false, late := false, convert := false, expired := false, fetchFault := false }

/-- A copy whose words all read 0 (R22). -/
def Copy.zero : Copy :=
  Vector.replicate 16 0#16

/-- The counter values of a record that has none: mix 0, visible, not halted, lifetime 0 (R8). -/
def Counters.none : Counters :=
  { mix := 0, lifetime := 0, hidden := false, halted := false }

/-- The derived geometry of a FREE slot: all 0, off-raster history clear (R77). -/
def Geometry.none : Geometry :=
  { left := 0, right := 0, top := 0, bottom := 0, maskOrigin := 0, rowBase := 0, offRaster := false }

/-- A FREE slot at a generation (R11, R22). -/
def Slot.blank (gen : Generation) : Slot :=
  { state := .free, gen := gen, staging := Copy.zero, active := Option.none, pending := Option.none,
    counters := Counters.none, geometry := Geometry.none, attention := Attention.none }

/-- No event bit set (R168). -/
def EventBits.none : EventBits :=
  { done := false, window := false, lock := false, timebase := false, guard := false, overrun := false,
    access := false }

/-- The air guard off (R59). -/
def AirGuard.off : AirGuard :=
  { setting := 0, count := 0, expired := false }

/-- The Mask Fetch Engine stopped (R108, R124). -/
def Engine.stopped : Engine :=
  { openLine := Option.none, drawn := false, descs := [], silo := [], channel := .idle }

/-- A lock context at power-on (R125). -/
def LockContext.powerOn : LockContext :=
  { lock := .noSignal, standard := Option.none, remembered := Option.none, period := Option.none,
    parity := .first, line := 0, headSwitch := 0, sourceChanged := false, reference := Option.none,
    found := false, run := 0, huntLines := Option.none, huntAt := Option.none, verified := 0, heldLines := 0,
    lastPulse := Option.none }

/-- The Program Timebase at power-on (R141). The first field has parity first and its lines the running line period
(R143); that it starts at sample 0 with no line run and after a field of 312 lines is a DESIGN CHOICE (log 19), as is
`inputLines`, which SLEW alone reads and every measurement sets. -/
def Timebase.powerOn : Timebase :=
  { state := .freeRun, standard := .lines625, program := .feedA, h := 0, v := 0, runPeriod := 864,
    setScale := 72, setTrim := 0,
    latched := { scale := 72, trim := 0, h := 0, v := 0, standard := .lines625 },
    switch := .none, heldSelect := Option.none, fieldCounter := 0#16, parity := .first,
    inputLines := 313, linesRun := 0, lastField := 312, lineStartAt := 0, previousLineAt := 0, lineLength := 864,
    lineSlew := 0, lineFollows := false }

/-- The Command Unit's reset values, with the completion code that power-on (OK) and bus reset (RESET) leave
(R167). -/
def CommandUnit.cleared (completion : Completion) : CommandUnit :=
  { func := 0#5, ie := false, ready := true, completion := completion, arg0 := 0#16, arg1 := 0#16,
    arg2 := 0#16, result0 := 0#16, result1 := 0#16 }

/-- The access pointer's reset value: slot 0, word 0, UP, CARRY (R167). -/
def Pointer.start : Pointer :=
  { slot := 0, word := 0, mode := .up, wrap := false }

/-- The machine right after power-on (R22, R59, R92, R108, R125, R141, R167, R168). The fields the spec gives
no power-on value for (the sample clock, the reset line, the line snapshot, the read latch) are DESIGN
CHOICES (log 19). -/
def State.reset : State :=
  { now := 0
    resetLine := false
    slots := Vector.replicate 24 (Slot.blank 0#4)
    stack := []
    held := Option.none
    guard := AirGuard.off
    keyer := { cutBlanking := 0, snapshot := Option.none }
    engine := Engine.stopped
    feedA := LockContext.powerOn
    feedB := LockContext.powerOn
    tb := Timebase.powerOn
    cmd := CommandUnit.cleared .ok
    port := { pointer := Pointer.start, transfer := Option.none, readData := 0#16 }
    events := EventBits.none
    mask := EventBits.none
    marks := Option.none
    pending := [] }

end Sys2Proof.Machine
end

