-- ==== Sys2Proof/Machine/Operands.lean ====
section
/-! DEFINITION. Operand forms and word layouts: the fields of the mode word and of the other record words
(R156), the legality checks of PUBLISH (R26, R27), handles (R12), the encodings of the register window words
(R155), and the line structures of the two standards (R126, R143). -/

namespace Sys2Proof

/-- The other parity (R132). -/
def Parity.other : Parity → Parity
  | .first => .second
  | .second => .first

/-- Parity first is 0 and second 1 in RESULT0 of QUERY INPUT (R155). -/
def Parity.code : Parity → Nat
  | .first => 0
  | .second => 1

end Sys2Proof

namespace Sys2Proof.Machine

/-! ### Inputs and standards -/

/-- Feed A is 0 and Feed B is 1, in SELECT, QUERY INPUT and the program status word (R140, R149, R155). -/
def inputCode : Input → Nat
  | .feedA => 0
  | .feedB => 1

/-- The nominal line period in samples (R125). -/
def Standard.nominal : Standard → Nat
  | .lines525 => 858
  | .lines625 => 864

/-- P, the picture lines of a field (R79). -/
def Standard.pictureLines : Standard → Nat
  | .lines525 => 240
  | .lines625 => 288

/-- The line of a field on which picture line 0 falls (R95). -/
def Standard.firstPictureLine : Standard → Nat
  | .lines525 => 21
  | .lines625 => 23

/-- The samples from a line start to active sample 0 (R95). -/
def Standard.activeStart : Standard → Nat
  | .lines525 => 122
  | .lines625 => 132

/-- Two fields' worth of lines, the limit of HOLDOVER (R136). -/
def Standard.holdoverLimit : Standard → Nat
  | .lines525 => 525
  | .lines625 => 625

/-- The expected line count of a field (R126). -/
def Standard.fieldLines : Standard → Parity → Nat
  | .lines525, .first => 263
  | .lines525, .second => 262
  | .lines625, .first => 313
  | .lines625, .second => 312

/-- The timebase standard in the program status word: 0 for 525, 1 for 625 (R155). -/
def Standard.bit : Standard → Nat
  | .lines525 => 0
  | .lines625 => 1

/-- The standard in the input status words: 0 unknown, 1 for 525, 2 for 625 (R155). -/
def standardCode : Option Standard → Nat
  | none => 0
  | some .lines525 => 1
  | some .lines625 => 2

/-- The lock state's code (R155). -/
def LockState.code : LockState → Nat
  | .noSignal => 0
  | .hunt => 1
  | .verify => 2
  | .locked => 3
  | .holdover => 4

/-- The timebase state's code (R155). -/
def TimebaseState.code : TimebaseState → Nat
  | .freeRun => 0
  | .slew => 1
  | .follow => 2
  | .coast => 3

/-- The record state's code in live word 16 (R156). -/
def RecState.code : RecState → Nat
  | .free => 0
  | .draft => 1
  | .standby => 2
  | .onAir => 3
  | .faulted => 4

/-- The completion code's number (R155). -/
def Completion.code : Completion → Nat
  | .ok => 0
  | .unknownCommand => 1
  | .badArgument => 2
  | .staleHandle => 3
  | .noSlot => 4
  | .noneFound => 5
  | .badRecord => 6
  | .alreadyPending => 7
  | .notPending => 8
  | .notReady => 9
  | .notOnAir => 10
  | .faulted => 11
  | .atLimit => 12
  | .gone => 13
  | .noLock => 14
  | .unconfirmed => 15
  | .standardMismatch => 16
  | .timeout => 17
  | .partialDone => 18
  | .busFault => 19
  | .reset => 20

/-! ### The fields of a copy (R156) -/

/-- The bits lo to lo + len - 1 of a word, as a number. -/
def bits (w : Word) (lo len : Nat) : Nat :=
  w.toNat / 2 ^ lo % 2 ^ len

/-- A flag as a one-bit number. -/
def bit (b : Bool) : Nat :=
  if b then 1 else 0

/-- The key mode: bits 0 and 1 of word 1. -/
def Copy.keyMode (cp : Copy) : KeyMode :=
  match bits cp[1] 0 2 with
  | 0 => .luma
  | 1 => .colour
  | 2 => .mask
  | _ => .matte

/-- The four rounding modes (R81). -/
inductive Rounding where
  | nearest
  | truncate
  | floor
  | ceiling
  deriving DecidableEq, Repr

/-- The rounding mode: bits 2 and 3 of word 1. -/
def Copy.rounding (cp : Copy) : Rounding :=
  match bits cp[1] 2 2 with
  | 0 => .nearest
  | 1 => .truncate
  | 2 => .floor
  | _ => .ceiling

/-- The range policy is STRICT: bit 4 of word 1. -/
def Copy.strict (cp : Copy) : Bool := cp[1].getLsbD 4

/-- HOLD-OFF: bit 5 of word 1. -/
def Copy.holdOff (cp : Copy) : Bool := cp[1].getLsbD 5

/-- QUIET: bit 6 of word 1. -/
def Copy.quiet (cp : Copy) : Bool := cp[1].getLsbD 6

/-- The lifetime mode is BLINK: bit 7 of word 1. -/
def Copy.blink (cp : Copy) : Bool := cp[1].getLsbD 7

/-- AUTO-RETIRE: bit 8 of word 1. -/
def Copy.autoRetire (cp : Copy) : Bool := cp[1].getLsbD 8

/-- Left, title units: word 2, two's complement. -/
def Copy.left (cp : Copy) : Int := cp[2].toInt

/-- Right, title units: word 3, two's complement. -/
def Copy.right (cp : Copy) : Int := cp[3].toInt

/-- Top, title lines: word 4. -/
def Copy.top (cp : Copy) : Nat := cp[4].toNat

/-- Bottom, title lines: word 5. -/
def Copy.bottom (cp : Copy) : Nat := cp[5].toNat

/-- The key value: word 6. -/
def Copy.keyValue (cp : Copy) : Nat := cp[6].toNat

/-- The mix level: word 7. -/
def Copy.mixLevel (cp : Copy) : Nat := cp[7].toNat

/-- The fade target: bits 0 to 5 of word 8. -/
def Copy.fadeTarget (cp : Copy) : Nat := bits cp[8] 0 6

/-- The fade step: bits 8 to 11 of word 8. -/
def Copy.fadeStep (cp : Copy) : Nat := bits cp[8] 8 4

/-- The lifetime: word 9. -/
def Copy.lifetime (cp : Copy) : Nat := cp[9].toNat

/-- The blink reload: word 10. -/
def Copy.blinkReload (cp : Copy) : Nat := cp[10].toNat

/-- The crawl step: word 11, two's complement. -/
def Copy.crawlStep (cp : Copy) : Int := cp[11].toInt

/-- The place of mask row 0: the word address of word 13 in the bank of word 12 (R114). -/
def Copy.maskStart (cp : Copy) : Nat := cp[12].toNat * 65536 + cp[13].toNat

/-- The mask stride in words: word 14. -/
def Copy.maskStride (cp : Copy) : Nat := cp[14].toNat

/-- The mask words per line: word 15. -/
def Copy.maskWords (cp : Copy) : Nat := cp[15].toNat

/-- The staging words OPEN writes (section 1.2, R13, R156): mode word 0000h, word 8 003Fh. -/
def Copy.opened (tag : Word) : Copy :=
  #v[tag, 0#16, 0#16, 639#16, 0#16, 239#16, 128#16, 63#16, 0x003F#16, 0#16, 0#16, 0#16, 0#16, 0#16, 0#16, 0#16]

/-! ### The record checks of PUBLISH -/

/-- A title coordinate's range (R26, R73). -/
abbrev inTitleRange (x : Int) : Bool := decide (-1024 ≤ x) && decide (x ≤ 1023)

/-- The checks of words 0 to 11 in ascending order, each with its word's offset (R26).
Words 9 and 10 always pass. -/
def Copy.headTests (cp : Copy) : List (Nat × Bool) :=
  [ (0, decide (cp[0].toNat ≤ 255)),
    (1, decide (bits cp[1] 9 7 = 0)),
    (2, inTitleRange cp.left),
    (3, inTitleRange cp.right && decide (cp.left ≤ cp.right)),
    (4, decide (cp.top ≤ 287)),
    (5, decide (cp.bottom ≤ 287) && decide (cp.top ≤ cp.bottom)),
    (6, decide (cp.keyValue ≤ 255)),
    (7, decide (cp.mixLevel ≤ 63)),
    (8, decide (bits cp[8] 6 2 = 0) && decide (bits cp[8] 12 4 = 0)),
    (11, decide (-16 ≤ cp.crawlStep) && decide (cp.crawlStep ≤ 15)) ]

/-- The checks of the mask descriptor, words 12 to 15 (R27). Word 13 always passes. -/
def Copy.maskTests (cp : Copy) : List (Nat × Bool) :=
  [ (12, decide (cp[12].toNat ≤ 255)),
    (14, decide (1 ≤ cp.maskStride) && decide (cp.maskStride ≤ 64)),
    (15, decide (1 ≤ cp.maskWords) && decide (cp.maskWords ≤ 45)) ]

/-- The record checks: the descriptor is examined in MASK alone (R27). -/
def Copy.tests (cp : Copy) : List (Nat × Bool) :=
  if cp.keyMode = .mask then cp.headTests ++ cp.maskTests else cp.headTests

/-- The offset of the first word that fails, none when every examined word passes (R25, R27). -/
def Copy.failingWord (cp : Copy) : Option Nat :=
  (cp.tests.find? (fun t => !t.2)).map (·.1)

/-- Every examined word passes (R28). -/
abbrev Copy.legal (cp : Copy) : Bool := cp.failingWord.isNone

/-! ### Handles (section 1.5) -/

/-- The handle of a slot at a generation: slot plus 32 times the generation. -/
def handleOf (i : SlotId) (g : Generation) : Word :=
  BitVec.ofNat 16 (i.val + 32 * g.toNat)

/-- The slot and generation a handle names; none where it is refused with BAD ARGUMENT: 512 or more, or a slot
field of 24..31 (R12). -/
def parseHandle (a : Word) : Option (SlotId × Generation) :=
  if h : a.toNat < 512 ∧ a.toNat % 32 < 24 then
    some (⟨a.toNat % 32, h.2⟩, BitVec.ofNat 4 (a.toNat / 32))
  else
    none

/-! ### The access pointer's word (R155, R161) -/

/-- The step mode's code (R155). -/
def StepMode.code : StepMode → Nat
  | .up => 0
  | .down => 1
  | .hold => 2

/-- The pointer as register window word 10 shows it (R155). -/
def Pointer.toWord (p : Pointer) : Word :=
  BitVec.ofNat 16 (p.word.val + 256 * p.slot.val + 8192 * p.mode.code + 32768 * bit p.wrap)

/-- The pointer a write to word 10 names; none where the written slot is 24..31, the written word is 24..31 or
the step mode is 3 (R161). -/
def parsePointer (w : Word) : Option Pointer :=
  if hs : bits w 8 5 < 24 then
    if hw : bits w 0 5 < 24 then
      match bits w 13 2 with
      | 0 => some { slot := ⟨_, hs⟩, word := ⟨_, hw⟩, mode := .up, wrap := w.getLsbD 15 }
      | 1 => some { slot := ⟨_, hs⟩, word := ⟨_, hw⟩, mode := .down, wrap := w.getLsbD 15 }
      | 2 => some { slot := ⟨_, hs⟩, word := ⟨_, hw⟩, mode := .hold, wrap := w.getLsbD 15 }
      | _ => none
    else none
  else none

/-- The pointer after an accepted access to the data word (R161). -/
def Pointer.step (p : Pointer) : Pointer :=
  match p.mode with
  | .up =>
    if p.word.val = 23 then { p with word := 0, slot := if p.wrap then p.slot else p.slot + 1 }
    else { p with word := p.word + 1 }
  | .down =>
    if p.word.val = 0 then { p with word := 23, slot := if p.wrap then p.slot else p.slot - 1 }
    else { p with word := p.word - 1 }
  | .hold => p

end Sys2Proof.Machine
end

