-- ==== Sys2Proof/Machine/Flags.lean ====
section
/-! DEFINITION. Flags: the attention flags of the records, the event flags and mask, the interrupt line.
R171's rule, that an attention flag going from clear to set sets WINDOW, has its one home in
`State.modifySlot` and `State.mapSlots`. -/

namespace Sys2Proof.Machine

/-! ### Attention flags -/

/-- The attention flags with one flag set (R19). -/
def Attention.set (a : Attention) : AttentionFlag → Attention
  | .evicted => { a with evicted := true }
  | .late => { a with late := true }
  | .convert => { a with convert := true }
  | .expired => { a with expired := true }
  | .fetchFault => { a with fetchFault := true }

/-- Whether at least one flag is set (R21). -/
def Attention.any (a : Attention) : Bool :=
  a.evicted || a.late || a.convert || a.expired || a.fetchFault

/-- Live word 17 (R156). -/
def Attention.toWord (a : Attention) : Word :=
  BitVec.ofNat 16 (bit a.evicted + 2 * bit a.late + 4 * bit a.convert + 8 * bit a.expired + 16 * bit a.fetchFault)

/-- Each flag written as one is cleared, the others stand, and bits outside the five are ignored (R20). -/
def Attention.clear (a : Attention) (w : Word) : Attention :=
  { evicted := a.evicted && !w.getLsbD 0
    late := a.late && !w.getLsbD 1
    convert := a.convert && !w.getLsbD 2
    expired := a.expired && !w.getLsbD 3
    fetchFault := a.fetchFault && !w.getLsbD 4 }

/-- The flags set in both of two (R150, log 16). -/
def Attention.meet (a b : Attention) : Attention :=
  { evicted := a.evicted && b.evicted, late := a.late && b.late, convert := a.convert && b.convert,
    expired := a.expired && b.expired, fetchFault := a.fetchFault && b.fetchFault }

/-- Whether some flag is set in `new` and clear in `old` (R19, R171). -/
def Attention.newlySet (old new : Attention) : Bool :=
  (new.evicted && !old.evicted) || (new.late && !old.late) || (new.convert && !old.convert)
    || (new.expired && !old.expired) || (new.fetchFault && !old.fetchFault)

/-! ### Event bits -/

/-- Register window words 6 and 7 (R155). -/
def EventBits.toWord (e : EventBits) : Word :=
  BitVec.ofNat 16 (bit e.done + 2 * bit e.window + 4 * bit e.lock + 8 * bit e.timebase + 16 * bit e.guard
    + 32 * bit e.overrun + 64 * bit e.access)

/-- The bits 0 to 6 of a written word; bits 7 to 15 are ignored (R169). -/
def EventBits.ofWord (w : Word) : EventBits :=
  { done := w.getLsbD 0, window := w.getLsbD 1, lock := w.getLsbD 2, timebase := w.getLsbD 3,
    guard := w.getLsbD 4, overrun := w.getLsbD 5, access := w.getLsbD 6 }

/-- Each flag of `w` is cleared, the others stand (R169). -/
def EventBits.clear (e w : EventBits) : EventBits :=
  { done := e.done && !w.done, window := e.window && !w.window, lock := e.lock && !w.lock,
    timebase := e.timebase && !w.timebase, guard := e.guard && !w.guard,
    overrun := e.overrun && !w.overrun, access := e.access && !w.access }

/-- Whether a flag is set whose mask bit is also set (R170). -/
def EventBits.meets (e m : EventBits) : Bool :=
  (e.done && m.done) || (e.window && m.window) || (e.lock && m.lock) || (e.timebase && m.timebase)
    || (e.guard && m.guard) || (e.overrun && m.overrun) || (e.access && m.access)

/-- The interrupt line: asserted while IE is set and a flag is set under a set mask bit (R170). -/
def State.interruptLine (s : State) : Bool :=
  s.cmd.ie && s.events.meets s.mask

/-- Sets OVERRUN (R158). -/
def State.overrun (s : State) : State :=
  { s with events := { s.events with overrun := true } }

/-- Sets ACCESS (R161 to R164). -/
def State.refuseAccess (s : State) : State :=
  { s with events := { s.events with access := true } }

/-- Sets LOCK (R138). -/
def State.signalLock (s : State) : State :=
  { s with events := { s.events with lock := true } }

/-- Sets TIMEBASE (R146). -/
def State.signalTimebase (s : State) : State :=
  { s with events := { s.events with timebase := true } }

/-! ### Changes of records -/

/-- The record in a slot. -/
def State.slot (s : State) (i : SlotId) : Slot :=
  s.slots[i]

/-- Changes the record in one slot; an attention flag that goes from clear to set sets WINDOW (R171). -/
def State.modifySlot (s : State) (i : SlotId) (f : Slot → Slot) : State :=
  { s with
    slots := s.slots.set i (f (s.slot i))
    events := { s.events with
      window := s.events.window || (s.slot i).attention.newlySet (f (s.slot i)).attention } }

/-- Changes the records of all slots together; an attention flag that goes from clear to set sets WINDOW
(R171). -/
def State.mapSlots (s : State) (f : SlotId → Slot → Slot) : State :=
  { s with
    slots := Vector.ofFn (fun i => f i (s.slot i))
    events := { s.events with
      window := s.events.window
        || (List.finRange 24).any (fun i => (s.slot i).attention.newlySet (f i (s.slot i)).attention) } }

/-- An attention flag that is set after a field start's conversion and line is set in its marks too; WINDOW is then
raised there where the flag is newly set in the record or in the marks (R171, log 16). -/
def FieldMarks.raise (m : FieldMarks) (i : SlotId) (flag : AttentionFlag) (newly : Bool) : FieldMarks :=
  { records := m.records.set i { m.records[i] with attention := m.records[i].attention.set flag }
    window := m.window || newly || m.records[i].attention.newlySet (m.records[i].attention.set flag) }

/-- The marks of the latest field start take a flag that is set in a record (R171, log 16). -/
def State.markRaise (s : State) (i : SlotId) (flag : AttentionFlag) : State :=
  { s with marks := s.marks.map (fun m =>
      m.raise i flag ((s.slot i).attention.newlySet ((s.slot i).attention.set flag))) }

/-- Sets an attention flag of a record (R19). -/
def State.raise (s : State) (i : SlotId) (flag : AttentionFlag) : State :=
  (s.markRaise i flag).modifySlot i (fun r => { r with attention := r.attention.set flag })

/-- Register window word 8: the attention summary of slots 0 to 15, bit n for slot n (R21, R155). -/
def State.summaryLow (s : State) : Word :=
  BitVec.ofNat 16 (((List.finRange 24).filter (fun i => i.val < 16 && (s.slot i).attention.any)).foldl
    (fun a i => a + 2 ^ i.val) 0)

/-- Register window word 9: the attention summary of slots 16 to 23, bit n for slot 16 + n (R21, R155). -/
def State.summaryHigh (s : State) : Word :=
  BitVec.ofNat 16 (((List.finRange 24).filter (fun i => decide (16 ≤ i.val) && (s.slot i).attention.any)).foldl
    (fun a i => a + 2 ^ (i.val - 16)) 0)

end Sys2Proof.Machine
end

