-- ==== Sys2Proof/Machine/Ops.lean ====
section
/-! DEFINITION. The operations the command families share: freeing a record, the layer stack's two operations,
completing and taking commands, the general checks, the lock contexts' accessors. -/

namespace Sys2Proof.Machine

/-! ### Records and the stack -/

/-- The layer position of a slot: its place on the stack counted from 0 at the top, or none (R1, R44). -/
def State.layer (s : State) (i : SlotId) : Option Nat :=
  if i ∈ s.stack then some (s.stack.idxOf i) else none

/-- The record becomes FREE: the generation increases by one, modulo 16, the rest is discarded, and the slot is
not on the stack (R11, R44). -/
def State.freeRecord (s : State) (i : SlotId) : State :=
  { (s.modifySlot i (fun r => Slot.blank (r.gen + 1))) with stack := s.stack.erase i }

/-- Removal of an entry from the stack; the record takes the state its cause gives (R43, R44). -/
def State.leaveStack (s : State) (i : SlotId) (x : RecState) : State :=
  { (s.modifySlot i (fun r => { r with state := x })) with stack := s.stack.erase i }

/-- Insertion at the top of the stack; the record becomes ON AIR (R43, R44). -/
def State.enterStack (s : State) (i : SlotId) : State :=
  { (s.modifySlot i (fun r => { r with state := .onAir })) with stack := i :: s.stack.erase i }

/-- Removal of every entry at once, each to STANDBY (R48, R53). -/
def State.liftAll (s : State) : State :=
  { (s.mapSlots (fun i r => if i ∈ s.stack then { r with state := .standby } else r)) with stack := [] }

/-- A new DRAFT record with a staging copy, in a slot that was FREE (R13, R14, R77). -/
def Slot.drafted (r : Slot) (staging : Copy) : Slot :=
  { Slot.blank r.gen with
    state := .draft
    staging := staging
    geometry := { Geometry.none with
      left := Config.indefinite, right := Config.indefinite, top := Config.indefinite,
      bottom := Config.indefinite } }

/-- The lowest-numbered FREE slot (R13, R14). -/
def State.lowestFree (s : State) : Option SlotId :=
  (List.finRange 24).find? (fun i => decide ((s.slot i).state = .free))

/-- The handle of the record now in a slot (R13). -/
def State.handleAt (s : State) (i : SlotId) : Word :=
  handleOf i (s.slot i).gen

/-- The handle's slot is not FREE and its generation is the slot's current one (R12). -/
def State.live (s : State) (i : SlotId) (g : Generation) : Bool :=
  decide ((s.slot i).state ≠ .free) && decide ((s.slot i).gen = g)

/-- A record's pending publication is cancelled: indicator, countdown and lock (R31, R40). -/
def State.cancelPending (s : State) (i : SlotId) : State :=
  s.modifySlot i (fun r => { r with pending := none })

/-! ### Taking and completing commands -/

/-- Completion: result words, completion code, READY and DONE together (R158). -/
def State.complete (s : State) (code : Completion) (r0 r1 : Word) : State :=
  { s with
    cmd := { s.cmd with ready := true, completion := code, result0 := r0, result1 := r1 }
    events := { s.events with done := true } }

/-- Completion with both result words at 0 (R160 and the refusals of each chapter). -/
def State.completeZero (s : State) (code : Completion) : State :=
  s.complete code 0#16 0#16

/-- Taking a command: the function field and IE take the written values, READY becomes clear (R157), the air
guard's count is reset and the guard-expired indicator cleared (R56). -/
def State.take (s : State) (code : BitVec 5) (ie : Bool) : State :=
  { s with
    cmd := { s.cmd with func := code, ie := ie, ready := false }
    guard := { s.guard with count := 0, expired := false } }

/-- A write of READY 0 to the command word: ignored while the computer's reset line is asserted (R167), an
overrun while READY is clear (R158), else the command is taken and has its effect (R157). -/
def State.command (s : State) (code : BitVec 5) (ie : Bool) (effect : State → State) : State :=
  if s.resetLine then s
  else if s.cmd.ready then effect (s.take code ie)
  else s.overrun

/-- The general checks of a command whose only argument is a handle in ARG0 (R12, R160). -/
def State.withHandle (s : State) (k : SlotId → Generation → State → State) : State :=
  match parseHandle s.cmd.arg0 with
  | none => s.completeZero .badArgument
  | some (i, g) => if s.live i g then k i g s else s.completeZero .staleHandle

/-! ### Lock contexts -/

/-- The lock context of an input (R125). -/
def State.ctx (s : State) : Input → LockContext
  | .feedA => s.feedA
  | .feedB => s.feedB

/-- Replaces the lock context of an input. -/
def State.setCtx (s : State) (x : Input) (c : LockContext) : State :=
  match x with
  | .feedA => { s with feedA := c }
  | .feedB => { s with feedB := c }

/-- The lock context of the program input (R137). -/
def State.programCtx (s : State) : LockContext :=
  s.ctx s.tb.program

/-- The predicted next line start: the reference plus the measured line period (R132). -/
def LockContext.predicted (c : LockContext) : Option Nat :=
  match c.reference, c.period with
  | some t, some p => some (t + p)
  | _, _ => none

/-- The line structure a context counts by: its standard, or 625 while it is unknown (R127). -/
def LockContext.lineStandard (c : LockContext) : Standard :=
  c.standard.getD .lines625

/-- The expected line count of the context's field (R126). -/
def LockContext.expected (c : LockContext) : Nat :=
  c.lineStandard.fieldLines c.parity

end Sys2Proof.Machine
end

