-- ==== Sys2Proof/Machine/Conversion.lean ====
section
/-! DEFINITION. Position conversion (chapter 5): rounding, range policies, CONVERT, SET GEOMETRY, and the
placement of the computer's pixels. -/

namespace Sys2Proof.Machine

/-- The exact horizontal position of a title coordinate, in 64ths of a sample: a x S / 64 + T + h (R80). -/
def exact64 (v : Latched) (a : Int) : Int :=
  a * v.scale + 64 * (v.trim + v.h)

/-- A position in 64ths taken to a whole sample under a rounding mode (R81). -/
def roundSample (mode : Rounding) (x : Int) : Int :=
  match mode with
  | .nearest =>
    if x % 64 < 32 then x / 64
    else if 32 < x % 64 then x / 64 + 1
    else if x / 64 % 2 = 0 then x / 64
    else x / 64 + 1
  | .truncate => if x < 0 ∧ x % 64 ≠ 0 then x / 64 + 1 else x / 64
  | .floor => x / 64
  | .ceiling => if x % 64 = 0 then x / 64 else x / 64 + 1

/-- The rounded edge of an active coordinate (R80). -/
def roundedEdge (c : Copy) (v : Latched) (a : Int) : Int :=
  roundSample c.rounding (exact64 v a)

/-- A range limited to lo..hi. -/
def clampTo (lo hi x : Int) : Int :=
  if x < lo then lo else if hi < x then hi else x

/-- The window lies wholly outside the raster (R84). -/
def wholly (l r t b last : Int) : Bool :=
  decide (r < 0) || decide (Config.lastSample < l) || decide (b < 0) || decide (last < t)

/-- The window leaves the raster at some edge (R85). -/
def partly (l r t b last : Int) : Bool :=
  decide (l < 0) || decide (Config.lastSample < r) || decide (t < 0) || decide (last < b)

/-- The derived words are indefinite (R84, R85). -/
def offRaster (strict : Bool) (l r t b last : Int) : Bool :=
  if strict then partly l r t b last else wholly l r t b last

/-- The derived geometry of an active copy under the latched values (R80 to R86). -/
def derive (c : Copy) (v : Latched) : Geometry :=
  let l := roundedEdge c v c.left
  let r := roundedEdge c v c.right
  let t := c.top + v.v
  let b := c.bottom + v.v
  let last : Int := v.standard.pictureLines - 1
  if offRaster c.strict l r t b last then
    { left := Config.indefinite, right := Config.indefinite, top := Config.indefinite,
      bottom := Config.indefinite, maskOrigin := l, rowBase := t, offRaster := true }
  else
    { left := clampTo 0 Config.lastSample l, right := clampTo 0 Config.lastSample r,
      top := clampTo 0 last t, bottom := clampTo 0 last b, maskOrigin := l, rowBase := t,
      offRaster := false }

/-- The record is converted at field starts: STANDBY, ON AIR or FAULTED (R9, R78). -/
def RecState.converted : RecState → Bool
  | .free => false
  | .draft => false
  | .standby => true
  | .onAir => true
  | .faulted => true

/-- CONVERT is set at a conversion: STRICT, indefinite now and not before, QUIET clear (R87). -/
def convertRaised (c : Copy) (before after : Geometry) : Bool :=
  c.strict && after.offRaster && !before.offRaster && !c.quiet

/-- The conversion of a record (R78, R86, R87). -/
def Slot.convert (r : Slot) (v : Latched) : Slot :=
  match r.active with
  | none => r
  | some c =>
    if r.state.converted then
      { r with
        geometry := derive c v
        attention := if convertRaised c r.geometry (derive c v) then r.attention.set .convert else r.attention }
    else r

/-- The Position Converter's work at a field start, with the values just latched (R78, R79). -/
def State.convertStep (s : State) : State :=
  s.mapSlots (fun _ r => r.convert s.tb.latched)

/-! ### The computer's pixels on the raster -/

/-- The boundary sample of computer pixel boundary p, 0..640 (R90). -/
def pixelBoundary (v : Latched) (p : Nat) : Int :=
  (p * v.scale / 64 : Nat) + v.trim + v.h

/-- The computer pixel, 0..639, whose span contains a sample, if there is one (R90, R94). -/
def pixelAt (v : Latched) (sample : Int) : Option Nat :=
  (List.range 640).find? (fun p => decide (pixelBoundary v p ≤ sample) && decide (sample < pixelBoundary v (p + 1)))

/-- The title line of a picture line, if it lies in 0..287 (R94). -/
def titleLineAt (v : Latched) (line : Int) : Option Nat :=
  if 0 ≤ line - v.v ∧ line - v.v ≤ 287 then some (line - v.v).toNat else none

/-! ### SET GEOMETRY -/

/-- SET GEOMETRY(scale, trim): the set values are replaced and the previous ones returned (R89). -/
def setGeometryEffect (s : State) : State :=
  if s.cmd.arg0.toNat < 64 ∨ 128 < s.cmd.arg0.toNat ∨ s.cmd.arg1.toInt < -32 ∨ 31 < s.cmd.arg1.toInt then
    s.completeZero .badArgument
  else
    { s with tb := { s.tb with setScale := s.cmd.arg0.toNat, setTrim := s.cmd.arg1.toInt } }.complete .ok
      (BitVec.ofNat 16 s.tb.setScale) (BitVec.ofInt 16 s.tb.setTrim)

/-- SET GEOMETRY (R89). -/
def execSetGeometry (ie : Bool) (s : State) : Result := .next (s.command 13#5 ie setGeometryEffect)

end Sys2Proof.Machine
end

