-- ==== Sys2Proof/Machine/Counters.lean ====
section
/-! DEFINITION. The Window Counters (chapter 4): lifetime, blink, fade and crawl of the windows on air, and the
removal of the windows whose lifetime expired. -/

namespace Sys2Proof.Machine

/-- The mix level after one fade step toward the target (R72). -/
def fadeStep (m t k : Nat) : Nat :=
  if k = 0 then m
  else if m = t then m
  else if m < t then min (m + k) t
  else max (m - k) t

/-- The lifetime count of a counted record: remaining lifetime and blink phase (R65, R69, R70). -/
def countLifetime (c : Copy) (n : Counters) : Counters :=
  if n.lifetime = 0 then n
  else if n.lifetime = 1 then
    if c.blink then
      if c.blinkReload = 0 then { n with lifetime := 0, hidden := true }
      else { n with lifetime := c.blinkReload, hidden := !n.hidden }
    else { n with lifetime := 0 }
  else { n with lifetime := n.lifetime - 1 }

/-- The advance of a crawl keeps both edges within the title range (R73). -/
def crawlFits (c : Copy) : Bool :=
  inTitleRange (c.left + c.crawlStep) && inTitleRange (c.right + c.crawlStep)

/-- The active copy after an advance of both edges by the crawl step (R73). -/
def Copy.crawled (c : Copy) : Copy :=
  (c.set 2 (BitVec.ofInt 16 (c.left + c.crawlStep))).set 3 (BitVec.ofInt 16 (c.right + c.crawlStep))

/-- The crawl of a counted record: the active copy and the crawl-halted indicator (R73, R74). -/
def countCrawl (c : Copy) (halted : Bool) : Copy × Bool :=
  if c.crawlStep = 0 ∨ halted then (c, halted)
  else if crawlFits c then (c.crawled, false)
  else (c, true)

/-- The record is counted at a field start: ON AIR as it arrives and not adopted there (R63). -/
def Slot.counted (r : Slot) : Bool :=
  decide (r.state = .onAir) && decide (r.pending ≠ some 0)

/-- The record expires at a field start: counted, in ONCE, with a remaining lifetime of 1 (R65, R66, R67). -/
def Slot.expires (r : Slot) : Bool :=
  match r.active with
  | none => false
  | some c => r.counted && decide (r.counters.lifetime = 1) && !c.blink

/-- The lifetime count, the fade and the crawl of a counted record together, and EXPIRED where it expires
(R64, R66, R67). -/
def Slot.count (r : Slot) : Slot :=
  match r.active with
  | none => r
  | some c =>
    if r.counted then
      { r with
        active := some (countCrawl c r.counters.halted).1
        counters :=
          { countLifetime c r.counters with
            mix := fadeStep r.counters.mix c.fadeTarget c.fadeStep
            halted := (countCrawl c r.counters.halted).2 }
        attention := if r.expires then r.attention.set .expired else r.attention }
    else r

/-- The slots whose windows expire at a field start (R64). -/
def State.expiring (s : State) : List SlotId :=
  (List.finRange 24).filter (fun i => (s.slot i).expires)

/-- The Window Counters' work at a field start (R63, R64). -/
def State.countStep (s : State) : State :=
  s.mapSlots (fun _ r => r.count)

/-- The removal of an expired window: FREE with AUTO-RETIRE, else STANDBY (R47, R66, R67). -/
def State.removeExpired (s : State) (i : SlotId) : State :=
  if ((s.slot i).active.map Copy.autoRetire).getD false then s.freeRecord i
  else s.leaveStack i .standby

/-- One record's lifetime count alone, with its EXPIRED flag: the lifetime part of R64. -/
def Slot.countLifetimeOnly (r : Slot) : Slot :=
  match r.active with
  | none => r
  | some c =>
    { r with
      counters := countLifetime c r.counters
      attention := if r.expires then r.attention.set .expired else r.attention }

/-- The record is counted, in BLINK, with a remaining lifetime of 1 (R69, R70). -/
def Slot.blinks (r : Slot) : Bool :=
  match r.active with
  | none => false
  | some c => r.counted && decide (r.counters.lifetime = 1) && c.blink

/-- Whether the active copy has AUTO-RETIRE (R67). -/
def Slot.autoRetires (r : Slot) : Bool :=
  (r.active.map Copy.autoRetire).getD false

/-- The active blink reload, 0 where there is no active copy (R69). -/
def Slot.blinkReload (r : Slot) : Nat :=
  (r.active.map Copy.blinkReload).getD 0

/-- LIFETIME_EXPIRY: a ONCE window without AUTO-RETIRE whose count reaches 0 sets EXPIRED and is removed to
STANDBY (R66). -/
def execLifetimeExpiry (i : SlotId) (s : State) : Result :=
  if (s.slot i).expires ∧ ¬ (s.slot i).autoRetires then
    .next (((s.markRaise i .expired).modifySlot i Slot.countLifetimeOnly).leaveStack i .standby)
  else .next s

/-- EXPIRY_AUTO_RETIRE: a ONCE window with AUTO-RETIRE whose count reaches 0 sets EXPIRED, is removed and
becomes FREE (R67). -/
def execExpiryAutoRetire (i : SlotId) (s : State) : Result :=
  if (s.slot i).expires ∧ (s.slot i).autoRetires then
    .next (((s.markRaise i .expired).modifySlot i Slot.countLifetimeOnly).freeRecord i)
  else .next s

/-- BLINK_TOGGLE: a BLINK window whose count reaches 0 with a reload toggles its phase and reloads (R69). -/
def execBlinkToggle (i : SlotId) (s : State) : Result :=
  if (s.slot i).blinks ∧ (s.slot i).blinkReload ≠ 0 then
    .next (s.modifySlot i Slot.countLifetimeOnly)
  else .next s

/-- BLINK_HIDE: a BLINK window whose count reaches 0 with a reload of 0 goes hidden (R70). -/
def execBlinkHide (i : SlotId) (s : State) : Result :=
  if (s.slot i).blinks ∧ (s.slot i).blinkReload = 0 then
    .next (s.modifySlot i Slot.countLifetimeOnly)
  else .next s

end Sys2Proof.Machine
end

