-- ==== Sys2Proof/Machine/Access.lean ====
section
/-! DEFINITION. The record words as the Access Port reads and writes them (R6 to R8, R161 to R163). -/

namespace Sys2Proof.Machine

/-- Live word 16: state, pending indicator, countdown, layer position and on-stack bit (R6, R156). -/
def State.statusWord (s : State) (i : SlotId) : Word :=
  BitVec.ofNat 16 ((s.slot i).state.code + 8 * bit (s.slot i).pending.isSome
    + 16 * ((s.slot i).pending.getD 0 % 256)
    + (match s.layer i with | some p => 4096 * (p % 8) + 32768 | none => 0))

/-- Live word 22: current mix level, blink phase and crawl-halted indicator (R8, R156). -/
def Counters.toWord (n : Counters) : Word :=
  BitVec.ofNat 16 (n.mix % 64 + 256 * bit n.hidden + 512 * bit n.halted)

/-- A record word, 0 to 23, as a read returns it: 0 in a FREE slot, the staging copy in words 0 to 15, the live
words in words 16 to 23 (R162). -/
def State.recordWord (s : State) (i : SlotId) (w : Fin 24) : Word :=
  if (s.slot i).state = .free then 0#16
  else if h : w.val < 16 then (s.slot i).staging[w.val]
  else
    match w.val with
    | 16 => s.statusWord i
    | 17 => (s.slot i).attention.toWord
    | 18 => BitVec.ofInt 16 (s.slot i).geometry.left
    | 19 => BitVec.ofInt 16 (s.slot i).geometry.right
    | 20 => BitVec.ofInt 16 (s.slot i).geometry.top
    | 21 => BitVec.ofInt 16 (s.slot i).geometry.bottom
    | 22 => (s.slot i).counters.toWord
    | _ => BitVec.ofNat 16 (s.slot i).counters.lifetime

/-- The record word at the access pointer (R162). -/
def State.pointedWord (s : State) : Word :=
  s.recordWord s.port.pointer.slot s.port.pointer.word

/-- The access pointer steps after an accepted access (R161). -/
def State.stepPointer (s : State) : State :=
  { s with port := { s.port with pointer := s.port.pointer.step } }

/-- A write of a record word through the pointer, where it is accepted: an unlocked staging word takes the value,
live word 17 clears flags, and the pointer steps; none where it is refused (R163, R20, R30). -/
def State.writePointed (s : State) (value : Word) : Option State :=
  let i := s.port.pointer.slot
  let w := s.port.pointer.word
  if h : w.val < 16 then
    if (s.slot i).state = .free ∨ (s.slot i).pending.isSome then none
    else some (s.modifySlot i (fun r => { r with staging := r.staging.set w.val value })).stepPointer
  else if w.val = 17 then
    some (s.modifySlot i (fun r => { r with attention := r.attention.clear value })).stepPointer
  else none

end Sys2Proof.Machine
end

