-- ==== Sys2Proof/Machine/Keying.lean ====
section
/-! DEFINITION. Keying and composition (chapter 6): the raster line in progress, the line snapshot, which
windows contribute, the key tests and the mix, and the cut-blanking count. -/

namespace Sys2Proof.Machine

/-! ### The program raster's lines -/

/-- The program input's flywheel gives the raster's boundaries and line starts: LOCKED or HOLDOVER (R95). -/
def LockContext.flywheels (c : LockContext) : Bool :=
  decide (c.lock = .locked) || decide (c.lock = .holdover)

/-- The Keyer has begun the line of the timebase's own structure beside a computer line that starts at a sample, or a
later one (R96). -/
def Keyer.begunOwn (k : Keyer) (at_ : Int) : Bool :=
  match k.snapshot with
  | none => false
  | some snap =>
    match snap.ownAt with
    | none => false
    | some c => decide (at_ ≤ c)

/-- The line of the timebase's own structure in progress: the sample at which it began and its place counted from v
lines before the latest field start (R95). Each of its lines starts h samples before a computer line; a line that the
Keyer has begun stays begun where a field start then latches an h that would start it later (DESIGN CHOICE, log 34). -/
def State.ownLine (s : State) : Int × Int :=
  let here : Int := s.tb.lineStartAt - s.tb.latched.h
  let place : Int := s.tb.linesRun + s.tb.latched.v
  if here + s.tb.lineLength ≤ s.now ∨ s.keyer.begunOwn (s.tb.lineStartAt + s.tb.lineLength) then
    (here + s.tb.lineLength, place + 1)
  else if here ≤ s.now ∨ s.keyer.begunOwn s.tb.lineStartAt then (here, place)
  else (s.tb.previousLineAt - s.tb.latched.h, place - 1)

/-- The number of a line of the timebase's own structure within its field, and that field's line count, from its place
(R95). Each field's boundary lies v lines before a field start: while v is negative the lines before it belong to the
field before, which is as long as the computer's field before; while v is positive the next field's boundary comes v
lines before the computer's field in progress ends. -/
def Timebase.ownNumber (t : Timebase) (place : Int) : Int × Nat :=
  let lines := max (t.standard.fieldLines t.parity) (t.linesRun + 1)
  if place < 0 then (place + t.lastField, t.lastField)
  else if lines ≤ place then (place - lines, t.standard.fieldLines t.parity.other)
  else (place, lines)

/-- The raster line in progress: the sample at which it began, its number within its field and that field's line count
(R95): by the program input's flywheel in LOCKED and HOLDOVER, else by the timebase's own structure. -/
def State.rasterLine (s : State) : Int × Nat × Nat :=
  if s.programCtx.flywheels then
    ((s.programCtx.reference.getD s.now : Nat), s.programCtx.line, s.programCtx.expected)
  else
    (s.ownLine.1, (s.tb.ownNumber s.ownLine.2).1.toNat, (s.tb.ownNumber s.ownLine.2).2)

/-- The Keyer has not yet begun the raster line in progress (R96). Lines of the timebase's own structure are told
apart by the computer lines beside them, whatever h a field start latches between (DESIGN CHOICE, log 34). Where the
raster changes between the flywheel's lines and the timebase's own, or to another input's, the line in progress under
the new structure has not begun if it started after the line last begun did (DESIGN CHOICE, log 32). -/
def State.lineFresh (s : State) : Bool :=
  match s.keyer.snapshot with
  | none => true
  | some snap =>
    match s.programCtx.flywheels, snap.ownAt with
    | false, some c => decide (c < s.ownLine.1 + s.tb.latched.h)
    | _, _ => decide (snap.beganAt < s.rasterLine.1)

/-- The active sample that the line of a snapshot has reached (R95). -/
def Snapshot.samplePosition (snap : Snapshot) (now : Nat) : Int :=
  now - snap.beganAt - snap.latched.standard.activeStart

/-! ### The snapshot (R96) -/

/-- The snapshot's entry for a window of the stack. -/
def State.snapEntry (s : State) (line : Nat) (i : SlotId) (c : Copy) : SnapEntry :=
  let r := s.slot i
  { slot := i, mode := c.keyMode, keyValue := c.keyValue, holdOff := c.holdOff, mix := r.counters.mix,
    hidden := r.counters.hidden, left := r.geometry.left, right := r.geometry.right, top := r.geometry.top,
    bottom := r.geometry.bottom, maskOrigin := r.geometry.maskOrigin, rowBase := r.geometry.rowBase,
    wordsPerLine := c.maskWords,
    described := decide (s.engine.openLine = some line)
      && s.engine.descs.any (fun d => decide (d.slot = i) && decide (d.condition = .opened)),
    taken := [], abandonedFrom := none }

/-- The snapshot the Keyer takes as a picture line begins (R96). -/
def State.takeSnapshot (s : State) (line : Nat) : Snapshot :=
  { line := line
    beganAt := s.rasterLine.1
    ownAt := if s.programCtx.flywheels then none else some (s.ownLine.1 + s.tb.latched.h)
    entries := s.stack.filterMap (fun i => (s.slot i).active.map (s.snapEntry line i))
    follow := decide (s.tb.state = .follow)
    blanked := decide (s.keyer.cutBlanking ≠ 0)
    program := s.tb.program
    noSignal := decide (s.programCtx.lock = .noSignal)
    latched := s.tb.latched }

/-- The entry of a slot is changed, in a snapshot. -/
def Snapshot.modifyEntry (snap : Snapshot) (i : SlotId) (f : SnapEntry → SnapEntry) : Snapshot :=
  { snap with entries := snap.entries.map (fun e => if e.slot = i then f e else e) }

/-- The entry is abandoned from a sample on, or from an earlier one at which it already was (R104, R105). -/
def SnapEntry.abandon (e : SnapEntry) (sample : Int) : SnapEntry :=
  { e with abandonedFrom := some (match e.abandonedFrom with | none => sample | some x => min x sample) }

/-- A window's entry in the line in progress is abandoned from a sample on. -/
def State.abandonEntry (s : State) (i : SlotId) (sample : Int) : State :=
  { s with keyer := { s.keyer with
      snapshot := s.keyer.snapshot.map (fun snap => snap.modifyEntry i (fun e => e.abandon sample)) } }

/-- The sample the line in progress has reached, 0 while no line has begun. -/
def State.samplePosition (s : State) : Int :=
  (s.keyer.snapshot.map (fun snap => snap.samplePosition s.now)).getD 0

/-! ### Composition (R93 to R101, R103) -/

/-- A computer pixel as the pixel port delivers it (R93). -/
structure Pixel where
  red : BitVec 4
  green : BitVec 4
  blue : BitVec 4
  index : BitVec 8
  deriving DecidableEq, Repr

/-- Three components, each 0..255 (R95, R98). -/
structure Colour where
  red : Int
  green : Int
  blue : Int
  deriving DecidableEq, Repr

/-- The pixel used where no computer pixel exists: black, index 0 (R94). -/
def Pixel.black : Pixel := { red := 0#4, green := 0#4, blue := 0#4, index := 0#8 }

/-- Black (R95). -/
def Colour.black : Colour := { red := 0, green := 0, blue := 0 }

/-- The source colour: each component times 17 (R93). -/
def Pixel.source (p : Pixel) : Colour :=
  { red := p.red.toNat * 17, green := p.green.toNat * 17, blue := p.blue.toNat * 17 }

/-- The luma of a pixel (R93). -/
def Pixel.luma (p : Pixel) : Nat :=
  (77 * p.red.toNat + 150 * p.green.toNat + 29 * p.blue.toNat) * 17 / 256

/-- The mask bit of an entry at a sample, from the words taken for it on the line (R103). A word that has not been
taken reads 0: so do the bits that a field start leaves untaken on the line in progress (DESIGN CHOICE, log 33). -/
def SnapEntry.maskBit (e : SnapEntry) (sample : Int) : Bool :=
  let i := sample - e.maskOrigin
  if i < 0 ∨ 16 * (e.wordsPerLine : Int) ≤ i then false
  else
    match e.taken.find? (fun t => decide ((t.1 : Int) = i / 16)) with
    | none => false
    | some t => t.2.getLsbD (15 - (i % 16).toNat)

/-- The entry contributes at a sample of the snapshot's line (R97, R102). -/
def Snapshot.contributes (snap : Snapshot) (e : SnapEntry) (sample : Int) : Bool :=
  decide (e.left ≠ Config.indefinite)
    && decide (e.top ≤ snap.line) && decide (snap.line ≤ e.bottom)
    && decide (e.left ≤ sample) && decide (sample ≤ e.right)
    && !e.hidden
    && (!e.holdOff || snap.follow)
    && (match e.abandonedFrom with | none => true | some x => decide (sample < x))
    && !snap.blanked
    && (decide (e.mode ≠ .mask) || e.described)

/-- The key test of an entry at a sample (R99, R100, R101, R103). -/
def SnapEntry.passes (e : SnapEntry) (p : Pixel) (sample : Int) : Bool :=
  match e.mode with
  | .luma => decide (e.keyValue ≤ p.luma)
  | .colour => decide (p.index.toNat ≠ e.keyValue)
  | .mask => e.maskBit sample
  | .matte => true

/-- The source of an entry: the pixel's source colour, or for MATTE the grey of the key value (R98, R101). -/
def SnapEntry.source (e : SnapEntry) (p : Pixel) : Colour :=
  match e.mode with
  | .matte => { red := e.keyValue, green := e.keyValue, blue := e.keyValue }
  | .luma => p.source
  | .colour => p.source
  | .mask => p.source

/-- One component moved toward its source by the mix level; the quotient is truncated toward zero (R98). -/
def mixComponent (x c : Int) (m : Nat) : Int :=
  x + Int.tdiv ((c - x) * m) 63

/-- All three components mixed (R98). -/
def Colour.mix (x c : Colour) (m : Nat) : Colour :=
  { red := mixComponent x.red c.red m, green := mixComponent x.green c.green m,
    blue := mixComponent x.blue c.blue m }

/-- One entry laid over the running result (R98). -/
def Snapshot.lay (snap : Snapshot) (p : Pixel) (sample : Int) (e : SnapEntry) (x : Colour) : Colour :=
  if snap.contributes e sample && e.passes p sample then x.mix (e.source p) e.mix else x

/-- The base value of a point: the picture that the line's program input carries there, or black in NO SIGNAL (R95). -/
def Snapshot.base (snap : Snapshot) (picture : Input → Colour) : Colour :=
  if snap.noSignal then Colour.black else picture snap.program

/-- The value of a point from its base and its pixel, composed from the bottom entry to the top (R98). -/
def Snapshot.compose (snap : Snapshot) (base : Colour) (p : Pixel) (sample : Int) : Colour :=
  snap.entries.foldr (snap.lay p sample) base

/-- The computer pixel used at a sample of the line (R94); `frame` gives the pixel the computer delivers for a
title line and a pixel number. -/
def Snapshot.pixel (snap : Snapshot) (frame : Nat → Nat → Pixel) (sample : Int) : Pixel :=
  match titleLineAt snap.latched snap.line, pixelAt snap.latched sample with
  | some t, some p => frame t p
  | _, _ => Pixel.black

/-- The keyed output at an active sample of the line in progress (R95, R98); `picture` is what each input carries
there. -/
def Snapshot.keyedOutput (snap : Snapshot) (frame : Nat → Nat → Pixel) (picture : Input → Colour) (sample : Int) :
    Colour :=
  snap.compose (snap.base picture) (snap.pixel frame sample) sample

/-! ### The output pin (R95) -/

/-- What the keyed output carries at a moment: the value composed at an active point, the signal of an input as
received, or the timing of the Program Timebase with black picture (R95). -/
inductive KeyedSignal where
  | composed (value : Colour)
  | received (x : Input)
  | timebaseBlack
  deriving DecidableEq, Repr

/-- The active point that the raster has reached: the line in progress, where it is a picture line, and its active
sample (R95). -/
def State.activePoint (s : State) : Option (Snapshot × Int) :=
  match s.keyer.snapshot with
  | none => none
  | some snap =>
    let sample := snap.samplePosition s.now
    if s.lineFresh = false ∧ snap.line < snap.latched.standard.pictureLines ∧ 0 ≤ sample
        ∧ sample ≤ Config.lastSample then
      some (snap, sample)
    else none

/-- The keyed output now, once the timed events due now are done: the active point composed; outside the active points
the program input as received, or in NO SIGNAL the timebase's timing with black picture (R95). There the program input
and its lock state are those that stand now (DESIGN CHOICE, log 41). -/
def State.keyedSignal (s : State) (frame : Nat → Nat → Pixel) (picture : Input → Colour) : KeyedSignal :=
  match s.activePoint with
  | some (snap, sample) => .composed (snap.keyedOutput frame picture sample)
  | none => if s.programCtx.lock = .noSignal then .timebaseBlack else .received s.tb.program

/-! ### Cut blanking -/

/-- The cut-blanking count at a field start: 2 at a CUT's own field start, else decreased toward 0 (R106). -/
def State.blankingStep (s : State) (cut : Bool) : State :=
  { s with keyer := { s.keyer with
      cutBlanking := if cut then Config.cutBlankingFields else s.keyer.cutBlanking - 1 } }

end Sys2Proof.Machine
end

