-- ==== Sys2Proof/Machine/Fetch.lean ====
section
/-! DEFINITION. The Mask Fetch Engine (chapter 7): opening lines, descriptors, take order, the silo, the channel
and its arbiter; LINE_BEGIN, TAKING_POINT, BUS_GRANT and MASK_READ_ANSWER; fetch faults. -/

namespace Sys2Proof.Machine

/-! ### Needed words and addresses -/

/-- The needed words of a window on a line, in ascending order: those in 0..w-1 of which a bit falls within the
derived extent (R103). -/
def neededWords (origin left right : Int) (w : Nat) : List Nat :=
  (List.range w).filter (fun k =>
    decide (16 * (k : Int) ≤ right - origin) && decide (left - origin ≤ 16 * (k : Int) + 15))

/-- The taking point of a needed word: the first sample of the window at which a bit of it is tested (R103). -/
def takingPoint (origin left : Int) (k : Nat) : Int :=
  max left (origin + 16 * k)

/-- The position in memory of word 0 of a mask row (R114). -/
def rowPosition (c : Copy) (row : Int) : Position :=
  BitVec.ofInt 24 (c.maskStart + c.maskStride * row)

/-- The position of word k of a descriptor's row (R114). -/
def Descriptor.address (d : Descriptor) (k : Nat) : Position :=
  d.rowAddress + BitVec.ofNat 24 k

/-! ### Opening a line (R110 to R112) -/

/-- The window is a MASK window drawn on a picture line (R111). -/
def State.drawnMask (s : State) (line : Nat) (i : SlotId) : Bool :=
  let r := s.slot i
  match r.active with
  | none => false
  | some c =>
    decide (c.keyMode = .mask) && !r.counters.hidden
      && (!c.holdOff || decide (s.tb.state = .follow))
      && decide (r.geometry.left ≠ Config.indefinite)
      && decide (r.geometry.top ≤ line) && decide ((line : Int) ≤ r.geometry.bottom)
      && decide (s.keyer.cutBlanking = 0)

/-- Inserts a window before the first of greater mask origin; a window of equal mask origin that stands higher
on the stack stays ahead (R111). -/
def insertByOrigin (origin : SlotId → Int) (i : SlotId) : List SlotId → List SlotId
  | [] => [i]
  | j :: rest => if origin i ≤ origin j then i :: j :: rest else j :: insertByOrigin origin i rest

/-- The need order of the MASK windows drawn on a line: ascending mask origin, then stack position, top first
(R111). -/
def State.needOrder (s : State) (line : Nat) : List SlotId :=
  (s.stack.filter (s.drawnMask line)).foldr
    (insertByOrigin (fun i => (s.slot i).geometry.maskOrigin)) []

/-- The descriptor of a window on a line (R111). -/
def Slot.descriptor (r : Slot) (i : SlotId) (line : Nat) (c : Copy) : Descriptor :=
  let row := (line : Int) - r.geometry.rowBase
  let words := neededWords r.geometry.maskOrigin r.geometry.left r.geometry.right c.maskWords
  { slot := i, gen := r.gen, row := row, rowAddress := rowPosition c row, origin := r.geometry.maskOrigin,
    left := r.geometry.left, right := r.geometry.right, toFetch := words, toTake := words,
    condition := .opened }

/-- The line descriptors of a line: the first four windows in need order (R111). -/
def State.buildDescs (s : State) (line : Nat) : List Descriptor :=
  ((s.needOrder line).take Config.descriptorPlaces).filterMap (fun i =>
    (s.slot i).active.map ((s.slot i).descriptor i line))

/-- A read in flight belongs to no open line any more (R116). -/
def Channel.closeLine : Channel → Channel
  | .maskRead line place k slot gen address _ since => .maskRead line place k slot gen address false since
  | .idle => .idle
  | .awaiting => .awaiting
  | .imageRead address since => .imageRead address since
  | .imageWrite address data since => .imageWrite address data since

/-- LATE is set on each of a list of windows (R112). -/
def State.raiseLate (s : State) (l : List SlotId) : State :=
  l.foldl (fun s i => s.raise i .late) s

/-- The engine opens a picture line: its descriptors are built and the windows fifth or later in need order are
LATE (R110 to R112). -/
def State.openLine (s : State) (line : Nat) : State :=
  { s with engine := { s.engine with
      openLine := some line
      drawn := false
      descs := s.buildDescs line
      channel := s.engine.channel.closeLine } }.raiseLate ((s.needOrder line).drop Config.descriptorPlaces)

/-! ### Take order (R113) -/

/-- The first word of each open descriptor's list, with its taking point and its place. -/
def heads (words : Descriptor → List Nat) : Nat → List Descriptor → List (Int × Nat × Nat)
  | _, [] => []
  | place, d :: rest =>
    match decide (d.condition = .opened), words d with
    | true, k :: _ => (Machine.takingPoint d.origin d.left k, place, k) :: heads words (place + 1) rest
    | _, _ => heads words (place + 1) rest

/-- The earliest in take order: ascending taking point, then need order (R113). -/
def earliest : List (Int × Nat × Nat) → Option (Int × Nat × Nat)
  | [] => none
  | a :: rest =>
    match earliest rest with
    | none => some a
    | some b => if a.1 ≤ b.1 then some a else some b

/-- The first owed word: needed, not yet presented, of an open descriptor (R113). -/
def Engine.owed (e : Engine) : Option (Int × Nat × Nat) :=
  if e.openLine.isSome then earliest (heads Descriptor.toFetch 0 e.descs) else none

/-- A descriptor place is changed. -/
def Engine.modifyDesc (e : Engine) (place : Nat) (f : Descriptor → Descriptor) : Engine :=
  { e with descs := e.descs.modify place f }

/-! ### The arbiter and the channel (R115, R121) -/

/-- What the arbiter may choose. -/
inductive Operation where
  | maskWord (place k : Nat)
  | imageWord (t : Transfer)
  deriving DecidableEq, Repr

/-- The arbiter's choice: an owed mask word if the silo has room for it, no operation if it has none, an image
word if no mask word is owed (R121, R109). -/
def State.nextOperation (s : State) : Option Operation :=
  match s.engine.owed with
  | some (_, place, k) =>
    if s.engine.silo.length + 1 ≤ Config.siloDepth then some (.maskWord place k) else none
  | none =>
    match s.port.transfer with
    | some t => if t.left = 0 then none else some (.imageWord t)
    | none => none

/-- The engine presents an operation's address on the bus it holds (R115); the value of an image write is taken
here (R165). -/
def State.present (s : State) : Operation → State
  | .maskWord place k =>
    match s.engine.descs[place]?, s.engine.openLine with
    | some d, some line =>
      { s with engine :=
        { s.engine.modifyDesc place (fun d => { d with toFetch := d.toFetch.tail }) with
          channel := .maskRead line place k d.slot d.gen (d.address k) true s.now } }
    | _, _ => { s with engine := { s.engine with channel := .idle } }
  | .imageWord t =>
    { s with engine := { s.engine with
        channel := if t.toMemory then .imageWrite t.position s.pointedWord s.now else .imageRead t.position s.now } }

/-- An operation has ended: the arbiter chooses the next, which is presented at once; if there is none the bus is
released and the channel is idle (R115). -/
def State.nextOnBus (s : State) : State :=
  match s.nextOperation with
  | some op => s.present op
  | none => { s with engine := { s.engine with channel := .idle } }

/-- With the channel idle and an operation ready the bus request is asserted; a request that awaits grant with no
operation left is withdrawn (R115, R121). -/
def State.arbitrate (s : State) : State :=
  match s.engine.channel with
  | .idle =>
    if s.nextOperation.isSome then { s with engine := { s.engine with channel := .awaiting } } else s
  | .awaiting =>
    if s.nextOperation.isSome then s else { s with engine := { s.engine with channel := .idle } }
  | _ => s

/-- The bus request pin: asserted unless the channel is idle (R108, R115). -/
def State.busRequest (s : State) : Bool :=
  decide (s.engine.channel ≠ .idle)

/-! ### Finishing a line (R109, R110) -/

/-- The descriptor a silo word was fetched for has been dropped (R109). -/
def Engine.dead (e : Engine) (w : SiloWord) : Bool :=
  match e.descs[w.place]? with
  | some d => decide (d.condition = .dropped)
  | none => false

/-- Words of dropped descriptors are removed from the silo's head (R109, R120). -/
def State.purge (s : State) : State :=
  { s with engine := { s.engine with silo := s.engine.silo.dropWhile s.engine.dead } }

/-- A read for an open descriptor of the open line is in flight (R110). -/
def Engine.readPending (e : Engine) : Bool :=
  match e.channel with
  | .maskRead _ place _ _ _ _ true _ =>
    match e.descs[place]? with
    | some d => decide (d.condition = .opened)
    | none => false
  | _ => false

/-- The open line, with no owed word, no read for an open descriptor in flight and no word in the silo, is finished
(R110). -/
def Engine.finished (e : Engine) : Bool :=
  decide (e.owed = none) && !e.readPending && decide (e.silo = [])

/-- The Keyer is drawing the open line: it has begun since the engine opened it, and the raster line last begun has not
ended (R104, R108). -/
def State.drawing (s : State) : Bool :=
  s.engine.drawn && !s.lineFresh

/-- The line to open next, when the open line is finished and is not the last (R110). -/
def State.lineAfter (s : State) : Option Nat :=
  match s.engine.openLine with
  | none => none
  | some l =>
    if l + 1 < s.tb.latched.standard.pictureLines ∧ s.engine.finished then some (l + 1) else none

/-- At a taking, purge or abandonment: the next line is opened where the open line is finished (R110). -/
def State.advanceLine (s : State) : State :=
  match s.lineAfter with
  | some l => s.openLine l
  | none => s

/-! ### Events of the engine -/

/-- The Keyer's next demand: the first needed word not yet taken of an open descriptor, in take order, while the Keyer
draws the open line (R104). Where the raster cuts the line short before its last taking point, whether or not a picture
line follows it, the words left are not taken, no window is abandoned for them, and the line stays open until the next
field start (DESIGN CHOICE, log 31). -/
def State.demand (s : State) : Option (Int × Nat × Nat) :=
  if s.engine.openLine.isSome && s.drawing then earliest (heads Descriptor.toTake 0 s.engine.descs) else none

/-- The word taken governs the window's bits: it is noted in the line's snapshot (R104). -/
def State.noteTaken (s : State) (i : SlotId) (k : Nat) (data : Word) : State :=
  { s with keyer := { s.keyer with
      snapshot := s.keyer.snapshot.map (fun snap =>
        snap.modifyEntry i (fun e => { e with taken := e.taken ++ [(k, data)] })) } }

/-- A taking point whose word stands in the silo (R104). -/
def State.takeWord (s : State) (place k : Nat) (w : SiloWord) (rest : List SiloWord) : State :=
  match s.engine.descs[place]? with
  | none => s
  | some d =>
    ({ s with engine :=
        { s.engine.modifyDesc place (fun d => { d with toTake := d.toTake.tail }) with silo := rest } }.noteTaken
      d.slot k w.data).purge

/-- LATE is set on a window's record, while the descriptor's record is still in the slot (R117). -/
def State.raiseLateOf (s : State) (d : Descriptor) : State :=
  if s.live d.slot d.gen then s.raise d.slot .late else s

/-- A taking point that finds the silo empty: the window is abandoned for the rest of the line (R104, R117). -/
def State.abandonWindow (s : State) (place : Nat) (sample : Int) : State :=
  match s.engine.descs[place]? with
  | none => s
  | some d =>
    ({ s with engine := s.engine.modifyDesc place (fun d => { d with condition := .abandoned }) }.abandonEntry
      d.slot sample).raiseLateOf d

/-- The next taking point of the line being drawn is reached (R104, R117). -/
def State.takingPointReached (s : State) : State :=
  match s.demand with
  | none => s
  | some (sample, place, k) =>
    match s.engine.silo with
    | w :: rest => (s.takeWord place k w rest).advanceLine.arbitrate
    | [] => (s.abandonWindow place sample).advanceLine.arbitrate

/-- A picture line begins: the Keyer takes its snapshot (R96); where it is the open line and no open descriptor of
it has a needed word, the engine opens the next (R110). -/
def State.beginLine (s : State) (line : Nat) : State :=
  let drawn := { s with
    keyer := { s.keyer with snapshot := some (s.takeSnapshot line) }
    engine := { s.engine with drawn := decide (s.engine.openLine = some line) } }
  if s.engine.openLine = some line ∧ line + 1 < s.tb.latched.standard.pictureLines
      ∧ s.engine.descs.all (fun d => d.toTake.isEmpty || decide (d.condition ≠ .opened)) then
    (drawn.openLine (line + 1)).arbitrate
  else drawn

/-- The word of an answered mask read: placed at the silo's tail if its line and its descriptor are still open,
else discarded (R116). -/
def State.storeWord (s : State) (line place k : Nat) (current : Bool) (data : Word) : State :=
  match s.engine.descs[place]? with
  | none => s
  | some d =>
    if current ∧ d.condition = .opened then
      { s with engine := { s.engine with
          silo := s.engine.silo ++ [{ line := line, place := place, k := k, data := data }] } }
    else s

/-- A mask read is answered (R116). No line is opened here: a word that is kept stands in the silo, and where it is
discarded the open line was finished, if at all, by the abandonment or the fault before it (R110, log 29). -/
def State.answerMask (s : State) (data : Word) : State :=
  match s.engine.channel with
  | .maskRead line place k _ _ _ current _ =>
    ((s.storeWord line place k current data).purge).nextOnBus
  | _ => s

/-- A descriptor is dropped if it is a given window's (R120). -/
def Descriptor.dropFor (i : SlotId) (d : Descriptor) : Descriptor :=
  if d.slot = i then { d with condition := .dropped } else d

/-- A fetch fault of a window: FETCH FAULT, removal from the stack at once to FAULTED (R54, R119), its descriptor
dropped and its words purged as they reach the head (R120), and no later point of the line drawn from it
(R105). -/
def State.fetchFault (s : State) (i : SlotId) : State :=
  let removed := (s.raise i .fetchFault).leaveStack i .faulted
  ({ removed with engine := { removed.engine with
      descs := removed.engine.descs.map (Descriptor.dropFor i) }
    }.abandonEntry i s.samplePosition).purge

/-- A mask read ends in a bus fault: a fetch fault where its record is ON AIR at the read's generation, else
nothing (R119). The next line is opened where the fault, with the words it purges, finishes the open line (R110,
log 29). -/
def State.maskFault (s : State) (i : SlotId) (g : Generation) : State :=
  if (s.slot i).state = .onAir ∧ (s.slot i).gen = g then
    let f := { s with engine := { s.engine with channel := .idle } }.fetchFault i
    if s.engine.finished then f else f.advanceLine
  else s

/-! ### Field starts -/

/-- The raster line in progress belongs to the field that the field start begins: its boundary lies closest to v lines
before the field start, with v as just latched (R95). Where that boundary and the next lie equally close to it, which
R95 leaves open, the field now running is taken (DESIGN CHOICE, log 38). -/
def State.rasterFieldBegun (s : State) : Bool :=
  decide (2 * ((s.rasterLine.2.1 : Int) - s.tb.latched.v) ≤ s.rasterLine.2.2)

/-- The first picture line not yet begun of the field that a field start begins: line 0, or where that line has begun,
the line after the raster line in progress, or that line itself where the Keyer has not begun it (R95, R110). None
where every picture line of the field has begun. -/
def State.firstLineOpened (s : State) : Option Nat :=
  let line :=
    if s.rasterFieldBegun then
      s.rasterLine.2.1 + (if s.lineFresh then 0 else 1) - s.tb.latched.standard.firstPictureLine
    else 0
  if line < s.tb.latched.standard.pictureLines then some line else none

/-- The engine's work at a field start: the line held open is closed and its work discarded (R123), and the first
line of the new field not yet begun is opened (R110), unless the engine is held stopped by the computer's reset line
(R167). -/
def State.engineStep (s : State) : State :=
  let closed := { s with engine :=
    { openLine := none, drawn := false, descs := [], silo := [], channel := s.engine.channel.closeLine } }
  if s.resetLine then closed
  else
    match s.firstLineOpened with
    | some line => (closed.openLine line).arbitrate
    | none => closed.arbitrate

/-! ### Meanings -/

/-- LINE_BEGIN (R96). -/
def execLineBegin (line : Nat) (s : State) : Result := .next (s.beginLine line)

/-- TAKING_POINT (R104). -/
def execTakingPoint (s : State) : Result := .next s.takingPointReached

/-- BUS_GRANT: a channel that awaits the grant presents the operation the arbiter chooses at this moment
(R115). -/
def execBusGrant (s : State) : Result :=
  match s.engine.channel with
  | .awaiting => .next s.nextOnBus
  | _ => .next s

/-- MASK_READ_ANSWER (R116). -/
def execMaskReadAnswer (word : Word) (s : State) : Result := .next (s.answerMask word)

end Sys2Proof.Machine
end

