-- ==== Sys2Proof/Machine/Publication.lean ====
section
/-! DEFINITION. Publication and adoption (chapter 2): PUBLISH, WITHDRAW, the countdown and adoption. -/

namespace Sys2Proof.Machine

/-- PUBLISH(handle, delay): general checks, ALREADY PENDING, the record checks, then the record is pending with
the countdown at the delay (R25 to R28). -/
def publishEffect (s : State) : State :=
  match parseHandle s.cmd.arg0 with
  | none => s.completeZero .badArgument
  | some (i, g) =>
    if 255 < s.cmd.arg1.toNat then s.completeZero .badArgument
    else if !s.live i g then s.completeZero .staleHandle
    else if (s.slot i).pending.isSome then s.completeZero .alreadyPending
    else
      match (s.slot i).staging.failingWord with
      | some k => s.complete .badRecord (BitVec.ofNat 16 k) 0#16
      | none =>
        (s.modifySlot i (fun r => { r with pending := some s.cmd.arg1.toNat })).completeZero .ok

/-- WITHDRAW(handle) (R31). -/
def withdrawEffect (s : State) : State :=
  s.withHandle fun i _ s =>
    if (s.slot i).pending.isSome then (s.cancelPending i).completeZero .ok
    else s.completeZero .notPending

/-- The state a record takes at adoption (R35). -/
def RecState.adopted : RecState → RecState
  | .free => .free
  | .draft => .standby
  | .standby => .standby
  | .onAir => .onAir
  | .faulted => .standby

/-- Adoption of a record (R34, R35). -/
def Slot.adopt (r : Slot) : Slot :=
  { r with
    state := r.state.adopted
    active := some r.staging
    pending := none
    counters :=
      { mix := r.staging.mixLevel, lifetime := r.staging.lifetime, hidden := false, halted := false } }

/-- The record is adopted at a field start that finds it so: not FREE, pending with the countdown at 0
(R32). -/
def Slot.adoptionDue (r : Slot) : Bool :=
  decide (r.state ≠ .free) && decide (r.pending = some 0)

/-- What a field start does to a record's publication: adoption at countdown 0, else the countdown decreases by
one (R32). -/
def Slot.publicationTick (r : Slot) : Slot :=
  if r.adoptionDue then r.adopt
  else { r with pending := r.pending.map (· - 1) }

/-- The Window Table's work at a field start (R32). -/
def State.publicationStep (s : State) : State :=
  s.mapSlots (fun _ r => r.publicationTick)

/-- PUBLISH (R25). -/
def execPublish (ie : Bool) (s : State) : Result := .next (s.command 5#5 ie publishEffect)

/-- WITHDRAW (R31). -/
def execWithdraw (ie : Bool) (s : State) : Result := .next (s.command 6#5 ie withdrawEffect)

/-- ADOPTION of one record, where it is due (R34). -/
def execAdoption (i : SlotId) (s : State) : Result :=
  if (s.slot i).adoptionDue then .next (s.modifySlot i Slot.adopt) else .next s

end Sys2Proof.Machine
end

