-- ==== Sys2Proof/Machine/Records.lean ====
section
/-! DEFINITION. Window records (chapter 1): NOOP, OPEN, CLONE, RETIRE and FIND, and RETIRE's application at a
field start. -/

namespace Sys2Proof.Machine

/-! ### Effects of the commands once taken -/

/-- NOOP examines nothing, changes nothing and completes OK (R159). -/
def noopEffect (s : State) : State :=
  s.completeZero .ok

/-- OPEN takes the lowest FREE slot and makes it DRAFT with the OPEN defaults (R13). -/
def openEffect (s : State) : State :=
  if 255 < s.cmd.arg0.toNat then s.completeZero .badArgument
  else
    match s.lowestFree with
    | none => s.completeZero .noSlot
    | some i =>
      (s.modifySlot i (fun r => r.drafted (Copy.opened s.cmd.arg0))).complete .ok (s.handleAt i) 0#16

/-- CLONE copies the source's staging words into the lowest FREE slot as a new DRAFT record (R14). -/
def cloneEffect (s : State) : State :=
  s.withHandle fun src _ s =>
    match s.lowestFree with
    | none => s.completeZero .noSlot
    | some i =>
      (s.modifySlot i (fun r => r.drafted (s.slot src).staging)).complete .ok (s.handleAt i) 0#16

/-- RETIRE frees a DRAFT, STANDBY or FAULTED record at once (R15); of an ON AIR record it cancels the pending
publication and is held for the next field start (R16). -/
def retireEffect (s : State) : State :=
  s.withHandle fun i g s =>
    if (s.slot i).state = .onAir then
      { s.cancelPending i with held := some (.retire i g) }
    else
      (s.freeRecord i).completeZero .ok

/-- The slot FIND stops at: the first from `start` upward that is not FREE and, unless any record will do,
whose staging word 0 equals the tag (R18). -/
def State.findFrom (s : State) (tag : Word) (start : Nat) (anyRecord : Bool) : Option SlotId :=
  (List.finRange 24).find? (fun i =>
    decide (start ≤ i.val) && decide ((s.slot i).state ≠ .free)
      && (anyRecord || decide ((s.slot i).staging[0] = tag)))

/-- FIND(tag, start, option) (R18). -/
def findEffect (s : State) : State :=
  if 255 < s.cmd.arg0.toNat ∨ 23 < s.cmd.arg1.toNat ∨ 1 < s.cmd.arg2.toNat then
    s.completeZero .badArgument
  else
    match s.findFrom s.cmd.arg0 s.cmd.arg1.toNat (decide (s.cmd.arg2 = 1#16)) with
    | none => s.completeZero .noneFound
    | some i => s.complete .ok (s.handleAt i) 0#16

/-! ### The application of a held RETIRE -/

/-- A held RETIRE applied: an ON AIR or STANDBY record of the same generation becomes FREE and the request
completes OK, else nothing changes and it completes GONE (R17). The spec gives no results for either completion: 0 in
both is a DESIGN CHOICE (log 30). -/
def State.applyRetire (s : State) (i : SlotId) (g : Generation) : State :=
  if (s.slot i).gen = g ∧ ((s.slot i).state = .onAir ∨ (s.slot i).state = .standby) then
    { (s.freeRecord i).completeZero .ok with held := none }
  else
    { s.completeZero .gone with held := none }

/-! ### Meanings -/

/-- NOOP (R159). -/
def execNoop (ie : Bool) (s : State) : Result := .next (s.command 0#5 ie noopEffect)

/-- OPEN (R13). -/
def execOpenRecord (ie : Bool) (s : State) : Result := .next (s.command 1#5 ie openEffect)

/-- CLONE (R14). -/
def execClone (ie : Bool) (s : State) : Result := .next (s.command 2#5 ie cloneEffect)

/-- RETIRE (R15, R16). -/
def execRetire (ie : Bool) (s : State) : Result := .next (s.command 3#5 ie retireEffect)

/-- FIND (R18). -/
def execFind (ie : Bool) (s : State) : Result := .next (s.command 4#5 ie findEffect)

/-- RETIRE_APPLY: the held RETIRE, if one is held, is applied (R17). -/
def execRetireApply (s : State) : Result :=
  match s.held with
  | some (.retire i g) => .next (s.applyRetire i g)
  | _ => .next s

end Sys2Proof.Machine
end

