-- ==== Sys2Proof/Machine/Stack.lean ====
section
/-! DEFINITION. The Layer Stack (chapter 3): the take-time checks of the field-aligned commands, their
application at a field start, the air guard, and the three steps of R47. -/

namespace Sys2Proof.Machine

/-! ### Taking a field-aligned request (R45, R46) -/

/-- PUSH: STANDBY or ON AIR is held; DRAFT is refused NOT READY, FAULTED is refused FAULTED (R45). -/
def pushEffect (s : State) : State :=
  s.withHandle fun i g s =>
    match (s.slot i).state with
    | .standby => { s with held := some (.push i g) }
    | .onAir => { s with held := some (.push i g) }
    | .draft => s.completeZero .notReady
    | .faulted => s.completeZero .faulted
    | .free => s.completeZero .staleHandle

/-- A command that holds a request for an ON AIR record and is refused NOT ON AIR otherwise (R45). -/
def holdIfOnAir (request : SlotId → Generation → HeldRequest) (s : State) : State :=
  s.withHandle fun i g s =>
    if (s.slot i).state = .onAir then { s with held := some (request i g) }
    else s.completeZero .notOnAir

/-- LIFT (R45). -/
def liftEffect (s : State) : State := holdIfOnAir HeldRequest.lift s

/-- RAISE (R45). -/
def raiseEffect (s : State) : State := holdIfOnAir HeldRequest.raise s

/-- LOWER (R45). -/
def lowerEffect (s : State) : State := holdIfOnAir HeldRequest.lower s

/-- CLEAR AIR is held whatever the records are (R45). -/
def clearAirEffect (s : State) : State := { s with held := some .clearAir }

/-- GUARD(n): the setting becomes n; the previous setting and whether the guard stood expired are returned
(R58). -/
def guardEffect (wasExpired : Bool) (s : State) : State :=
  if 255 < s.cmd.arg0.toNat then s.completeZero .badArgument
  else
    { s with guard := { s.guard with setting := s.cmd.arg0.toNat } }.complete .ok
      (BitVec.ofNat 16 s.guard.setting) (BitVec.ofNat 16 (bit wasExpired))

/-! ### The air guard at a field start (R56, R57) -/

/-- The guard expires: indicator, GUARD event, and every window lifted (R57, R48). -/
def State.guardExpire (s : State) : State :=
  { s.liftAll with
    guard := { s.guard with count := s.guard.setting, expired := true }
    events := { s.liftAll.events with guard := true } }

/-- The guard is set and not expired, and the next field start brings its count to the setting (R57). -/
def AirGuard.due (g : AirGuard) : Bool :=
  decide (g.setting ≠ 0) && !g.expired && decide (g.setting ≤ g.count + 1)

/-- The air guard's work at a field start: the count increases while the guard is set and not expired; at the
setting the guard expires (R56, R57). -/
def State.guardStep (s : State) : State :=
  if s.guard.due then s.guardExpire
  else if s.guard.setting ≠ 0 ∧ ¬ s.guard.expired then
    { s with guard := { s.guard with count := s.guard.count + 1 } }
  else s

/-! ### Applying the held request (R49 to R53) -/

/-- The request completes and is held no more (R46). -/
def State.finishHeld (s : State) (code : Completion) (r0 r1 : Word) : State :=
  { s.complete code r0 r1 with held := none }

/-- Eviction of the bottom entry of a full stack (R50). -/
def State.evict (s : State) (i : SlotId) : State :=
  (s.leaveStack i .standby).raise i .evicted

/-- A held PUSH applied (R49, R50). -/
def State.applyPush (s : State) (i : SlotId) (g : Generation) : State :=
  if (s.slot i).gen ≠ g then s.finishHeld .gone 0#16 0#16
  else
    match (s.slot i).state with
    | .onAir => (s.enterStack i).finishHeld .ok 0#16 0#16
    | .standby =>
      if Config.stackDepth ≤ s.stack.length then
        match s.stack.getLast? with
        | some e => ((s.evict e).enterStack i).finishHeld .ok (s.handleAt e) 1#16
        | none => (s.enterStack i).finishHeld .ok 0#16 0#16
      else (s.enterStack i).finishHeld .ok 0#16 0#16
    | _ => s.finishHeld .gone 0#16 0#16

/-- The record a held request names is still ON AIR at the same generation. -/
def State.stillOnAir (s : State) (i : SlotId) (g : Generation) : Bool :=
  decide ((s.slot i).state = .onAir) && decide ((s.slot i).gen = g)

/-- A held LIFT applied (R51). -/
def State.applyLift (s : State) (i : SlotId) (g : Generation) : State :=
  if s.stillOnAir i g then
    (s.leaveStack i .standby).finishHeld .ok (BitVec.ofNat 16 (s.stack.idxOf i)) 0#16
  else s.finishHeld .gone 0#16 0#16

/-- The list with the entries at positions k and k + 1 exchanged. -/
def exchange {α : Type} : Nat → List α → List α
  | 0, a :: b :: rest => b :: a :: rest
  | k + 1, a :: rest => a :: exchange k rest
  | _, l => l

/-- A held RAISE applied (R52). -/
def State.applyRaise (s : State) (i : SlotId) (g : Generation) : State :=
  if s.stillOnAir i g then
    match s.stack.idxOf i with
    | 0 => s.finishHeld .atLimit 0#16 0#16
    | p + 1 => { s with stack := exchange p s.stack }.finishHeld .ok (BitVec.ofNat 16 p) 0#16
  else s.finishHeld .gone 0#16 0#16

/-- A held LOWER applied (R52). -/
def State.applyLower (s : State) (i : SlotId) (g : Generation) : State :=
  if s.stillOnAir i g then
    if s.stack.idxOf i + 1 < s.stack.length then
      { s with stack := exchange (s.stack.idxOf i) s.stack }.finishHeld .ok
        (BitVec.ofNat 16 (s.stack.idxOf i + 1)) 0#16
    else s.finishHeld .atLimit (BitVec.ofNat 16 (s.stack.idxOf i)) 0#16
  else s.finishHeld .gone 0#16 0#16

/-- A held CLEAR AIR applied (R53). -/
def State.applyClearAir (s : State) : State :=
  s.liftAll.finishHeld .ok (BitVec.ofNat 16 s.stack.length) 0#16

/-- The held request, if one is held, applied (R47 step 3). -/
def State.applyHeld (s : State) : State :=
  match s.held with
  | none => s
  | some (.push i g) => s.applyPush i g
  | some (.lift i g) => s.applyLift i g
  | some (.raise i g) => s.applyRaise i g
  | some (.lower i g) => s.applyLower i g
  | some .clearAir => s.applyClearAir
  | some (.retire i g) => s.applyRetire i g

/-- The Layer Stack's three steps at a field start, over the windows the Window Counters report (R47). -/
def State.stackStep (s : State) (expired : List SlotId) : State :=
  (expired.foldl State.removeExpired s).guardStep.applyHeld

/-! ### Meanings -/

/-- PUSH (R45). -/
def execPush (ie : Bool) (s : State) : Result := .next (s.command 7#5 ie pushEffect)

/-- LIFT (R45). -/
def execLift (ie : Bool) (s : State) : Result := .next (s.command 8#5 ie liftEffect)

/-- RAISE (R45). -/
def execRaise (ie : Bool) (s : State) : Result := .next (s.command 9#5 ie raiseEffect)

/-- LOWER (R45). -/
def execLower (ie : Bool) (s : State) : Result := .next (s.command 10#5 ie lowerEffect)

/-- CLEAR AIR (R45). -/
def execClearAir (ie : Bool) (s : State) : Result := .next (s.command 11#5 ie clearAirEffect)

/-- GUARD (R58). -/
def execGuard (ie : Bool) (s : State) : Result := .next (s.command 12#5 ie (guardEffect s.guard.expired))

/-- GUARD_EXPIRY: the field start at which the guard's count reaches its setting (R57). -/
def execGuardExpiry (s : State) : Result :=
  if s.guard.due then .next s.guardExpire else .next s

/-- PUSH_APPLY: the held PUSH, if one is held, is applied (R49). -/
def execPushApply (s : State) : Result :=
  match s.held with
  | some (.push i g) => .next (s.applyPush i g)
  | _ => .next s

/-- LIFT_APPLY (R51). -/
def execLiftApply (s : State) : Result :=
  match s.held with
  | some (.lift i g) => .next (s.applyLift i g)
  | _ => .next s

/-- RAISE_APPLY (R52). -/
def execRaiseApply (s : State) : Result :=
  match s.held with
  | some (.raise i g) => .next (s.applyRaise i g)
  | _ => .next s

/-- LOWER_APPLY (R52). -/
def execLowerApply (s : State) : Result :=
  match s.held with
  | some (.lower i g) => .next (s.applyLower i g)
  | _ => .next s

/-- CLEAR_AIR_APPLY (R53). -/
def execClearAirApply (s : State) : Result :=
  match s.held with
  | some .clearAir => .next s.applyClearAir
  | _ => .next s

end Sys2Proof.Machine
end

