-- ==== Sys2Proof/Machine/Lock.lean ====
section
/-! DEFINITION. The Input Lock Tracker (chapter 8): what each event of an input does to its lock context, and
QUERY INPUT. What a context hands on to the timebase is done in Switching.lean. -/

namespace Sys2Proof.Machine

/-- What an event of an input leaves: the context, and whether a Feed vertical sync is handed on (R137). -/
structure Tracked where
  ctx : LockContext
  vsync : Bool
  deriving DecidableEq, Repr

/-! ### Entering states -/

/-- A measured line period: whole samples, 1..4095 (R125, R129). -/
def clampPeriod (d : Nat) : Nat :=
  max 1 (min 4095 d)

/-- Entry to NO SIGNAL (R127). -/
def LockContext.enterNoSignal (c : LockContext) : LockContext :=
  { LockContext.powerOn with
    remembered := c.remembered, headSwitch := c.headSwitch, sourceChanged := c.sourceChanged }

/-- Entry to HUNT at a moment: the standard becomes unknown, the parity reads first, the HUNT reference is empty, and
the measured line period is absent until two line starts have been seen (R128, R129, R136, R140). That the line
number, the VERIFY progress, the HOLDOVER progress and the count of consecutive line starts are 0 in HUNT, where
nothing reads them, is a DESIGN CHOICE (log 36). -/
def LockContext.enterHunt (c : LockContext) (moment : Nat) : LockContext :=
  { c with
    lock := .hunt, standard := none, parity := .first, period := none, line := 0, reference := none, run := 0,
    huntLines := none, huntAt := some moment, verified := 0, heldLines := 0 }

/-- A field fails in VERIFY: HUNT is entered, and the measured line period goes on being measured from the last line
start (R130; DEDUCED, log 12). -/
def LockContext.failVerify (c : LockContext) (moment : Nat) : LockContext :=
  { c.enterHunt moment with period := c.period, reference := c.reference }

/-- Entry to VERIFY with a standard, at the vertical sync sequence that ended HUNT (R130). -/
def LockContext.enterVerify (c : LockContext) (std : Standard) (parity : Parity) : LockContext :=
  { c with
    lock := .verify, standard := some std,
    headSwitch := if c.remembered = some std then c.headSwitch else 0,
    remembered := some std, verified := 0, line := 0, parity := parity, huntLines := none, huntAt := none }

/-- Entry to HOLDOVER: no good line start counted yet (R133, R134, R135). -/
def LockContext.enterHoldover (c : LockContext) : LockContext :=
  { c with lock := .holdover, run := 0, heldLines := 0 }

/-- Entry to LOCKED: the consecutive-missing count is 0 (R132, R135). That VERIFY and HOLDOVER progress are 0 there too,
where nothing reads them, is a DESIGN CHOICE (log 36). -/
def LockContext.enterLocked (c : LockContext) : LockContext :=
  { c with lock := .locked, run := 0, verified := 0, heldLines := 0 }

/-! ### Lines and fields -/

/-- The line number advances; at the field's expected count a field boundary is marked: the number returns to 0
and the parity changes (R132, R135). The flag says that the boundary was marked. -/
def LockContext.nextLine (c : LockContext) : LockContext × Bool :=
  if c.line + 1 = c.expected then ({ c with line := 0, parity := c.parity.other }, true)
  else ({ c with line := c.line + 1 }, false)

/-- The distance in samples from the prediction (R132). -/
def LockContext.distance (c : LockContext) (time : Nat) : Nat :=
  ((time : Int) - (c.predicted.getD time : Nat)).natAbs

/-- The measured line period follows a line start (R129). -/
def LockContext.measurePeriod (c : LockContext) (time : Nat) : LockContext :=
  { c with
    period := match c.reference with
      | some t => some (clampPeriod (time - t))
      | none => c.period
    reference := some time, found := true }

/-! ### Line starts, each with the vertical sync sequence that it begins, if it begins one -/

/-- A line start in HUNT (R129). A sequence at the moment of entry does not become the reference. -/
def LockContext.huntLine (c : LockContext) (time : Nat) (seq : Option Parity) : Tracked :=
  let m := c.measurePeriod time
  match (if c.huntAt = some time then none else seq), c.huntLines with
  | none, n => { ctx := { m with huntLines := n.map (· + 1) }, vsync := false }
  | some _, none => { ctx := { m with huntLines := some 0 }, vsync := false }
  | some p, some n =>
    if n + 1 = 262 ∨ n + 1 = 263 then { ctx := m.enterVerify .lines525 p, vsync := true }
    else if n + 1 = 312 ∨ n + 1 = 313 then { ctx := m.enterVerify .lines625 p, vsync := true }
    else { ctx := { m with huntLines := some 0 }, vsync := false }

/-- The line a line start ends fails VERIFY's period test: outside the tolerance, and not in the head-switch
zone (R130). -/
def LockContext.periodFails (c : LockContext) (time : Nat) : Bool :=
  match c.reference with
  | none => false
  | some t =>
    decide (Config.verifyTolerance < ((time : Int) - t - c.lineStandard.nominal).natAbs)
      && decide (c.line + Config.zoneLines < c.expected)

/-- A line start in VERIFY (R130). -/
def LockContext.verifyLine (c : LockContext) (time : Nat) (seq : Option Parity) : Tracked :=
  let m := c.measurePeriod time
  if c.periodFails time then { ctx := m.failVerify time, vsync := false }
  else
    match seq with
    | none =>
      if c.line + 1 < c.expected then { ctx := { m with line := c.line + 1 }, vsync := false }
      else { ctx := m.failVerify time, vsync := false }
    | some p =>
      if c.line + 1 ≠ c.expected ∨ p = c.parity then { ctx := m.failVerify time, vsync := false }
      else
        let passed := { m with line := 0, parity := p, verified := c.verified + 1 }
        if c.verified + 1 < Config.verifyFields then { ctx := passed, vsync := true }
        else { ctx := passed.enterLocked, vsync := true }

/-- A line start found within the search window in LOCKED, before the line number advances: accepted, re-phased
in the head-switch zone, or a jump to HOLDOVER (R132, R133). -/
def LockContext.lockedFound (c : LockContext) (time : Nat) : LockContext :=
  if c.distance time ≤ Config.jumpTolerance then
    { (if c.found then c.measurePeriod time else { c with reference := some time, found := true }) with run := 0 }
  else if c.expected ≤ c.line + 1 + Config.zoneLines then
    { c with reference := some time, found := true, run := 0, headSwitch := min 255 (c.headSwitch + 1) }
  else
    { c with reference := some time, found := true }.enterHoldover

/-- A vertical sync sequence at a line start confirms the field boundary there: the line start brings the line number to
the field's expected count, and the sequence has the new parity (R132). -/
def LockContext.confirmedBy (c : LockContext) (p : Parity) : Bool :=
  decide (c.line + 1 = c.expected) && decide (p = c.parity.other)

/-- A vertical jump enters HOLDOVER as a jump outside the zone does: the sequence's line start becomes the reference,
the measured line period is frozen at its value before, and the head-switch count stands; the line number is 0 and the
parity the sequence's (R132, R133). -/
def LockContext.verticalJump (c : LockContext) (time : Nat) (p : Parity) : LockContext :=
  { c with reference := some time, found := true, line := 0, parity := p }.enterHoldover

/-- A line start in LOCKED (R132, R133). A vertical sync sequence that does not confirm a field boundary is a vertical
jump. -/
def LockContext.lockedLine (c : LockContext) (time : Nat) (seq : Option Parity) : Tracked :=
  if Config.searchWindow < c.distance time then { ctx := c, vsync := false }
  else
    let n := (c.lockedFound time).nextLine
    match seq with
    | none => { ctx := n.1, vsync := n.2 }
    | some p => if c.confirmedBy p then { ctx := n.1, vsync := true } else { ctx := c.verticalJump time p, vsync := true }

/-- HOLDOVER has reached its limit: the context leaves it for HUNT (R136). Where that line start also marks a field
boundary, HUNT is entered first and no Feed vertical sync is handed on, since HUNT hands on none (R137); the spec does
not order the two (DESIGN CHOICE, log 35). -/
def LockContext.holdoverEnd (c : LockContext) (vsync : Bool) (moment : Nat) : Tracked :=
  if c.lineStandard.holdoverLimit ≤ c.heldLines then { ctx := c.enterHunt moment, vsync := false }
  else { ctx := c, vsync := vsync }

/-- A line start in HOLDOVER (R135, R136). -/
def LockContext.holdoverLine (c : LockContext) (time : Nat) (seq : Option Parity) : Tracked :=
  if Config.searchWindow < c.distance time then { ctx := c, vsync := false }
  else
    let good := if c.distance time ≤ Config.jumpTolerance then c.run + 1 else 0
    let n := { c with reference := some time, found := true, run := good, heldLines := c.heldLines + 1 }.nextLine
    let phased := match seq with
      | none => n
      | some p => ({ n.1 with line := 0, parity := p }, true)
    if Config.goodLimit ≤ good then { ctx := phased.1.enterLocked, vsync := phased.2 }
    else phased.1.holdoverEnd phased.2 time

/-- A line start of the input, with the vertical sync sequence it begins, if it begins one (R126 to R136). -/
def LockContext.lineEvent (c : LockContext) (time : Nat) (seq : Option Parity) : Tracked :=
  match c.lock with
  | .noSignal => { ctx := c, vsync := false }
  | .hunt => c.huntLine time seq
  | .verify => c.verifyLine time seq
  | .locked => c.lockedLine time seq
  | .holdover => c.holdoverLine time seq

/-- A search window closes with no line start: the prediction is put in (R134, R135). -/
def LockContext.missingLine (c : LockContext) (moment : Nat) : Tracked :=
  match c.predicted with
  | none => { ctx := c, vsync := false }
  | some t =>
    match c.lock with
    | .locked =>
      let n := { c with reference := some t, found := false, run := c.run + 1 }.nextLine
      if Config.missingLimit ≤ c.run + 1 then { ctx := n.1.enterHoldover, vsync := n.2 }
      else { ctx := n.1, vsync := n.2 }
    | .holdover =>
      let n := { c with reference := some t, found := false, run := 0, heldLines := c.heldLines + 1 }.nextLine
      n.1.holdoverEnd n.2 moment
    | .noSignal => { ctx := c, vsync := false }
    | .hunt => { ctx := c, vsync := false }
    | .verify => { ctx := c, vsync := false }

/-- A sync pulse restarts the loss timer, and takes a NO SIGNAL context to HUNT with SOURCE CHANGED set (R126,
R128). -/
def LockContext.pulse (c : LockContext) (time : Nat) : LockContext :=
  if c.lock = .noSignal then
    { c.enterHunt time with sourceChanged := true, lastPulse := some time }
  else { c with lastPulse := some time }

/-- The loss timer's limit: 8 nominal line periods, by 864 while the standard is unknown (R127). -/
def LockContext.lossLimit (c : LockContext) : Nat :=
  Config.lossPeriods * c.lineStandard.nominal

/-! ### QUERY INPUT (R140) -/

/-- The deviation of the measured line period from the nominal, saturated to -128..127; -128 while the period is
absent (R140). -/
def LockContext.deviation (c : LockContext) : Int :=
  match c.period with
  | none => -128
  | some p => max (-128) (min 127 ((p : Int) - c.lineStandard.nominal))

/-- An input status word: lock state, standard and SOURCE CHANGED (R139, R155). -/
def LockContext.statusWord (c : LockContext) : Word :=
  BitVec.ofNat 16 (c.lock.code + 8 * standardCode c.standard + 32 * bit c.sourceChanged)

/-- RESULT0 of QUERY INPUT: the status word with the parity in bit 6 (R140, R155). -/
def LockContext.query0 (c : LockContext) : Word :=
  BitVec.ofNat 16 (c.lock.code + 8 * standardCode c.standard + 32 * bit c.sourceChanged + 64 * c.parity.code)

/-- RESULT1 of QUERY INPUT: the deviation in bits 0 to 7 and the head-switch count in bits 8 to 15 (R140,
R155). -/
def LockContext.query1 (c : LockContext) : Word :=
  BitVec.ofNat 16 ((c.deviation % 256).toNat + 256 * (c.headSwitch % 256))

/-- The input an argument names (R140, R149). -/
def inputOf (w : Word) : Option Input :=
  match w.toNat with
  | 0 => some .feedA
  | 1 => some .feedB
  | _ => none

/-- QUERY INPUT(input, reset): the context as it stands, then with the reset option SOURCE CHANGED cleared and
the head-switch count 0 (R140). -/
def queryInputEffect (s : State) : State :=
  match inputOf s.cmd.arg0 with
  | none => s.completeZero .badArgument
  | some x =>
    if 1 < s.cmd.arg1.toNat then s.completeZero .badArgument
    else
      let c := s.ctx x
      (s.setCtx x (if s.cmd.arg1 = 1#16 then { c with sourceChanged := false, headSwitch := 0 } else c)).complete
        .ok c.query0 c.query1

/-- QUERY INPUT (R140). -/
def execQueryInput (ie : Bool) (s : State) : Result := .next (s.command 15#5 ie queryInputEffect)

end Sys2Proof.Machine
end

