-- ==== Sys2Proof/Machine/Timebase.lean ====
section
/-! DEFINITION. The Program Timebase (chapter 9) but for its switches: states, residuals, field lengths, latching,
SELECT and the held SELECT. -/

namespace Sys2Proof.Machine

/-! ### States (R146, R152) -/

/-- The timebase takes a state; a change of state sets TIMEBASE (R146). -/
def State.setTimebaseState (s : State) (x : TimebaseState) : State :=
  { s with
    tb := { s.tb with state := x }
    events := { s.events with timebase := s.events.timebase || decide (s.tb.state ≠ x) } }

/-- Entry to FOLLOW; a switch that has been made is then over (R152). -/
def State.enterFollow (s : State) : State :=
  let f := s.setTimebaseState .follow
  { f with tb := { f.tb with switch := if s.tb.switch = .made then .none else s.tb.switch } }

/-- Entry to COAST: the running line period is the program input's measured line period, if it has one (R146), and
the line in progress runs to its own length (R143). -/
def State.enterCoast (s : State) : State :=
  let f := s.setTimebaseState .coast
  { f with tb := { f.tb with runPeriod := s.programCtx.period.getD s.tb.runPeriod, lineFollows := false } }

/-! ### Computer lines (R143, R145) -/

/-- The length in samples of a computer line that starts now (R143, R145). In FOLLOW, and in SLEW while h is 0, the line
ends at the program input's next line start, and this length governs it only if the timebase stops following within
it. -/
def State.newLineLength (s : State) : Nat :=
  let p := s.programCtx.period.getD s.tb.standard.nominal
  match s.tb.state with
  | .freeRun => s.tb.runPeriod
  | .coast => s.tb.runPeriod
  | .follow => p
  | .slew => if 0 < s.tb.h then p - 1 else if s.tb.h < 0 then p + 1 else p

/-- The samples by which h moves at the end of a computer line that starts now (R145). -/
def State.newLineSlew (s : State) : Int :=
  match s.tb.state with
  | .slew => if 0 < s.tb.h then -1 else if s.tb.h < 0 then 1 else 0
  | .freeRun => 0
  | .follow => 0
  | .coast => 0

/-- A computer line that starts now ends at the program input's next line start (R143, R145). -/
def State.newLineFollows (s : State) : Bool :=
  decide (s.tb.state = .follow) || (decide (s.tb.state = .slew) && decide (s.tb.h = 0))

/-- The computer line in progress starts at a sample: it is made under the state as it stands (R143, R146). -/
def State.lineAt (s : State) (time : Nat) : State :=
  { s with tb := { s.tb with
      lineStartAt := time, lineLength := s.newLineLength, lineSlew := s.newLineSlew,
      lineFollows := s.newLineFollows } }

/-- The next computer line starts at a sample. -/
def State.startLine (s : State) (time : Nat) : State :=
  { s.lineAt time with tb := { (s.lineAt time).tb with previousLineAt := s.tb.lineStartAt } }

/-- A computer line ends: one more line has run, and in SLEW h moves as the line was made to move it (R145). A line made
before h was last measured moves the new h where it was made to move h that way, and else leaves it, which R145 leaves
open (DESIGN CHOICE, log 39). -/
def State.endLine (s : State) : State :=
  { s with tb := { s.tb with
      linesRun := s.tb.linesRun + 1
      h :=
        if s.tb.state = .slew ∧ 0 < s.tb.h ∧ s.tb.lineSlew < 0 then s.tb.h - 1
        else if s.tb.state = .slew ∧ s.tb.h < 0 ∧ 0 < s.tb.lineSlew then s.tb.h + 1
        else s.tb.h } }

/-! ### Residuals (R144) -/

/-- A horizontal offset reduced to the shorter way round; exactly half is negative (R144). -/
def reduceH (nominal : Nat) (d : Int) : Int :=
  if (nominal : Int) ≤ 2 * (d % nominal) then d % nominal - nominal else d % nominal

/-- A vertical offset reduced to the shorter way round; exactly half is positive (R144). -/
def reduceV (lines : Nat) (d : Int) : Int :=
  if (lines : Int) < 2 * (d % lines) then d % lines - lines else d % lines

/-- The parity of the input's field whose boundary lies closest to `back` lines ago, for a context in line `line`
of a field of `lines` lines (R95, R143). -/
def followedParity (c : LockContext) (back : Int) : Parity :=
  if 2 * ((c.line : Int) - back).natAbs ≤ c.expected then c.parity else c.parity.other

/-- The samples by which the computer's line start stands after a context's line start (R144). -/
def Timebase.offsetH (t : Timebase) (c : LockContext) : Int :=
  (t.lineStartAt : Int) - (c.reference.getD t.lineStartAt : Nat)

/-- The horizontal residual against a context (R144). -/
def Timebase.measureH (t : Timebase) (c : LockContext) : Int :=
  reduceH t.standard.nominal (t.offsetH c)

/-- The line of the context's field, from its boundary on, beside which the computer's line in progress lies once
the horizontal residual is taken off. -/
def Timebase.lineBeside (t : Timebase) (c : LockContext) : Int :=
  c.line + (t.offsetH c - t.measureH c) / t.standard.nominal

/-- The lines by which the computer's field start follows the boundary of the input's field now running
(R144). -/
def Timebase.offsetV (t : Timebase) (c : LockContext) : Int :=
  t.lineBeside c - t.linesRun

/-- The vertical residual against a context (R144). -/
def Timebase.measureV (t : Timebase) (c : LockContext) : Int :=
  reduceV c.expected (t.offsetV c)

/-- The parity of the input's field that the computer's field in progress follows at a measurement (R143). -/
def Timebase.measureParity (t : Timebase) (c : LockContext) : Parity :=
  followedParity c (c.line + t.measureV c - t.offsetV c)

/-- The residuals are measured against a context, and the computer's field in progress takes the parity of the input's
field that it follows (R144, R143). Its corresponding line count is that field's, under the input's standard, but
where the offset was brought up by the running field's line count, which then stands for it, so that the slew ends at
the input's boundary (R145). -/
def Timebase.measure (t : Timebase) (c : LockContext) : Timebase :=
  { t with
    h := t.measureH c, v := t.measureV c
    parity := t.measureParity c
    inputLines :=
      if t.offsetV c < t.measureV c then c.expected else c.lineStandard.fieldLines (t.measureParity c) }

/-- SLEW, or FOLLOW if both residuals are 0 (R146, R151). -/
def State.slewOrFollow (s : State) : State :=
  if s.tb.h = 0 ∧ s.tb.v = 0 then s.enterFollow else s.setTimebaseState .slew

/-- The program input has entered LOCKED while the timebase was in FREE RUN or COAST: its standard is taken and
the residuals are measured under it (R146). -/
def State.relock (s : State) : State :=
  let t := { s.tb with standard := s.programCtx.standard.getD s.tb.standard }
  { s with tb := t.measure s.programCtx }.slewOrFollow

/-- In SLEW with both residuals 0 the timebase enters FOLLOW (R145). -/
def State.settleSlew (s : State) : State :=
  if s.tb.state = .slew ∧ s.tb.h = 0 ∧ s.tb.v = 0 then s.enterFollow else s

/-- A residual moved toward 0 by at most n (R145). -/
def towardZero (n : Nat) (x : Int) : Int :=
  if 0 < x then x - min (n : Int) x else x + min (n : Int) (-x)

/-! ### Fields (R142, R143, R145, R147) -/

/-- The length in lines of the computer's field in progress, where the timebase ends it by its own count: the
regular length of its parity, and in SLEW up to 4 lines less or more than the input's field (R143, R145). -/
def State.fieldLength (s : State) : Nat :=
  match s.tb.state with
  | .slew =>
    ((s.tb.inputLines : Int)
      - (s.tb.v - towardZero Config.slewLines s.tb.v)).toNat
  | .freeRun => s.tb.standard.fieldLines s.tb.parity
  | .coast => s.tb.standard.fieldLines s.tb.parity
  | .follow => s.tb.standard.fieldLines s.tb.parity

/-- The parity of the field that a field start begins (R143). -/
def State.nextParity (s : State) : Parity :=
  match s.tb.state with
  | .freeRun => s.tb.parity.other
  | .coast => s.tb.parity.other
  | .slew => followedParity s.programCtx s.tb.v
  | .follow => followedParity s.programCtx s.tb.v

/-- The five values are latched (R147). -/
def State.latch (s : State) : State :=
  { s with tb := { s.tb with
      latched := { scale := s.tb.setScale, trim := s.tb.setTrim, h := s.tb.h, v := s.tb.v,
                   standard := s.tb.standard } } }

/-- The vertical residual at a field start in SLEW (R145): it moves by the lines by which the field was made shorter or
longer than the input's. A field that had run past that length when it was measured could not be made so, and moves v
by the lines that it did run, taken the shorter way round as at a measurement (DEDUCED, log 37). -/
def State.slewedV (s : State) : Int :=
  if s.fieldLength < s.tb.linesRun then
    reduceV s.programCtx.expected (s.tb.v + s.tb.linesRun - s.tb.inputLines)
  else towardZero Config.slewLines s.tb.v

/-- The vertical residual of SLEW moves toward 0 at a field start (R145). -/
def State.slewVertical (s : State) : State :=
  if s.tb.state = .slew then { s with tb := { s.tb with v := s.slewedV } }.settleSlew else s

/-- The timebase's own work at a field start: field counter, vertical slew, the new field's parity with the line count
of the program input's field of that parity, which SLEW makes it by, the latch (R142, R145, R147). -/
def State.beginField (s : State) : State :=
  let f := s.slewVertical
  { f with tb := { f.tb with
      fieldCounter := f.tb.fieldCounter + 1, linesRun := 0, lastField := s.tb.linesRun, parity := f.nextParity,
      inputLines := s.programCtx.lineStandard.fieldLines f.nextParity } }.latch

/-! ### SELECT (R149, R153) -/

/-- The mode an argument names (R149). -/
def modeOf (w : Word) : Option SwitchMode :=
  match w.toNat with
  | 0 => some .cut
  | 1 => some .slew
  | _ => none

/-- A completion of SELECT: RESULT0 holds the program input at completion (R149). -/
def State.completeSelect (s : State) (code : Completion) : State :=
  s.complete code (BitVec.ofNat 16 (inputCode s.tb.program)) 0#16

/-- A SELECT examined against the state at this moment (R149). -/
def State.judgeSelect (s : State) (x : Input) (mode : SwitchMode) (confirm : Bool) : State :=
  if x = s.tb.program then s.completeSelect .ok
  else if (s.ctx x).lock ≠ .locked then s.completeSelect .noLock
  else if (s.ctx x).sourceChanged ∧ ¬ confirm then s.completeSelect .unconfirmed
  else if (s.ctx x).standard ≠ some s.tb.standard ∧ s.tb.state ≠ .freeRun then
    s.completeSelect .standardMismatch
  else { s with tb := { s.tb with switch := .scheduled x mode } }.completeSelect .ok

/-- SELECT(input, mode, confirm): held while a switch is in flight, else examined (R149, R153). -/
def selectEffect (s : State) : State :=
  match inputOf s.cmd.arg0, modeOf s.cmd.arg1 with
  | some x, some mode =>
    if 1 < s.cmd.arg2.toNat then s.completeZero .badArgument
    else if s.tb.switch = .none then s.judgeSelect x mode (decide (s.cmd.arg2 = 1#16))
    else
      { s with tb := { s.tb with
          heldSelect := some { input := x, mode := mode, confirm := decide (s.cmd.arg2 = 1#16), count := 0 } } }
  | _, _ => s.completeZero .badArgument

/-- The held SELECT is examined (R153). -/
def State.examineHeld (s : State) (q : HeldSelect) : State :=
  { s with tb := { s.tb with heldSelect := none } }.judgeSelect q.input q.mode q.confirm

/-- Where SWITCHING is clear a held SELECT is examined (R152, R153). -/
def State.settleHeldSelect (s : State) : State :=
  match s.tb.heldSelect with
  | none => s
  | some q => if s.tb.switch = .none then s.examineHeld q else s

/-- The held SELECT completes with TIMEOUT; the switch in flight is not affected (R153). -/
def State.timeoutHeld (s : State) : State :=
  { s with tb := { s.tb with heldSelect := none } }.completeSelect .timeout

/-- The held SELECT at a field start: examined if SWITCHING has cleared, else its count increases by one, and at
48 it times out (R153). -/
def State.heldSelectStep (s : State) : State :=
  match s.tb.heldSelect with
  | none => s
  | some q =>
    if s.tb.switch = .none then s.examineHeld q
    else if Config.heldSelectLimit ≤ q.count + 1 then s.timeoutHeld
    else { s with tb := { s.tb with heldSelect := some { q with count := q.count + 1 } } }

/-- The program status word (R148, R155). -/
def State.programStatus (s : State) : Word :=
  BitVec.ofNat 16 (inputCode s.tb.program + 2 * s.tb.state.code + 8 * bit (decide (s.tb.switch ≠ .none))
    + 16 * s.tb.standard.bit + 32 * bit (decide (s.keyer.cutBlanking ≠ 0)) + 64 * bit s.guard.expired)

/-! ### Meanings -/

/-- SELECT (R149). -/
def execSelect (ie : Bool) (s : State) : Result := .next (s.command 14#5 ie selectEffect)

/-- HELD_SELECT_TIMEOUT: the field start that brings the held SELECT's count to 48 with SWITCHING set (R153). -/
def execHeldSelectTimeout (s : State) : Result :=
  match s.tb.heldSelect with
  | none => .next s
  | some q =>
    if s.tb.switch ≠ .none ∧ Config.heldSelectLimit ≤ q.count + 1 then .next s.timeoutHeld else .next s

/-- HELD_SELECT_EXAMINE: SWITCHING has cleared and the held SELECT is examined (R153). -/
def execHeldSelectExamine (s : State) : Result := .next s.settleHeldSelect

end Sys2Proof.Machine
end

