-- ==== Sys2Proof/Machine/FieldStart.lean ====
section
/-! DEFINITION. The field start: every block's work in its order (R142). -/

namespace Sys2Proof.Machine

/-- The work of the Window Table, the Window Counters and the Layer Stack at a field start (R32, R47, R64).
The counters act on the windows ON AIR as the field start arrives; adoption, which touches other parts of a
record than the stack's work does, comes after the stack's three steps (R38), so that a held PUSH of a record
that the field start found FAULTED completes GONE (R54). -/
def State.recordStep (s : State) : State :=
  (s.countStep.stackStep s.expiring).publicationStep

/-- The records and WINDOW are marked as they stood before the conversion, in a state `before` (R150, log 16). -/
def State.markFrom (s before : State) : State :=
  { s with marks := some { records := before.slots, window := before.events.window } }

/-- A field start; `cut` says that a CUT switch makes it (R106, R142). -/
def State.fieldStart (s : State) (cut : Bool) : State :=
  (((s.beginField.recordStep.convertStep.blankingStep cut).engineStep).markFrom s.beginField.recordStep).heldSelectStep

/-- FIELD_START (R142). -/
def execFieldStart (s : State) : Result := .next (s.fieldStart false)

end Sys2Proof.Machine
end

