-- ==== Sys2Proof/Machine/Transfer.lean ====
section
/-! DEFINITION. Image transfers (chapter 10, R164 to R166): IMAGE IN, IMAGE OUT, the answer and acknowledgement of
their words, and the bus response timeout (R118). -/

namespace Sys2Proof.Machine

/-- The general checks of IMAGE IN and IMAGE OUT: bank 0..255, count 1..576 (R159). -/
def imageArguments (bank count : Word) : Bool :=
  decide (bank.toNat ≤ 255) && decide (1 ≤ count.toNat) && decide (count.toNat ≤ Config.imageWords)

/-- The progress of a transfer at its start (R164). -/
def Transfer.start (toMemory : Bool) (bank address count : Word) : Transfer :=
  { toMemory := toMemory, position := BitVec.ofNat 24 (bank.toNat * 65536 + address.toNat),
    left := count.toNat, moved := 0 }

/-- A transfer begins: the channel arbiter is handed its first word (R164, R165). -/
def startTransfer (toMemory : Bool) (s : State) : State :=
  if imageArguments s.cmd.arg0 s.cmd.arg2 then
    { s with port := { s.port with
        transfer := some (Transfer.start toMemory s.cmd.arg0 s.cmd.arg1 s.cmd.arg2) } }.arbitrate
  else s.completeZero .badArgument

/-- IMAGE IN(bank, address, count) (R164). -/
def imageInEffect (s : State) : State := startTransfer false s

/-- IMAGE OUT(bank, address, count) (R165). -/
def imageOutEffect (s : State) : State := startTransfer true s

/-- A transfer ends: it completes with the count moved in RESULT0 (R164 to R166). -/
def State.endTransfer (s : State) (code : Completion) (moved : Nat) : State :=
  { s with port := { s.port with transfer := none } }.complete code (BitVec.ofNat 16 moved) 0#16

/-- A word has been moved: the counts and the memory position advance, and at the last word the transfer completes
OK (R164, R165). -/
def State.wordMoved (s : State) (t : Transfer) : State :=
  if t.left ≤ 1 then s.endTransfer .ok (t.moved + 1)
  else
    { s with port := { s.port with
        transfer := some
          { t with position := t.position + 1#24, left := t.left - 1, moved := t.moved + 1 } } }

/-- A word of IMAGE IN is written through the pointer, or refused: ACCESS and PARTIAL (R164). -/
def State.wordArrived (s : State) (t : Transfer) (word : Word) : State :=
  match s.writePointed word with
  | some f => f.wordMoved t
  | none => s.refuseAccess.endTransfer .partialDone t.moved

/-- An image read in flight is answered (R164). -/
def State.answerImage (s : State) (word : Word) : State :=
  match s.engine.channel, s.port.transfer with
  | .imageRead _ _, some t => (s.wordArrived t word).nextOnBus
  | _, _ => s

/-- An image write in flight is acknowledged (R165). -/
def State.acknowledgeImage (s : State) : State :=
  match s.engine.channel, s.port.transfer with
  | .imageWrite _ _ _, some t => (s.stepPointer.wordMoved t).nextOnBus
  | _, _ => s

/-- A transfer word ends in a bus fault: the transfer stops with BUS FAULT, the pointer at the word not moved
(R122, R166). -/
def State.imageFault (s : State) : State :=
  match s.port.transfer with
  | some t => s.endTransfer .busFault t.moved
  | none => s

/-- The operation in flight ends at the 10 µs mark with no answer, and the arbiter chooses the next (R118, R119,
R122). -/
def State.busTimeout (s : State) : State :=
  match s.engine.channel with
  | .maskRead _ _ _ i g _ _ _ => (s.maskFault i g).nextOnBus
  | .imageRead _ _ => s.imageFault.nextOnBus
  | .imageWrite _ _ _ => s.imageFault.nextOnBus
  | .idle => s
  | .awaiting => s

/-! ### Meanings -/

/-- IMAGE IN (R164). -/
def execImageIn (ie : Bool) (s : State) : Result := .next (s.command 16#5 ie imageInEffect)

/-- IMAGE OUT (R165). -/
def execImageOut (ie : Bool) (s : State) : Result := .next (s.command 17#5 ie imageOutEffect)

/-- IMAGE_IN_WORD_ANSWER (R164). -/
def execImageInWordAnswer (word : Word) (s : State) : Result := .next (s.answerImage word)

/-- IMAGE_OUT_WORD_ACK (R165). -/
def execImageOutWordAck (s : State) : Result := .next s.acknowledgeImage

/-- BUS_TIMEOUT (R118). -/
def execBusTimeout (s : State) : Result := .next s.busTimeout

end Sys2Proof.Machine
end

