-- ==== Sys2Proof/Machine/HostPort.lean ====
section
/-! DEFINITION. The register window (chapters 10 and 11): the command word and the argument words, the event
register, the access pointer and the data word, and what a read of each word returns. -/

namespace Sys2Proof.Machine

/-! ### The command word -/

/-- A function code of 18 to 31 completes with UNKNOWN COMMAND (R160). -/
def unknownEffect (s : State) : State :=
  s.completeZero .unknownCommand

/-- The effect of a command once taken, by its function code (R159); `guardExpired` is the guard-expired
indicator as it stood when the command was taken (R58). -/
def commandEffect (guardExpired : Bool) (code : BitVec 5) : State → State :=
  match code.toNat with
  | 0 => noopEffect
  | 1 => openEffect
  | 2 => cloneEffect
  | 3 => retireEffect
  | 4 => findEffect
  | 5 => publishEffect
  | 6 => withdrawEffect
  | 7 => pushEffect
  | 8 => liftEffect
  | 9 => raiseEffect
  | 10 => lowerEffect
  | 11 => clearAirEffect
  | 12 => guardEffect guardExpired
  | 13 => setGeometryEffect
  | 14 => selectEffect
  | 15 => queryInputEffect
  | 16 => imageInEffect
  | 17 => imageOutEffect
  | _ => unknownEffect

/-- A command of a function code (R157). -/
def State.commandOf (s : State) (code : BitVec 5) (ie : Bool) : State :=
  s.command code ie (commandEffect s.guard.expired code)

/-- The write of the command word with READY written 1: IE and the function field take the written values
(R157). -/
def State.updateCommandWord (s : State) (value : Word) : State :=
  { s with cmd := { s.cmd with func := value.setWidth 5, ie := value.getLsbD 5 } }

/-- A write of the command word (R157, R158, R167). -/
def State.writeCommandWord (s : State) (value : Word) : State :=
  if s.resetLine then s
  else if ¬ s.cmd.ready then s.overrun
  else if value.getLsbD 7 then s.updateCommandWord value
  else s.commandOf (value.setWidth 5) (value.getLsbD 5)

/-- A write of an argument word: stored while READY is set, else an overrun (R154, R158, R167). -/
def State.writeArgument (s : State) (store : CommandUnit → CommandUnit) : State :=
  if s.resetLine then s
  else if ¬ s.cmd.ready then s.overrun
  else { s with cmd := store s.cmd }

/-- A write of a word of the command group (R154). -/
def State.writeGroup (s : State) (target : CommandGroup) (value : Word) : State :=
  match target with
  | .command => s.writeCommandWord value
  | .arg0 => s.writeArgument (fun u => { u with arg0 := value })
  | .arg1 => s.writeArgument (fun u => { u with arg1 := value })
  | .arg2 => s.writeArgument (fun u => { u with arg2 := value })

/-- A write of a register window word with no behaviour of its own: an argument word is stored, a read-only word
ignores it (R154). -/
def State.writePlain (s : State) (target : PlainWord) (value : Word) : State :=
  match target with
  | .arg0 => s.writeGroup .arg0 value
  | .arg1 => s.writeGroup .arg1 value
  | .arg2 => s.writeGroup .arg2 value
  | .result0 => s
  | .result1 => s
  | .summary0 => s
  | .summary1 => s
  | .programStatus => s
  | .feedAStatus => s
  | .feedBStatus => s
  | .fieldCounter => s

/-! ### The event register (R169) -/

/-- A write to word 6 clears each flag written as one (R169). -/
def State.writeEventFlags (s : State) (value : Word) : State :=
  if s.resetLine then s else { s with events := s.events.clear (EventBits.ofWord value) }

/-- A write to word 7 stores the mask (R169). -/
def State.writeEventMask (s : State) (value : Word) : State :=
  if s.resetLine then s else { s with mask := EventBits.ofWord value }

/-! ### The access pointer and the data word (R161 to R163) -/

/-- A write to word 10 replaces the pointer, or is ignored with ACCESS set (R161). -/
def State.writePointer (s : State) (value : Word) : State :=
  if s.resetLine then s
  else
    match s.port.transfer, parsePointer value with
    | none, some p => { s with port := { s.port with pointer := p } }
    | _, _ => s.refuseAccess

/-- The value a read of the data word returns: 0 while a transfer is in flight, else the record word at the
pointer (R162). -/
def State.dataWord (s : State) : Word :=
  if s.port.transfer.isSome then 0#16 else s.pointedWord

/-- A read of the data word (R162); while the reset line is asserted it returns the word as it stands and the
pointer holds its reset value (R167). -/
def State.readData (s : State) : State :=
  let answered := { s with port := { s.port with readData := s.dataWord } }
  if s.resetLine then answered
  else if s.port.transfer.isSome then answered.refuseAccess
  else answered.stepPointer

/-- A write of the data word (R163). -/
def State.writeData (s : State) (value : Word) : State :=
  if s.resetLine then s
  else if s.port.transfer.isSome then s.refuseAccess
  else (s.writePointed value).getD s.refuseAccess

/-! ### Reads (R154, R155) -/

/-- Register window word 0 (R155). -/
def CommandUnit.toWord (u : CommandUnit) : Word :=
  BitVec.ofNat 16 (u.func.toNat + 32 * bit u.ie + 128 * bit u.ready + 256 * u.completion.code)

/-- What a read of the register window word at an offset returns (R154). -/
def State.readRegister (s : State) (offset : Fin 16) : Word :=
  match offset.val with
  | 0 => s.cmd.toWord
  | 1 => s.cmd.arg0
  | 2 => s.cmd.arg1
  | 3 => s.cmd.arg2
  | 4 => s.cmd.result0
  | 5 => s.cmd.result1
  | 6 => s.events.toWord
  | 7 => s.mask.toWord
  | 8 => s.summaryLow
  | 9 => s.summaryHigh
  | 10 => s.port.pointer.toWord
  | 11 => s.dataWord
  | 12 => s.programStatus
  | 13 => s.feedA.statusWord
  | 14 => s.feedB.statusWord
  | _ => s.tb.fieldCounter

/-! ### Meanings -/

/-- UNKNOWN_COMMAND (R160). -/
def execUnknownCommand (code : BitVec 5) (ie : Bool) (s : State) : Result := .next (s.commandOf code ie)

/-- COMMAND_WORD_UPDATE (R157). -/
def execCommandWordUpdate (value : Word) (s : State) : Result := .next (s.writeCommandWord value)

/-- OVERRUN_WRITE (R158). -/
def execOverrunWrite (target : CommandGroup) (value : Word) (s : State) : Result :=
  .next (s.writeGroup target value)

/-- EVENT_FLAGS_WRITE (R169). -/
def execEventFlagsWrite (value : Word) (s : State) : Result := .next (s.writeEventFlags value)

/-- EVENT_MASK_WRITE (R169). -/
def execEventMaskWrite (value : Word) (s : State) : Result := .next (s.writeEventMask value)

/-- ACCESS_POINTER_WRITE (R161). -/
def execAccessPointerWrite (value : Word) (s : State) : Result := .next (s.writePointer value)

/-- ACCESS_DATA_READ (R162). -/
def execAccessDataRead (s : State) : Result := .next s.readData

/-- ACCESS_DATA_WRITE (R163). -/
def execAccessDataWrite (value : Word) (s : State) : Result := .next (s.writeData value)

/-- REGISTER_WRITE (R154). -/
def execRegisterWrite (target : PlainWord) (value : Word) (s : State) : Result :=
  .next (s.writePlain target value)

end Sys2Proof.Machine
end

