-- ==== Sys2Proof/Machine/Reset.lean ====
section
/-! DEFINITION. Power-on, bus reset and the release of the computer's reset line. -/

namespace Sys2Proof.Machine

/-- Power-on: every block takes its power-on values (R22, R59, R92, R108, R125, R141, R167, R168).
The queue keeps the commands that wait; where the computer's reset line is asserted the completion code reads RESET
(section 11.3, log 20). -/
def State.powerOn (s : State) : State :=
  { State.reset with
    resetLine := s.resetLine
    cmd := CommandUnit.cleared (if s.resetLine then .reset else .ok)
    pending := s.pending }

/-- A record at bus reset: FREE at its next generation; a FREE slot keeps its generation (R23). -/
def Slot.busReset (r : Slot) : Slot :=
  if r.state = .free then r else Slot.blank (r.gen + 1)

/-- The MASK windows of the line in progress are abandoned from a sample on (R107). -/
def Snapshot.abandonMasks (snap : Snapshot) (sample : Int) : Snapshot :=
  { snap with entries := snap.entries.map (fun e => if e.mode = .mask then e.abandon sample else e) }

/-- Bus reset: the Window Table, the Layer Stack, the Mask Fetch Engine, the Command Unit, the Access Port and the
Event Register take their reset values, the held SELECT is abandoned, and the computer's reset line is asserted; the
timebase, the lock contexts and the cut-blanking count run on (R23, R60, R107, R124, R125, R141, R153, R167,
R168). -/
def State.busReset (s : State) : State :=
  { s with
    resetLine := true
    slots := Vector.ofFn (fun i => (s.slot i).busReset)
    stack := []
    held := none
    guard := AirGuard.off
    keyer := { s.keyer with
      snapshot := s.keyer.snapshot.map (fun snap => snap.abandonMasks s.samplePosition) }
    engine := Engine.stopped
    tb := { s.tb with heldSelect := none }
    cmd := CommandUnit.cleared .reset
    port := { s.port with pointer := Pointer.start, transfer := none }
    events := EventBits.none
    mask := EventBits.none
    marks := none }

/-- POWER_ON (R22). -/
def execPowerOn (s : State) : Result := .next s.powerOn

/-- BUS_RESET (R23). -/
def execBusReset (s : State) : Result := .next s.busReset

/-- BUS_RESET_RELEASE: the computer's reset line is released (R167). -/
def execBusResetRelease (s : State) : Result := .next { s with resetLine := false }

end Sys2Proof.Machine
end

