-- ==== Sys2Proof/Machine/Switching.lean ====
section
/-! DEFINITION. What the inputs' events do to the part: lock changes, lines and fields that follow an input, the
two source switches, and the end of a computer line (R126 to R138, R143 to R153). -/

namespace Sys2Proof.Machine

/-! ### The switches -/

/-- The program input changes; from FREE RUN the timebase takes the new input's standard (R150, R151). -/
def State.takeInput (s : State) (x : Input) : State :=
  { s with tb := { s.tb with
      program := x
      standard := if s.tb.state = .freeRun then (s.ctx x).standard.getD s.tb.standard else s.tb.standard } }

/-- The timebase after a CUT, before its field start: the new input, residuals 0, and FOLLOW with the switch over
and TIMEBASE set, or COAST with the switch made (R150). -/
def State.cutTo (s : State) (x : Input) : State :=
  let z := { s.takeInput x with tb := { (s.takeInput x).tb with h := 0, v := 0 } }
  if (s.ctx x).lock = .locked then
    { z with
      tb := { z.tb with state := .follow, switch := .none }
      events := { z.events with timebase := true } }
  else { z.enterCoast with tb := { z.enterCoast.tb with switch := .made } }

/-- The computer's field started at this very moment, at the new input's line start (R150). -/
def State.fieldJustStarted (s : State) (x : Input) : Bool :=
  decide (s.tb.linesRun = 0) && decide ((s.ctx x).reference = some s.tb.lineStartAt)

/-- A record as it was marked before a conversion that is superseded: no attention flag but those marked, and for a
converted record its off-raster history (R87, R112, R150). -/
def Slot.unmark (r marked : Slot) : Slot :=
  { r with
    attention := r.attention.meet marked.attention
    geometry :=
      if r.state.converted then { r.geometry with offRaster := marked.geometry.offRaster } else r.geometry }

/-- The superseded conversion and line of the latest field start are taken back by its marks: the off-raster
histories, and the CONVERT and LATE flags and WINDOW where nothing else has set them (R150, R171, log 16). -/
def State.unmark (s : State) : State :=
  match s.marks with
  | none => s
  | some m =>
    { s with
      marks := none
      slots := Vector.ofFn (fun i => (s.slot i).unmark m.records[i])
      events := { s.events with window := s.events.window && m.window } }

/-- The effects of a CUT carried by a field start that has just come (R150): that field start's conversion and line are
taken back, and the line in progress, the latch, the conversion, the cut blanking and the line opened are made anew. -/
def State.recutFieldStart (s : State) : State :=
  ((((s.lineAt s.tb.lineStartAt).unmark.latch.convertStep).blankingStep true).engineStep).settleHeldSelect

/-- The field and the line in progress are cut short at the new input's line start, where the new line starts (R143,
R150). -/
def State.cutLine (s : State) (x : Input) : State :=
  { s with tb := { s.tb with linesRun := s.tb.linesRun + 1 } }.startLine ((s.ctx x).reference.getD s.now)

/-- A CUT switch: the field in progress ends at once, and the new field takes the parity of the new input's
field (R150, R143). -/
def State.cutSwitch (s : State) (x : Input) : State :=
  let f :=
    if s.fieldJustStarted x then (s.cutTo x).recutFieldStart
    else ((s.cutTo x).cutLine x).fieldStart true
  { f with tb := { f.tb with parity := (s.ctx x).parity } }

/-- A SLEW switch: the residuals are measured against the new input, the line and the field in progress run on, and no
field start comes (R151). A field that runs on in COAST keeps its parity (R143). -/
def State.slewTo (s : State) (x : Input) : State :=
  let t := s.takeInput x
  let run := { t with tb := { t.tb with switch := .made, lineFollows := false } }
  if (s.ctx x).lock = .locked then { run with tb := run.tb.measure (s.ctx x) }.slewOrFollow
  else { run with tb := { run.tb with h := run.tb.measureH (s.ctx x), v := run.tb.measureV (s.ctx x) } }.enterCoast

/-- The computer line in progress, or one that would start at a sample, starts beside an input's latest line start: no
more than half a nominal line from it. -/
def State.beside (s : State) (x : Input) (time : Nat) : Bool :=
  decide (2 * ((((s.ctx x).reference.getD time : Nat) : Int) - time).natAbs ≤ s.tb.standard.nominal)

/-- In FOLLOW the computer's field ends here, at the start of the line in progress, which stands beside the boundary
that the program input has just marked (R142, R143). A line of its own length that is still to end there ends the
field as it ends (`State.lineEndsField`). -/
def State.endsAtBoundary (s : State) (x : Input) : Bool :=
  decide (s.tb.state = .follow) && decide (s.tb.linesRun ≠ 0) && s.beside x s.tb.lineStartAt

/-- A SLEW switch, with no field start at it, also where it enters FOLLOW: the field in progress then ends at the new
input's next boundary (R151, R142). -/
def State.slewSwitch (s : State) (x : Input) : State :=
  (s.slewTo x).settleHeldSelect

/-- The switch scheduled for an input, made in its mode (R149). -/
def State.makeSwitch (s : State) (x : Input) : SwitchMode → State
  | .cut => s.cutSwitch x
  | .slew => s.slewSwitch x

/-! ### What a context hands on (R137) -/

/-- A switch scheduled for an input is withdrawn (R149). -/
def State.withdrawSwitch (s : State) (x : Input) : State :=
  match s.tb.switch with
  | .scheduled y _ => if y = x then { s with tb := { s.tb with switch := .none } }.signalTimebase else s
  | .none => s
  | .made => s

/-- The timebase at a change of the program input's lock state (R146). -/
def State.programLockChanged (s : State) (old : LockState) : State :=
  if old = .locked then
    if s.tb.state = .follow ∨ s.tb.state = .slew then s.enterCoast else s
  else if s.programCtx.lock = .locked then
    if s.tb.state = .freeRun ∨ s.tb.state = .coast then s.relock else s
  else s

/-- What follows a change of an input's lock state from `old` (R138, R146, R149). -/
def State.lockChanged (s : State) (x : Input) (old : LockState) : State :=
  if (s.ctx x).lock = old then s
  else
    let f := s.signalLock
    let w := if (s.ctx x).lock = .hunt ∨ (s.ctx x).lock = .noSignal then f.withdrawSwitch x else f
    if x = s.tb.program then w.programLockChanged old else w

/-- A new line start of the program input, found or put in, while the computer line in progress follows it: the
computer's line start falls there. A line start no more than half a line from the computer's line start only sets it
right; any other ends the computer's line, and in SLEW the field where the line is its last (R143, R145). `old` is the
reference before the event. -/
def State.followLine (s : State) (x : Input) (old : Option Nat) : State :=
  match (s.ctx x).reference with
  | none => s
  | some t =>
    if ¬ (x = s.tb.program ∧ s.tb.lineFollows) ∨ old = some t then s
    else if s.beside x s.tb.lineStartAt then s.lineAt t
    else
      let f := s.endLine.startLine t
      if s.tb.state = .slew ∧ s.fieldLength ≤ s.tb.linesRun + 1 then f.fieldStart false else f

/-- A Feed vertical sync is handed on: a switch scheduled for the input is made, else in FOLLOW the field ends at
the program input's boundary (R142, R143, R149). -/
def State.handOn (s : State) (x : Input) : State :=
  match s.tb.switch with
  | .scheduled y mode =>
    if y = x then s.makeSwitch x mode
    else if x = s.tb.program ∧ s.endsAtBoundary x then s.fieldStart false
    else s
  | _ => if x = s.tb.program ∧ s.endsAtBoundary x then s.fieldStart false else s

/-- An event has changed an input's context: what it hands on, in order, and then a held SELECT that waits on the
switch (R137, R152). -/
def State.tracked (s : State) (x : Input) (t : Tracked) : State :=
  let f := ((s.setCtx x t.ctx).lockChanged x (s.ctx x).lock).followLine x (s.ctx x).reference
  (if t.vsync then f.handOn x else f).settleHeldSelect

/-- The sample clock stands at least at the time of an event of an input. -/
def State.clockAt (s : State) (time : Nat) : State :=
  { s with now := max s.now time }

/-- A line start of an input, with the vertical sync sequence that it begins, if it begins one. -/
def State.lineEvent (s : State) (x : Input) (time : Nat) (seq : Option Parity) : State :=
  (s.clockAt time).tracked x ((s.ctx x).lineEvent time seq)

/-! ### The end of a computer line (R143, R145) -/

/-- The line that ends is the last of its field: by the field's length, where the timebase ends fields by its own
count (R143), or in FOLLOW, for a line made before FOLLOW was entered, where it ends beside the boundary that the
program input has just marked (R142). -/
def State.lineEndsField (s : State) : Bool :=
  if s.tb.state = .follow then
    !s.tb.lineFollows && decide (s.programCtx.line = 0)
      && s.beside s.tb.program (s.tb.lineStartAt + s.tb.lineLength)
  else decide (s.fieldLength ≤ s.tb.linesRun + 1)

/-- The line in progress ends by its own length, and the next line starts under the state that its end leaves (R143,
R145, R146). -/
def State.nextComputerLine (s : State) : State :=
  s.endLine.settleSlew.startLine (s.tb.lineStartAt + s.tb.lineLength)

/-- The end of a computer line (R143, R145). -/
def State.computerLineEnd (s : State) : State :=
  (if s.lineEndsField then s.nextComputerLine.fieldStart false else s.nextComputerLine).settleHeldSelect

/-! ### Meanings -/

/-- SYNC_PULSE: any sync pulse of an input (R126, R128). -/
def execSyncPulse (x : Input) (time : Nat) (s : State) : Result :=
  .next ((s.clockAt time).tracked x { ctx := (s.ctx x).pulse time, vsync := false })

/-- LINE_START: a line start that begins no vertical sync sequence (R129, R130, R132, R133, R135, R136). -/
def execLineStart (x : Input) (time : Nat) (s : State) : Result :=
  .next (s.lineEvent x time none)

/-- VERTICAL_SYNC_SEQUENCE: a vertical sync sequence and the line start that begins it (R126, R129, R130, R132,
R133, R135). -/
def execVerticalSyncSequence (x : Input) (time : Nat) (parity : Parity) (s : State) : Result :=
  .next (s.lineEvent x time (some parity))

/-- The vertical sync sequence of the other parity at the end of VERIFY's fourth field is awaited next (R130). -/
def LockContext.passDue (c : LockContext) : Bool :=
  decide (c.lock = .verify) && decide (Config.verifyFields ≤ c.verified + 1)
    && decide (c.line + 1 = c.expected)

/-- VERIFY_PASS: the fourth field passes, and the context enters LOCKED at the sequence that ends it (R130,
R132). -/
def execVerifyPass (x : Input) (time : Nat) (s : State) : Result :=
  if (s.ctx x).passDue then .next (s.lineEvent x time (some (s.ctx x).parity.other)) else .next s

/-- MISSING_LINE_START: a search window closes with no line start (R134, R135). -/
def execMissingLineStart (x : Input) (s : State) : Result :=
  .next (s.tracked x ((s.ctx x).missingLine s.now))

/-- A line start at a time would be the eighth good one in HOLDOVER (R135). -/
def LockContext.relockDue (c : LockContext) (time : Nat) : Bool :=
  decide (c.lock = .holdover) && decide (Config.goodLimit ≤ c.run + 1)
    && decide (c.distance time ≤ Config.jumpTolerance)

/-- HOLDOVER_RELOCK: the eighth good line start (R135). -/
def execHoldoverRelock (x : Input) (time : Nat) (s : State) : Result :=
  if (s.ctx x).relockDue time then .next (s.lineEvent x time none) else .next s

/-- The next line start reaches HOLDOVER's limit (R136). -/
def LockContext.limitDue (c : LockContext) : Bool :=
  decide (c.lock = .holdover) && decide (c.lineStandard.holdoverLimit ≤ c.heldLines + 1)

/-- HOLDOVER_LIMIT: the line start that reaches the limit, the limit taken before anything else of it (R136). -/
def execHoldoverLimit (x : Input) (s : State) : Result :=
  if (s.ctx x).limitDue then .next (s.tracked x { ctx := (s.ctx x).enterHunt s.now, vsync := false })
  else .next s

/-- LOSS_TIMER_EXPIRY: 8 line periods have passed with no sync pulse (R127). -/
def execLossTimerExpiry (x : Input) (s : State) : Result :=
  if (s.ctx x).lock = .noSignal then .next s
  else .next (s.tracked x { ctx := (s.ctx x).enterNoSignal, vsync := false })

/-- CUT_SWITCH: the scheduled CUT is made at the Feed vertical sync of its input (R150). -/
def execCutSwitch (s : State) : Result :=
  match s.tb.switch with
  | .scheduled x .cut => .next (s.cutSwitch x)
  | _ => .next s

/-- SLEW_SWITCH: the scheduled SLEW is made at the Feed vertical sync of its input (R151). -/
def execSlewSwitch (s : State) : Result :=
  match s.tb.switch with
  | .scheduled x .slew => .next (s.slewSwitch x)
  | _ => .next s

/-- COMPUTER_LINE_END (R145). -/
def execComputerLineEnd (s : State) : Result := .next s.computerLineEnd

end Sys2Proof.Machine
end

