-- ==== Sys2Proof/Machine/Dispatch.lean ====
section
/-! DEFINITION. Every command of the table and its meaning. -/

namespace Sys2Proof.Machine

/-- The effect of a command on everything but the queue. -/
def exec (i : Instr) (s : State) : Host.Outcome State Fault Refusal :=
  match i with
  | .powerOn => Sys2Proof.Machine.execPowerOn s
  | .busReset => Sys2Proof.Machine.execBusReset s
  | .noop ie => Sys2Proof.Machine.execNoop ie s
  | .openRecord ie => Sys2Proof.Machine.execOpenRecord ie s
  | .clone ie => Sys2Proof.Machine.execClone ie s
  | .retire ie => Sys2Proof.Machine.execRetire ie s
  | .find ie => Sys2Proof.Machine.execFind ie s
  | .publish ie => Sys2Proof.Machine.execPublish ie s
  | .withdraw ie => Sys2Proof.Machine.execWithdraw ie s
  | .push ie => Sys2Proof.Machine.execPush ie s
  | .lift ie => Sys2Proof.Machine.execLift ie s
  | .raise ie => Sys2Proof.Machine.execRaise ie s
  | .lower ie => Sys2Proof.Machine.execLower ie s
  | .clearAir ie => Sys2Proof.Machine.execClearAir ie s
  | .guard ie => Sys2Proof.Machine.execGuard ie s
  | .setGeometry ie => Sys2Proof.Machine.execSetGeometry ie s
  | .select ie => Sys2Proof.Machine.execSelect ie s
  | .queryInput ie => Sys2Proof.Machine.execQueryInput ie s
  | .imageIn ie => Sys2Proof.Machine.execImageIn ie s
  | .imageOut ie => Sys2Proof.Machine.execImageOut ie s
  | .unknownCommand code ie => Sys2Proof.Machine.execUnknownCommand code ie s
  | .commandWordUpdate value => Sys2Proof.Machine.execCommandWordUpdate value s
  | .overrunWrite target value => Sys2Proof.Machine.execOverrunWrite target value s
  | .eventFlagsWrite value => Sys2Proof.Machine.execEventFlagsWrite value s
  | .eventMaskWrite value => Sys2Proof.Machine.execEventMaskWrite value s
  | .accessPointerWrite value => Sys2Proof.Machine.execAccessPointerWrite value s
  | .accessDataRead => Sys2Proof.Machine.execAccessDataRead s
  | .accessDataWrite value => Sys2Proof.Machine.execAccessDataWrite value s
  | .registerWrite target value => Sys2Proof.Machine.execRegisterWrite target value s
  | .fieldStart => Sys2Proof.Machine.execFieldStart s
  | .adoption slot => Sys2Proof.Machine.execAdoption slot s
  | .lifetimeExpiry slot => Sys2Proof.Machine.execLifetimeExpiry slot s
  | .expiryAutoRetire slot => Sys2Proof.Machine.execExpiryAutoRetire slot s
  | .blinkToggle slot => Sys2Proof.Machine.execBlinkToggle slot s
  | .blinkHide slot => Sys2Proof.Machine.execBlinkHide slot s
  | .guardExpiry => Sys2Proof.Machine.execGuardExpiry s
  | .pushApply => Sys2Proof.Machine.execPushApply s
  | .liftApply => Sys2Proof.Machine.execLiftApply s
  | .raiseApply => Sys2Proof.Machine.execRaiseApply s
  | .lowerApply => Sys2Proof.Machine.execLowerApply s
  | .clearAirApply => Sys2Proof.Machine.execClearAirApply s
  | .retireApply => Sys2Proof.Machine.execRetireApply s
  | .heldSelectTimeout => Sys2Proof.Machine.execHeldSelectTimeout s
  | .heldSelectExamine => Sys2Proof.Machine.execHeldSelectExamine s
  | .lineBegin line => Sys2Proof.Machine.execLineBegin line s
  | .takingPoint => Sys2Proof.Machine.execTakingPoint s
  | .busGrant => Sys2Proof.Machine.execBusGrant s
  | .maskReadAnswer word => Sys2Proof.Machine.execMaskReadAnswer word s
  | .imageInWordAnswer word => Sys2Proof.Machine.execImageInWordAnswer word s
  | .imageOutWordAck => Sys2Proof.Machine.execImageOutWordAck s
  | .busTimeout => Sys2Proof.Machine.execBusTimeout s
  | .syncPulse input time => Sys2Proof.Machine.execSyncPulse input time s
  | .lineStart input time => Sys2Proof.Machine.execLineStart input time s
  | .verifyPass input time => Sys2Proof.Machine.execVerifyPass input time s
  | .verticalSyncSequence input time parity => Sys2Proof.Machine.execVerticalSyncSequence input time parity s
  | .missingLineStart input => Sys2Proof.Machine.execMissingLineStart input s
  | .holdoverRelock input time => Sys2Proof.Machine.execHoldoverRelock input time s
  | .holdoverLimit input => Sys2Proof.Machine.execHoldoverLimit input s
  | .lossTimerExpiry input => Sys2Proof.Machine.execLossTimerExpiry input s
  | .cutSwitch => Sys2Proof.Machine.execCutSwitch s
  | .slewSwitch => Sys2Proof.Machine.execSlewSwitch s
  | .computerLineEnd => Sys2Proof.Machine.execComputerLineEnd s
  | .busResetRelease => Sys2Proof.Machine.execBusResetRelease s

end Sys2Proof.Machine
end

