-- ==== Sys2Proof/Machine/Clock.lean ====
section
/-! DEFINITION. The part's own clock: which of the timed events of the table is due, and what the block does while no
command waits (log 2). -/

namespace Sys2Proof.Machine

/-- Eight line periods have passed since the last sync pulse (R127). -/
def LockContext.lossDue (c : LockContext) (now : Nat) : Bool :=
  match c.lastPulse with
  | none => false
  | some t => decide (c.lock ≠ .noSignal) && decide (t + c.lossLimit ≤ now)

/-- The search window of the predicted line start has closed (R134, R135). -/
def LockContext.missingDue (c : LockContext) (now : Nat) : Bool :=
  match c.predicted with
  | none => false
  | some t => c.flywheels && decide (t + Config.searchWindow < now)

/-- The sample at which the operation in flight was presented (R118). -/
def Channel.since : Channel → Option Nat
  | .idle => none
  | .awaiting => none
  | .maskRead _ _ _ _ _ _ _ since => some since
  | .imageRead _ since => some since
  | .imageWrite _ _ since => some since

/-- The operation in flight has reached the 10 µs mark (R118). -/
def State.timeoutDue (s : State) : Bool :=
  match s.engine.channel.since with
  | none => false
  | some t => decide (t + Config.busTimeoutSamples ≤ s.now)

/-- The computer line in progress ends by its own length and has run it (R143, R145). -/
def State.lineEndDue (s : State) : Bool :=
  !s.tb.lineFollows && decide (s.tb.lineStartAt + s.tb.lineLength ≤ s.now)

/-- The picture line of the raster line in progress, where it is one and the Keyer has not begun it (R95, R96). A line
whose start is put in by prediction is begun when the search window closes, and takes the values that stand then, which
the spec leaves open (DESIGN CHOICE, log 40). -/
def State.lineBeginDue (s : State) : Option Nat :=
  let first := s.tb.latched.standard.firstPictureLine
  if s.lineFresh ∧ s.rasterLine.1 ≤ s.now ∧ first ≤ s.rasterLine.2.1
      ∧ s.rasterLine.2.1 < first + s.tb.latched.standard.pictureLines then
    some (s.rasterLine.2.1 - first)
  else none

/-- The line being drawn has reached the Keyer's next demand (R104). -/
def State.takingDue (s : State) : Bool :=
  match s.demand with
  | none => false
  | some (sample, _, _) => decide (sample ≤ s.samplePosition)

/-- The timed event that is due now, in one fixed order among those due together (log 2, log 3). -/
def State.due (s : State) : Option Instr :=
  if s.feedA.lossDue s.now then some (.lossTimerExpiry .feedA)
  else if s.feedB.lossDue s.now then some (.lossTimerExpiry .feedB)
  else if s.feedA.missingDue s.now then some (.missingLineStart .feedA)
  else if s.feedB.missingDue s.now then some (.missingLineStart .feedB)
  else if s.timeoutDue then some .busTimeout
  else if s.lineEndDue then some .computerLineEnd
  else
    match s.lineBeginDue with
    | some line => some (.lineBegin line)
    | none => if s.takingDue then some .takingPoint else none

/-- With no command waiting, the timed event that is due is carried out; if none is due the sample clock advances
by one (log 2). -/
def State.idleStep (s : State) : Result :=
  match s.due with
  | some c => exec c s
  | none => .next { s with now := s.now + 1 }

end Sys2Proof.Machine
end

