-- ==== Sys2Proof/Safety.lean ====
section
/-! DEFINITION. What the claims about the machine are stated with: the laws that every step keeps, the state that a
taken or completed command leaves, and when a command is accepted. -/

namespace Sys2Proof.Machine

/-! ### Commands -/

/-- The command word accepts a command: READY is set and the computer's reset line is not asserted (R157, R167). -/
def Accepts (s : State) : Prop :=
  s.cmd.ready = true ∧ s.resetLine = false

/-- The state once a command has been taken: function field, IE, READY clear, the guard's count reset (R56, R157). -/
def Taken (s : State) (code : BitVec 5) (ie : Bool) : State :=
  { s with
    cmd := { s.cmd with func := code, ie := ie, ready := false }
    guard := { s.guard with count := 0, expired := false } }

/-- The state once a command has been taken and has completed: also the results, the completion code, READY and DONE
(R56, R157, R158). -/
def Completed (s : State) (code : BitVec 5) (ie : Bool) (c : Completion) (r0 r1 : Word) : State :=
  { s with
    cmd := { s.cmd with
      func := code, ie := ie, ready := true, completion := c, result0 := r0, result1 := r1 }
    guard := { s.guard with count := 0, expired := false }
    events := { s.events with done := true } }

/-- The state once a command in progress completes (R158). -/
def Finished (s : State) (c : Completion) (r0 r1 : Word) : State :=
  { s with
    cmd := { s.cmd with ready := true, completion := c, result0 := r0, result1 := r1 }
    events := { s.events with done := true } }

/-- The commands that name a handle in ARG0, with their function codes (R159). -/
inductive NamesHandle (ie : Bool) : BitVec 5 → Instr → Prop where
  | clone : NamesHandle ie 2#5 (.clone ie)
  | retire : NamesHandle ie 3#5 (.retire ie)
  | publish : NamesHandle ie 5#5 (.publish ie)
  | withdraw : NamesHandle ie 6#5 (.withdraw ie)
  | push : NamesHandle ie 7#5 (.push ie)
  | lift : NamesHandle ie 8#5 (.lift ie)
  | raise : NamesHandle ie 9#5 (.raise ie)
  | lower : NamesHandle ie 10#5 (.lower ie)

/-- ARG0 names the record in a slot: the slot is not FREE and the handle's generation is its own (R12). -/
def Names (s : State) (i : SlotId) : Prop :=
  (s.slot i).state ≠ .free ∧ s.cmd.arg0 = handleOf i (s.slot i).gen

/-- The record in a slot is replaced; nothing else changes. -/
def WithSlot (s : State) (i : SlotId) (r : Slot) : State :=
  { s with slots := s.slots.set i r }

/-! ### Laws -/

/-- The layer stack never holds more than 8 entries; every ON AIR record stands on it exactly once, and every entry
is an ON AIR record (R43, R44). -/
def StackLaw (s : State) : Prop :=
  s.stack.Nodup ∧ s.stack.length ≤ Config.stackDepth ∧ ∀ i, i ∈ s.stack ↔ (s.slot i).state = .onAir

/-- A record's state and its parts agree: a FREE slot holds nothing but its generation (R11), an active copy is present
exactly in STANDBY, ON AIR and FAULTED (R9, R34, R35), and the countdown is at most 255 (R24). What a DRAFT record shows
in its derived words stands in `GeometryLaw`. -/
def RecordLaw (s : State) : Prop :=
  ∀ i,
    ((s.slot i).state = .free → s.slot i = Slot.blank (s.slot i).gen) ∧
    ((s.slot i).active.isSome = (s.slot i).state.converted) ∧
    (∀ n, (s.slot i).pending = some n → n ≤ 255)

/-- The staging copy of a pending record passes the record checks, and so does every active copy; the current mix
level stays within 0..63 (R28, R30, R72, R73). -/
def CopyLaw (s : State) : Prop :=
  ∀ i,
    ((s.slot i).pending.isSome → (s.slot i).staging.legal = true) ∧
    (∀ c, (s.slot i).active = some c → c.legal = true) ∧
    (s.slot i).counters.mix ≤ 63

/-- Four derived words are all the indefinite value (R77). -/
def Geometry.indefinite (g : Geometry) : Prop :=
  g.left = Config.indefinite ∧ g.right = Config.indefinite ∧ g.top = Config.indefinite
    ∧ g.bottom = Config.indefinite

/-- Four derived words lie in order within the raster of a standard (R86). -/
def Geometry.onRaster (g : Geometry) (std : Standard) : Prop :=
  0 ≤ g.left ∧ g.left ≤ g.right ∧ g.right ≤ 719 ∧ 0 ≤ g.top ∧ g.top ≤ g.bottom ∧ g.bottom ≤ std.pictureLines - 1

/-- Every record with an active copy has derived words that are indefinite or on the raster of the latched standard
(R86), and a DRAFT record's are indefinite (R7). -/
def GeometryLaw (s : State) : Prop :=
  ∀ i,
    ((s.slot i).state = .draft → (s.slot i).geometry.indefinite) ∧
    ((s.slot i).active.isSome →
      (s.slot i).geometry.indefinite ∨ (s.slot i).geometry.onRaster s.tb.latched.standard)

/-- The commands in progress: a held request, a held SELECT, an image transfer (R46, R153, R164). -/
def commandsInProgress (s : State) : Nat :=
  bit s.held.isSome + bit s.tb.heldSelect.isSome + bit s.port.transfer.isSome

/-- At most one command is in progress, and READY is clear exactly while one is (R158). -/
def ReadyLaw (s : State) : Prop :=
  commandsInProgress s ≤ 1 ∧ (s.cmd.ready = false ↔ commandsInProgress s = 1)

/-- The timebase is in FOLLOW or SLEW only while the program input's context is LOCKED (R146). -/
def FollowLaw (s : State) : Prop :=
  s.tb.state = .follow ∨ s.tb.state = .slew → s.programCtx.lock = .locked

/-- The lock states in which a standard is known (R131). -/
def LockState.knowsStandard : LockState → Bool
  | .noSignal => false
  | .hunt => false
  | .verify => true
  | .locked => true
  | .holdover => true

/-- An input's standard is known exactly when its context is in VERIFY, LOCKED or HOLDOVER (R131), and then the
remembered standard is the same one (R130, R131); the parity reads first in NO SIGNAL and HUNT, and there is no measured
line period in NO SIGNAL (R127, R129); the measured line period is 1..4095 samples and the head-switch count 0..255
(R125). -/
def ContextLaw (s : State) : Prop :=
  ∀ x, (s.ctx x).standard.isSome = (s.ctx x).lock.knowsStandard ∧
    ((s.ctx x).standard.isSome → (s.ctx x).remembered = (s.ctx x).standard) ∧
    ((s.ctx x).lock = .noSignal ∨ (s.ctx x).lock = .hunt → (s.ctx x).parity = .first) ∧
    ((s.ctx x).lock = .noSignal → (s.ctx x).period = none) ∧
    (∀ p, (s.ctx x).period = some p → 1 ≤ p ∧ p ≤ 4095) ∧
    (s.ctx x).headSwitch ≤ 255

/-- The channel has a mask read in flight. -/
def Channel.isMaskRead : Channel → Bool
  | .maskRead _ _ _ _ _ _ _ _ => true
  | .idle => false
  | .awaiting => false
  | .imageRead _ _ => false
  | .imageWrite _ _ _ => false

/-- The silo never holds more than 16 words, a mask read in flight has room for its word, and at most four descriptor
places are in use (R108, R109). -/
def EngineLaw (s : State) : Prop :=
  s.engine.silo.length ≤ Config.siloDepth ∧
  (s.engine.channel.isMaskRead = true → s.engine.silo.length + 1 ≤ Config.siloDepth) ∧
  s.engine.descs.length ≤ Config.descriptorPlaces

/-- The ranges of R141: residuals, set and latched scale and trim; the cut-blanking count is 0..2 (R92). -/
def TimebaseLaw (s : State) : Prop :=
  (-432 ≤ s.tb.h ∧ s.tb.h ≤ 431) ∧ (-156 ≤ s.tb.v ∧ s.tb.v ≤ 156) ∧
  (64 ≤ s.tb.setScale ∧ s.tb.setScale ≤ 128) ∧ (-32 ≤ s.tb.setTrim ∧ s.tb.setTrim ≤ 31) ∧
  (64 ≤ s.tb.latched.scale ∧ s.tb.latched.scale ≤ 128) ∧
  (-32 ≤ s.tb.latched.trim ∧ s.tb.latched.trim ≤ 31) ∧
  (-432 ≤ s.tb.latched.h ∧ s.tb.latched.h ≤ 431) ∧ (-156 ≤ s.tb.latched.v ∧ s.tb.latched.v ≤ 156) ∧
  s.keyer.cutBlanking ≤ Config.cutBlankingFields

/-- The residuals are 0 in FOLLOW and in FREE RUN (R144); in FREE RUN and COAST the computer line in progress runs to
its own length (R143); and a scheduled switch is for the input that is not on program (R149). -/
def ResidualLaw (s : State) : Prop :=
  (s.tb.state = .follow ∨ s.tb.state = .freeRun → s.tb.h = 0 ∧ s.tb.v = 0) ∧
  (s.tb.state = .freeRun ∨ s.tb.state = .coast → s.tb.lineFollows = false) ∧
  ∀ x mode, s.tb.switch = .scheduled x mode → x ≠ s.tb.program

/-- The air guard's count never passes its setting, 0..255, and stands at it while the guard is expired (R56, R57). -/
def GuardLaw (s : State) : Prop :=
  s.guard.setting ≤ 255 ∧ s.guard.count ≤ s.guard.setting ∧
  (s.guard.expired = true → s.guard.count = s.guard.setting)

/-- A held SELECT waits on a switch in flight and has counted fewer than 48 field starts (R153). -/
def HeldSelectLaw (s : State) : Prop :=
  ∀ q, s.tb.heldSelect = some q → s.tb.switch ≠ .none ∧ q.count < Config.heldSelectLimit

/-! ### What the statements about single commands speak of -/

/-- A record as OPEN and CLONE leave it (R7, R8, R13, R14). -/
def FreshDraft (gen : Generation) (staging : Copy) : Slot :=
  { state := .draft, gen := gen, staging := staging, active := none, pending := none,
    counters := { mix := 0, lifetime := 0, hidden := false, halted := false },
    geometry :=
      { left := -32768, right := -32768, top := -32768, bottom := -32768, maskOrigin := 0, rowBase := 0,
        offRaster := false },
    attention := { evicted := false, late := false, convert := false, expired := false, fetchFault := false } }

/-- A slot is the lowest-numbered FREE slot (R13). -/
def LowestFree (s : State) (i : SlotId) : Prop :=
  (s.slot i).state = .free ∧ ∀ j, j < i → (s.slot j).state ≠ .free

/-- Word k of a staging copy passes its record check (R26, R27). -/
def WordPasses (cp : Copy) (k : Nat) : Prop :=
  match k with
  | 0 => cp[0].toNat ≤ 255
  | 1 => cp[1].toNat < 512
  | 2 => -1024 ≤ cp[2].toInt ∧ cp[2].toInt ≤ 1023
  | 3 => -1024 ≤ cp[3].toInt ∧ cp[3].toInt ≤ 1023 ∧ cp[2].toInt ≤ cp[3].toInt
  | 4 => cp[4].toNat ≤ 287
  | 5 => cp[5].toNat ≤ 287 ∧ cp[4].toNat ≤ cp[5].toNat
  | 6 => cp[6].toNat ≤ 255
  | 7 => cp[7].toNat ≤ 63
  | 8 => cp[8] &&& 0xF0C0#16 = 0#16
  | 11 => -16 ≤ cp[11].toInt ∧ cp[11].toInt ≤ 15
  | 12 => cp[1].toNat % 4 = 2 → cp[12].toNat ≤ 255
  | 14 => cp[1].toNat % 4 = 2 → 1 ≤ cp[14].toNat ∧ cp[14].toNat ≤ 64
  | 15 => cp[1].toNat % 4 = 2 → 1 ≤ cp[15].toNat ∧ cp[15].toNat ≤ 45
  | _ => True

/-- The result words name the program input as SELECT reports it (R149). -/
def programWord (s : State) : Word :=
  match s.tb.program with
  | .feedA => 0#16
  | .feedB => 1#16

/-- The table of R149: the completion of a SELECT examined now, and the switch item it leaves. -/
def selectVerdict (s : State) (x : Input) (mode : SwitchMode) (confirm : Bool) : Completion × SwitchItem :=
  if x = s.tb.program then (.ok, s.tb.switch)
  else if (s.ctx x).lock ≠ .locked then (.noLock, s.tb.switch)
  else if (s.ctx x).sourceChanged = true ∧ confirm = false then (.unconfirmed, s.tb.switch)
  else if (s.ctx x).standard ≠ some s.tb.standard ∧ s.tb.state ≠ .freeRun then
    (.standardMismatch, s.tb.switch)
  else (.ok, .scheduled x mode)

/-- The mode argument of SELECT (R149). -/
def modeWord : SwitchMode → Word
  | .cut => 0#16
  | .slew => 1#16

/-- The input argument of SELECT and QUERY INPUT (R140, R149). -/
def inputWord : Input → Word
  | .feedA => 0#16
  | .feedB => 1#16

/-- A flag as an argument or result word. -/
def flagWord : Bool → Word
  | false => 0#16
  | true => 1#16

/-- The blocks that no event of the engine or of the sync separator touches: argument words, event mask, access
pointer, read latch, set scale and trim, field counter apart. -/
def SameHostSide (s t : State) : Prop :=
  t.cmd = s.cmd ∧ t.mask = s.mask ∧ t.port = s.port ∧ t.guard = s.guard ∧ t.held = s.held
    ∧ t.resetLine = s.resetLine

/-- The window table's records but for their attention flags, and the layer stack, are the same. -/
def SameWindows (s t : State) : Prop :=
  t.stack = s.stack ∧
    ∀ i, t.slot i = { s.slot i with attention := (t.slot i).attention }

/-- The records and the layer stack are the same. -/
def SameTable (s t : State) : Prop :=
  t.slots = s.slots ∧ t.stack = s.stack

/-- The progress of an image transfer as it starts (R164): the bank and address of ARG0 and ARG1 counted as one
position, the count of ARG2 still to move. -/
def StartedTransfer (s : State) (toMemory : Bool) : Transfer :=
  { toMemory := toMemory, position := BitVec.ofNat 24 (s.cmd.arg0.toNat * 65536 + s.cmd.arg1.toNat),
    left := s.cmd.arg2.toNat, moved := 0 }

/-- The command `c` moves a word of the transfer `tr` (R115, R164, R165): the records and the stack are left as in
`u`, the pointer steps, and the counts and the memory position advance, or at the last word the transfer completes OK
with the count moved; then the engine, which holds the bus, does what it does at a grant. -/
def WordMoves (s : State) (c : Instr) (tr : Transfer) (u : State) : Prop :=
  ∃ t, exec c s = .next t ∧ SameTable u t ∧ t.port.pointer = s.port.pointer.step ∧
    (2 ≤ tr.left →
      t.cmd = s.cmd ∧ t.events = s.events ∧
      t.port.transfer = some
        { toMemory := tr.toMemory, position := tr.position + 1#24, left := tr.left - 1, moved := tr.moved + 1 } ∧
      exec .busGrant
        { u with
          port := { s.port with
            pointer := s.port.pointer.step
            transfer := some
              { toMemory := tr.toMemory, position := tr.position + 1#24, left := tr.left - 1,
                moved := tr.moved + 1 } }
          engine := { s.engine with channel := .awaiting } } = .next t) ∧
    (tr.left = 1 →
      t.port.transfer = none ∧ t.events = { s.events with done := true } ∧
      t.cmd = { s.cmd with ready := true, completion := .ok, result0 := BitVec.ofNat 16 (tr.moved + 1),
                           result1 := 0#16 } ∧
      exec .busGrant
        { Finished u .ok (BitVec.ofNat 16 (tr.moved + 1)) 0#16 with
          port := { s.port with pointer := s.port.pointer.step, transfer := none }
          engine := { s.engine with channel := .awaiting } } = .next t)

/-! ### The engine's lines -/

/-- A MASK window is drawn on a picture line (R111). -/
def MaskDrawn (s : State) (line : Nat) (i : SlotId) : Prop :=
  ∃ cp, (s.slot i).active = some cp ∧ cp[1].toNat % 4 = 2 ∧ (s.slot i).counters.hidden = false ∧
    (cp[1].getLsbD 5 = false ∨ s.tb.state = .follow) ∧ (s.slot i).geometry.left ≠ -32768 ∧
    (s.slot i).geometry.top ≤ line ∧ (line : Int) ≤ (s.slot i).geometry.bottom ∧ s.keyer.cutBlanking = 0

/-- A line descriptor holds what R111, R103 and R114 give for its record on a picture line. -/
def DescribesLine (s : State) (line : Nat) (d : Descriptor) : Prop :=
  ∃ cp, (s.slot d.slot).active = some cp ∧ d.gen = (s.slot d.slot).gen ∧
    d.row = line - (s.slot d.slot).geometry.rowBase ∧
    d.rowAddress = BitVec.ofInt 24 (cp[12].toNat * 65536 + cp[13].toNat + cp[14].toNat * d.row) ∧
    d.origin = (s.slot d.slot).geometry.maskOrigin ∧ d.left = (s.slot d.slot).geometry.left ∧
    d.right = (s.slot d.slot).geometry.right ∧ d.condition = .opened ∧ d.toFetch = d.toTake ∧
    d.toTake.Pairwise (· < ·) ∧
    ∀ k, k ∈ d.toTake ↔ k < cp[15].toNat ∧ 16 * (k : Int) ≤ d.right - d.origin ∧ d.left - d.origin ≤ 16 * (k : Int) + 15

/-- The descriptors of a picture line are those of the first four MASK windows drawn on it in need order, which is
ascending mask origin and then stack position, top first; `late` are the windows fifth and later (R111, R112). -/
def LineDescriptors (s : State) (line : Nat) (descs : List Descriptor) (late : List SlotId) : Prop :=
  ∃ order : List SlotId, order.Nodup ∧ (∀ i, i ∈ order ↔ i ∈ s.stack ∧ MaskDrawn s line i) ∧
    order.Pairwise (fun i j =>
      (s.slot i).geometry.maskOrigin < (s.slot j).geometry.maskOrigin ∨
        ((s.slot i).geometry.maskOrigin = (s.slot j).geometry.maskOrigin ∧ s.stack.idxOf i ≤ s.stack.idxOf j)) ∧
    descs.map (·.slot) = order.take 4 ∧ late = order.drop 4 ∧ ∀ d, d ∈ descs → DescribesLine s line d

/-- The first in take order of some words of the open descriptors: place and word number of the word with the earliest
taking point, and of those with the same one the word whose window comes first in need order (R103, R113). -/
def FirstInTakeOrder (descs : List Descriptor) (words : Descriptor → List Nat) (sample : Int) (place k : Nat) : Prop :=
  ∃ d, descs[place]? = some d ∧ d.condition = .opened ∧ (words d).head? = some k ∧
    sample = max d.left (d.origin + 16 * k) ∧
    ∀ (q j : Nat) (x : Descriptor), descs[q]? = some x → x.condition = .opened → (words x).head? = some j →
      sample < max x.left (x.origin + 16 * j) ∨ (sample = max x.left (x.origin + 16 * j) ∧ place ≤ q)

/-- A line owes no word, has no read for an open descriptor in flight and no word in the silo (R110). -/
def LineDone (e : Engine) : Prop :=
  (∀ d, d ∈ e.descs → d.condition = .opened → d.toFetch = []) ∧
    (∀ line place k i g a since, e.channel = .maskRead line place k i g a true since →
      ∀ d, e.descs[place]? = some d → d.condition ≠ .opened) ∧
    e.silo = []

/-- The descriptor that a silo word was fetched for has been dropped (R109). -/
def DeadWord (descs : List Descriptor) (w : SiloWord) : Prop :=
  ∃ d, descs[w.place]? = some d ∧ d.condition = .dropped

/-- One list of silo words is another without the dead words at its head (R109, R120). -/
def PurgedHead (descs : List Descriptor) (before after : List SiloWord) : Prop :=
  ∃ n, after = before.drop n ∧ (∀ w, w ∈ before.take n → DeadWord descs w) ∧
    ∀ w, after.head? = some w → ¬ DeadWord descs w

/-- The descriptors of a slot are dropped (R120). -/
def droppedFor (i : SlotId) (descs : List Descriptor) : List Descriptor :=
  descs.map (fun d => if d.slot = i then { d with condition := .dropped } else d)

/-- LATE is set on the records of some slots and on no others, nothing else of a record changes, and WINDOW is set where
LATE goes from clear to set (R19, R112, R117, R171). -/
def MarksLate (s t : State) (p : SlotId → Prop) : Prop :=
  (∀ i, (p i → t.slot i = { s.slot i with attention := { (s.slot i).attention with late := true } }) ∧
    (¬ p i → t.slot i = s.slot i)) ∧
  t.events = { s.events with window := t.events.window } ∧
  (t.events.window = true ↔ s.events.window = true ∨ ∃ i, p i ∧ (s.slot i).attention.late = false)

/-- An operation is ready for the channel: a mask word owed on the open line with room for it in the silo, or with
none owed an image word (R115, R121). -/
def OperationReady (s : State) : Prop :=
  ((∃ d, d ∈ s.engine.descs ∧ d.condition = .opened ∧ d.toFetch ≠ []) ∧ s.engine.silo.length ≤ 15) ∨
    ((∀ d, d ∈ s.engine.descs → d.condition = .opened → d.toFetch = []) ∧
      ∃ tr, s.port.transfer = some tr ∧ tr.left ≠ 0)

/-- What the channel does where lines or words have changed and no operation has ended (R115, R121): without an operation
in flight it awaits the bus exactly where one is ready, and its request is not asserted otherwise; an operation in flight
goes on. `before` is the channel before that. -/
def Arbitrated (before : Channel) (t : State) : Prop :=
  (before = .idle ∨ before = .awaiting →
    (OperationReady t → t.engine.channel = .awaiting ∧ t.busRequest = true) ∧
    (¬ OperationReady t → t.engine.channel = .idle ∧ t.busRequest = false)) ∧
  (before ≠ .idle → before ≠ .awaiting → t.engine.channel = before)

/-- The channel as a line is opened: a mask read in flight belongs to no open line any more (R116). -/
inductive ReadClosed : Channel → Channel → Prop where
  | maskRead (line place k : Nat) (i : SlotId) (g : Generation) (a : Position) (current : Bool) (since : Nat) :
    ReadClosed (.maskRead line place k i g a current since) (.maskRead line place k i g a false since)
  | other (c : Channel) : c.isMaskRead = false → ReadClosed c c

/-- The Keyer with a window's entry in the line in progress abandoned from a sample on, or from an earlier one at
which it already was (R104, R105). -/
def EntryAbandoned (y : Keyer) (i : SlotId) (sample : Int) : Keyer :=
  { y with snapshot := y.snapshot.map (fun snap =>
    { snap with entries := snap.entries.map (fun e =>
      if e.slot = i then
        { e with abandonedFrom := some (match e.abandonedFrom with | none => sample | some x => min x sample) }
      else e) }) }

/-! ### The inputs' events -/

/-- The rows of the table that bring a line start of an input, found or put in by prediction. -/
inductive LineEventOf (x : Input) : Instr → Prop where
  | lineStart (time : Nat) : LineEventOf x (.lineStart x time)
  | verticalSyncSequence (time : Nat) (parity : Parity) : LineEventOf x (.verticalSyncSequence x time parity)
  | verifyPass (time : Nat) : LineEventOf x (.verifyPass x time)
  | missingLineStart : LineEventOf x (.missingLineStart x)
  | holdoverRelock (time : Nat) : LineEventOf x (.holdoverRelock x time)

/-- The rows of the table that act on an input's lock context. -/
inductive EventOf (x : Input) : Instr → Prop where
  | syncPulse (time : Nat) : EventOf x (.syncPulse x time)
  | line (e : Instr) : LineEventOf x e → EventOf x e
  | holdoverLimit : EventOf x (.holdoverLimit x)
  | lossTimerExpiry : EventOf x (.lossTimerExpiry x)

/-! ### Field starts -/

/-- The rows of the table that apply a held request (R49 to R53, R17). -/
inductive AppliesHeld : HeldRequest → Instr → Prop where
  | push (i : SlotId) (g : Generation) : AppliesHeld (.push i g) .pushApply
  | lift (i : SlotId) (g : Generation) : AppliesHeld (.lift i g) .liftApply
  | raise (i : SlotId) (g : Generation) : AppliesHeld (.raise i g) .raiseApply
  | lower (i : SlotId) (g : Generation) : AppliesHeld (.lower i g) .lowerApply
  | clearAir : AppliesHeld .clearAir .clearAirApply
  | retire (i : SlotId) (g : Generation) : AppliesHeld (.retire i g) .retireApply

/-- What becomes of a held SELECT at a field start that leaves the switch item `switch` (R153): with SWITCHING clear
it is examined by the table of R149, else its count increases by one, and at 48 it times out. `s` is the state it is
judged by. -/
def HeldSelectAfter (s : State) (switch : SwitchItem) (q : HeldSelect) (t : State) : Prop :=
  (switch = .none →
    t.tb.heldSelect = none ∧ t.tb.switch = (selectVerdict s q.input q.mode q.confirm).2 ∧ t.cmd.ready = true ∧
      t.cmd.completion = (selectVerdict s q.input q.mode q.confirm).1 ∧ t.cmd.result0 = programWord s ∧
      t.cmd.result1 = 0#16 ∧ t.events.done = true) ∧
  (switch ≠ .none → q.count ≤ 46 →
    t.tb.heldSelect = some { q with count := q.count + 1 } ∧ t.tb.switch = switch) ∧
  (switch ≠ .none → 47 ≤ q.count →
    t.tb.heldSelect = none ∧ t.tb.switch = switch ∧ t.cmd.ready = true ∧ t.cmd.completion = .timeout ∧
      t.cmd.result0 = programWord s ∧ t.cmd.result1 = 0#16 ∧ t.events.done = true)

/-- The computer line in progress is made under the timebase's state: at the running line period in FREE RUN and COAST;
in SLEW one sample shorter or longer than the program input's measured line period while h is not 0; and else to the
program input's next line start (R143, R145). -/
def LineMadeUnder (s : State) : Prop :=
  (s.tb.state = .freeRun ∨ s.tb.state = .coast →
    s.tb.lineLength = s.tb.runPeriod ∧ s.tb.lineSlew = 0 ∧ s.tb.lineFollows = false) ∧
  (s.tb.state = .follow → s.tb.lineFollows = true) ∧
  (∀ p, s.tb.state = .slew → s.programCtx.period = some p →
    (0 < s.tb.h → s.tb.lineLength = p - 1 ∧ s.tb.lineSlew = -1 ∧ s.tb.lineFollows = false) ∧
    (s.tb.h < 0 → s.tb.lineLength = p + 1 ∧ s.tb.lineSlew = 1 ∧ s.tb.lineFollows = false) ∧
    (s.tb.h = 0 → s.tb.lineFollows = true))

end Sys2Proof.Machine
end

