-- ==== Sys2Proof/Certificates/Slice0/Obligations.lean ====
section
/-! DEFINITION. The statements for the provers. -/

section

open Sys2Proof Sys2Proof.Machine

/-! ### Steps -/

/-- A step with a command at the front of the queue is exec of that command on the state with the queue's rest; with
an empty queue it is the timed event that is due, and with none due the sample clock advances by one (log 2). -/
def Obligations.StepRunsTheFrontCommand : Prop :=
  (∀ (s : State) (c : Instr) (rest : List Instr), s.pending = c :: rest →
    step s = exec c { s with pending := rest }) ∧
  (∀ (s : State) (c : Instr), s.pending = [] → s.due = some c → step s = exec c s) ∧
  (∀ s : State, s.pending = [] → s.due = none → step s = .next { s with now := s.now + 1 })

/-- Every command, in every state, answers a next state, and leaves the queue as it is. -/
def Obligations.EveryCommandAnswersNext : Prop :=
  ∀ (c : Instr) (s : State), ∃ t, exec c s = .next t ∧ t.pending = s.pending

/-! ### Laws that every step keeps -/

/-- The machine after reset meets every law. -/
def Obligations.ResetMeetsEveryLaw : Prop :=
  StackLaw State.reset ∧ RecordLaw State.reset ∧ CopyLaw State.reset ∧ GeometryLaw State.reset
    ∧ ReadyLaw State.reset ∧ FollowLaw State.reset ∧ ContextLaw State.reset ∧ EngineLaw State.reset
    ∧ TimebaseLaw State.reset ∧ ResidualLaw State.reset ∧ GuardLaw State.reset ∧ HeldSelectLaw State.reset

/-- R43, R44: the stack holds at most 8 entries, every ON AIR record exactly once and nothing else. -/
def Obligations.StepKeepsStackLaw : Prop :=
  ∀ s t : State, StackLaw s → step s = .next t → StackLaw t

/-- R9, R11, R24: what a record holds agrees with its state. -/
def Obligations.StepKeepsRecordLaw : Prop :=
  ∀ s t : State, StackLaw s → RecordLaw s → step s = .next t → RecordLaw t

/-- R28, R30, R72, R73: pending staging copies and active copies pass the record checks, mix levels stay in 0..63; the
law of the stack is a premise. -/
def Obligations.StepKeepsCopyLaw : Prop :=
  ∀ s t : State, StackLaw s → CopyLaw s → step s = .next t → CopyLaw t

/-- R86: the derived words of every record with an active copy are indefinite or in order on the raster. -/
def Obligations.StepKeepsGeometryLaw : Prop :=
  ∀ s t : State, StackLaw s → RecordLaw s → CopyLaw s → GeometryLaw s → step s = .next t → GeometryLaw t

/-- R158: at most one command is in progress, and READY is clear exactly while one is. -/
def Obligations.StepKeepsReadyLaw : Prop :=
  ∀ s t : State, ReadyLaw s → step s = .next t → ReadyLaw t

/-- R146: FOLLOW (and SLEW) only while the program input's context is LOCKED. -/
def Obligations.StepKeepsFollowLaw : Prop :=
  ∀ s t : State, FollowLaw s → step s = .next t → FollowLaw t

/-- R125, R127, R129, R131: a standard is known exactly in VERIFY, LOCKED and HOLDOVER; the parity reads first in NO
SIGNAL and HUNT; the ranges of the measured line period and of the head-switch count. -/
def Obligations.StepKeepsContextLaw : Prop :=
  ∀ s t : State, ContextLaw s → step s = .next t → ContextLaw t

/-- R109: the silo never holds more than 16 words; and words leave it in the order they entered: each step keeps its
words in order, takes some from the head and puts at most one at the tail. -/
def Obligations.StepKeepsEngineLaw : Prop :=
  ∀ s t : State, EngineLaw s → step s = .next t →
    EngineLaw t ∧
      ∃ (n : Nat) (l : List SiloWord), l.length ≤ 1 ∧ t.engine.silo = (s.engine.silo ++ l).drop n

/-- R92, R141: the ranges of the timebase's items and of the cut-blanking count. R144: the residuals are 0 in FOLLOW
and in FREE RUN; and R143, R149: in FREE RUN and COAST the computer's lines run to their own length, and a scheduled
switch is for the input that is not on program. -/
def Obligations.StepKeepsTimebaseLaw : Prop :=
  ∀ s t : State, step s = .next t → (TimebaseLaw s → TimebaseLaw t) ∧ (ResidualLaw s → ResidualLaw t)

/-- R56, R57, R153: the ranges of the air guard and of the held SELECT's count. -/
def Obligations.StepKeepsGuardAndHeldSelectLaws : Prop :=
  ∀ s t : State, GuardLaw s → HeldSelectLaw s → step s = .next t → GuardLaw t ∧ HeldSelectLaw t

/-- R11: but for power-on, a record's generation changes only when the record becomes FREE, and then by one, in any
state that meets the law of the stack. -/
def Obligations.GenerationChangesOnlyWhenFreed : Prop :=
  ∀ (c : Instr) (s t : State) (i : SlotId), StackLaw s → c ≠ .powerOn → exec c s = .next t →
    (t.slot i).gen = (s.slot i).gen ∨
      ((s.slot i).state ≠ .free ∧ (t.slot i).state = .free ∧ (t.slot i).gen = (s.slot i).gen + 1#4)

/-- R19, R171: an attention flag that a command brings from clear to set leaves WINDOW set. -/
def Obligations.AttentionSetsWindow : Prop :=
  ∀ (c : Instr) (s t : State) (i : SlotId), exec c s = .next t →
    (s.slot i).attention.newlySet (t.slot i).attention = true → t.events.window = true

/-! ### Commands: refusals by the general checks, and the immediate commands -/

/-- R12, R159, R160: NOOP completes OK and changes nothing else; function codes 18 to 31 complete with UNKNOWN COMMAND;
a handle of 512 or more or with a slot field of 24..31 is refused with BAD ARGUMENT, a handle of a FREE
slot or of another generation with STALE HANDLE; nothing but the Command Unit, the air guard's count and DONE
changes. -/
def Obligations.GeneralChecks : Prop :=
  (∀ (s : State) (ie : Bool), Accepts s →
    exec (.noop ie) s = .next (Completed s 0#5 ie .ok 0#16 0#16) ∧
    ∀ code : BitVec 5, 18 ≤ code.toNat →
      exec (.unknownCommand code ie) s = .next (Completed s code ie .unknownCommand 0#16 0#16)) ∧
  ∀ (s : State) (ie : Bool) (code : BitVec 5) (c : Instr), Accepts s → NamesHandle ie code c →
    (512 ≤ s.cmd.arg0.toNat ∨ 24 ≤ s.cmd.arg0.toNat % 32 →
      exec c s = .next (Completed s code ie .badArgument 0#16 0#16)) ∧
    (∀ (i : SlotId) (g : Generation), s.cmd.arg0 = handleOf i g → (c = .publish ie → s.cmd.arg1.toNat ≤ 255) →
      (s.slot i).state = .free ∨ (s.slot i).gen ≠ g →
      exec c s = .next (Completed s code ie .staleHandle 0#16 0#16))

/-- R13, R14: OPEN and CLONE take the lowest FREE slot and make it DRAFT, or complete with NO SLOT. -/
def Obligations.OpenAndClone : Prop :=
  ∀ (s : State) (ie : Bool), Accepts s →
    (255 < s.cmd.arg0.toNat → exec (.openRecord ie) s = .next (Completed s 1#5 ie .badArgument 0#16 0#16)) ∧
    (s.cmd.arg0.toNat ≤ 255 → (∀ i, (s.slot i).state ≠ .free) →
      exec (.openRecord ie) s = .next (Completed s 1#5 ie .noSlot 0#16 0#16)) ∧
    (∀ i, s.cmd.arg0.toNat ≤ 255 → LowestFree s i →
      exec (.openRecord ie) s = .next
        (Completed
          (WithSlot s i (FreshDraft (s.slot i).gen
            #v[s.cmd.arg0, 0#16, 0#16, 639#16, 0#16, 239#16, 128#16, 63#16, 63#16, 0#16, 0#16, 0#16, 0#16, 0#16,
              0#16, 0#16]))
          1#5 ie .ok (handleOf i (s.slot i).gen) 0#16)) ∧
    (∀ src, Names s src → (∀ i, (s.slot i).state ≠ .free) →
      exec (.clone ie) s = .next (Completed s 2#5 ie .noSlot 0#16 0#16)) ∧
    (∀ src i, Names s src → LowestFree s i →
      exec (.clone ie) s = .next
        (Completed (WithSlot s i (FreshDraft (s.slot i).gen (s.slot src).staging)) 2#5 ie .ok
          (handleOf i (s.slot i).gen) 0#16))

/-- R15, R16: RETIRE frees a record that is not ON AIR at once; of an ON AIR record it cancels the pending publication
and is held. -/
def Obligations.RetireTaken : Prop :=
  ∀ (s : State) (ie : Bool) (i : SlotId), Accepts s → Names s i →
    ((s.slot i).state ≠ .onAir → i ∉ s.stack →
      exec (.retire ie) s = .next
        (Completed (WithSlot s i (Slot.blank ((s.slot i).gen + 1#4))) 3#5 ie .ok 0#16 0#16)) ∧
    ((s.slot i).state = .onAir →
      exec (.retire ie) s = .next
        { Taken (WithSlot s i { s.slot i with pending := none }) 3#5 ie with
          held := some (.retire i (s.slot i).gen) })

/-- R18: FIND refuses arguments out of range, returns the handle of the first match from the start slot upward, or
completes with NONE FOUND. -/
def Obligations.FindSearches : Prop :=
  ∀ (s : State) (ie : Bool), Accepts s →
    (255 < s.cmd.arg0.toNat ∨ 23 < s.cmd.arg1.toNat ∨ 1 < s.cmd.arg2.toNat →
      exec (.find ie) s = .next (Completed s 4#5 ie .badArgument 0#16 0#16)) ∧
    (s.cmd.arg0.toNat ≤ 255 → s.cmd.arg1.toNat ≤ 23 → s.cmd.arg2.toNat ≤ 1 →
      (∀ i : SlotId,
        (s.cmd.arg1.toNat ≤ i.val ∧ (s.slot i).state ≠ .free
          ∧ (s.cmd.arg2 = 1#16 ∨ (s.slot i).staging[0] = s.cmd.arg0)) →
        (∀ j : SlotId, s.cmd.arg1.toNat ≤ j.val → j < i →
          (s.slot j).state = .free ∨ (s.cmd.arg2 = 0#16 ∧ (s.slot j).staging[0] ≠ s.cmd.arg0)) →
        exec (.find ie) s = .next (Completed s 4#5 ie .ok (handleOf i (s.slot i).gen) 0#16)) ∧
      ((∀ j : SlotId, s.cmd.arg1.toNat ≤ j.val →
          (s.slot j).state = .free ∨ (s.cmd.arg2 = 0#16 ∧ (s.slot j).staging[0] ≠ s.cmd.arg0)) →
        exec (.find ie) s = .next (Completed s 4#5 ie .noneFound 0#16 0#16)))

/-- R25 to R27: PUBLISH examines the delay, the pending indicator and the words of the record in order; a refusal
leaves the record as it was, and a PUBLISH that passes sets it pending with the countdown at the delay. -/
def Obligations.PublishExamines : Prop :=
  ∀ (s : State) (ie : Bool), Accepts s →
    (512 ≤ s.cmd.arg0.toNat ∨ 24 ≤ s.cmd.arg0.toNat % 32 ∨ 255 < s.cmd.arg1.toNat →
      exec (.publish ie) s = .next (Completed s 5#5 ie .badArgument 0#16 0#16)) ∧
    (∀ (i : SlotId) (g : Generation), s.cmd.arg0 = handleOf i g → s.cmd.arg1.toNat ≤ 255 →
      (s.slot i).state = .free ∨ (s.slot i).gen ≠ g →
      exec (.publish ie) s = .next (Completed s 5#5 ie .staleHandle 0#16 0#16)) ∧
    (∀ i : SlotId, Names s i → s.cmd.arg1.toNat ≤ 255 →
      ((s.slot i).pending.isSome = true →
        exec (.publish ie) s = .next (Completed s 5#5 ie .alreadyPending 0#16 0#16)) ∧
      (∀ k : Nat, (s.slot i).pending = none → k ≤ 15 → ¬ WordPasses (s.slot i).staging k →
        (∀ j, j < k → WordPasses (s.slot i).staging j) →
        exec (.publish ie) s = .next (Completed s 5#5 ie .badRecord (BitVec.ofNat 16 k) 0#16)) ∧
      ((s.slot i).pending = none → (∀ k, k ≤ 15 → WordPasses (s.slot i).staging k) →
        exec (.publish ie) s = .next
          (Completed (WithSlot s i { s.slot i with pending := some s.cmd.arg1.toNat }) 5#5 ie .ok 0#16 0#16)))

/-- R31: WITHDRAW checks its handle as R12 gives; of a pending record it clears the pending indicator and the countdown
and nothing else, and of another it completes with NOT PENDING and changes nothing. -/
def Obligations.WithdrawCancels : Prop :=
  ∀ (s : State) (ie : Bool), Accepts s →
    (512 ≤ s.cmd.arg0.toNat ∨ 24 ≤ s.cmd.arg0.toNat % 32 →
      exec (.withdraw ie) s = .next (Completed s 6#5 ie .badArgument 0#16 0#16)) ∧
    (∀ (i : SlotId) (g : Generation), s.cmd.arg0 = handleOf i g → (s.slot i).state = .free ∨ (s.slot i).gen ≠ g →
      exec (.withdraw ie) s = .next (Completed s 6#5 ie .staleHandle 0#16 0#16)) ∧
    (∀ i : SlotId, Names s i →
      ((s.slot i).pending.isSome = true →
        exec (.withdraw ie) s = .next
          (Completed (WithSlot s i { s.slot i with pending := none }) 6#5 ie .ok 0#16 0#16)) ∧
      ((s.slot i).pending = none →
        exec (.withdraw ie) s = .next (Completed s 6#5 ie .notPending 0#16 0#16)))

/-- R45, R46: the field-aligned requests are held, or refused by the record's state. -/
def Obligations.StackRequestsAreHeld : Prop :=
  ∀ (s : State) (ie : Bool), Accepts s →
    exec (.clearAir ie) s = .next { Taken s 11#5 ie with held := some .clearAir } ∧
    ∀ i : SlotId, Names s i →
      ((s.slot i).state = .standby ∨ (s.slot i).state = .onAir →
        exec (.push ie) s = .next { Taken s 7#5 ie with held := some (.push i (s.slot i).gen) }) ∧
      ((s.slot i).state = .draft →
        exec (.push ie) s = .next (Completed s 7#5 ie .notReady 0#16 0#16)) ∧
      ((s.slot i).state = .faulted →
        exec (.push ie) s = .next (Completed s 7#5 ie .faulted 0#16 0#16)) ∧
      ((s.slot i).state = .onAir →
        exec (.lift ie) s = .next { Taken s 8#5 ie with held := some (.lift i (s.slot i).gen) } ∧
        exec (.raise ie) s = .next { Taken s 9#5 ie with held := some (.raise i (s.slot i).gen) } ∧
        exec (.lower ie) s = .next { Taken s 10#5 ie with held := some (.lower i (s.slot i).gen) }) ∧
      ((s.slot i).state ≠ .onAir →
        exec (.lift ie) s = .next (Completed s 8#5 ie .notOnAir 0#16 0#16) ∧
        exec (.raise ie) s = .next (Completed s 9#5 ie .notOnAir 0#16 0#16) ∧
        exec (.lower ie) s = .next (Completed s 10#5 ie .notOnAir 0#16 0#16))

/-- R58: GUARD replaces the setting and returns the previous one and whether the guard stood expired. R89: SET GEOMETRY
replaces the set scale and trim and returns the previous ones; the latched values stand. -/
def Obligations.GuardAndGeometrySet : Prop :=
  ∀ (s : State) (ie : Bool), Accepts s →
    (255 < s.cmd.arg0.toNat → exec (.guard ie) s = .next (Completed s 12#5 ie .badArgument 0#16 0#16)) ∧
    (s.cmd.arg0.toNat ≤ 255 →
      exec (.guard ie) s = .next
        (Completed { s with guard := { s.guard with setting := s.cmd.arg0.toNat } } 12#5 ie .ok
          (BitVec.ofNat 16 s.guard.setting) (flagWord s.guard.expired))) ∧
    (s.cmd.arg0.toNat < 64 ∨ 128 < s.cmd.arg0.toNat ∨ s.cmd.arg1.toInt < -32 ∨ 31 < s.cmd.arg1.toInt →
      exec (.setGeometry ie) s = .next (Completed s 13#5 ie .badArgument 0#16 0#16)) ∧
    (64 ≤ s.cmd.arg0.toNat → s.cmd.arg0.toNat ≤ 128 → -32 ≤ s.cmd.arg1.toInt → s.cmd.arg1.toInt ≤ 31 →
      exec (.setGeometry ie) s = .next
        (Completed { s with tb := { s.tb with setScale := s.cmd.arg0.toNat, setTrim := s.cmd.arg1.toInt } } 13#5 ie
          .ok (BitVec.ofNat 16 s.tb.setScale) (BitVec.ofInt 16 s.tb.setTrim)))

/-- R149, R153: a SELECT taken with no switch in flight completes by the table of R149, with the program input in
RESULT0; one taken while a switch is in flight is held. That a SELECT refused by the general checks has both results 0
is the model's choice between R160 and R149 (DESIGN CHOICE, log 17). -/
def Obligations.SelectExaminedOrHeld : Prop :=
  ∀ (s : State) (ie : Bool), Accepts s →
    (1 < s.cmd.arg0.toNat ∨ 1 < s.cmd.arg1.toNat ∨ 1 < s.cmd.arg2.toNat →
      exec (.select ie) s = .next (Completed s 14#5 ie .badArgument 0#16 0#16)) ∧
    (∀ (x : Input) (mode : SwitchMode) (confirm : Bool),
      s.cmd.arg0 = inputWord x → s.cmd.arg1 = modeWord mode → s.cmd.arg2 = flagWord confirm →
      (s.tb.switch = .none →
        exec (.select ie) s = .next
          (Completed { s with tb := { s.tb with switch := (selectVerdict s x mode confirm).2 } } 14#5 ie
            (selectVerdict s x mode confirm).1 (programWord s) 0#16)) ∧
      (s.tb.switch ≠ .none →
        exec (.select ie) s = .next
          { Taken s 14#5 ie with
            tb := { s.tb with heldSelect := some { input := x, mode := mode, confirm := confirm, count := 0 } } }))

/-- R140, R155: QUERY INPUT returns the context as it stands, in the codes of R155; with the reset option SOURCE
CHANGED and the head-switch count are then cleared. -/
def Obligations.QueryInputReports : Prop :=
  ∀ (s : State) (ie : Bool), Accepts s →
    (1 < s.cmd.arg0.toNat ∨ 1 < s.cmd.arg1.toNat →
      exec (.queryInput ie) s = .next (Completed s 15#5 ie .badArgument 0#16 0#16)) ∧
    (∀ (x : Input) (clear : Bool), s.cmd.arg0 = inputWord x → s.cmd.arg1 = flagWord clear →
      (s.ctx x).headSwitch ≤ 255 →
      ∃ r0 r1, exec (.queryInput ie) s = .next
          (Completed
            (if clear then
              match x with
              | .feedA => { s with feedA := { s.feedA with sourceChanged := false, headSwitch := 0 } }
              | .feedB => { s with feedB := { s.feedB with sourceChanged := false, headSwitch := 0 } }
            else s)
            15#5 ie .ok r0 r1) ∧
        r0.toNat =
          (match (s.ctx x).lock with | .noSignal => 0 | .hunt => 1 | .verify => 2 | .locked => 3 | .holdover => 4)
            + 8 * (match (s.ctx x).standard with | none => 0 | some .lines525 => 1 | some .lines625 => 2)
            + 32 * bit (s.ctx x).sourceChanged + 64 * (match (s.ctx x).parity with | .first => 0 | .second => 1) ∧
        r1.toNat / 256 = (s.ctx x).headSwitch ∧
        (r1.setWidth 8).toInt =
          (match (s.ctx x).period with
            | none => -128
            | some p => max (-128) (min 127 ((p : Int) - ((s.ctx x).standard.getD .lines625).nominal))))

/-- R164, R165: IMAGE IN and IMAGE OUT start a transfer at bank and address ARG0, ARG1 of ARG2 words, and their first
word is handed to the channel arbiter; READY stays clear. -/
def Obligations.ImageTransfersStart : Prop :=
  ∀ (s : State) (ie : Bool), Accepts s →
    (255 < s.cmd.arg0.toNat ∨ s.cmd.arg2 = 0#16 ∨ 576 < s.cmd.arg2.toNat →
      exec (.imageIn ie) s = .next (Completed s 16#5 ie .badArgument 0#16 0#16) ∧
      exec (.imageOut ie) s = .next (Completed s 17#5 ie .badArgument 0#16 0#16)) ∧
    (s.cmd.arg0.toNat ≤ 255 → 1 ≤ s.cmd.arg2.toNat → s.cmd.arg2.toNat ≤ 576 →
      ∀ channel : Channel,
        channel =
          (if s.engine.channel = .idle ∨ s.engine.channel = .awaiting then
            if s.engine.owed = none ∨ s.engine.silo.length < 16 then .awaiting else .idle
          else s.engine.channel) →
        exec (.imageIn ie) s = .next
          { Taken s 16#5 ie with
            port := { s.port with transfer := some (StartedTransfer s false) }
            engine := { s.engine with channel := channel } } ∧
        exec (.imageOut ie) s = .next
          { Taken s 17#5 ie with
            port := { s.port with transfer := some (StartedTransfer s true) }
            engine := { s.engine with channel := channel } })

/-! ### Register window accesses -/

/-- R154, R157, R158, R167: writes of the command group and of the words with no behaviour of their own. -/
def Obligations.CommandGroupWrites : Prop :=
  ∀ (s : State) (v : Word),
    (Accepts s →
      (v.getLsbD 7 = true → exec (.commandWordUpdate v) s = .next
        { s with cmd := { s.cmd with func := BitVec.ofNat 5 v.toNat, ie := v.getLsbD 5 } }) ∧
      exec (.registerWrite .arg0 v) s = .next { s with cmd := { s.cmd with arg0 := v } } ∧
      exec (.registerWrite .arg1 v) s = .next { s with cmd := { s.cmd with arg1 := v } } ∧
      exec (.registerWrite .arg2 v) s = .next { s with cmd := { s.cmd with arg2 := v } }) ∧
    (s.cmd.ready = false → s.resetLine = false →
      (∀ w : CommandGroup, exec (.overrunWrite w v) s = .next
        { s with events := { s.events with overrun := true } }) ∧
      exec (.commandWordUpdate v) s = .next { s with events := { s.events with overrun := true } }) ∧
    (s.resetLine = true →
      exec (.commandWordUpdate v) s = .next s ∧ (∀ w, exec (.overrunWrite w v) s = .next s) ∧
      ∀ w, exec (.registerWrite w v) s = .next s) ∧
    (∀ w : PlainWord, w ≠ .arg0 → w ≠ .arg1 → w ≠ .arg2 → exec (.registerWrite w v) s = .next s)

/-- R169: a write to word 6 clears each flag written as one and a write to word 7 stores the mask, whatever READY is,
and nothing else changes; a read of either returns the seven bits with bits 7 to 15 at 0. R167: while the computer's
reset line is asserted both writes are ignored. R170: the interrupt line is asserted exactly while IE is set and a flag
is set under a set mask bit; after power-on and after a bus reset it is deasserted. -/
def Obligations.EventRegisterAndInterruptLine : Prop :=
  (∀ (s : State) (v : Word),
    (s.resetLine = false →
      exec (.eventFlagsWrite v) s = .next
        { s with events :=
          { done := s.events.done && !v.getLsbD 0, window := s.events.window && !v.getLsbD 1,
            lock := s.events.lock && !v.getLsbD 2, timebase := s.events.timebase && !v.getLsbD 3,
            guard := s.events.guard && !v.getLsbD 4, overrun := s.events.overrun && !v.getLsbD 5,
            access := s.events.access && !v.getLsbD 6 } } ∧
      exec (.eventMaskWrite v) s = .next
        { s with mask :=
          { done := v.getLsbD 0, window := v.getLsbD 1, lock := v.getLsbD 2, timebase := v.getLsbD 3,
            guard := v.getLsbD 4, overrun := v.getLsbD 5, access := v.getLsbD 6 } }) ∧
    (s.resetLine = true → exec (.eventFlagsWrite v) s = .next s ∧ exec (.eventMaskWrite v) s = .next s) ∧
    (∀ (k : Fin 16) (e : EventBits), e.toWord.getLsbD k.val =
      (match k.val with
        | 0 => e.done | 1 => e.window | 2 => e.lock | 3 => e.timebase | 4 => e.guard | 5 => e.overrun
        | 6 => e.access | _ => false)) ∧
    s.readRegister 6 = s.events.toWord ∧ s.readRegister 7 = s.mask.toWord) ∧
  (∀ s : State, s.interruptLine = true ↔
    s.cmd.ie = true ∧
      ((s.events.done = true ∧ s.mask.done = true) ∨ (s.events.window = true ∧ s.mask.window = true) ∨
        (s.events.lock = true ∧ s.mask.lock = true) ∨ (s.events.timebase = true ∧ s.mask.timebase = true) ∨
        (s.events.guard = true ∧ s.mask.guard = true) ∨ (s.events.overrun = true ∧ s.mask.overrun = true) ∨
        (s.events.access = true ∧ s.mask.access = true))) ∧
  (∀ s t : State, exec .powerOn s = .next t → t.interruptLine = false) ∧
  (∀ s t : State, exec .busReset s = .next t → t.interruptLine = false)

/-- R21, R139, R148, R154, R155, R157: what a read of the register window returns: the command word, the argument and
result words, the attention summary (a slot's bit is set exactly while one of its record's five flags is), the program
status word, the input status words and the field counter. -/
def Obligations.RegisterReads : Prop :=
  ∀ s : State,
    (∀ n : Nat,
      ([.ok, .unknownCommand, .badArgument, .staleHandle, .noSlot, .noneFound, .badRecord, .alreadyPending, .notPending,
        .notReady, .notOnAir, .faulted, .atLimit, .gone, .noLock, .unconfirmed, .standardMismatch, .timeout,
        .partialDone, .busFault, .reset] : List Completion)[n]? = some s.cmd.completion →
      (s.readRegister 0).toNat = s.cmd.func.toNat + 32 * bit s.cmd.ie + 128 * bit s.cmd.ready + 256 * n) ∧
    s.readRegister 1 = s.cmd.arg0 ∧ s.readRegister 2 = s.cmd.arg1 ∧ s.readRegister 3 = s.cmd.arg2 ∧
    s.readRegister 4 = s.cmd.result0 ∧ s.readRegister 5 = s.cmd.result1 ∧
    (∀ i : SlotId,
      (if i.val < 16 then (s.readRegister 8).getLsbD i.val else (s.readRegister 9).getLsbD (i.val - 16)) =
        ((s.slot i).attention.evicted || (s.slot i).attention.late || (s.slot i).attention.convert
          || (s.slot i).attention.expired || (s.slot i).attention.fetchFault)) ∧
    (∀ k : Nat, 8 ≤ k → (s.readRegister 9).getLsbD k = false) ∧
    (s.readRegister 12).toNat =
      (match s.tb.program with | .feedA => 0 | .feedB => 1)
        + 2 * (match s.tb.state with | .freeRun => 0 | .slew => 1 | .follow => 2 | .coast => 3)
        + 8 * bit (decide (s.tb.switch ≠ .none))
        + 16 * (match s.tb.standard with | .lines525 => 0 | .lines625 => 1)
        + 32 * bit (decide (s.keyer.cutBlanking ≠ 0)) + 64 * bit s.guard.expired ∧
    (∀ (x : Input) (w : Word), w = (match x with | .feedA => s.readRegister 13 | .feedB => s.readRegister 14) →
      w.toNat =
        (match (s.ctx x).lock with | .noSignal => 0 | .hunt => 1 | .verify => 2 | .locked => 3 | .holdover => 4)
          + 8 * (match (s.ctx x).standard with | none => 0 | some .lines525 => 1 | some .lines625 => 2)
          + 32 * bit (s.ctx x).sourceChanged) ∧
    s.readRegister 15 = s.tb.fieldCounter

/-- R155, R161: a write to word 10 replaces the pointer; it is ignored and sets ACCESS where a field is out of range
or a transfer is in flight; the read of word 10 returns the pointer. R167: while the computer's reset line is asserted
the write is ignored. -/
def Obligations.AccessPointerWrites : Prop :=
  ∀ (s : State) (v : Word),
    (s.resetLine = true → exec (.accessPointerWrite v) s = .next s) ∧
    (∀ p : Pointer, s.resetLine = false → s.port.transfer = none → v.toNat % 32 = p.word.val → v.toNat / 256 % 32 = p.slot.val →
      v.toNat / 8192 % 4 = (match p.mode with | .up => 0 | .down => 1 | .hold => 2) → v.getLsbD 15 = p.wrap →
      exec (.accessPointerWrite v) s = .next { s with port := { s.port with pointer := p } }) ∧
    (s.resetLine = false →
      s.port.transfer.isSome = true ∨ 24 ≤ v.toNat % 32 ∨ 24 ≤ v.toNat / 256 % 32 ∨ v.toNat / 8192 % 4 = 3 →
      exec (.accessPointerWrite v) s = .next { s with events := { s.events with access := true } }) ∧
    (∀ p : Pointer, parsePointer p.toWord = some p) ∧
    s.readRegister 10 = s.port.pointer.toWord ∧
    (s.readRegister 10).toNat =
      s.port.pointer.word.val + 256 * s.port.pointer.slot.val
        + 8192 * (match s.port.pointer.mode with | .up => 0 | .down => 1 | .hold => 2)
        + 32768 * bit s.port.pointer.wrap

/-- R6 to R8, R155, R156, R161, R162, R167: a read of the data word returns the record word at the pointer and steps
it, or while a transfer is in flight returns 0 and sets ACCESS. While the computer's reset line is asserted it returns
what a read would return with the line released, and changes nothing else: the pointer holds its value (DEDUCED,
log 22). -/
def Obligations.AccessDataReads : Prop :=
  (∀ s : State, s.resetLine = true → ∃ w u,
    exec .accessDataRead s = .next { s with port := { s.port with readData := w } } ∧
      exec .accessDataRead { s with resetLine := false } = .next u ∧ w = u.port.readData ∧
      ((s.slot s.port.pointer.slot).state = .free → w = 0#16)) ∧
  ∀ (s : State) (code : Nat), s.resetLine = false →
    code = (match (s.slot s.port.pointer.slot).state with
      | .free => 0 | .draft => 1 | .standby => 2 | .onAir => 3 | .faulted => 4) →
    (s.port.transfer.isSome = true →
      exec .accessDataRead s = .next
        { s with port := { s.port with readData := 0#16 }, events := { s.events with access := true } }) ∧
    (s.port.transfer = none →
      ∃ w p, exec .accessDataRead s = .next { s with port := { s.port with readData := w, pointer := p } } ∧
        p = s.port.pointer.step ∧
        ((s.slot s.port.pointer.slot).state = .free → w = 0#16) ∧
        ((s.slot s.port.pointer.slot).state ≠ .free →
          (∀ k : Fin 16, s.port.pointer.word.val = k.val → w = (s.slot s.port.pointer.slot).staging[k.val]) ∧
          (∀ n : Nat, s.port.pointer.word = 16 → n ≤ 255 →
            (s.slot s.port.pointer.slot).pending.getD 0 = n →
            (s.port.pointer.slot ∉ s.stack →
              w.toNat = code + 8 * bit (s.slot s.port.pointer.slot).pending.isSome + 16 * n) ∧
            (∀ above below : List SlotId, s.stack = above ++ s.port.pointer.slot :: below →
              s.port.pointer.slot ∉ above → above.length ≤ 7 →
              w.toNat = code + 8 * bit (s.slot s.port.pointer.slot).pending.isSome + 16 * n + 4096 * above.length
                + 32768)) ∧
          (s.port.pointer.word = 17 →
            w = BitVec.ofNat 16 (bit (s.slot s.port.pointer.slot).attention.evicted
              + 2 * bit (s.slot s.port.pointer.slot).attention.late
              + 4 * bit (s.slot s.port.pointer.slot).attention.convert
              + 8 * bit (s.slot s.port.pointer.slot).attention.expired
              + 16 * bit (s.slot s.port.pointer.slot).attention.fetchFault)) ∧
          (s.port.pointer.word = 18 → w = BitVec.ofInt 16 (s.slot s.port.pointer.slot).geometry.left) ∧
          (s.port.pointer.word = 19 → w = BitVec.ofInt 16 (s.slot s.port.pointer.slot).geometry.right) ∧
          (s.port.pointer.word = 20 → w = BitVec.ofInt 16 (s.slot s.port.pointer.slot).geometry.top) ∧
          (s.port.pointer.word = 21 → w = BitVec.ofInt 16 (s.slot s.port.pointer.slot).geometry.bottom) ∧
          (s.port.pointer.word = 22 → (s.slot s.port.pointer.slot).counters.mix ≤ 63 →
            w.toNat = (s.slot s.port.pointer.slot).counters.mix
              + 256 * bit (s.slot s.port.pointer.slot).counters.hidden
              + 512 * bit (s.slot s.port.pointer.slot).counters.halted) ∧
          (s.port.pointer.word = 23 → w = BitVec.ofNat 16 (s.slot s.port.pointer.slot).counters.lifetime))) ∧
    (∀ p : Pointer,
      (p.mode = .hold → p.step = p) ∧
      (p.mode = .up → p.word.val < 23 → p.step.slot = p.slot ∧ p.step.word.val = p.word.val + 1) ∧
      (p.mode = .up → p.word.val = 23 → p.step.word.val = 0 ∧
        p.step.slot.val = if p.wrap then p.slot.val else (p.slot.val + 1) % 24) ∧
      (p.mode = .down → 0 < p.word.val → p.step.slot = p.slot ∧ p.step.word.val = p.word.val - 1) ∧
      (p.mode = .down → p.word.val = 0 → p.step.word.val = 23 ∧
        p.step.slot.val = if p.wrap then p.slot.val else (p.slot.val + 23) % 24) ∧
      p.step.mode = p.mode ∧ p.step.wrap = p.wrap)

/-- R20, R30, R163: a write of the data word stores an unlocked staging word or clears attention flags and steps the
pointer; every other write is refused with ACCESS set and changes nothing else. R167: while the computer's reset line is
asserted the write is ignored. -/
def Obligations.AccessDataWrites : Prop :=
  ∀ (s : State) (v : Word) (i : SlotId), s.port.pointer.slot = i →
    (s.resetLine = true → exec (.accessDataWrite v) s = .next s) ∧
    (∀ k : Fin 16, s.resetLine = false → s.port.transfer = none → s.port.pointer.word.val = k.val → (s.slot i).state ≠ .free →
      (s.slot i).pending = none →
      exec (.accessDataWrite v) s = .next
        { WithSlot s i { s.slot i with staging := (s.slot i).staging.set k.val v } with
          port := { s.port with pointer := s.port.pointer.step } }) ∧
    (s.resetLine = false → s.port.transfer = none → s.port.pointer.word = 17 →
      exec (.accessDataWrite v) s = .next
        { WithSlot s i { s.slot i with attention :=
            { evicted := (s.slot i).attention.evicted && !v.getLsbD 0
              late := (s.slot i).attention.late && !v.getLsbD 1
              convert := (s.slot i).attention.convert && !v.getLsbD 2
              expired := (s.slot i).attention.expired && !v.getLsbD 3
              fetchFault := (s.slot i).attention.fetchFault && !v.getLsbD 4 } } with
          port := { s.port with pointer := s.port.pointer.step } }) ∧
    (s.resetLine = false →
      s.port.transfer.isSome = true ∨
        (s.port.pointer.word.val < 16 ∧ ((s.slot i).state = .free ∨ (s.slot i).pending.isSome = true)) ∨
        s.port.pointer.word = 16 ∨ 18 ≤ s.port.pointer.word.val →
      exec (.accessDataWrite v) s = .next { s with events := { s.events with access := true } })

/-! ### Field starts -/

/-- R30, R32 to R35, R78, R86, R87, R106, R142, R143, R145, R147, R152, R153: at a field start the field counter
increases, v moves toward 0 in SLEW and with both residuals at 0 the timebase enters FOLLOW, the new field takes its
parity, the five values are latched, the cut blanking counts down, every pending publication ticks or is adopted and
the staging copies stay, every converted record is converted with CONVERT set as R87 gives, and the held SELECT is
examined, counted or timed out; and what stays. The state of a record adopted from STANDBY or ON AIR stands in
`Obligations.FieldStartStackWork`. The counters are stated in `Obligations.FieldStartCounts`, the stack and the air
guard in `Obligations.FieldStartStackWork`, the engine in `Obligations.LineOpens`. The v of a field that overran its
slewed length is the model's reading (DEDUCED, log 37), and the field of the input that the new field follows is the
one whose boundary lies nearest (log 14). -/
def Obligations.FieldStartAdvances : Prop :=
  ∀ s : State, ∃ t, exec .fieldStart s = .next t ∧
    t.tb.fieldCounter = s.tb.fieldCounter + 1#16 ∧ t.tb.linesRun = 0 ∧ t.tb.lastField = s.tb.linesRun ∧
    (s.tb.state ≠ .slew → t.tb.v = s.tb.v) ∧
    (∀ (closer : Int) (length : Nat), s.tb.state = .slew →
      closer = (if 0 < s.tb.v then s.tb.v - min 4 s.tb.v else s.tb.v + min 4 (-s.tb.v)) →
      (length : Int) = s.tb.inputLines - s.tb.v + closer →
      (s.tb.linesRun ≤ length → t.tb.v = closer) ∧
      (length < s.tb.linesRun →
        (∃ m : Int, s.tb.v + s.tb.linesRun - s.tb.inputLines = t.tb.v + m * (s.ctx s.tb.program).expected) ∧
        -((s.ctx s.tb.program).expected : Int) < 2 * t.tb.v ∧ 2 * t.tb.v ≤ (s.ctx s.tb.program).expected)) ∧
    (s.tb.state = .slew ∧ s.tb.h = 0 ∧ t.tb.v = 0 → t.tb.state = .follow ∧ t.events.timebase = true) ∧
    (¬ (s.tb.state = .slew ∧ s.tb.h = 0 ∧ t.tb.v = 0) →
      t.tb.state = s.tb.state ∧ t.events.timebase = s.events.timebase) ∧
    (s.tb.state = .freeRun ∨ s.tb.state = .coast → t.tb.parity ≠ s.tb.parity) ∧
    (s.tb.state = .slew ∨ s.tb.state = .follow →
      (t.tb.parity = (s.ctx s.tb.program).parity ↔
        2 * (((s.ctx s.tb.program).line : Int) - t.tb.v).natAbs ≤ (s.ctx s.tb.program).expected)) ∧
    (∀ std, (s.ctx s.tb.program).standard = some std → t.tb.inputLines = std.fieldLines t.tb.parity) ∧
    t.tb.latched =
      { scale := s.tb.setScale, trim := s.tb.setTrim, h := s.tb.h, v := t.tb.v, standard := s.tb.standard } ∧
    t.keyer = { s.keyer with cutBlanking := s.keyer.cutBlanking - 1 } ∧
    (∀ i, (t.slot i).gen = (s.slot i).gen →
      (∀ n, (s.slot i).pending = some (n + 1) → (t.slot i).pending = some n) ∧
      ((s.slot i).pending = none → (t.slot i).pending = none) ∧
      ((s.slot i).pending = some 0 → (s.slot i).state ≠ .free →
        (t.slot i).pending = none ∧ (t.slot i).active = some (s.slot i).staging ∧
          (t.slot i).counters =
            { mix := (s.slot i).staging[7].toNat, lifetime := (s.slot i).staging[9].toNat, hidden := false,
              halted := false } ∧
          ((s.slot i).state = .draft ∨ (s.slot i).state = .faulted → (t.slot i).state = .standby))) ∧
    (∀ i, (t.slot i).gen = (s.slot i).gen → (t.slot i).staging = (s.slot i).staging) ∧
    (∀ i cp, (t.slot i).state.converted = true → (t.slot i).active = some cp →
      (t.slot i).geometry = derive cp t.tb.latched ∧
      ((t.slot i).gen = (s.slot i).gen →
        ((t.slot i).attention.convert = true ↔
          (s.slot i).attention.convert = true ∨
            (cp[1].getLsbD 4 = true ∧ cp[1].getLsbD 6 = false ∧ (t.slot i).geometry.offRaster = true ∧
              (s.slot i).geometry.offRaster = false)))) ∧
    (∀ switch : SwitchItem,
      (s.tb.state = .slew ∧ s.tb.h = 0 ∧ t.tb.v = 0 ∧ s.tb.switch = .made → switch = .none) →
      (¬ (s.tb.state = .slew ∧ s.tb.h = 0 ∧ t.tb.v = 0 ∧ s.tb.switch = .made) → switch = s.tb.switch) →
      (s.tb.heldSelect = none → t.tb.heldSelect = none ∧ t.tb.switch = switch) ∧
      (∀ q, s.tb.heldSelect = some q →
        HeldSelectAfter { s with tb := { s.tb with state := t.tb.state, switch := .none } } switch q t)) ∧
    (s.held = none → s.tb.heldSelect = none → t.cmd = s.cmd) ∧
    t.held = none ∧ t.tb.h = s.tb.h ∧ t.tb.program = s.tb.program ∧ t.tb.standard = s.tb.standard ∧
    t.tb.setScale = s.tb.setScale ∧ t.tb.setTrim = s.tb.setTrim ∧ t.tb.runPeriod = s.tb.runPeriod ∧
    t.tb.lineStartAt = s.tb.lineStartAt ∧ t.tb.previousLineAt = s.tb.previousLineAt ∧
    t.tb.lineLength = s.tb.lineLength ∧ t.tb.lineSlew = s.tb.lineSlew ∧ t.tb.lineFollows = s.tb.lineFollows ∧
    t.events.lock = s.events.lock ∧ t.events.overrun = s.events.overrun ∧ t.events.access = s.events.access ∧
    t.feedA = s.feedA ∧ t.feedB = s.feedB ∧ t.port = s.port ∧ t.mask = s.mask ∧ t.now = s.now ∧
    t.resetLine = s.resetLine ∧ t.cmd.arg0 = s.cmd.arg0 ∧ t.cmd.arg1 = s.cmd.arg1 ∧ t.cmd.arg2 = s.cmd.arg2 ∧
    t.cmd.ie = s.cmd.ie ∧ t.cmd.func = s.cmd.func

/-- R34, R35: adoption of a record. -/
def Obligations.AdoptionAdopts : Prop :=
  ∀ (s : State) (i : SlotId) (new : RecState), (s.slot i).pending = some 0 →
    ((s.slot i).state = .draft ∧ new = .standby) ∨ ((s.slot i).state = .standby ∧ new = .standby) ∨
      ((s.slot i).state = .onAir ∧ new = .onAir) ∨ ((s.slot i).state = .faulted ∧ new = .standby) →
    exec (.adoption i) s = .next
      (WithSlot s i
        { s.slot i with
          state := new
          active := some (s.slot i).staging
          pending := none
          counters :=
            { mix := (s.slot i).staging[7].toNat, lifetime := (s.slot i).staging[9].toNat, hidden := false,
              halted := false } })

/-- R65 to R67: a ONCE window whose lifetime reaches 0 expires: EXPIRED, off the stack, and STANDBY or, with
AUTO-RETIRE, FREE. R69, R70: a BLINK window whose lifetime reaches 0 toggles its phase and reloads, or with a reload of
0 goes hidden. These rows of the table sent alone act on the lifetime and leave the mix level and the crawl as they
stand, where R64 has all three act together at a field start: that is the model's choice (DESIGN CHOICE, log 6), and
`Obligations.FieldStartCounts` states the field start itself. What becomes of the marks of the latest field start, the
model's own (log 16), is left open here. -/
def Obligations.LifetimeAndBlinkRunOut : Prop :=
  ∀ (s : State) (i : SlotId) (cp : Copy), (s.slot i).state = .onAir → (s.slot i).pending ≠ some 0 →
    (s.slot i).active = some cp → (s.slot i).counters.lifetime = 1 →
    (cp[1].getLsbD 7 = false → cp[1].getLsbD 8 = false →
      ∃ marks, (s.marks = none → marks = none) ∧ exec (.lifetimeExpiry i) s = .next
        { WithSlot s i
            { s.slot i with
              state := .standby
              counters := { (s.slot i).counters with lifetime := 0 }
              attention := { (s.slot i).attention with expired := true } } with
          stack := s.stack.erase i
          marks := marks
          events := { s.events with window := s.events.window || !(s.slot i).attention.expired } }) ∧
    (cp[1].getLsbD 7 = false → cp[1].getLsbD 8 = true →
      ∃ marks, (s.marks = none → marks = none) ∧ exec (.expiryAutoRetire i) s = .next
        { WithSlot s i (Slot.blank ((s.slot i).gen + 1#4)) with
          stack := s.stack.erase i
          marks := marks
          events := { s.events with window := s.events.window || !(s.slot i).attention.expired } }) ∧
    (cp[1].getLsbD 7 = true → cp[10] ≠ 0#16 →
      exec (.blinkToggle i) s = .next
        (WithSlot s i { s.slot i with counters :=
          { (s.slot i).counters with lifetime := cp[10].toNat, hidden := !(s.slot i).counters.hidden } })) ∧
    (cp[1].getLsbD 7 = true → cp[10] = 0#16 →
      exec (.blinkHide i) s = .next
        (WithSlot s i { s.slot i with counters :=
          { (s.slot i).counters with lifetime := 0, hidden := true } }))

/-- R63 to R66, R69, R70, R72 to R74: what the Window Counters do at a field start to a record that is ON AIR as it
arrives and is not adopted there, unless the same field start frees it: the remaining lifetime counts down and acts by
its mode, the mix level steps toward the fade target, and the crawl advances both edges or halts. A record that is not
ON AIR as the field start arrives, and is not adopted there, keeps its counter values and its active copy. -/
def Obligations.FieldStartCounts : Prop :=
  ∀ (s : State) (i : SlotId), ∃ t, exec .fieldStart s = .next t ∧
    (∀ (cp : Copy) (old new : Counters), (s.slot i).state = .onAir → (s.slot i).pending ≠ some 0 →
      (s.slot i).active = some cp → old = (s.slot i).counters → new = (t.slot i).counters →
      (t.slot i).gen = (s.slot i).gen →
      (old.lifetime = 0 → new.lifetime = 0 ∧ new.hidden = old.hidden) ∧
      (2 ≤ old.lifetime → new.lifetime = old.lifetime - 1 ∧ new.hidden = old.hidden) ∧
      (old.lifetime = 1 → cp[1].getLsbD 7 = false → new.lifetime = 0 ∧ new.hidden = old.hidden) ∧
      (old.lifetime = 1 → cp[1].getLsbD 7 = true →
        (cp[10] ≠ 0#16 → new.lifetime = cp[10].toNat ∧ new.hidden = !old.hidden) ∧
        (cp[10] = 0#16 → new.lifetime = 0 ∧ new.hidden = true)) ∧
      (t.slot i).attention.expired =
        ((s.slot i).attention.expired || (decide (old.lifetime = 1) && !cp[1].getLsbD 7)) ∧
      (∀ target step : Nat, target = cp[8].toNat % 64 → step = cp[8].toNat / 256 % 16 →
        (old.mix ≤ target → new.mix = min (old.mix + step) target) ∧
        (target ≤ old.mix → new.mix = max (old.mix - step) target)) ∧
      (∀ left right step : Int, left = cp[2].toInt → right = cp[3].toInt → step = cp[11].toInt →
        (step = 0 ∨ old.halted = true → (t.slot i).active = some cp ∧ new.halted = old.halted) ∧
        (step ≠ 0 → old.halted = false →
          (-1024 ≤ left + step → left + step ≤ 1023 → -1024 ≤ right + step → right + step ≤ 1023 →
            (t.slot i).active = some ((cp.set 2 (BitVec.ofInt 16 (left + step))).set 3 (BitVec.ofInt 16 (right + step))) ∧
              new.halted = false) ∧
          (left + step < -1024 ∨ 1023 < left + step ∨ right + step < -1024 ∨ 1023 < right + step →
            (t.slot i).active = some cp ∧ new.halted = true)))) ∧
    ((s.slot i).state ≠ .onAir → (s.slot i).pending ≠ some 0 → (t.slot i).gen = (s.slot i).gen →
      (t.slot i).counters = (s.slot i).counters ∧ (t.slot i).active = (s.slot i).active)

/-- R35, R47, R48, R56, R57, R66, R67: the Layer Stack's three steps at a field start, in their order. The windows
whose lifetime expires leave the stack; then the air guard counts, and where its count reaches the setting every
window still on the stack is lifted; then the held request is applied to what the first two left, as the rows that
apply it give. Adoption alone changes a record's state after that: a record adopted there is ON AIR if they left it
so, and else STANDBY. -/
def Obligations.FieldStartStackWork : Prop :=
  ∀ (s : State) (expires : SlotId → Bool) (lifts : Bool), StackLaw s →
    (∀ i, expires i = true ↔
      (s.slot i).state = .onAir ∧ (s.slot i).pending ≠ some 0 ∧ (s.slot i).counters.lifetime = 1 ∧
        ∃ cp, (s.slot i).active = some cp ∧ cp[1].getLsbD 7 = false) →
    (lifts = true ↔ s.guard.setting ≠ 0 ∧ s.guard.expired = false ∧ s.guard.setting ≤ s.guard.count + 1) →
    ∃ u w t, exec .fieldStart s = .next t ∧
      u.held = s.held ∧ u.cmd = s.cmd ∧ u.events.done = s.events.done ∧
      u.stack = (if lifts then [] else s.stack.filter (fun i => !expires i)) ∧
      (∀ i,
        (∀ cp, expires i = true → (s.slot i).active = some cp → cp[1].getLsbD 8 = true →
          (u.slot i).state = .free ∧ (u.slot i).gen = (s.slot i).gen + 1#4) ∧
        (∀ cp, expires i = true → (s.slot i).active = some cp → cp[1].getLsbD 8 = false →
          (u.slot i).state = .standby ∧ (u.slot i).gen = (s.slot i).gen) ∧
        (expires i = false → (u.slot i).gen = (s.slot i).gen ∧
          (u.slot i).state =
            if lifts = true ∧ (s.slot i).state = .onAir then .standby else (s.slot i).state) ∧
        ((u.slot i).gen = (s.slot i).gen → (u.slot i).attention.evicted = (s.slot i).attention.evicted)) ∧
      (s.held = none → w = u) ∧
      (∀ q c, s.held = some q → AppliesHeld q c → exec c u = .next w) ∧
      t.held = none ∧ t.stack = w.stack ∧
      (∀ i, (t.slot i).gen = (w.slot i).gen ∧ (t.slot i).attention.evicted = (w.slot i).attention.evicted ∧
        ((s.slot i).pending ≠ some 0 → (t.slot i).state = (w.slot i).state) ∧
        ((s.slot i).pending = some 0 → (s.slot i).state ≠ .free → (t.slot i).gen = (s.slot i).gen →
          (t.slot i).state = if (w.slot i).state = .onAir then .onAir else .standby)) ∧
      (s.tb.heldSelect = none → t.cmd = w.cmd ∧ t.events.done = w.events.done) ∧
      t.events.guard = (s.events.guard || lifts) ∧
      (lifts = true → t.guard = { s.guard with count := s.guard.setting, expired := true }) ∧
      (lifts = false → s.guard.setting ≠ 0 → s.guard.expired = false →
        t.guard = { s.guard with count := s.guard.count + 1 }) ∧
      (s.guard.setting = 0 ∨ s.guard.expired = true → t.guard = s.guard)

/-- R48, R57: the guard expires and lifts every window. R53: the held CLEAR AIR, applied, lifts every window and returns
their number. -/
def Obligations.GuardExpiryAndClearAirLift : Prop :=
  (∀ s : State, s.guard.setting ≠ 0 → s.guard.expired = false → s.guard.count + 1 = s.guard.setting →
    exec .guardExpiry s = .next
      { s with
        slots := Vector.ofFn (fun i => if i ∈ s.stack then { s.slot i with state := .standby } else s.slot i)
        stack := []
        guard := { s.guard with count := s.guard.setting, expired := true }
        events := { s.events with guard := true } }) ∧
  (∀ s : State, s.held = some .clearAir →
    exec .clearAirApply s = .next
      { Finished s .ok (BitVec.ofNat 16 s.stack.length) 0#16 with
        held := none
        slots := Vector.ofFn (fun i => if i ∈ s.stack then { s.slot i with state := .standby } else s.slot i)
        stack := [] })

/-- R49, R50: the held PUSH, applied. What becomes of the marks of the latest field start, the model's own (log 16),
is left open here. -/
def Obligations.PushApplied : Prop :=
  ∀ (s : State) (i : SlotId) (g : Generation), s.held = some (.push i g) →
    ((s.slot i).gen ≠ g ∨ (s.slot i).state = .free ∨ (s.slot i).state = .faulted →
      exec .pushApply s = .next { Finished s .gone 0#16 0#16 with held := none }) ∧
    ((s.slot i).gen = g → (s.slot i).state = .onAir →
      exec .pushApply s = .next
        { Finished s .ok 0#16 0#16 with held := none, stack := i :: s.stack.erase i }) ∧
    ((s.slot i).gen = g → (s.slot i).state = .standby → i ∉ s.stack → s.stack.length < 8 →
      exec .pushApply s = .next
        { Finished (WithSlot s i { s.slot i with state := .onAir }) .ok 0#16 0#16 with
          held := none, stack := i :: s.stack }) ∧
    (∀ (above : List SlotId) (e : SlotId), (s.slot i).gen = g → (s.slot i).state = .standby →
      s.stack = above ++ [e] → above.length = 7 → s.stack.Nodup → i ∉ s.stack →
      ∃ marks, (s.marks = none → marks = none) ∧ exec .pushApply s = .next
        { Finished
            (WithSlot
              (WithSlot s e
                { s.slot e with state := .standby, attention := { (s.slot e).attention with evicted := true } })
              i { s.slot i with state := .onAir })
            .ok (handleOf e (s.slot e).gen) 1#16 with
          held := none
          stack := i :: above
          marks := marks
          events := { s.events with done := true, window := s.events.window || !(s.slot e).attention.evicted } })

/-- R17, R51: the held LIFT and the held RETIRE, applied. R17 gives no results: that RESULT0 and RESULT1 are 0 at the
completion of a held RETIRE is the model's choice (DESIGN CHOICE, log 30). -/
def Obligations.LiftAndRetireApplied : Prop :=
  ∀ (s : State) (i : SlotId) (g : Generation),
    (s.held = some (.lift i g) →
      (∀ above below : List SlotId, (s.slot i).state = .onAir → (s.slot i).gen = g →
        s.stack = above ++ i :: below → i ∉ above →
        exec .liftApply s = .next
          { Finished (WithSlot s i { s.slot i with state := .standby }) .ok (BitVec.ofNat 16 above.length) 0#16 with
            held := none, stack := above ++ below }) ∧
      ((s.slot i).state ≠ .onAir ∨ (s.slot i).gen ≠ g →
        exec .liftApply s = .next { Finished s .gone 0#16 0#16 with held := none })) ∧
    (s.held = some (.retire i g) →
      ((s.slot i).state = .onAir ∨ (s.slot i).state = .standby → (s.slot i).gen = g →
        exec .retireApply s = .next
          { Finished (WithSlot s i (Slot.blank (g + 1#4))) .ok 0#16 0#16 with
            held := none, stack := s.stack.erase i }) ∧
      ((s.slot i).state = .free ∨ (s.slot i).state = .faulted ∨ (s.slot i).gen ≠ g →
        exec .retireApply s = .next { Finished s .gone 0#16 0#16 with held := none }))

/-- R52: the held RAISE and LOWER, applied. -/
def Obligations.RaiseAndLowerApplied : Prop :=
  ∀ (s : State) (i : SlotId) (g : Generation),
    (s.held = some (.raise i g) →
      (∀ (above below : List SlotId) (a : SlotId), (s.slot i).state = .onAir → (s.slot i).gen = g →
        s.stack = above ++ a :: i :: below → i ∉ above → i ≠ a →
        exec .raiseApply s = .next
          { Finished s .ok (BitVec.ofNat 16 above.length) 0#16 with
            held := none, stack := above ++ i :: a :: below }) ∧
      (∀ below : List SlotId, (s.slot i).state = .onAir → (s.slot i).gen = g → s.stack = i :: below →
        exec .raiseApply s = .next { Finished s .atLimit 0#16 0#16 with held := none }) ∧
      ((s.slot i).state ≠ .onAir ∨ (s.slot i).gen ≠ g →
        exec .raiseApply s = .next { Finished s .gone 0#16 0#16 with held := none })) ∧
    (s.held = some (.lower i g) →
      (∀ (above below : List SlotId) (b : SlotId), (s.slot i).state = .onAir → (s.slot i).gen = g →
        s.stack = above ++ i :: b :: below → i ∉ above →
        exec .lowerApply s = .next
          { Finished s .ok (BitVec.ofNat 16 (above.length + 1)) 0#16 with
            held := none, stack := above ++ b :: i :: below }) ∧
      (∀ above : List SlotId, (s.slot i).state = .onAir → (s.slot i).gen = g → s.stack = above ++ [i] → i ∉ above →
        exec .lowerApply s = .next
          { Finished s .atLimit (BitVec.ofNat 16 above.length) 0#16 with held := none }) ∧
      ((s.slot i).state ≠ .onAir ∨ (s.slot i).gen ≠ g →
        exec .lowerApply s = .next { Finished s .gone 0#16 0#16 with held := none }))

/-- R153: the held SELECT times out at its 48th field start, or is examined once SWITCHING is clear: these are the
rows of the table sent alone. What the field start and the switches do with a held SELECT themselves stands in
`Obligations.FieldStartAdvances` and `Obligations.SwitchesAreMade`. -/
def Obligations.HeldSelectEnds : Prop :=
  ∀ (s : State) (q : HeldSelect), s.tb.heldSelect = some q →
    (s.tb.switch ≠ .none → q.count = 47 →
      exec .heldSelectTimeout s = .next
        { Finished s .timeout (programWord s) 0#16 with tb := { s.tb with heldSelect := none } }) ∧
    (s.tb.switch = .none →
      exec .heldSelectExamine s = .next
        { Finished s (selectVerdict s q.input q.mode q.confirm).1 (programWord s) 0#16 with
          tb := { s.tb with
            heldSelect := none, switch := (selectVerdict s q.input q.mode q.confirm).2 } }) ∧
    (s.tb.switch ≠ .none → exec .heldSelectExamine s = .next s)

/-! ### The picture line and the bus -/

/-- R96, R97, R103, R108, R110, R115, R121, R156: at the beginning of a picture line the Keyer takes its snapshot from
the state as it stands, a MASK window described exactly where the engine holds an open descriptor for it on that line;
where the line is the open one and no open descriptor has a needed word left, the engine opens the next
(`Obligations.LineOpens`) and the channel goes by what is ready; and else the engine goes on with the line it holds,
which is drawn now or is not (log 31). In the timebase's own structure the snapshot notes the computer line beside it
(log 34). That a channel awaiting the bus with nothing ready any more goes idle at once is read from R115 and R123
(DEDUCED, log 18). -/
def Obligations.LineBegins : Prop :=
  ∀ (s : State) (line : Nat), ∃ t snap, exec (.lineBegin line) s = .next t ∧
    t.keyer = { s.keyer with snapshot := some snap } ∧
    snap.line = line ∧ snap.beganAt = s.rasterLine.1 ∧
    ((s.ctx s.tb.program).lock = .locked ∨ (s.ctx s.tb.program).lock = .holdover → snap.ownAt = none) ∧
    ((s.ctx s.tb.program).lock ≠ .locked → (s.ctx s.tb.program).lock ≠ .holdover →
      snap.ownAt = some (s.rasterLine.1 + s.tb.latched.h)) ∧ snap.follow = decide (s.tb.state = .follow) ∧
    snap.blanked = decide (s.keyer.cutBlanking ≠ 0) ∧ snap.program = s.tb.program ∧
    snap.noSignal = decide ((s.ctx s.tb.program).lock = .noSignal) ∧ snap.latched = s.tb.latched ∧
    snap.entries.map (·.slot) = s.stack.filter (fun i => (s.slot i).active.isSome) ∧
    (∀ e, e ∈ snap.entries → ∃ cp, (s.slot e.slot).active = some cp ∧ 
      e.mode = (match cp[1].toNat % 4 with | 0 => .luma | 1 => .colour | 2 => .mask | _ => .matte) ∧
      e.keyValue = cp[6].toNat ∧ e.holdOff = cp[1].getLsbD 5 ∧ e.mix = (s.slot e.slot).counters.mix ∧
      e.hidden = (s.slot e.slot).counters.hidden ∧ e.left = (s.slot e.slot).geometry.left ∧
      e.right = (s.slot e.slot).geometry.right ∧ e.top = (s.slot e.slot).geometry.top ∧
      e.bottom = (s.slot e.slot).geometry.bottom ∧ e.maskOrigin = (s.slot e.slot).geometry.maskOrigin ∧
      e.rowBase = (s.slot e.slot).geometry.rowBase ∧ e.wordsPerLine = cp[15].toNat ∧ e.taken = [] ∧
      e.abandonedFrom = none ∧
      (e.described = true ↔
        s.engine.openLine = some line ∧ ∃ d, d ∈ s.engine.descs ∧ d.slot = e.slot ∧ d.condition = .opened)) ∧
    (s.engine.openLine = some line → line + 1 < s.tb.latched.standard.pictureLines →
      (∀ d, d ∈ s.engine.descs → d.condition = .opened → d.toTake = []) →
      t.engine.openLine = some (line + 1) ∧ t.engine.drawn = false ∧
        ∀ channel, ReadClosed s.engine.channel channel → Arbitrated channel t) ∧
    (s.engine.openLine ≠ some line ∨ s.tb.latched.standard.pictureLines ≤ line + 1 ∨
        (∃ d, d ∈ s.engine.descs ∧ d.condition = .opened ∧ d.toTake ≠ []) →
      (s.engine.openLine = some line → t.engine = { s.engine with drawn := true }) ∧
      (s.engine.openLine ≠ some line → t.engine = { s.engine with drawn := false }) ∧
      t.slots = s.slots ∧ t.events = s.events) ∧
    SameHostSide s t ∧ SameWindows s t ∧ t.tb = s.tb ∧ t.feedA = s.feedA ∧ t.feedB = s.feedB ∧ t.now = s.now

/-- R95, R96, R103, R110 to R116, R121, R123: how the engine opens a line. At a field start the line held open is
closed and its words discarded, a mask read in flight then belonging to no open line, and the first picture line not
yet begun of the field that begins is opened, or with the reset line asserted none; at the beginning of an open line
with no needed word the next is opened. The descriptors are those of the first four MASK windows drawn on the line in
need order, and LATE is set on the rest. The channel then goes by what is ready. A raster line has not begun while the
Keyer's snapshot is of an earlier one; lines of the timebase's own structure are told apart by their computer lines,
whatever h a field start latches between (DESIGN CHOICE, log 34). The raster line in progress is the flywheel's while
the program input is LOCKED or in HOLDOVER, and else the timebase's own: v lines before the latest field start its
field begins, and while v is negative the lines before it belong to the field before. What the raster's changeover
begins is the model's choice (DESIGN CHOICE, log 32), and so is the field now running where its boundary and the next
lie equally close to v lines before the field start (DESIGN CHOICE, log 38); where the own structure's fields begin and
end is read as log 26 says, and that a channel awaiting the bus with nothing ready any more goes idle at once is read
from R115 and R123 (DEDUCED, log 18). -/
def Obligations.LineOpens : Prop :=
  (∀ s : State, StackLaw s → ∃ t, exec .fieldStart s = .next t ∧ t.engine.silo = [] ∧ t.engine.drawn = false ∧
    (t.engine.openLine = none → t.engine.descs = []) ∧
    (s.resetLine = true → t.engine.openLine = none) ∧
    (s.resetLine = false →
      (∀ (began : Int) (number count : Nat), t.rasterLine = (began, number, count) →
        ((count : Int) < 2 * (number - t.tb.latched.v) → t.engine.openLine = some 0) ∧
        (∀ l : Nat, 2 * ((number : Int) - t.tb.latched.v) ≤ count →
          l = number + (if t.lineFresh then 0 else 1) - s.tb.standard.firstPictureLine →
          t.engine.openLine = if l < s.tb.standard.pictureLines then some l else none)) ∧
      (s.engine.channel = .idle ∨ s.engine.channel = .awaiting →
        (t.engine.channel = .idle ∨ t.engine.channel = .awaiting) ∧
        (t.engine.channel = .awaiting ↔
          (∃ d, d ∈ t.engine.descs ∧ d.toFetch ≠ []) ∨ ∃ tr, s.port.transfer = some tr ∧ tr.left ≠ 0))) ∧
    (∀ l, t.engine.openLine = some l →
      ∃ late, LineDescriptors t l t.engine.descs late ∧
        ∀ i, (t.slot i).gen = (s.slot i).gen →
          ((t.slot i).attention.late = true ↔ (s.slot i).attention.late = true ∨ i ∈ late)) ∧
    (∀ line place k i g a current since, s.engine.channel = .maskRead line place k i g a current since →
      t.engine.channel = .maskRead line place k i g a false since) ∧
    ((∃ a since, s.engine.channel = .imageRead a since) ∨ (∃ a d since, s.engine.channel = .imageWrite a d since) →
      t.engine.channel = s.engine.channel)) ∧
  (∀ (s : State) (line : Nat), StackLaw s → s.engine.openLine = some line →
    line + 1 < s.tb.latched.standard.pictureLines →
    (∀ d, d ∈ s.engine.descs → d.condition = .opened → d.toTake = []) →
    ∃ t late, exec (.lineBegin line) s = .next t ∧ t.engine.openLine = some (line + 1) ∧
      LineDescriptors s (line + 1) t.engine.descs late ∧ MarksLate s t (· ∈ late) ∧ t.engine.silo = s.engine.silo ∧
      t.engine.drawn = false ∧ ∀ channel, ReadClosed s.engine.channel channel → Arbitrated channel t) ∧
  (∀ s : State, ((s.ctx s.tb.program).lock = .locked ∨ (s.ctx s.tb.program).lock = .holdover) →
    ∀ r, (s.ctx s.tb.program).reference = some r →
      s.rasterLine = ((r : Int), (s.ctx s.tb.program).line, (s.ctx s.tb.program).expected)) ∧
  (∀ (s : State) (began place : Int) (regular : Nat), (s.ctx s.tb.program).lock ≠ .locked →
    (s.ctx s.tb.program).lock ≠ .holdover →
    began = s.tb.lineStartAt - s.tb.latched.h → place = s.tb.linesRun + s.tb.latched.v →
    began ≤ s.now → (s.now : Int) < began + s.tb.lineLength →
    (∀ snap c, s.keyer.snapshot = some snap → snap.ownAt = some c → c < s.tb.lineStartAt + s.tb.lineLength) →
    regular = max (s.tb.standard.fieldLines s.tb.parity) (s.tb.linesRun + 1) →
    (0 ≤ place → place < regular → s.rasterLine = (began, place.toNat, regular)) ∧
    (place < 0 → s.rasterLine = (began, (place + s.tb.lastField).toNat, s.tb.lastField)) ∧
    (regular ≤ place →
      s.rasterLine = (began, (place - regular).toNat, s.tb.standard.fieldLines s.tb.parity.other)) ∧
    (∀ snap c, s.keyer.snapshot = some snap → snap.ownAt = some c →
      (s.lineFresh = true ↔ c < s.tb.lineStartAt))) ∧
  (∀ s : State, (s.keyer.snapshot = none → s.lineFresh = true) ∧
    ∀ snap, s.keyer.snapshot = some snap →
      (s.ctx s.tb.program).lock = .locked ∨ (s.ctx s.tb.program).lock = .holdover ∨ snap.ownAt = none →
      (s.lineFresh = true ↔ snap.beganAt < s.rasterLine.1))

/-- R104, R108 to R110, R113, R115, R117, R120, R121: the Keyer's next demand is the first in take order of the words
not yet taken, while it draws the open line: it has begun that line since it was opened, and no raster line after it
begins (DESIGN CHOICE, log 31, for a line that the raster cuts short). At its taking point the Keyer takes the word at
the silo's head, and the dead words behind it are purged; or it finds the silo empty, and then the window is abandoned
for the line and LATE is set on its record. Where that finishes the line, the next is opened there; and the channel
goes by what is then ready. That a channel awaiting the bus with nothing ready any more, as an abandonment may leave it,
goes idle and its request is withdrawn at once is read from R115 and R123 (DEDUCED, log 18). -/
def Obligations.TakingPointTakesOrAbandons : Prop :=
  (∀ (s : State) (l : Nat), s.engine.openLine = some l →
    (s.engine.drawn = true → s.lineFresh = false →
      ∀ (sample : Int) (place k : Nat), s.demand = some (sample, place, k) ↔
        FirstInTakeOrder s.engine.descs Descriptor.toTake sample place k) ∧
    (s.engine.drawn = false ∨ s.lineFresh = true → s.demand = none)) ∧
  (∀ s : State, s.engine.openLine = none → s.demand = none) ∧
  (∀ s : State, s.demand = none → exec .takingPoint s = .next s) ∧
  (∀ (s : State) (sample : Int) (place k l : Nat) (d : Descriptor), StackLaw s →
    s.demand = some (sample, place, k) → s.engine.descs[place]? = some d → s.engine.openLine = some l →
    ∃ t, exec .takingPoint s = .next t ∧
      SameHostSide s t ∧ SameWindows s t ∧ t.tb = s.tb ∧ t.feedA = s.feedA ∧ t.feedB = s.feedB ∧
      ∀ (late : SlotId → Prop) (e : Engine),
        ((∃ (w : SiloWord) (rest : List SiloWord), s.engine.silo = w :: rest ∧
            PurgedHead s.engine.descs rest t.engine.silo ∧
            e = { s.engine with
              descs := s.engine.descs.modify place (fun d => { d with toTake := d.toTake.tail })
              silo := t.engine.silo } ∧
            (∀ i, ¬ late i)) ∨
          (s.engine.silo = [] ∧
            e = { s.engine with
              descs := s.engine.descs.modify place (fun d => { d with condition := .abandoned }) } ∧
            ∀ i, late i ↔ i = d.slot ∧ (s.slot i).state ≠ .free ∧ (s.slot i).gen = d.gen)) →
        (LineDone e → l + 1 < s.tb.latched.standard.pictureLines →
          ∃ more, t.engine.openLine = some (l + 1) ∧ t.engine.drawn = false ∧
            (∀ channel, ReadClosed s.engine.channel channel → Arbitrated channel t) ∧
            LineDescriptors s (l + 1) t.engine.descs more ∧ MarksLate s t (fun i => late i ∨ i ∈ more)) ∧
        (¬ LineDone e ∨ s.tb.latched.standard.pictureLines ≤ l + 1 →
          t.engine.openLine = some l ∧ t.engine.drawn = s.engine.drawn ∧ t.engine.descs = e.descs ∧
            Arbitrated s.engine.channel t ∧ MarksLate s t late)) ∧
  (∀ (s : State) (sample : Int) (place k : Nat) (d : Descriptor), s.demand = some (sample, place, k) →
    s.engine.descs[place]? = some d →
    (∀ (w : SiloWord) (rest : List SiloWord), s.engine.silo = w :: rest →
      ∃ t, exec .takingPoint s = .next t ∧ PurgedHead s.engine.descs rest t.engine.silo ∧
        t.keyer = { s.keyer with snapshot := s.keyer.snapshot.map (fun snap =>
          { snap with entries := snap.entries.map (fun e =>
            if e.slot = d.slot then { e with taken := e.taken ++ [(k, w.data)] } else e) }) }) ∧
    (s.engine.silo = [] →
      ∃ t, exec .takingPoint s = .next t ∧ t.engine.silo = [] ∧
        t.keyer = EntryAbandoned s.keyer d.slot sample))

/-- R109, R113 to R115, R118, R121, R165: at the grant the engine presents the first owed mask word where the silo has
room, and an image word only where no mask word is owed. The first owed word is the first in take order of the words not
yet presented. Where there is nothing to present the channel goes idle: that is read from R115 and R121 (DEDUCED, log
18). -/
def Obligations.BusGrantPresents : Prop :=
  (∀ s : State,
    (s.engine.openLine = none → s.engine.owed = none) ∧
    (∀ l, s.engine.openLine = some l → ∀ (sample : Int) (place k : Nat),
      s.engine.owed = some (sample, place, k) ↔
        FirstInTakeOrder s.engine.descs Descriptor.toFetch sample place k)) ∧
  (∀ s : State,
    (s.engine.channel = .awaiting →
      (∀ (p : Int) (place k line : Nat) (d : Descriptor), s.engine.owed = some (p, place, k) →
        s.engine.silo.length ≤ 15 → s.engine.descs[place]? = some d → s.engine.openLine = some line →
        exec .busGrant s = .next
          { s with engine := { s.engine with
              descs := s.engine.descs.modify place (fun d => { d with toFetch := d.toFetch.tail })
              channel := .maskRead line place k d.slot d.gen (d.rowAddress + BitVec.ofNat 24 k) true s.now } }) ∧
      (s.engine.owed ≠ none → 16 ≤ s.engine.silo.length →
        exec .busGrant s = .next { s with engine := { s.engine with channel := .idle } }) ∧
      (∀ tr : Transfer, s.engine.owed = none → s.port.transfer = some tr → tr.left ≠ 0 →
        (tr.toMemory = false → exec .busGrant s = .next
          { s with engine := { s.engine with channel := .imageRead tr.position s.now } }) ∧
        (tr.toMemory = true → exec .busGrant s = .next
          { s with engine := { s.engine with
              channel := .imageWrite tr.position (s.recordWord s.port.pointer.slot s.port.pointer.word) s.now } })) ∧
      (s.engine.owed = none → s.port.transfer = none →
        exec .busGrant s = .next { s with engine := { s.engine with channel := .idle } })) ∧
    (s.engine.channel ≠ .awaiting → exec .busGrant s = .next s))

/-- R109, R115, R116, R120: the word of an answered mask read goes to the silo's tail if its line and its descriptor are
still open, and is discarded otherwise; dead words at the silo's head are purged; and the engine, which holds the bus,
then does at once what it does at a grant. That an answer opens no line is read from R110 (DEDUCED, log 29). -/
def Obligations.MaskReadAnswered : Prop :=
  ∀ (s : State) (word : Word) (line place k : Nat) (i : SlotId) (g : Generation) (a : Position) (current : Bool)
    (since : Nat),
    s.engine.channel = .maskRead line place k i g a current since →
    ∃ t, exec (.maskReadAnswer word) s = .next t ∧
      (current = true → (∃ d, s.engine.descs[place]? = some d ∧ d.condition = .opened) →
        PurgedHead s.engine.descs
          (s.engine.silo ++ [{ line := line, place := place, k := k, data := word }]) t.engine.silo) ∧
      (current = false ∨ (∀ d, s.engine.descs[place]? = some d → d.condition ≠ .opened) →
        PurgedHead s.engine.descs s.engine.silo t.engine.silo) ∧
      exec .busGrant { s with engine := { s.engine with silo := t.engine.silo, channel := .awaiting } } = .next t ∧
      t.engine.openLine = s.engine.openLine ∧ t.keyer = s.keyer ∧ t.events = s.events ∧
      SameTable s t ∧ SameHostSide s t ∧ t.tb = s.tb ∧ t.feedA = s.feedA ∧ t.feedB = s.feedB

/-- R20, R115, R121, R164, R165: a word of an image transfer. One of IMAGE IN is written through the pointer, as a
data write would be: to an unlocked staging word, or to live word 17, where it clears flags; or it is refused, and the
transfer ends with PARTIAL and ACCESS set. An acknowledged word of IMAGE OUT steps the pointer. The last word
completes the transfer with the count moved, and DONE is set. The engine, which holds the bus, then does at once what
it does at a grant. -/
def Obligations.ImageWordsMove : Prop :=
  ∀ (s : State) (word : Word) (tr : Transfer) (i : SlotId), s.port.transfer = some tr → s.port.pointer.slot = i →
    (∀ (a : Position) (since : Nat), s.engine.channel = .imageRead a since →
      (∀ r : Slot,
        (∃ j : Fin 16, s.port.pointer.word.val = j.val ∧ (s.slot i).state ≠ .free ∧ (s.slot i).pending = none ∧
            r = { s.slot i with staging := (s.slot i).staging.set j.val word }) ∨
          (s.port.pointer.word = 17 ∧
            r = { s.slot i with attention :=
              { evicted := (s.slot i).attention.evicted && !word.getLsbD 0
                late := (s.slot i).attention.late && !word.getLsbD 1
                convert := (s.slot i).attention.convert && !word.getLsbD 2
                expired := (s.slot i).attention.expired && !word.getLsbD 3
                fetchFault := (s.slot i).attention.fetchFault && !word.getLsbD 4 } }) →
        WordMoves s (.imageInWordAnswer word) tr (WithSlot s i r)) ∧
      (s.port.pointer.word = 16 ∨ 18 ≤ s.port.pointer.word.val ∨
          (s.port.pointer.word.val < 16 ∧ ((s.slot i).state = .free ∨ (s.slot i).pending.isSome = true)) →
        ∃ t, exec (.imageInWordAnswer word) s = .next t ∧
          exec .busGrant
            { Finished s .partialDone (BitVec.ofNat 16 tr.moved) 0#16 with
              port := { s.port with transfer := none }
              engine := { s.engine with channel := .awaiting }
              events := { s.events with done := true, access := true } } = .next t ∧
          SameTable s t ∧ t.port = { s.port with transfer := none } ∧
          t.cmd = { s.cmd with ready := true, completion := .partialDone, result0 := BitVec.ofNat 16 tr.moved,
                               result1 := 0#16 } ∧
          t.events = { s.events with done := true, access := true })) ∧
    (∀ (a : Position) (data : Word) (since : Nat), s.engine.channel = .imageWrite a data since →
      WordMoves s .imageOutWordAck tr s)

/-- R54, R105, R109, R110, R118 to R120, R122, R166: a bus fault of a mask read makes an ON AIR record of its
generation FAULTED with FETCH FAULT and takes it off the stack, drops its descriptor, abandons the window on the line
in progress from the sample reached, purges its words from the silo's head, and where that finishes the line opens the
next; a bus fault of another record's read does none of this; a bus fault of an image word ends the transfer. The
engine, which holds the bus, then does at once what it does at a grant. The sample from which the window is abandoned
is the model's reading (log 25), and so is a line opened at a fault (log 29). -/
def Obligations.BusTimeoutFaults : Prop :=
  ∀ s : State,
    (∀ (line place k : Nat) (i : SlotId) (g : Generation) (a : Position) (current : Bool) (since : Nat),
      s.engine.channel = .maskRead line place k i g a current since →
      ((s.slot i).state = .onAir → (s.slot i).gen = g → s.stack.Nodup →
        ∃ (u t : State) (late : List SlotId), exec .busTimeout s = .next t ∧ exec .busGrant u = .next t ∧
          u.engine.channel = .awaiting ∧ t.engine.silo = u.engine.silo ∧
          t.slot i =
            { s.slot i with
              state := .faulted, attention := { (s.slot i).attention with fetchFault := true } } ∧
          t.stack = s.stack.erase i ∧
          (∀ j, j ≠ i →
            (j ∈ late → t.slot j = { s.slot j with attention := { (s.slot j).attention with late := true } }) ∧
            (j ∉ late → t.slot j = s.slot j)) ∧
          ((s.slot i).attention.fetchFault = false → t.events.window = true) ∧
          t.keyer = EntryAbandoned s.keyer i s.samplePosition ∧
          PurgedHead (droppedFor i s.engine.descs) s.engine.silo u.engine.silo ∧
          (∀ (e : Engine) (l : Nat),
            e = { s.engine with descs := droppedFor i s.engine.descs, silo := u.engine.silo, channel := .idle } →
            s.engine.openLine = some l →
            (¬ LineDone s.engine → LineDone e → l + 1 < s.tb.latched.standard.pictureLines →
              u.engine.openLine = some (l + 1) ∧
                LineDescriptors { s with stack := s.stack.erase i } (l + 1) u.engine.descs late) ∧
            (LineDone s.engine ∨ ¬ LineDone e ∨ s.tb.latched.standard.pictureLines ≤ l + 1 →
              u.engine.openLine = some l ∧ u.engine.descs = e.descs ∧ late = [])) ∧
          (s.engine.openLine = none →
            u.engine.openLine = none ∧ u.engine.descs = droppedFor i s.engine.descs ∧ late = []) ∧
          SameHostSide s t ∧ t.tb = s.tb ∧ t.feedA = s.feedA ∧ t.feedB = s.feedB) ∧
      ((s.slot i).state ≠ .onAir ∨ (s.slot i).gen ≠ g →
        ∃ t, exec .busTimeout s = .next t ∧
          exec .busGrant { s with engine := { s.engine with channel := .awaiting } } = .next t ∧
          SameTable s t ∧ SameHostSide s t ∧ t.events = s.events ∧
          t.keyer = s.keyer ∧ t.tb = s.tb ∧ t.feedA = s.feedA ∧ t.feedB = s.feedB)) ∧
    (∀ tr : Transfer, s.port.transfer = some tr →
      (∃ a since, s.engine.channel = .imageRead a since) ∨ (∃ a d since, s.engine.channel = .imageWrite a d since) →
      ∃ t, exec .busTimeout s = .next t ∧
        exec .busGrant
          { Finished s .busFault (BitVec.ofNat 16 tr.moved) 0#16 with
            port := { s.port with transfer := none }
            engine := { s.engine with channel := .awaiting } } = .next t ∧
        SameTable s t ∧ t.port = { s.port with transfer := none } ∧
        t.cmd = { s.cmd with ready := true, completion := .busFault, result0 := BitVec.ofNat 16 tr.moved,
                             result1 := 0#16 } ∧
        t.events = { s.events with done := true } ∧ t.keyer = s.keyer ∧ t.tb = s.tb ∧
        t.feedA = s.feedA ∧ t.feedB = s.feedB)

/-! ### The inputs -/

/-- R126 to R128, R138, R146, R149, R152: a sync pulse restarts the loss timer and takes a NO SIGNAL context to HUNT
with SOURCE CHANGED and LOCK set (the moment of that entry is kept, R129); the loss timer's expiry takes a context to
NO SIGNAL, and the timebase of a program input that was LOCKED to COAST. Whatever event takes the input of a scheduled
switch to HUNT or NO SIGNAL, the switch is withdrawn: SWITCHING is clear, TIMEBASE is set, the held SELECT is
examined, and the program input and the timebase state stand. That an event brings the sample clock up to its time,
`max s.now time`, is the model's choice (DESIGN CHOICE, log 9), and so are the line number 0 in HUNT, with the
progress and the consecutive count (DESIGN CHOICE, log 36), and the withdrawal, not the making, of a switch where the
line start that reaches HOLDOVER's limit also marks a field boundary (DESIGN CHOICE, log 35). -/
def Obligations.SyncPulseAndLoss : Prop :=
  ∀ (s : State) (x : Input), HeldSelectLaw s →
    (∀ time : Nat, (s.ctx x).lock = .noSignal →
      ∃ t, exec (.syncPulse x time) s = .next t ∧
        t.ctx x = { s.ctx x with
          lock := .hunt, standard := none, period := none, parity := .first, line := 0, sourceChanged := true,
          reference := none, run := 0, huntLines := none, huntAt := some time, verified := 0, heldLines := 0,
          lastPulse := some time } ∧
        t.events.lock = true ∧ (∀ y, y ≠ x → t.ctx y = s.ctx y) ∧ SameTable s t) ∧
    (∀ time : Nat, (s.ctx x).lock ≠ .noSignal →
      ∃ t, exec (.syncPulse x time) s = .next t ∧ t.ctx x = { s.ctx x with lastPulse := some time } ∧
        (∀ y, y ≠ x → t.ctx y = s.ctx y) ∧ SameTable s t ∧ SameHostSide s t ∧ t.tb = s.tb ∧
        t.events = s.events ∧ t.keyer = s.keyer ∧ t.engine = s.engine ∧ t.now = max s.now time) ∧
    ((s.ctx x).lock ≠ .noSignal →
      ∃ t, exec (.lossTimerExpiry x) s = .next t ∧
        t.ctx x = { s.ctx x with
          lock := .noSignal, standard := none, period := none, parity := .first, line := 0, reference := none,
          found := false, run := 0, huntLines := none, huntAt := none, verified := 0, heldLines := 0,
          lastPulse := none } ∧
        t.events.lock = true ∧ (∀ y, y ≠ x → t.ctx y = s.ctx y) ∧ SameTable s t ∧
        ((s.ctx x).lock = .locked → s.tb.program = x → s.tb.state = .follow ∨ s.tb.state = .slew →
          t.tb.state = .coast ∧ t.events.timebase = true ∧ t.tb.h = s.tb.h ∧ t.tb.v = s.tb.v)) ∧
    (∀ (e : Instr) (t w : State) (mode : SwitchMode), EventOf x e → exec e s = .next t → x ≠ s.tb.program →
      s.tb.switch = .scheduled x mode → (t.ctx x).lock ≠ (s.ctx x).lock →
      (t.ctx x).lock = .hunt ∨ (t.ctx x).lock = .noSignal →
      w = { s.setCtx x (t.ctx x) with
        now := t.now
        events := { s.events with lock := true, timebase := true }
        tb := { s.tb with switch := .none } } →
      exec .heldSelectExamine w = .next t ∧ (s.tb.heldSelect = none → t = w) ∧
        ∀ q, s.tb.heldSelect = some q → HeldSelectAfter w .none q t)

/-- R129, R130, R132, R133, R142, R143: the line starts that begin no vertical sync sequence. In NO SIGNAL they are
ignored. In HUNT the period is measured and the lines since the HUNT reference are counted. In VERIFY a line of a wrong
period outside the head-switch zone, or a field that reaches its count with no sequence, fails to HUNT. In LOCKED a line
start within 6 samples of the prediction is accepted, one within the window re-phases and counts in the zone and enters
HOLDOVER outside it, and one outside the window is ignored; the field boundary is marked at the expected count. While
the timebase follows the input, its line starts end the computer's lines and its boundaries the computer's fields. Where
the zone begins is read from R126 and R133 (DEDUCED, log 10), and that a context that fails VERIFY enters HUNT with its
measured period and its last line start kept is read from R130 and R129 (DEDUCED, log 12); the measured period of at
least 1 (DESIGN CHOICE, log 28) and the line number, the progress and the consecutive count at 0 in HUNT (DESIGN
CHOICE, log 36) are the model's choices. -/
def Obligations.LineStartsTracked : Prop :=
  ∀ (s : State) (x : Input) (time : Nat) (measured : Option Nat),
    (∀ r, (s.ctx x).reference = some r → measured = some (max 1 (min 4095 (time - r)))) →
    ((s.ctx x).reference = none → measured = (s.ctx x).period) →
    ∃ t, exec (.lineStart x time) s = .next t ∧ (∀ y, y ≠ x → t.ctx y = s.ctx y) ∧
      ((t.ctx x).lock = (s.ctx x).lock → t.events.lock = s.events.lock) ∧
      ((t.ctx x).lock ≠ (s.ctx x).lock → t.events.lock = true) ∧
      ((s.ctx x).lock = .noSignal → t.ctx x = s.ctx x) ∧
      ((s.ctx x).lock = .hunt →
        t.ctx x = { s.ctx x with
          period := measured, reference := some time, found := true,
          huntLines := (s.ctx x).huntLines.map (· + 1) }) ∧
      (∀ (r : Nat) (std : Standard), (s.ctx x).lock = .verify → (s.ctx x).reference = some r →
        (s.ctx x).standard = some std →
        (((8 < ((time : Int) - r - std.nominal).natAbs ∧ (s.ctx x).line + 10 < (s.ctx x).expected) ∨
            (s.ctx x).expected ≤ (s.ctx x).line + 1) →
          t.ctx x = { s.ctx x with
            lock := .hunt, standard := none, parity := .first, line := 0, run := 0, huntLines := none,
            huntAt := some time, verified := 0, heldLines := 0, period := measured, reference := some time,
            found := true }) ∧
        ((((time : Int) - r - std.nominal).natAbs ≤ 8 ∨ (s.ctx x).expected ≤ (s.ctx x).line + 10) →
          (s.ctx x).line + 1 < (s.ctx x).expected →
          t.ctx x = { s.ctx x with
            line := (s.ctx x).line + 1, period := measured, reference := some time, found := true })) ∧
      (∀ (r p : Nat) (d : Int) (line : Nat) (parity : Parity), (s.ctx x).lock = .locked →
        (s.ctx x).reference = some r → (s.ctx x).period = some p → d = (time : Int) - (r + p) →
        ((s.ctx x).line + 1 ≠ (s.ctx x).expected → line = (s.ctx x).line + 1 ∧ parity = (s.ctx x).parity) →
        ((s.ctx x).line + 1 = (s.ctx x).expected → line = 0 ∧ parity ≠ (s.ctx x).parity) →
        (-6 ≤ d → d ≤ 6 →
          t.ctx x = { s.ctx x with
            reference := some time, found := true, run := 0, line := line, parity := parity,
            period := if (s.ctx x).found then measured else some p }) ∧
        (-64 ≤ d → d ≤ 64 → d < -6 ∨ 6 < d → (s.ctx x).expected ≤ (s.ctx x).line + 11 →
          t.ctx x = { s.ctx x with
            reference := some time, found := true, run := 0, line := line, parity := parity,
            headSwitch := min 255 ((s.ctx x).headSwitch + 1) }) ∧
        (-64 ≤ d → d ≤ 64 → d < -6 ∨ 6 < d → (s.ctx x).line + 11 < (s.ctx x).expected →
          t.ctx x = { s.ctx x with
            lock := .holdover, reference := some time, found := true, run := 0, heldLines := 0, line := line }) ∧
        (d < -64 ∨ 64 < d → t.ctx x = s.ctx x) ∧
        (-6 ≤ d → d ≤ 6 → r < time → x = s.tb.program → s.tb.state = .follow → s.tb.lineFollows = true →
          s.tb.lineStartAt ≤ time → s.tb.standard.nominal < 2 * (time - s.tb.lineStartAt) →
          (∀ mode, s.tb.switch ≠ .scheduled x mode) →
          t.tb.lineStartAt = time ∧ t.tb.previousLineAt = s.tb.lineStartAt ∧ t.tb.lineFollows = true ∧
            t.tb.state = .follow ∧ t.tb.h = s.tb.h ∧ t.tb.v = s.tb.v ∧
            ((s.ctx x).line + 1 ≠ (s.ctx x).expected →
              t.tb.linesRun = s.tb.linesRun + 1 ∧ t.tb.fieldCounter = s.tb.fieldCounter ∧
                t.tb.latched = s.tb.latched ∧ SameTable s t ∧ t.keyer = s.keyer ∧ t.engine = s.engine) ∧
            ((s.ctx x).line + 1 = (s.ctx x).expected →
              t.tb.linesRun = 0 ∧ t.tb.lastField = s.tb.linesRun + 1 ∧
                t.tb.fieldCounter = s.tb.fieldCounter + 1#16 ∧ (s.tb.v = 0 → t.tb.parity = parity))))

/-- R129, R130, R132, R133: the vertical sync sequences, each with the line start that begins it. In HUNT the first
after entry becomes the reference, one that comes at the moment of entry does not, and one 262, 263, 312 or 313 lines
after the reference enters VERIFY; in VERIFY one that ends a field of its count with the other parity passes it, the
fourth to LOCKED, and any other fails to HUNT; in LOCKED one at the boundary with the new parity confirms it, and any
other is a vertical jump: HOLDOVER with the sequence's line start as reference, its parity, line 0, the measured
period frozen at its value before and the head-switch count as it was. That the event takes the line start with it,
with its period, its reference and its line counted, is read from R126 (DEDUCED, log 8). That a sequence outside the
search window changes nothing in LOCKED is read from R132 (DEDUCED, log 13), where the head-switch zone begins from
R126 and R133 (DEDUCED, log 10), and that the measured period and the last line start are kept from VERIFY to HUNT
from R130 and R129 (DEDUCED, log 12). The measured period of at least 1 (DESIGN CHOICE, log 28), and the line number
and the consecutive count at 0 in HUNT and the progress at 0 there and in LOCKED (DESIGN CHOICE, log 36) are the
model's choices. -/
def Obligations.VerticalSyncFound : Prop :=
  ∀ (s : State) (x : Input) (time : Nat) (parity : Parity) (measured : Option Nat),
    (∀ r, (s.ctx x).reference = some r → measured = some (max 1 (min 4095 (time - r)))) →
    ((s.ctx x).reference = none → measured = (s.ctx x).period) →
    ∃ t, exec (.verticalSyncSequence x time parity) s = .next t ∧ (∀ y, y ≠ x → t.ctx y = s.ctx y) ∧
      ((t.ctx x).lock = (s.ctx x).lock → t.events.lock = s.events.lock) ∧
      ((t.ctx x).lock ≠ (s.ctx x).lock → t.events.lock = true) ∧
      ((s.ctx x).lock = .noSignal → t.ctx x = s.ctx x) ∧
      ((s.ctx x).lock = .hunt → (s.ctx x).huntAt = some time →
        t.ctx x = { s.ctx x with
          period := measured, reference := some time, found := true,
          huntLines := (s.ctx x).huntLines.map (· + 1) }) ∧
      ((s.ctx x).lock = .hunt → (s.ctx x).huntAt ≠ some time →
        ((s.ctx x).huntLines = none ∨
            (∃ n, (s.ctx x).huntLines = some n ∧ n ≠ 261 ∧ n ≠ 262 ∧ n ≠ 311 ∧ n ≠ 312) →
          t.ctx x = { s.ctx x with
            period := measured, reference := some time, found := true, huntLines := some 0 }) ∧
        (∀ (n : Nat) (std : Standard), (s.ctx x).huntLines = some n →
          ((n = 261 ∨ n = 262) ∧ std = .lines525) ∨ ((n = 311 ∨ n = 312) ∧ std = .lines625) →
          t.ctx x = { s.ctx x with
            lock := .verify, standard := some std, remembered := some std, verified := 0, line := 0,
            parity := parity, huntLines := none, huntAt := none, reference := some time, found := true,
            period := measured,
            headSwitch := if (s.ctx x).remembered = some std then (s.ctx x).headSwitch else 0 })) ∧
      (∀ (r : Nat) (std : Standard), (s.ctx x).lock = .verify → (s.ctx x).reference = some r →
        (s.ctx x).standard = some std →
        ((s.ctx x).line + 1 ≠ (s.ctx x).expected ∨ parity = (s.ctx x).parity →
          t.ctx x = { s.ctx x with
            lock := .hunt, standard := none, parity := .first, line := 0, run := 0, huntLines := none,
            huntAt := some time, verified := 0, heldLines := 0, period := measured, reference := some time,
            found := true }) ∧
        ((s.ctx x).line + 1 = (s.ctx x).expected → parity ≠ (s.ctx x).parity →
          ((s.ctx x).verified < 3 →
            t.ctx x = { s.ctx x with
              line := 0, parity := parity, verified := (s.ctx x).verified + 1, period := measured,
              reference := some time, found := true }) ∧
          (3 ≤ (s.ctx x).verified →
            t.ctx x = { s.ctx x with
              lock := .locked, line := 0, parity := parity, verified := 0, run := 0, heldLines := 0,
              period := measured, reference := some time, found := true } ∧
            exec (.verifyPass x time) s = .next t))) ∧
      (∀ (r p : Nat) (d : Int), (s.ctx x).lock = .locked → (s.ctx x).reference = some r →
        (s.ctx x).period = some p → d = (time : Int) - (r + p) →
        (d < -64 ∨ 64 < d → t.ctx x = s.ctx x) ∧
        ((s.ctx x).line + 1 = (s.ctx x).expected → parity ≠ (s.ctx x).parity →
          exec (.lineStart x time) s = .next t) ∧
        (-64 ≤ d → d ≤ 64 → (s.ctx x).line + 1 ≠ (s.ctx x).expected ∨ parity = (s.ctx x).parity →
          t.ctx x = { s.ctx x with
            lock := .holdover, line := 0, parity := parity, run := 0, heldLines := 0, reference := some time,
            found := true }))

/-- R134 to R137: missing line starts in LOCKED, the third in a row entering HOLDOVER; in HOLDOVER the line starts,
good, bad, missing and outside the window, the vertical sync sequences, the eighth good line start in a row and the
limit. R143, R144, R146, R152: whatever event takes the program input out of LOCKED, by a jump, a vertical jump, the
third missing line start or the loss timer, takes FOLLOW and SLEW to COAST, with the running line period that of the
context and the residuals kept; and whatever event takes it into LOCKED, the fourth field of VERIFY or the eighth good
line start of HOLDOVER, takes FREE RUN and COAST to SLEW, or to FOLLOW where both residuals measure 0 under the
context's standard: a switch that has been made is then over, and a boundary marked at that line start ends the
computer's field where its line stands beside it. Both set TIMEBASE. The residuals are measured as
`Obligations.ResidualsMeasured` states (log 15), and the field of the input that the field in progress follows is the
one whose boundary lies nearest (log 14). R140: HUNT is entered from HOLDOVER with the measured period absent. That no
line start to measure from is kept there is read from R129 (DEDUCED, log 12), that a sequence outside the search
window changes nothing from R135 (DEDUCED, log 13), and that a sequence is taken with its line start from R126
(DEDUCED, log 8). That LINE_START takes the re-lock first at a line start that is both the eighth good one and the
limit, and that a lock change comes before the computer's line end and the Feed vertical sync of its event, so that no
line and no field ends at an entry to COAST, is read where R136 and R146 allow either order (DEDUCED, log 11). That
the line start that reaches HOLDOVER's limit hands on no Feed vertical sync (DESIGN CHOICE, log 35), and the line
number and the consecutive count at 0 in HUNT and the progress at 0 there and in LOCKED (DESIGN CHOICE, log 36), are
the model's choices. -/
def Obligations.HoldoverEntersAndLeaves : Prop :=
  (∀ (s : State) (x : Input) (r p line : Nat) (parity : Parity) (std : Standard), (s.ctx x).reference = some r →
    (s.ctx x).period = some p → (s.ctx x).standard = some std →
    ((s.ctx x).line + 1 ≠ (s.ctx x).expected → line = (s.ctx x).line + 1 ∧ parity = (s.ctx x).parity) →
    ((s.ctx x).line + 1 = (s.ctx x).expected → line = 0 ∧ parity ≠ (s.ctx x).parity) →
    ((s.ctx x).lock = .locked →
      ∃ t, exec (.missingLineStart x) s = .next t ∧ (∀ y, y ≠ x → t.ctx y = s.ctx y) ∧
        ((s.ctx x).run < 2 → t.events.lock = s.events.lock ∧
          t.ctx x = { s.ctx x with
            reference := some (r + p), found := false, run := (s.ctx x).run + 1, line := line, parity := parity }) ∧
        (2 ≤ (s.ctx x).run → t.events.lock = true ∧
          t.ctx x = { s.ctx x with
            lock := .holdover, reference := some (r + p), found := false, run := 0, heldLines := 0, line := line,
            parity := parity })) ∧
    ((s.ctx x).lock = .holdover →
      ∃ t, exec (.missingLineStart x) s = .next t ∧ (∀ y, y ≠ x → t.ctx y = s.ctx y) ∧
        ((s.ctx x).heldLines + 1 < std.holdoverLimit → t.events.lock = s.events.lock ∧
          t.ctx x = { s.ctx x with
            reference := some (r + p), found := false, run := 0, heldLines := (s.ctx x).heldLines + 1, line := line,
            parity := parity }) ∧
        (std.holdoverLimit ≤ (s.ctx x).heldLines + 1 → t.events.lock = true ∧
          t.ctx x = { s.ctx x with
            lock := .hunt, standard := none, parity := .first, period := none, line := 0, reference := none, found := false,
            run := 0, huntLines := none, huntAt := some s.now, verified := 0, heldLines := 0 })) ∧
    (∀ (time good : Nat) (d : Int) (seq : Option Parity) (line' : Nat) (parity' : Parity),
      (s.ctx x).lock = .holdover → d = (time : Int) - (r + p) →
      good = (if -6 ≤ d ∧ d ≤ 6 then (s.ctx x).run + 1 else 0) →
      (seq = none → line' = line ∧ parity' = parity) → (∀ q, seq = some q → line' = 0 ∧ parity' = q) →
      ∃ t,
        exec (match seq with | none => .lineStart x time | some q => .verticalSyncSequence x time q) s = .next t ∧
        (∀ y, y ≠ x → t.ctx y = s.ctx y) ∧
        (d < -64 ∨ 64 < d → t.ctx x = s.ctx x ∧ t.events.lock = s.events.lock) ∧
        (-64 ≤ d → d ≤ 64 → good < 8 → (s.ctx x).heldLines + 1 < std.holdoverLimit →
          t.events.lock = s.events.lock ∧
          t.ctx x = { s.ctx x with
            reference := some time, found := true, run := good, heldLines := (s.ctx x).heldLines + 1,
            line := line', parity := parity' }) ∧
        (-64 ≤ d → d ≤ 64 → 8 ≤ good → t.events.lock = true ∧
          t.ctx x = { s.ctx x with
            lock := .locked, reference := some time, found := true, run := 0, verified := 0, heldLines := 0,
            line := line', parity := parity' } ∧
          (seq = none → exec (.holdoverRelock x time) s = .next t)) ∧
        (-64 ≤ d → d ≤ 64 → good < 8 → std.holdoverLimit ≤ (s.ctx x).heldLines + 1 →
          t.events.lock = true ∧
          t.ctx x = { s.ctx x with
            lock := .hunt, standard := none, parity := .first, period := none, line := 0, reference := none, found := true,
            run := 0, huntLines := none, huntAt := some time, verified := 0, heldLines := 0 })) ∧
    ((s.ctx x).lock = .holdover → std.holdoverLimit ≤ (s.ctx x).heldLines + 1 →
      ∃ t, exec (.holdoverLimit x) s = .next t ∧ (∀ y, y ≠ x → t.ctx y = s.ctx y) ∧ t.events.lock = true ∧
        t.ctx x = { s.ctx x with
          lock := .hunt, standard := none, parity := .first, period := none, line := 0, reference := none, run := 0,
          huntLines := none, huntAt := some s.now, verified := 0, heldLines := 0 })) ∧
  (∀ (s t : State) (e : Instr) (x : Input), EventOf x e → exec e s = .next t → x = s.tb.program → HeldSelectLaw s →
    (∀ mode, s.tb.switch ≠ .scheduled x mode) →
    ((s.ctx x).lock = .locked → (t.ctx x).lock ≠ .locked → s.tb.state = .follow ∨ s.tb.state = .slew →
      t = { s.setCtx x (t.ctx x) with
        now := t.now
        events := { s.events with lock := true, timebase := true }
        tb := { s.tb with
          state := .coast, runPeriod := (t.ctx x).period.getD s.tb.runPeriod, lineFollows := false } }) ∧
    (∀ (std : Standard) (tb : Timebase) (zero : Bool) (u : State), (s.ctx x).lock ≠ .locked →
      (t.ctx x).lock = .locked → (t.ctx x).standard = some std → s.tb.state = .freeRun ∨ s.tb.state = .coast →
      s.tb.lineFollows = false → tb = { s.tb with standard := std }.measure (t.ctx x) →
      zero = (decide (tb.h = 0) && decide (tb.v = 0)) →
      u = { s.setCtx x (t.ctx x) with
        now := t.now
        events := { s.events with lock := true, timebase := true }
        tb := { tb with
          state := if zero then .follow else .slew
          switch := if zero ∧ s.tb.switch = .made then .none else s.tb.switch } } →
      (zero = true ∧ s.tb.linesRun ≠ 0 ∧ (t.ctx x).line = 0 ∧
          (∀ r, (t.ctx x).reference = some r → 2 * ((r : Int) - s.tb.lineStartAt).natAbs ≤ std.nominal) →
        exec .fieldStart u = .next t) ∧
      (zero = false ∨ s.tb.linesRun = 0 ∨ (t.ctx x).line ≠ 0 ∨
          (∃ r, (t.ctx x).reference = some r ∧ (std.nominal : Int) < 2 * ((r : Int) - s.tb.lineStartAt).natAbs) →
        exec .heldSelectExamine u = .next t))) ∧
    Standard.lines525.holdoverLimit = 525 ∧ Standard.lines625.holdoverLimit = 625

/-! ### The timebase -/

/-- R92, R106, R123, R146, R149 to R153: the switches at the Feed vertical sync of their input. A CUT makes a field
start with residuals 0 and cut blanking at 2, at the new input's line start, and enters FOLLOW with the switch over,
or with an input that is not LOCKED (it is then in HOLDOVER, R149) COAST with the switch made. A SLEW switch measures
the residuals and lets line and field run on, with no field start at the switch, in SLEW, or FOLLOW where both are 0,
or COAST. From FREE RUN the new input's standard is taken. A held SELECT waits on: at the clearing of SWITCHING it is
examined. A CUT at the very field start that has just come (`linesRun` 0 at the new input's line start) is carried by
that one: how its marks are taken back is the model's own (log 16). The residuals are measured as
`Obligations.ResidualsMeasured` states (log 15). R137, R149: an event of the scheduled input that hands on a Feed
vertical sync, a line start that brings its line number to 0 in LOCKED or in HOLDOVER, makes the switch as these rows
of the table do, and no other line start does; that the input's lock change comes before the switch is log 11's
reading (DEDUCED). -/
def Obligations.SwitchesAreMade : Prop :=
  (∀ (s t w : State) (e : Instr) (x : Input) (mode : SwitchMode), LineEventOf x e → exec e s = .next t →
    x ≠ s.tb.program → s.tb.switch = .scheduled x mode → (t.ctx x).lock = .locked ∨ (t.ctx x).lock = .holdover →
    w = { s.setCtx x (t.ctx x) with
      now := t.now
      events := { s.events with lock := s.events.lock || decide ((t.ctx x).lock ≠ (s.ctx x).lock) } } →
    (t.ctx x ≠ s.ctx x → (t.ctx x).line = 0 →
      exec (match mode with | .cut => .cutSwitch | .slew => .slewSwitch) w = .next t) ∧
    (t.ctx x = s.ctx x ∨ (t.ctx x).line ≠ 0 → t = w)) ∧
  ∀ (s : State) (x : Input) (r : Nat) (std : Standard), (s.ctx x).reference = some r →
    (s.tb.state = .freeRun → (s.ctx x).standard = some std) → (s.tb.state ≠ .freeRun → std = s.tb.standard) →
    (s.tb.switch = .scheduled x .cut →
      ∃ t, exec .cutSwitch s = .next t ∧ t.tb.program = x ∧ t.tb.standard = std ∧ t.tb.h = 0 ∧ t.tb.v = 0 ∧
        t.tb.linesRun = 0 ∧ t.tb.lineStartAt = r ∧ t.tb.parity = (s.ctx x).parity ∧
        t.tb.latched = { scale := s.tb.setScale, trim := s.tb.setTrim, h := 0, v := 0, standard := std } ∧
        t.keyer.cutBlanking = 2 ∧ t.engine.descs = [] ∧ t.engine.silo = [] ∧ LineMadeUnder t ∧
        t.feedA = s.feedA ∧ t.feedB = s.feedB ∧ t.port = s.port ∧ t.mask = s.mask ∧
        (s.tb.linesRun ≠ 0 ∨ s.tb.lineStartAt ≠ r →
          t.tb.fieldCounter = s.tb.fieldCounter + 1#16 ∧ t.tb.lastField = s.tb.linesRun + 1 ∧
            t.tb.previousLineAt = s.tb.lineStartAt) ∧
        (s.tb.linesRun = 0 → s.tb.lineStartAt = r →
          t.tb.fieldCounter = s.tb.fieldCounter ∧ t.stack = s.stack ∧ t.held = s.held ∧ t.guard = s.guard ∧
            (s.tb.heldSelect = none → t.cmd = s.cmd) ∧
            (∀ m, s.marks = some m → m.window = true → s.events.window = true → t.events.window = true) ∧
            ∀ (m : FieldMarks) (i : SlotId) (cp : Copy), s.marks = some m → (s.slot i).state.converted = true →
              (s.slot i).active = some cp →
              (t.slot i).geometry = derive cp t.tb.latched ∧
              ((t.slot i).attention.late = true ↔
                (s.slot i).attention.late = true ∧ m.records[i].attention.late = true) ∧
              ((t.slot i).attention.convert = true ↔
                ((s.slot i).attention.convert = true ∧ m.records[i].attention.convert = true) ∨
                  (cp[1].getLsbD 4 = true ∧ cp[1].getLsbD 6 = false ∧ (t.slot i).geometry.offRaster = true ∧
                    m.records[i].geometry.offRaster = false))) ∧
        ((s.ctx x).lock = .locked → t.tb.state = .follow ∧ t.events.timebase = true ∧
          (s.tb.heldSelect = none → t.tb.heldSelect = none ∧ t.tb.switch = .none) ∧
          (∀ q, s.tb.heldSelect = some q →
            HeldSelectAfter { s with tb := { s.tb with
              state := .follow, standard := std, program := x, switch := .none } } .none q t)) ∧
        ((s.ctx x).lock ≠ .locked → t.tb.state = .coast ∧ t.tb.switch = .made ∧
          t.tb.runPeriod = (s.ctx x).period.getD s.tb.runPeriod ∧
          t.events.timebase = (s.events.timebase || decide (s.tb.state ≠ .coast)) ∧
          (s.tb.heldSelect = none → t.tb.heldSelect = none) ∧
          (∀ q, s.tb.heldSelect = some q → s.tb.linesRun ≠ 0 ∨ s.tb.lineStartAt ≠ r →
            HeldSelectAfter { s with tb := { s.tb with
              state := .coast, standard := std, program := x, switch := .none } } .made q t) ∧
          (s.tb.linesRun = 0 → s.tb.lineStartAt = r → t.tb.heldSelect = s.tb.heldSelect))) ∧
    (∀ (h v : Int) (tb : Timebase), s.tb.switch = .scheduled x .slew → tb = { s.tb with standard := std } →
      h = tb.measureH (s.ctx x) → v = tb.measureV (s.ctx x) →
      ∃ t, exec .slewSwitch s = .next t ∧ t.tb.program = x ∧ t.tb.standard = std ∧ t.tb.h = h ∧ t.tb.v = v ∧
        t.tb.lineStartAt = s.tb.lineStartAt ∧ t.tb.previousLineAt = s.tb.previousLineAt ∧
        t.tb.lineLength = s.tb.lineLength ∧ t.tb.lineSlew = s.tb.lineSlew ∧ t.tb.lineFollows = false ∧
        t.feedA = s.feedA ∧ t.feedB = s.feedB ∧ t.port = s.port ∧ t.mask = s.mask ∧
        t.tb.fieldCounter = s.tb.fieldCounter ∧ t.tb.linesRun = s.tb.linesRun ∧ t.tb.latched = s.tb.latched ∧
        t.keyer = s.keyer ∧ t.engine = s.engine ∧ SameTable s t ∧ t.held = s.held ∧ t.guard = s.guard ∧
        ((s.ctx x).lock ≠ .locked ∨ h ≠ 0 ∨ v ≠ 0 →
          t.tb.switch = .made ∧ t.tb.heldSelect = s.tb.heldSelect ∧ SameHostSide s t) ∧
        ((s.ctx x).lock = .locked → h ≠ 0 ∨ v ≠ 0 → t.tb.state = .slew ∧
          t.events.timebase = (s.events.timebase || decide (s.tb.state ≠ .slew))) ∧
        ((s.ctx x).lock ≠ .locked → t.tb.state = .coast ∧ t.tb.parity = s.tb.parity ∧
          t.tb.runPeriod = (s.ctx x).period.getD s.tb.runPeriod ∧
          t.events.timebase = (s.events.timebase || decide (s.tb.state ≠ .coast))) ∧
        ((s.ctx x).lock = .locked → h = 0 → v = 0 → t.tb.state = .follow ∧
          t.events.timebase = (s.events.timebase || decide (s.tb.state ≠ .follow)) ∧
          (s.tb.heldSelect = none → t.tb.heldSelect = none ∧ t.tb.switch = .none) ∧
          (∀ q, s.tb.heldSelect = some q →
            HeldSelectAfter { s with tb := { s.tb with
              state := .follow, standard := std, program := x, switch := .none } } .none q t)))

/-- R144: the horizontal residual is the computer's line start less the input's, modulo the nominal line period, in the
range of R144's table; the vertical one likewise modulo the line count of the input's field. R144 says no more of the
line from which the lines are counted: that the n whole lines taken off the horizontal offset are added to the vertical
one before it is reduced is the model's reading (DEDUCED, unsafe, log 15). -/
def Obligations.ResidualsMeasured : Prop :=
  ∀ (tb : Timebase) (c : LockContext) (r : Nat), c.reference = some r →
    (∃ n : Int, (tb.lineStartAt : Int) - r = tb.measureH c + n * tb.standard.nominal ∧
      ∃ m : Int, (c.line : Int) + n - tb.linesRun = tb.measureV c + m * c.expected) ∧
    -(tb.standard.nominal : Int) ≤ 2 * tb.measureH c ∧ 2 * tb.measureH c < tb.standard.nominal ∧
    -(c.expected : Int) < 2 * tb.measureV c ∧ 2 * tb.measureV c ≤ c.expected

/-- R142 to R146, R152: a computer line ends by its own length, or in FOLLOW, and in SLEW with h at 0, at
the program input's next line start. At the end of a computer line of its own length the next starts there, in SLEW h
moves as the line was made to move it and with both residuals at 0 the timebase enters FOLLOW, and the next line is
made under the state so left. Where the line is its field's last a field start comes: in FREE RUN and COAST at the
regular length of its parity, in SLEW at the input's field length less or more the lines by which v moves. At a line
start of the program input that ends the computer's line the next starts at that line start and ends at the one after
it, and a field start comes in FOLLOW at the input's field boundary, and in SLEW where the line is the last of the
slewed length. How the length of a slewed field is counted is log 14's reading. That a line made before h was
last measured moves the new h where it was made to move h that way, and else leaves it, is the model's choice (DESIGN
CHOICE, log 39). Log 15's readings (DEDUCED, unsafe) are
these: in FOLLOW a line made before FOLLOW was entered ends the field where it ends beside the boundary that the input
has just marked; COMPUTER_LINE_END ends a line that follows the input too; and a line start of the program input no more
than half a nominal line from the start of a computer line that follows it ends no line and only moves that start there,
the field ending with it in FOLLOW where it is the input's boundary and lines have run. -/
def Obligations.ComputerLineEnds : Prop :=
  (∀ s : State, ∃ u t, exec .computerLineEnd s = .next t ∧
    u.tb.lineStartAt = s.tb.lineStartAt + s.tb.lineLength ∧ u.tb.previousLineAt = s.tb.lineStartAt ∧
    u.tb.linesRun = s.tb.linesRun + 1 ∧
    (s.tb.state = .slew → 0 < s.tb.h → s.tb.lineSlew < 0 → u.tb.h = s.tb.h - 1) ∧
    (s.tb.state = .slew → s.tb.h < 0 → 0 < s.tb.lineSlew → u.tb.h = s.tb.h + 1) ∧
    (s.tb.state ≠ .slew ∨ s.tb.h = 0 ∨ s.tb.lineSlew = 0 ∨ (0 < s.tb.h ↔ 0 < s.tb.lineSlew) → u.tb.h = s.tb.h) ∧
    (s.tb.state = .slew → u.tb.h = 0 → s.tb.v = 0 → u.tb.state = .follow ∧ u.events = { s.events with timebase := true } ∧
      u.tb.switch = if s.tb.switch = .made then .none else s.tb.switch) ∧
    (s.tb.state ≠ .slew ∨ u.tb.h ≠ 0 ∨ s.tb.v ≠ 0 →
      u.tb.state = s.tb.state ∧ u.events = s.events ∧ u.tb.switch = s.tb.switch) ∧
    LineMadeUnder u ∧ u.tb.v = s.tb.v ∧ u.tb.fieldCounter = s.tb.fieldCounter ∧ u.tb.latched = s.tb.latched ∧
    u.tb.program = s.tb.program ∧ u.tb.standard = s.tb.standard ∧ u.tb.parity = s.tb.parity ∧
    u.tb.inputLines = s.tb.inputLines ∧ u.tb.runPeriod = s.tb.runPeriod ∧ u.tb.heldSelect = s.tb.heldSelect ∧
    SameTable s u ∧ SameHostSide s u ∧ u.keyer = s.keyer ∧ u.engine = s.engine ∧ u.feedA = s.feedA ∧
    u.feedB = s.feedB ∧
    ∀ last : Bool,
      (s.tb.state = .freeRun ∨ s.tb.state = .coast →
        (last = true ↔ s.tb.standard.fieldLines s.tb.parity ≤ s.tb.linesRun + 1)) →
      (s.tb.state = .slew →
        (last = true ↔
          (s.tb.inputLines : Int) - s.tb.v
              + (if 0 < s.tb.v then s.tb.v - min 4 s.tb.v else s.tb.v + min 4 (-s.tb.v))
            ≤ s.tb.linesRun + 1)) →
      (s.tb.state = .follow →
        (last = true ↔ s.tb.lineFollows = false ∧ (s.ctx s.tb.program).line = 0 ∧
          ∀ r : Nat, (s.ctx s.tb.program).reference = some r →
            2 * ((r : Int) - (s.tb.lineStartAt + s.tb.lineLength)).natAbs ≤ s.tb.standard.nominal)) →
      (last = true → exec .fieldStart u = .next t) ∧ (last = false → exec .heldSelectExamine u = .next t)) ∧
  (∀ s : State, s.tb.state = .freeRun ∨ s.tb.state = .coast → HeldSelectLaw s →
    s.tb.linesRun + 1 < s.tb.standard.fieldLines s.tb.parity →
    exec .computerLineEnd s = .next
      { s with tb := { s.tb with
        lineStartAt := s.tb.lineStartAt + s.tb.lineLength, previousLineAt := s.tb.lineStartAt,
        linesRun := s.tb.linesRun + 1, lineLength := s.tb.runPeriod, lineSlew := 0, lineFollows := false } }) ∧
  (∀ (s t u : State) (e : Instr) (x : Input) (r : Nat), LineEventOf x e → exec e s = .next t → x = s.tb.program →
    (s.ctx x).lock = .locked → (t.ctx x).lock = .locked → s.tb.lineFollows = true →
    s.tb.state = .follow ∨ (s.tb.state = .slew ∧ s.tb.h = 0) → (∀ mode, s.tb.switch ≠ .scheduled x mode) →
    (t.ctx x).reference = some r → (s.ctx x).reference ≠ some r → s.tb.lineStartAt ≤ r →
    s.tb.standard.nominal < 2 * (r - s.tb.lineStartAt) →
    u = { s.setCtx x (t.ctx x) with
      now := t.now
      tb := { s.tb with
        lineStartAt := r, previousLineAt := s.tb.lineStartAt, linesRun := s.tb.linesRun + 1,
        lineLength := (t.ctx x).period.getD s.tb.standard.nominal, lineSlew := 0, lineFollows := true } } →
    ∀ last : Bool,
      (s.tb.state = .follow → (last = true ↔ (t.ctx x).line = 0)) →
      (s.tb.state = .slew →
        (last = true ↔
          (s.tb.inputLines : Int) - s.tb.v
              + (if 0 < s.tb.v then s.tb.v - min 4 s.tb.v else s.tb.v + min 4 (-s.tb.v))
            ≤ s.tb.linesRun + 1)) →
      (last = true → exec .fieldStart u = .next t) ∧ (last = false → exec .heldSelectExamine u = .next t)) ∧
  (∀ (s t u : State) (e : Instr) (x : Input) (r : Nat), LineEventOf x e → exec e s = .next t → x = s.tb.program →
    (s.ctx x).lock = .locked → (t.ctx x).lock = .locked → s.tb.lineFollows = true →
    s.tb.state = .follow ∨ (s.tb.state = .slew ∧ s.tb.h = 0) → (∀ mode, s.tb.switch ≠ .scheduled x mode) →
    (t.ctx x).reference = some r → (s.ctx x).reference ≠ some r →
    2 * ((r : Int) - s.tb.lineStartAt).natAbs ≤ s.tb.standard.nominal →
    u = { s.setCtx x (t.ctx x) with
      now := t.now
      tb := { s.tb with
        lineStartAt := r, lineLength := (t.ctx x).period.getD s.tb.standard.nominal, lineSlew := 0,
        lineFollows := true } } →
    (s.tb.state = .follow → s.tb.linesRun ≠ 0 → (t.ctx x).line = 0 → exec .fieldStart u = .next t) ∧
    (s.tb.state = .slew ∨ s.tb.linesRun = 0 ∨ (t.ctx x).line ≠ 0 → exec .heldSelectExamine u = .next t))

/-! ### Reset -/

/-- R22, R59, R108, R125, R141, R167, R168: power-on gives every block its power-on values, and the first OPEN after it
takes slot 0 and returns handle 0. Where the computer's reset line is asserted the completion code reads RESET, as
section 11.3 gives for a bus reset that overlaps power-on (DEDUCED, log 20). -/
def Obligations.PowerOnValues : Prop :=
  ∀ s : State, ∃ t, exec .powerOn s = .next t ∧
    (∀ i, (t.slot i).state = .free ∧ (t.slot i).gen = 0#4 ∧ (t.slot i).pending = none ∧
      (t.slot i).active = none ∧ ∀ w, t.recordWord i w = 0#16) ∧
    t.summaryLow = 0#16 ∧ t.summaryHigh = 0#16 ∧ t.stack = [] ∧ t.held = none ∧
    t.guard = { setting := 0, count := 0, expired := false } ∧ t.keyer.cutBlanking = 0 ∧
    t.engine = { t.engine with openLine := none, descs := [], silo := [], channel := .idle } ∧ t.busRequest = false ∧
    (∀ x, (t.ctx x).lock = .noSignal ∧ (t.ctx x).standard = none ∧ (t.ctx x).remembered = none ∧
      (t.ctx x).period = none ∧ (t.ctx x).parity = .first ∧ (t.ctx x).line = 0 ∧ (t.ctx x).headSwitch = 0 ∧
      (t.ctx x).sourceChanged = false ∧ (t.ctx x).lastPulse = none ∧ (t.ctx x).reference = none ∧
      (t.ctx x).found = false ∧ (t.ctx x).run = 0 ∧ (t.ctx x).huntLines = none ∧
      (t.ctx x).verified = 0 ∧ (t.ctx x).heldLines = 0) ∧
    t.tb.state = .freeRun ∧ t.tb.standard = .lines625 ∧ t.tb.program = .feedA ∧ t.tb.h = 0 ∧ t.tb.v = 0 ∧
    t.tb.runPeriod = 864 ∧ t.tb.setScale = 72 ∧ t.tb.setTrim = 0 ∧
    t.tb.latched = { scale := 72, trim := 0, h := 0, v := 0, standard := .lines625 } ∧
    t.tb.switch = .none ∧ t.tb.heldSelect = none ∧ t.tb.fieldCounter = 0#16 ∧
    t.cmd.ready = true ∧ t.cmd.ie = false ∧ t.cmd.func = 0#5 ∧ t.cmd.arg0 = 0#16 ∧ t.cmd.arg1 = 0#16 ∧
    t.cmd.arg2 = 0#16 ∧ t.cmd.result0 = 0#16 ∧ t.cmd.result1 = 0#16 ∧
    t.cmd.completion = (if s.resetLine then .reset else .ok) ∧
    t.port.pointer = { slot := 0, word := 0, mode := .up, wrap := false } ∧ t.port.transfer = none ∧
    t.events.toWord = 0#16 ∧ t.mask.toWord = 0#16 ∧
    (∀ (tag : Word) (ie : Bool), t.resetLine = false → tag.toNat ≤ 255 →
      ∃ u, exec (.openRecord ie) { t with cmd := { t.cmd with arg0 := tag } } = .next u ∧
        (u.slot 0).state = .draft ∧ u.cmd.completion = .ok ∧ u.cmd.result0 = 0#16)

/-- R23, R60, R107, R124, R125, R141, R153, R167, R168: bus reset frees every record, empties the stack, stops the
engine and gives the Command Unit, the Access Port and the Event Register their reset values, with the completion code
RESET; the lock contexts, the timebase and the cut-blanking count run on, and the MASK windows of the line in progress
are abandoned from the sample reached (log 25), with no LATE; the summary words read 0 where the FREE records were
blank as R11 leaves them; the release only releases the line. -/
def Obligations.BusResetValues : Prop :=
  ∀ s : State,
    (∃ t, exec .busReset s = .next t ∧
      (∀ i, (t.slot i).state = .free ∧
        ((s.slot i).state = .free → t.slot i = s.slot i) ∧
        ((s.slot i).state ≠ .free → t.slot i = Slot.blank ((s.slot i).gen + 1#4))) ∧
      (RecordLaw s → t.summaryLow = 0#16 ∧ t.summaryHigh = 0#16) ∧
      t.stack = [] ∧ t.held = none ∧ t.guard = { setting := 0, count := 0, expired := false } ∧
      t.engine = { t.engine with openLine := none, descs := [], silo := [], channel := .idle } ∧ t.busRequest = false ∧
      t.feedA = s.feedA ∧ t.feedB = s.feedB ∧ t.tb = { s.tb with heldSelect := none } ∧
      t.keyer.cutBlanking = s.keyer.cutBlanking ∧ t.keyer = { s.keyer with snapshot := s.keyer.snapshot.map (fun snap =>
        { snap with entries := snap.entries.map (fun e =>
          if e.mode = .mask then
            { e with abandonedFrom := some (match e.abandonedFrom with
              | none => s.samplePosition
              | some a => min a s.samplePosition) }
          else e) }) } ∧
      t.cmd = { func := 0#5, ie := false, ready := true, completion := .reset, arg0 := 0#16, arg1 := 0#16,
                arg2 := 0#16, result0 := 0#16, result1 := 0#16 } ∧
      t.port.pointer = { slot := 0, word := 0, mode := .up, wrap := false } ∧ t.port.transfer = none ∧
      t.events.toWord = 0#16 ∧ t.mask.toWord = 0#16 ∧ t.resetLine = true ∧
      t.readRegister 13 = s.readRegister 13 ∧ t.readRegister 14 = s.readRegister 14) ∧
    exec .busResetRelease s = .next { s with resetLine := false }

/-! ### Keying and conversion -/

/-- R93 to R95, R97 to R104: the luma and the source colour of a pixel, the key tests, the mask bits, which windows
contribute at a point, the mix, the order of composition, the pixel used at a point and the base of a point. A mask bit
of a word that has not been taken reads 0: where the window contributes there at all, that is the model's choice (DESIGN
CHOICE, log 33). The keyed output carries the composed value at the active points, and outside them the program input as
received, or in NO SIGNAL the timebase's timing with black picture; that the program input and its lock state are there
those that stand now, and not those at the line's start, is the model's choice (DESIGN CHOICE, log 41). -/
def Obligations.KeyTestsAndMix : Prop :=
  (∀ p : Pixel,
    p.luma = (77 * p.red.toNat + 150 * p.green.toNat + 29 * p.blue.toNat) * 17 / 256 ∧ p.luma ≤ 255 ∧
    p.source = { red := p.red.toNat * 17, green := p.green.toNat * 17, blue := p.blue.toNat * 17 }) ∧
  (∀ (e : SnapEntry) (p : Pixel) (sample : Int),
    (e.mode = .luma → (e.passes p sample = true ↔ e.keyValue ≤ p.luma) ∧ e.source p = p.source ∧
      (e.keyValue = 0 → e.passes p sample = true) ∧
      (e.keyValue = 255 → (e.passes p sample = true ↔ p.red = 15#4 ∧ p.green = 15#4 ∧ p.blue = 15#4))) ∧
    (e.mode = .colour → (e.passes p sample = true ↔ p.index.toNat ≠ e.keyValue) ∧ e.source p = p.source) ∧
    (e.mode = .matte → e.passes p sample = true ∧
      e.source p = { red := e.keyValue, green := e.keyValue, blue := e.keyValue }) ∧
    (e.mode = .mask → (e.passes p sample = true ↔ e.maskBit sample = true) ∧ e.source p = p.source)) ∧
  (∀ (x c : Int) (m : Nat), m ≤ 63 →
    mixComponent x c 63 = c ∧ mixComponent x c 0 = x ∧
    (x ≤ c → x ≤ mixComponent x c m ∧ mixComponent x c m ≤ c ∧
      mixComponent x c m = x + (c - x) * m / 63) ∧
    (c ≤ x → c ≤ mixComponent x c m ∧ mixComponent x c m ≤ x ∧
      mixComponent x c m = x - (x - c) * m / 63)) ∧
  (∀ (snap : Snapshot) (base : Colour) (p : Pixel) (sample : Int) (e : SnapEntry) (below : List SnapEntry),
    { snap with entries := [] }.compose base p sample = base ∧
    { snap with entries := e :: below }.compose base p sample =
      (if snap.contributes e sample = true ∧ e.passes p sample = true then
        ({ snap with entries := below }.compose base p sample).mix (e.source p) e.mix
      else { snap with entries := below }.compose base p sample)) ∧
  (∀ (snap : Snapshot) (e : SnapEntry) (sample : Int),
    snap.contributes e sample = true ↔
      e.left ≠ -32768 ∧ e.top ≤ snap.line ∧ (snap.line : Int) ≤ e.bottom ∧ e.left ≤ sample ∧ sample ≤ e.right ∧
        e.hidden = false ∧ (e.holdOff = false ∨ snap.follow = true) ∧
        (∀ a, e.abandonedFrom = some a → sample < a) ∧ snap.blanked = false ∧
        (e.mode = .mask → e.described = true)) ∧
  (∀ (e : SnapEntry) (k n : Nat), n ≤ 15 →
    (∀ (before after : List (Nat × Word)) (w : Word), e.taken = before ++ (k, w) :: after →
      (∀ b, b ∈ before → b.1 ≠ k) → k < e.wordsPerLine →
      e.maskBit (e.maskOrigin + (16 * k + n : Nat)) = w.getLsbD (15 - n)) ∧
    ((∀ b, b ∈ e.taken → b.1 ≠ k) → e.maskBit (e.maskOrigin + (16 * k + n : Nat)) = false) ∧
    (e.wordsPerLine ≤ k → e.maskBit (e.maskOrigin + (16 * k + n : Nat)) = false) ∧
    (∀ sample : Int, sample < e.maskOrigin → e.maskBit sample = false)) ∧
  (∀ (snap : Snapshot) (frame : Nat → Nat → Pixel) (picture : Input → Colour) (sample : Int),
    (∀ title p : Nat, (title : Int) = snap.line - snap.latched.v → title ≤ 287 →
      pixelAt snap.latched sample = some p → snap.pixel frame sample = frame title p) ∧
    ((snap.line : Int) < snap.latched.v ∨ 287 < (snap.line : Int) - snap.latched.v ∨
        pixelAt snap.latched sample = none →
      snap.pixel frame sample = { red := 0#4, green := 0#4, blue := 0#4, index := 0#8 }) ∧
    (snap.noSignal = true →
      snap.keyedOutput frame picture sample =
        snap.compose { red := 0, green := 0, blue := 0 } (snap.pixel frame sample) sample) ∧
    (snap.noSignal = false →
      snap.keyedOutput frame picture sample =
        snap.compose (picture snap.program) (snap.pixel frame sample) sample)) ∧
  (∀ (s : State) (frame : Nat → Nat → Pixel) (picture : Input → Colour) (active : Snapshot → Int → Prop),
    (∀ snap sample, active snap sample ↔ s.keyer.snapshot = some snap ∧ s.lineFresh = false ∧
      sample = (s.now : Int) - snap.beganAt - (match snap.latched.standard with | .lines525 => 122 | .lines625 => 132) ∧
      snap.line < snap.latched.standard.pictureLines ∧ 0 ≤ sample ∧ sample ≤ 719) →
    (∀ snap sample, active snap sample →
      s.keyedSignal frame picture = .composed (snap.keyedOutput frame picture sample)) ∧
    ((∀ snap sample, ¬ active snap sample) →
      ((s.ctx s.tb.program).lock = .noSignal → s.keyedSignal frame picture = .timebaseBlack) ∧
      ((s.ctx s.tb.program).lock ≠ .noSignal → s.keyedSignal frame picture = .received s.tb.program)))

/-- R80 to R86, R90, R94: the rounding modes, the order of rounded edges, the mask origin and row base, the two range
policies, and the samples that each computer pixel covers. -/
def Obligations.PositionsConverted : Prop :=
  (∀ x : Int,
    (64 * roundSample .floor x ≤ x ∧ x < 64 * roundSample .floor x + 64) ∧
    (x ≤ 64 * roundSample .ceiling x ∧ 64 * roundSample .ceiling x < x + 64) ∧
    (0 ≤ x → roundSample .truncate x = roundSample .floor x) ∧
    (x ≤ 0 → roundSample .truncate x = roundSample .ceiling x) ∧
    (2 * (x - 64 * roundSample .nearest x).natAbs ≤ 64 ∧
      (2 * (x - 64 * roundSample .nearest x).natAbs = 64 → roundSample .nearest x % 2 = 0))) ∧
  (∀ (mode : Rounding) (x y : Int), x ≤ y → roundSample mode x ≤ roundSample mode y) ∧
  (∀ (cp : Copy) (v : Latched) (mode : Rounding) (l r t b last : Int),
    mode = (match cp[1].toNat / 4 % 4 with | 0 => .nearest | 1 => .truncate | 2 => .floor | _ => .ceiling) →
    l = roundSample mode (cp[2].toInt * v.scale + 64 * (v.trim + v.h)) →
    r = roundSample mode (cp[3].toInt * v.scale + 64 * (v.trim + v.h)) →
    t = cp[4].toNat + v.v → b = cp[5].toNat + v.v → last = v.standard.pictureLines - 1 →
    (derive cp v).maskOrigin = l ∧ (derive cp v).rowBase = t ∧
    (cp[1].getLsbD 4 = true →
      (l < 0 ∨ 719 < r ∨ t < 0 ∨ last < b → (derive cp v).indefinite ∧ (derive cp v).offRaster = true) ∧
      (0 ≤ l → r ≤ 719 → 0 ≤ t → b ≤ last → l ≤ r → t ≤ b →
        (derive cp v).left = l ∧ (derive cp v).right = r ∧ (derive cp v).top = t ∧ (derive cp v).bottom = b ∧
        (derive cp v).offRaster = false)) ∧
    (cp[1].getLsbD 4 = false →
      (r < 0 ∨ 719 < l ∨ b < 0 ∨ last < t → (derive cp v).indefinite ∧ (derive cp v).offRaster = true) ∧
      (0 ≤ r → l ≤ 719 → 0 ≤ b → t ≤ last → l ≤ r → t ≤ b →
        (derive cp v).left = max 0 l ∧ (derive cp v).right = min 719 r ∧ (derive cp v).top = max 0 t ∧
        (derive cp v).bottom = min last b ∧ (derive cp v).offRaster = false))) ∧
  (∀ (v : Latched) (p : Nat),
    64 * (pixelBoundary v p - v.trim - v.h) ≤ p * v.scale ∧
    (p * v.scale : Int) < 64 * (pixelBoundary v p - v.trim - v.h) + 64) ∧
  (∀ (v : Latched) (sample : Int),
    (∀ p : Nat, pixelAt v sample = some p →
      p ≤ 639 ∧ pixelBoundary v p ≤ sample ∧ sample < pixelBoundary v (p + 1)) ∧
    (pixelAt v sample = none ↔ sample < pixelBoundary v 0 ∨ pixelBoundary v 640 ≤ sample))

end
end

