-- ==== Sys2Proof/Laws/State.lean ====
section
/-! SUPPORT. One lemma for each field an update leaves alone, true by rfl, and what the updates of records do to a
slot. -/

namespace Sys2Proof.Machine

@[simp] theorem State.modifySlot_now (s : State) (i : SlotId) (f : Slot → Slot) :
    (s.modifySlot i f).now = s.now := rfl

@[simp] theorem State.modifySlot_resetLine (s : State) (i : SlotId) (f : Slot → Slot) :
    (s.modifySlot i f).resetLine = s.resetLine := rfl

@[simp] theorem State.modifySlot_stack (s : State) (i : SlotId) (f : Slot → Slot) :
    (s.modifySlot i f).stack = s.stack := rfl

@[simp] theorem State.modifySlot_held (s : State) (i : SlotId) (f : Slot → Slot) :
    (s.modifySlot i f).held = s.held := rfl

@[simp] theorem State.modifySlot_guard (s : State) (i : SlotId) (f : Slot → Slot) :
    (s.modifySlot i f).guard = s.guard := rfl

@[simp] theorem State.modifySlot_keyer (s : State) (i : SlotId) (f : Slot → Slot) :
    (s.modifySlot i f).keyer = s.keyer := rfl

@[simp] theorem State.modifySlot_engine (s : State) (i : SlotId) (f : Slot → Slot) :
    (s.modifySlot i f).engine = s.engine := rfl

@[simp] theorem State.modifySlot_feedA (s : State) (i : SlotId) (f : Slot → Slot) :
    (s.modifySlot i f).feedA = s.feedA := rfl

@[simp] theorem State.modifySlot_feedB (s : State) (i : SlotId) (f : Slot → Slot) :
    (s.modifySlot i f).feedB = s.feedB := rfl

@[simp] theorem State.modifySlot_tb (s : State) (i : SlotId) (f : Slot → Slot) :
    (s.modifySlot i f).tb = s.tb := rfl

@[simp] theorem State.modifySlot_cmd (s : State) (i : SlotId) (f : Slot → Slot) :
    (s.modifySlot i f).cmd = s.cmd := rfl

@[simp] theorem State.modifySlot_port (s : State) (i : SlotId) (f : Slot → Slot) :
    (s.modifySlot i f).port = s.port := rfl

@[simp] theorem State.modifySlot_mask (s : State) (i : SlotId) (f : Slot → Slot) :
    (s.modifySlot i f).mask = s.mask := rfl

@[simp] theorem State.modifySlot_marks (s : State) (i : SlotId) (f : Slot → Slot) :
    (s.modifySlot i f).marks = s.marks := rfl

@[simp] theorem State.modifySlot_pending (s : State) (i : SlotId) (f : Slot → Slot) :
    (s.modifySlot i f).pending = s.pending := rfl

@[simp] theorem State.mapSlots_now (s : State) (f : SlotId → Slot → Slot) :
    (s.mapSlots f).now = s.now := by simp only [State.mapSlots]

@[simp] theorem State.mapSlots_resetLine (s : State) (f : SlotId → Slot → Slot) :
    (s.mapSlots f).resetLine = s.resetLine := by simp only [State.mapSlots]

@[simp] theorem State.mapSlots_stack (s : State) (f : SlotId → Slot → Slot) :
    (s.mapSlots f).stack = s.stack := by simp only [State.mapSlots]

@[simp] theorem State.mapSlots_held (s : State) (f : SlotId → Slot → Slot) :
    (s.mapSlots f).held = s.held := by simp only [State.mapSlots]

@[simp] theorem State.mapSlots_guard (s : State) (f : SlotId → Slot → Slot) :
    (s.mapSlots f).guard = s.guard := by simp only [State.mapSlots]

@[simp] theorem State.mapSlots_keyer (s : State) (f : SlotId → Slot → Slot) :
    (s.mapSlots f).keyer = s.keyer := by simp only [State.mapSlots]

@[simp] theorem State.mapSlots_engine (s : State) (f : SlotId → Slot → Slot) :
    (s.mapSlots f).engine = s.engine := by simp only [State.mapSlots]

@[simp] theorem State.mapSlots_feedA (s : State) (f : SlotId → Slot → Slot) :
    (s.mapSlots f).feedA = s.feedA := by simp only [State.mapSlots]

@[simp] theorem State.mapSlots_feedB (s : State) (f : SlotId → Slot → Slot) :
    (s.mapSlots f).feedB = s.feedB := by simp only [State.mapSlots]

@[simp] theorem State.mapSlots_tb (s : State) (f : SlotId → Slot → Slot) :
    (s.mapSlots f).tb = s.tb := by simp only [State.mapSlots]

@[simp] theorem State.mapSlots_cmd (s : State) (f : SlotId → Slot → Slot) :
    (s.mapSlots f).cmd = s.cmd := by simp only [State.mapSlots]

@[simp] theorem State.mapSlots_port (s : State) (f : SlotId → Slot → Slot) :
    (s.mapSlots f).port = s.port := by simp only [State.mapSlots]

@[simp] theorem State.mapSlots_mask (s : State) (f : SlotId → Slot → Slot) :
    (s.mapSlots f).mask = s.mask := by simp only [State.mapSlots]

@[simp] theorem State.mapSlots_marks (s : State) (f : SlotId → Slot → Slot) :
    (s.mapSlots f).marks = s.marks := by simp only [State.mapSlots]

@[simp] theorem State.mapSlots_pending (s : State) (f : SlotId → Slot → Slot) :
    (s.mapSlots f).pending = s.pending := by simp only [State.mapSlots]

@[simp] theorem State.markRaise_now (s : State) (i : SlotId) (a : AttentionFlag) :
    (s.markRaise i a).now = s.now := rfl

@[simp] theorem State.markRaise_resetLine (s : State) (i : SlotId) (a : AttentionFlag) :
    (s.markRaise i a).resetLine = s.resetLine := rfl

@[simp] theorem State.markRaise_slots (s : State) (i : SlotId) (a : AttentionFlag) :
    (s.markRaise i a).slots = s.slots := rfl

@[simp] theorem State.markRaise_stack (s : State) (i : SlotId) (a : AttentionFlag) :
    (s.markRaise i a).stack = s.stack := rfl

@[simp] theorem State.markRaise_held (s : State) (i : SlotId) (a : AttentionFlag) :
    (s.markRaise i a).held = s.held := rfl

@[simp] theorem State.markRaise_guard (s : State) (i : SlotId) (a : AttentionFlag) :
    (s.markRaise i a).guard = s.guard := rfl

@[simp] theorem State.markRaise_keyer (s : State) (i : SlotId) (a : AttentionFlag) :
    (s.markRaise i a).keyer = s.keyer := rfl

@[simp] theorem State.markRaise_engine (s : State) (i : SlotId) (a : AttentionFlag) :
    (s.markRaise i a).engine = s.engine := rfl

@[simp] theorem State.markRaise_feedA (s : State) (i : SlotId) (a : AttentionFlag) :
    (s.markRaise i a).feedA = s.feedA := rfl

@[simp] theorem State.markRaise_feedB (s : State) (i : SlotId) (a : AttentionFlag) :
    (s.markRaise i a).feedB = s.feedB := rfl

@[simp] theorem State.markRaise_tb (s : State) (i : SlotId) (a : AttentionFlag) :
    (s.markRaise i a).tb = s.tb := rfl

@[simp] theorem State.markRaise_cmd (s : State) (i : SlotId) (a : AttentionFlag) :
    (s.markRaise i a).cmd = s.cmd := rfl

@[simp] theorem State.markRaise_port (s : State) (i : SlotId) (a : AttentionFlag) :
    (s.markRaise i a).port = s.port := rfl

@[simp] theorem State.markRaise_events (s : State) (i : SlotId) (a : AttentionFlag) :
    (s.markRaise i a).events = s.events := rfl

@[simp] theorem State.markRaise_mask (s : State) (i : SlotId) (a : AttentionFlag) :
    (s.markRaise i a).mask = s.mask := rfl

@[simp] theorem State.markRaise_pending (s : State) (i : SlotId) (a : AttentionFlag) :
    (s.markRaise i a).pending = s.pending := rfl

@[simp] theorem State.markRaise_slot (s : State) (i : SlotId) (a : AttentionFlag) (j : SlotId) :
    (s.markRaise i a).slot j = s.slot j := rfl

@[simp] theorem State.raise_now (s : State) (i : SlotId) (a : AttentionFlag) :
    (s.raise i a).now = s.now := rfl

@[simp] theorem State.raise_resetLine (s : State) (i : SlotId) (a : AttentionFlag) :
    (s.raise i a).resetLine = s.resetLine := rfl

@[simp] theorem State.raise_stack (s : State) (i : SlotId) (a : AttentionFlag) :
    (s.raise i a).stack = s.stack := rfl

@[simp] theorem State.raise_held (s : State) (i : SlotId) (a : AttentionFlag) :
    (s.raise i a).held = s.held := rfl

@[simp] theorem State.raise_guard (s : State) (i : SlotId) (a : AttentionFlag) :
    (s.raise i a).guard = s.guard := rfl

@[simp] theorem State.raise_keyer (s : State) (i : SlotId) (a : AttentionFlag) :
    (s.raise i a).keyer = s.keyer := rfl

@[simp] theorem State.raise_engine (s : State) (i : SlotId) (a : AttentionFlag) :
    (s.raise i a).engine = s.engine := rfl

@[simp] theorem State.raise_feedA (s : State) (i : SlotId) (a : AttentionFlag) :
    (s.raise i a).feedA = s.feedA := rfl

@[simp] theorem State.raise_feedB (s : State) (i : SlotId) (a : AttentionFlag) :
    (s.raise i a).feedB = s.feedB := rfl

@[simp] theorem State.raise_tb (s : State) (i : SlotId) (a : AttentionFlag) :
    (s.raise i a).tb = s.tb := rfl

@[simp] theorem State.raise_cmd (s : State) (i : SlotId) (a : AttentionFlag) :
    (s.raise i a).cmd = s.cmd := rfl

@[simp] theorem State.raise_port (s : State) (i : SlotId) (a : AttentionFlag) :
    (s.raise i a).port = s.port := rfl

@[simp] theorem State.raise_mask (s : State) (i : SlotId) (a : AttentionFlag) :
    (s.raise i a).mask = s.mask := rfl

@[simp] theorem State.raise_marks (s : State) (i : SlotId) (a : AttentionFlag) :
    (s.raise i a).marks = (s.markRaise i a).marks := rfl

@[simp] theorem State.raise_pending (s : State) (i : SlotId) (a : AttentionFlag) :
    (s.raise i a).pending = s.pending := rfl

@[simp] theorem State.cancelPending_now (s : State) (i : SlotId) :
    (s.cancelPending i).now = s.now := rfl

@[simp] theorem State.cancelPending_resetLine (s : State) (i : SlotId) :
    (s.cancelPending i).resetLine = s.resetLine := rfl

@[simp] theorem State.cancelPending_stack (s : State) (i : SlotId) :
    (s.cancelPending i).stack = s.stack := rfl

@[simp] theorem State.cancelPending_held (s : State) (i : SlotId) :
    (s.cancelPending i).held = s.held := rfl

@[simp] theorem State.cancelPending_guard (s : State) (i : SlotId) :
    (s.cancelPending i).guard = s.guard := rfl

@[simp] theorem State.cancelPending_keyer (s : State) (i : SlotId) :
    (s.cancelPending i).keyer = s.keyer := rfl

@[simp] theorem State.cancelPending_engine (s : State) (i : SlotId) :
    (s.cancelPending i).engine = s.engine := rfl

@[simp] theorem State.cancelPending_feedA (s : State) (i : SlotId) :
    (s.cancelPending i).feedA = s.feedA := rfl

@[simp] theorem State.cancelPending_feedB (s : State) (i : SlotId) :
    (s.cancelPending i).feedB = s.feedB := rfl

@[simp] theorem State.cancelPending_tb (s : State) (i : SlotId) :
    (s.cancelPending i).tb = s.tb := rfl

@[simp] theorem State.cancelPending_cmd (s : State) (i : SlotId) :
    (s.cancelPending i).cmd = s.cmd := rfl

@[simp] theorem State.cancelPending_port (s : State) (i : SlotId) :
    (s.cancelPending i).port = s.port := rfl

@[simp] theorem State.cancelPending_mask (s : State) (i : SlotId) :
    (s.cancelPending i).mask = s.mask := rfl

@[simp] theorem State.cancelPending_marks (s : State) (i : SlotId) :
    (s.cancelPending i).marks = s.marks := rfl

@[simp] theorem State.cancelPending_pending (s : State) (i : SlotId) :
    (s.cancelPending i).pending = s.pending := rfl

@[simp] theorem State.freeRecord_now (s : State) (i : SlotId) :
    (s.freeRecord i).now = s.now := rfl

@[simp] theorem State.freeRecord_resetLine (s : State) (i : SlotId) :
    (s.freeRecord i).resetLine = s.resetLine := rfl

@[simp] theorem State.freeRecord_held (s : State) (i : SlotId) :
    (s.freeRecord i).held = s.held := rfl

@[simp] theorem State.freeRecord_guard (s : State) (i : SlotId) :
    (s.freeRecord i).guard = s.guard := rfl

@[simp] theorem State.freeRecord_keyer (s : State) (i : SlotId) :
    (s.freeRecord i).keyer = s.keyer := rfl

@[simp] theorem State.freeRecord_engine (s : State) (i : SlotId) :
    (s.freeRecord i).engine = s.engine := rfl

@[simp] theorem State.freeRecord_feedA (s : State) (i : SlotId) :
    (s.freeRecord i).feedA = s.feedA := rfl

@[simp] theorem State.freeRecord_feedB (s : State) (i : SlotId) :
    (s.freeRecord i).feedB = s.feedB := rfl

@[simp] theorem State.freeRecord_tb (s : State) (i : SlotId) :
    (s.freeRecord i).tb = s.tb := rfl

@[simp] theorem State.freeRecord_cmd (s : State) (i : SlotId) :
    (s.freeRecord i).cmd = s.cmd := rfl

@[simp] theorem State.freeRecord_port (s : State) (i : SlotId) :
    (s.freeRecord i).port = s.port := rfl

@[simp] theorem State.freeRecord_mask (s : State) (i : SlotId) :
    (s.freeRecord i).mask = s.mask := rfl

@[simp] theorem State.freeRecord_marks (s : State) (i : SlotId) :
    (s.freeRecord i).marks = s.marks := rfl

@[simp] theorem State.freeRecord_pending (s : State) (i : SlotId) :
    (s.freeRecord i).pending = s.pending := rfl

@[simp] theorem State.leaveStack_now (s : State) (i : SlotId) (x : RecState) :
    (s.leaveStack i x).now = s.now := rfl

@[simp] theorem State.leaveStack_resetLine (s : State) (i : SlotId) (x : RecState) :
    (s.leaveStack i x).resetLine = s.resetLine := rfl

@[simp] theorem State.leaveStack_held (s : State) (i : SlotId) (x : RecState) :
    (s.leaveStack i x).held = s.held := rfl

@[simp] theorem State.leaveStack_guard (s : State) (i : SlotId) (x : RecState) :
    (s.leaveStack i x).guard = s.guard := rfl

@[simp] theorem State.leaveStack_keyer (s : State) (i : SlotId) (x : RecState) :
    (s.leaveStack i x).keyer = s.keyer := rfl

@[simp] theorem State.leaveStack_engine (s : State) (i : SlotId) (x : RecState) :
    (s.leaveStack i x).engine = s.engine := rfl

@[simp] theorem State.leaveStack_feedA (s : State) (i : SlotId) (x : RecState) :
    (s.leaveStack i x).feedA = s.feedA := rfl

@[simp] theorem State.leaveStack_feedB (s : State) (i : SlotId) (x : RecState) :
    (s.leaveStack i x).feedB = s.feedB := rfl

@[simp] theorem State.leaveStack_tb (s : State) (i : SlotId) (x : RecState) :
    (s.leaveStack i x).tb = s.tb := rfl

@[simp] theorem State.leaveStack_cmd (s : State) (i : SlotId) (x : RecState) :
    (s.leaveStack i x).cmd = s.cmd := rfl

@[simp] theorem State.leaveStack_port (s : State) (i : SlotId) (x : RecState) :
    (s.leaveStack i x).port = s.port := rfl

@[simp] theorem State.leaveStack_mask (s : State) (i : SlotId) (x : RecState) :
    (s.leaveStack i x).mask = s.mask := rfl

@[simp] theorem State.leaveStack_marks (s : State) (i : SlotId) (x : RecState) :
    (s.leaveStack i x).marks = s.marks := rfl

@[simp] theorem State.leaveStack_pending (s : State) (i : SlotId) (x : RecState) :
    (s.leaveStack i x).pending = s.pending := rfl

@[simp] theorem State.enterStack_now (s : State) (i : SlotId) :
    (s.enterStack i).now = s.now := rfl

@[simp] theorem State.enterStack_resetLine (s : State) (i : SlotId) :
    (s.enterStack i).resetLine = s.resetLine := rfl

@[simp] theorem State.enterStack_held (s : State) (i : SlotId) :
    (s.enterStack i).held = s.held := rfl

@[simp] theorem State.enterStack_guard (s : State) (i : SlotId) :
    (s.enterStack i).guard = s.guard := rfl

@[simp] theorem State.enterStack_keyer (s : State) (i : SlotId) :
    (s.enterStack i).keyer = s.keyer := rfl

@[simp] theorem State.enterStack_engine (s : State) (i : SlotId) :
    (s.enterStack i).engine = s.engine := rfl

@[simp] theorem State.enterStack_feedA (s : State) (i : SlotId) :
    (s.enterStack i).feedA = s.feedA := rfl

@[simp] theorem State.enterStack_feedB (s : State) (i : SlotId) :
    (s.enterStack i).feedB = s.feedB := rfl

@[simp] theorem State.enterStack_tb (s : State) (i : SlotId) :
    (s.enterStack i).tb = s.tb := rfl

@[simp] theorem State.enterStack_cmd (s : State) (i : SlotId) :
    (s.enterStack i).cmd = s.cmd := rfl

@[simp] theorem State.enterStack_port (s : State) (i : SlotId) :
    (s.enterStack i).port = s.port := rfl

@[simp] theorem State.enterStack_mask (s : State) (i : SlotId) :
    (s.enterStack i).mask = s.mask := rfl

@[simp] theorem State.enterStack_marks (s : State) (i : SlotId) :
    (s.enterStack i).marks = s.marks := rfl

@[simp] theorem State.enterStack_pending (s : State) (i : SlotId) :
    (s.enterStack i).pending = s.pending := rfl

@[simp] theorem State.liftAll_now (s : State) :
    (s.liftAll).now = s.now := by simp only [State.liftAll, State.mapSlots_now]

@[simp] theorem State.liftAll_resetLine (s : State) :
    (s.liftAll).resetLine = s.resetLine := by simp only [State.liftAll, State.mapSlots_resetLine]

@[simp] theorem State.liftAll_held (s : State) :
    (s.liftAll).held = s.held := by simp only [State.liftAll, State.mapSlots_held]

@[simp] theorem State.liftAll_guard (s : State) :
    (s.liftAll).guard = s.guard := by simp only [State.liftAll, State.mapSlots_guard]

@[simp] theorem State.liftAll_keyer (s : State) :
    (s.liftAll).keyer = s.keyer := by simp only [State.liftAll, State.mapSlots_keyer]

@[simp] theorem State.liftAll_engine (s : State) :
    (s.liftAll).engine = s.engine := by simp only [State.liftAll, State.mapSlots_engine]

@[simp] theorem State.liftAll_feedA (s : State) :
    (s.liftAll).feedA = s.feedA := by simp only [State.liftAll, State.mapSlots_feedA]

@[simp] theorem State.liftAll_feedB (s : State) :
    (s.liftAll).feedB = s.feedB := by simp only [State.liftAll, State.mapSlots_feedB]

@[simp] theorem State.liftAll_tb (s : State) :
    (s.liftAll).tb = s.tb := by simp only [State.liftAll, State.mapSlots_tb]

@[simp] theorem State.liftAll_cmd (s : State) :
    (s.liftAll).cmd = s.cmd := by simp only [State.liftAll, State.mapSlots_cmd]

@[simp] theorem State.liftAll_port (s : State) :
    (s.liftAll).port = s.port := by simp only [State.liftAll, State.mapSlots_port]

@[simp] theorem State.liftAll_mask (s : State) :
    (s.liftAll).mask = s.mask := by simp only [State.liftAll, State.mapSlots_mask]

@[simp] theorem State.liftAll_marks (s : State) :
    (s.liftAll).marks = s.marks := by simp only [State.liftAll, State.mapSlots_marks]

@[simp] theorem State.liftAll_pending (s : State) :
    (s.liftAll).pending = s.pending := by simp only [State.liftAll, State.mapSlots_pending]

@[simp] theorem State.complete_now (s : State) (c : Completion) (r0 r1 : Word) :
    (s.complete c r0 r1).now = s.now := rfl

@[simp] theorem State.complete_resetLine (s : State) (c : Completion) (r0 r1 : Word) :
    (s.complete c r0 r1).resetLine = s.resetLine := rfl

@[simp] theorem State.complete_slots (s : State) (c : Completion) (r0 r1 : Word) :
    (s.complete c r0 r1).slots = s.slots := rfl

@[simp] theorem State.complete_stack (s : State) (c : Completion) (r0 r1 : Word) :
    (s.complete c r0 r1).stack = s.stack := rfl

@[simp] theorem State.complete_held (s : State) (c : Completion) (r0 r1 : Word) :
    (s.complete c r0 r1).held = s.held := rfl

@[simp] theorem State.complete_guard (s : State) (c : Completion) (r0 r1 : Word) :
    (s.complete c r0 r1).guard = s.guard := rfl

@[simp] theorem State.complete_keyer (s : State) (c : Completion) (r0 r1 : Word) :
    (s.complete c r0 r1).keyer = s.keyer := rfl

@[simp] theorem State.complete_engine (s : State) (c : Completion) (r0 r1 : Word) :
    (s.complete c r0 r1).engine = s.engine := rfl

@[simp] theorem State.complete_feedA (s : State) (c : Completion) (r0 r1 : Word) :
    (s.complete c r0 r1).feedA = s.feedA := rfl

@[simp] theorem State.complete_feedB (s : State) (c : Completion) (r0 r1 : Word) :
    (s.complete c r0 r1).feedB = s.feedB := rfl

@[simp] theorem State.complete_tb (s : State) (c : Completion) (r0 r1 : Word) :
    (s.complete c r0 r1).tb = s.tb := rfl

@[simp] theorem State.complete_port (s : State) (c : Completion) (r0 r1 : Word) :
    (s.complete c r0 r1).port = s.port := rfl

@[simp] theorem State.complete_mask (s : State) (c : Completion) (r0 r1 : Word) :
    (s.complete c r0 r1).mask = s.mask := rfl

@[simp] theorem State.complete_marks (s : State) (c : Completion) (r0 r1 : Word) :
    (s.complete c r0 r1).marks = s.marks := rfl

@[simp] theorem State.complete_pending (s : State) (c : Completion) (r0 r1 : Word) :
    (s.complete c r0 r1).pending = s.pending := rfl

@[simp] theorem State.completeZero_now (s : State) (c : Completion) :
    (s.completeZero c).now = s.now := rfl

@[simp] theorem State.completeZero_resetLine (s : State) (c : Completion) :
    (s.completeZero c).resetLine = s.resetLine := rfl

@[simp] theorem State.completeZero_slots (s : State) (c : Completion) :
    (s.completeZero c).slots = s.slots := rfl

@[simp] theorem State.completeZero_stack (s : State) (c : Completion) :
    (s.completeZero c).stack = s.stack := rfl

@[simp] theorem State.completeZero_held (s : State) (c : Completion) :
    (s.completeZero c).held = s.held := rfl

@[simp] theorem State.completeZero_guard (s : State) (c : Completion) :
    (s.completeZero c).guard = s.guard := rfl

@[simp] theorem State.completeZero_keyer (s : State) (c : Completion) :
    (s.completeZero c).keyer = s.keyer := rfl

@[simp] theorem State.completeZero_engine (s : State) (c : Completion) :
    (s.completeZero c).engine = s.engine := rfl

@[simp] theorem State.completeZero_feedA (s : State) (c : Completion) :
    (s.completeZero c).feedA = s.feedA := rfl

@[simp] theorem State.completeZero_feedB (s : State) (c : Completion) :
    (s.completeZero c).feedB = s.feedB := rfl

@[simp] theorem State.completeZero_tb (s : State) (c : Completion) :
    (s.completeZero c).tb = s.tb := rfl

@[simp] theorem State.completeZero_port (s : State) (c : Completion) :
    (s.completeZero c).port = s.port := rfl

@[simp] theorem State.completeZero_mask (s : State) (c : Completion) :
    (s.completeZero c).mask = s.mask := rfl

@[simp] theorem State.completeZero_marks (s : State) (c : Completion) :
    (s.completeZero c).marks = s.marks := rfl

@[simp] theorem State.completeZero_pending (s : State) (c : Completion) :
    (s.completeZero c).pending = s.pending := rfl

@[simp] theorem State.take_now (s : State) (code : BitVec 5) (ie : Bool) :
    (s.take code ie).now = s.now := rfl

@[simp] theorem State.take_resetLine (s : State) (code : BitVec 5) (ie : Bool) :
    (s.take code ie).resetLine = s.resetLine := rfl

@[simp] theorem State.take_slots (s : State) (code : BitVec 5) (ie : Bool) :
    (s.take code ie).slots = s.slots := rfl

@[simp] theorem State.take_stack (s : State) (code : BitVec 5) (ie : Bool) :
    (s.take code ie).stack = s.stack := rfl

@[simp] theorem State.take_held (s : State) (code : BitVec 5) (ie : Bool) :
    (s.take code ie).held = s.held := rfl

@[simp] theorem State.take_keyer (s : State) (code : BitVec 5) (ie : Bool) :
    (s.take code ie).keyer = s.keyer := rfl

@[simp] theorem State.take_engine (s : State) (code : BitVec 5) (ie : Bool) :
    (s.take code ie).engine = s.engine := rfl

@[simp] theorem State.take_feedA (s : State) (code : BitVec 5) (ie : Bool) :
    (s.take code ie).feedA = s.feedA := rfl

@[simp] theorem State.take_feedB (s : State) (code : BitVec 5) (ie : Bool) :
    (s.take code ie).feedB = s.feedB := rfl

@[simp] theorem State.take_tb (s : State) (code : BitVec 5) (ie : Bool) :
    (s.take code ie).tb = s.tb := rfl

@[simp] theorem State.take_port (s : State) (code : BitVec 5) (ie : Bool) :
    (s.take code ie).port = s.port := rfl

@[simp] theorem State.take_events (s : State) (code : BitVec 5) (ie : Bool) :
    (s.take code ie).events = s.events := rfl

@[simp] theorem State.take_mask (s : State) (code : BitVec 5) (ie : Bool) :
    (s.take code ie).mask = s.mask := rfl

@[simp] theorem State.take_marks (s : State) (code : BitVec 5) (ie : Bool) :
    (s.take code ie).marks = s.marks := rfl

@[simp] theorem State.take_pending (s : State) (code : BitVec 5) (ie : Bool) :
    (s.take code ie).pending = s.pending := rfl

@[simp] theorem State.overrun_now (s : State) :
    (s.overrun).now = s.now := rfl

@[simp] theorem State.overrun_resetLine (s : State) :
    (s.overrun).resetLine = s.resetLine := rfl

@[simp] theorem State.overrun_slots (s : State) :
    (s.overrun).slots = s.slots := rfl

@[simp] theorem State.overrun_stack (s : State) :
    (s.overrun).stack = s.stack := rfl

@[simp] theorem State.overrun_held (s : State) :
    (s.overrun).held = s.held := rfl

@[simp] theorem State.overrun_guard (s : State) :
    (s.overrun).guard = s.guard := rfl

@[simp] theorem State.overrun_keyer (s : State) :
    (s.overrun).keyer = s.keyer := rfl

@[simp] theorem State.overrun_engine (s : State) :
    (s.overrun).engine = s.engine := rfl

@[simp] theorem State.overrun_feedA (s : State) :
    (s.overrun).feedA = s.feedA := rfl

@[simp] theorem State.overrun_feedB (s : State) :
    (s.overrun).feedB = s.feedB := rfl

@[simp] theorem State.overrun_tb (s : State) :
    (s.overrun).tb = s.tb := rfl

@[simp] theorem State.overrun_cmd (s : State) :
    (s.overrun).cmd = s.cmd := rfl

@[simp] theorem State.overrun_port (s : State) :
    (s.overrun).port = s.port := rfl

@[simp] theorem State.overrun_mask (s : State) :
    (s.overrun).mask = s.mask := rfl

@[simp] theorem State.overrun_marks (s : State) :
    (s.overrun).marks = s.marks := rfl

@[simp] theorem State.overrun_pending (s : State) :
    (s.overrun).pending = s.pending := rfl

@[simp] theorem State.refuseAccess_now (s : State) :
    (s.refuseAccess).now = s.now := rfl

@[simp] theorem State.refuseAccess_resetLine (s : State) :
    (s.refuseAccess).resetLine = s.resetLine := rfl

@[simp] theorem State.refuseAccess_slots (s : State) :
    (s.refuseAccess).slots = s.slots := rfl

@[simp] theorem State.refuseAccess_stack (s : State) :
    (s.refuseAccess).stack = s.stack := rfl

@[simp] theorem State.refuseAccess_held (s : State) :
    (s.refuseAccess).held = s.held := rfl

@[simp] theorem State.refuseAccess_guard (s : State) :
    (s.refuseAccess).guard = s.guard := rfl

@[simp] theorem State.refuseAccess_keyer (s : State) :
    (s.refuseAccess).keyer = s.keyer := rfl

@[simp] theorem State.refuseAccess_engine (s : State) :
    (s.refuseAccess).engine = s.engine := rfl

@[simp] theorem State.refuseAccess_feedA (s : State) :
    (s.refuseAccess).feedA = s.feedA := rfl

@[simp] theorem State.refuseAccess_feedB (s : State) :
    (s.refuseAccess).feedB = s.feedB := rfl

@[simp] theorem State.refuseAccess_tb (s : State) :
    (s.refuseAccess).tb = s.tb := rfl

@[simp] theorem State.refuseAccess_cmd (s : State) :
    (s.refuseAccess).cmd = s.cmd := rfl

@[simp] theorem State.refuseAccess_port (s : State) :
    (s.refuseAccess).port = s.port := rfl

@[simp] theorem State.refuseAccess_mask (s : State) :
    (s.refuseAccess).mask = s.mask := rfl

@[simp] theorem State.refuseAccess_marks (s : State) :
    (s.refuseAccess).marks = s.marks := rfl

@[simp] theorem State.refuseAccess_pending (s : State) :
    (s.refuseAccess).pending = s.pending := rfl

@[simp] theorem State.signalLock_now (s : State) :
    (s.signalLock).now = s.now := rfl

@[simp] theorem State.signalLock_resetLine (s : State) :
    (s.signalLock).resetLine = s.resetLine := rfl

@[simp] theorem State.signalLock_slots (s : State) :
    (s.signalLock).slots = s.slots := rfl

@[simp] theorem State.signalLock_stack (s : State) :
    (s.signalLock).stack = s.stack := rfl

@[simp] theorem State.signalLock_held (s : State) :
    (s.signalLock).held = s.held := rfl

@[simp] theorem State.signalLock_guard (s : State) :
    (s.signalLock).guard = s.guard := rfl

@[simp] theorem State.signalLock_keyer (s : State) :
    (s.signalLock).keyer = s.keyer := rfl

@[simp] theorem State.signalLock_engine (s : State) :
    (s.signalLock).engine = s.engine := rfl

@[simp] theorem State.signalLock_feedA (s : State) :
    (s.signalLock).feedA = s.feedA := rfl

@[simp] theorem State.signalLock_feedB (s : State) :
    (s.signalLock).feedB = s.feedB := rfl

@[simp] theorem State.signalLock_tb (s : State) :
    (s.signalLock).tb = s.tb := rfl

@[simp] theorem State.signalLock_cmd (s : State) :
    (s.signalLock).cmd = s.cmd := rfl

@[simp] theorem State.signalLock_port (s : State) :
    (s.signalLock).port = s.port := rfl

@[simp] theorem State.signalLock_mask (s : State) :
    (s.signalLock).mask = s.mask := rfl

@[simp] theorem State.signalLock_marks (s : State) :
    (s.signalLock).marks = s.marks := rfl

@[simp] theorem State.signalLock_pending (s : State) :
    (s.signalLock).pending = s.pending := rfl

@[simp] theorem State.signalTimebase_now (s : State) :
    (s.signalTimebase).now = s.now := rfl

@[simp] theorem State.signalTimebase_resetLine (s : State) :
    (s.signalTimebase).resetLine = s.resetLine := rfl

@[simp] theorem State.signalTimebase_slots (s : State) :
    (s.signalTimebase).slots = s.slots := rfl

@[simp] theorem State.signalTimebase_stack (s : State) :
    (s.signalTimebase).stack = s.stack := rfl

@[simp] theorem State.signalTimebase_held (s : State) :
    (s.signalTimebase).held = s.held := rfl

@[simp] theorem State.signalTimebase_guard (s : State) :
    (s.signalTimebase).guard = s.guard := rfl

@[simp] theorem State.signalTimebase_keyer (s : State) :
    (s.signalTimebase).keyer = s.keyer := rfl

@[simp] theorem State.signalTimebase_engine (s : State) :
    (s.signalTimebase).engine = s.engine := rfl

@[simp] theorem State.signalTimebase_feedA (s : State) :
    (s.signalTimebase).feedA = s.feedA := rfl

@[simp] theorem State.signalTimebase_feedB (s : State) :
    (s.signalTimebase).feedB = s.feedB := rfl

@[simp] theorem State.signalTimebase_tb (s : State) :
    (s.signalTimebase).tb = s.tb := rfl

@[simp] theorem State.signalTimebase_cmd (s : State) :
    (s.signalTimebase).cmd = s.cmd := rfl

@[simp] theorem State.signalTimebase_port (s : State) :
    (s.signalTimebase).port = s.port := rfl

@[simp] theorem State.signalTimebase_mask (s : State) :
    (s.signalTimebase).mask = s.mask := rfl

@[simp] theorem State.signalTimebase_marks (s : State) :
    (s.signalTimebase).marks = s.marks := rfl

@[simp] theorem State.signalTimebase_pending (s : State) :
    (s.signalTimebase).pending = s.pending := rfl

@[simp] theorem State.stepPointer_now (s : State) :
    (s.stepPointer).now = s.now := rfl

@[simp] theorem State.stepPointer_resetLine (s : State) :
    (s.stepPointer).resetLine = s.resetLine := rfl

@[simp] theorem State.stepPointer_slots (s : State) :
    (s.stepPointer).slots = s.slots := rfl

@[simp] theorem State.stepPointer_stack (s : State) :
    (s.stepPointer).stack = s.stack := rfl

@[simp] theorem State.stepPointer_held (s : State) :
    (s.stepPointer).held = s.held := rfl

@[simp] theorem State.stepPointer_guard (s : State) :
    (s.stepPointer).guard = s.guard := rfl

@[simp] theorem State.stepPointer_keyer (s : State) :
    (s.stepPointer).keyer = s.keyer := rfl

@[simp] theorem State.stepPointer_engine (s : State) :
    (s.stepPointer).engine = s.engine := rfl

@[simp] theorem State.stepPointer_feedA (s : State) :
    (s.stepPointer).feedA = s.feedA := rfl

@[simp] theorem State.stepPointer_feedB (s : State) :
    (s.stepPointer).feedB = s.feedB := rfl

@[simp] theorem State.stepPointer_tb (s : State) :
    (s.stepPointer).tb = s.tb := rfl

@[simp] theorem State.stepPointer_cmd (s : State) :
    (s.stepPointer).cmd = s.cmd := rfl

@[simp] theorem State.stepPointer_events (s : State) :
    (s.stepPointer).events = s.events := rfl

@[simp] theorem State.stepPointer_mask (s : State) :
    (s.stepPointer).mask = s.mask := rfl

@[simp] theorem State.stepPointer_marks (s : State) :
    (s.stepPointer).marks = s.marks := rfl

@[simp] theorem State.stepPointer_pending (s : State) :
    (s.stepPointer).pending = s.pending := rfl

@[simp] theorem State.abandonEntry_now (s : State) (i : SlotId) (x : Int) :
    (s.abandonEntry i x).now = s.now := rfl

@[simp] theorem State.abandonEntry_resetLine (s : State) (i : SlotId) (x : Int) :
    (s.abandonEntry i x).resetLine = s.resetLine := rfl

@[simp] theorem State.abandonEntry_slots (s : State) (i : SlotId) (x : Int) :
    (s.abandonEntry i x).slots = s.slots := rfl

@[simp] theorem State.abandonEntry_stack (s : State) (i : SlotId) (x : Int) :
    (s.abandonEntry i x).stack = s.stack := rfl

@[simp] theorem State.abandonEntry_held (s : State) (i : SlotId) (x : Int) :
    (s.abandonEntry i x).held = s.held := rfl

@[simp] theorem State.abandonEntry_guard (s : State) (i : SlotId) (x : Int) :
    (s.abandonEntry i x).guard = s.guard := rfl

@[simp] theorem State.abandonEntry_engine (s : State) (i : SlotId) (x : Int) :
    (s.abandonEntry i x).engine = s.engine := rfl

@[simp] theorem State.abandonEntry_feedA (s : State) (i : SlotId) (x : Int) :
    (s.abandonEntry i x).feedA = s.feedA := rfl

@[simp] theorem State.abandonEntry_feedB (s : State) (i : SlotId) (x : Int) :
    (s.abandonEntry i x).feedB = s.feedB := rfl

@[simp] theorem State.abandonEntry_tb (s : State) (i : SlotId) (x : Int) :
    (s.abandonEntry i x).tb = s.tb := rfl

@[simp] theorem State.abandonEntry_cmd (s : State) (i : SlotId) (x : Int) :
    (s.abandonEntry i x).cmd = s.cmd := rfl

@[simp] theorem State.abandonEntry_port (s : State) (i : SlotId) (x : Int) :
    (s.abandonEntry i x).port = s.port := rfl

@[simp] theorem State.abandonEntry_events (s : State) (i : SlotId) (x : Int) :
    (s.abandonEntry i x).events = s.events := rfl

@[simp] theorem State.abandonEntry_mask (s : State) (i : SlotId) (x : Int) :
    (s.abandonEntry i x).mask = s.mask := rfl

@[simp] theorem State.abandonEntry_marks (s : State) (i : SlotId) (x : Int) :
    (s.abandonEntry i x).marks = s.marks := rfl

@[simp] theorem State.abandonEntry_pending (s : State) (i : SlotId) (x : Int) :
    (s.abandonEntry i x).pending = s.pending := rfl

@[simp] theorem State.noteTaken_now (s : State) (i : SlotId) (k : Nat) (w : Word) :
    (s.noteTaken i k w).now = s.now := rfl

@[simp] theorem State.noteTaken_resetLine (s : State) (i : SlotId) (k : Nat) (w : Word) :
    (s.noteTaken i k w).resetLine = s.resetLine := rfl

@[simp] theorem State.noteTaken_slots (s : State) (i : SlotId) (k : Nat) (w : Word) :
    (s.noteTaken i k w).slots = s.slots := rfl

@[simp] theorem State.noteTaken_stack (s : State) (i : SlotId) (k : Nat) (w : Word) :
    (s.noteTaken i k w).stack = s.stack := rfl

@[simp] theorem State.noteTaken_held (s : State) (i : SlotId) (k : Nat) (w : Word) :
    (s.noteTaken i k w).held = s.held := rfl

@[simp] theorem State.noteTaken_guard (s : State) (i : SlotId) (k : Nat) (w : Word) :
    (s.noteTaken i k w).guard = s.guard := rfl

@[simp] theorem State.noteTaken_engine (s : State) (i : SlotId) (k : Nat) (w : Word) :
    (s.noteTaken i k w).engine = s.engine := rfl

@[simp] theorem State.noteTaken_feedA (s : State) (i : SlotId) (k : Nat) (w : Word) :
    (s.noteTaken i k w).feedA = s.feedA := rfl

@[simp] theorem State.noteTaken_feedB (s : State) (i : SlotId) (k : Nat) (w : Word) :
    (s.noteTaken i k w).feedB = s.feedB := rfl

@[simp] theorem State.noteTaken_tb (s : State) (i : SlotId) (k : Nat) (w : Word) :
    (s.noteTaken i k w).tb = s.tb := rfl

@[simp] theorem State.noteTaken_cmd (s : State) (i : SlotId) (k : Nat) (w : Word) :
    (s.noteTaken i k w).cmd = s.cmd := rfl

@[simp] theorem State.noteTaken_port (s : State) (i : SlotId) (k : Nat) (w : Word) :
    (s.noteTaken i k w).port = s.port := rfl

@[simp] theorem State.noteTaken_events (s : State) (i : SlotId) (k : Nat) (w : Word) :
    (s.noteTaken i k w).events = s.events := rfl

@[simp] theorem State.noteTaken_mask (s : State) (i : SlotId) (k : Nat) (w : Word) :
    (s.noteTaken i k w).mask = s.mask := rfl

@[simp] theorem State.noteTaken_marks (s : State) (i : SlotId) (k : Nat) (w : Word) :
    (s.noteTaken i k w).marks = s.marks := rfl

@[simp] theorem State.noteTaken_pending (s : State) (i : SlotId) (k : Nat) (w : Word) :
    (s.noteTaken i k w).pending = s.pending := rfl

@[simp] theorem State.blankingStep_now (s : State) (cut : Bool) :
    (s.blankingStep cut).now = s.now := rfl

@[simp] theorem State.blankingStep_resetLine (s : State) (cut : Bool) :
    (s.blankingStep cut).resetLine = s.resetLine := rfl

@[simp] theorem State.blankingStep_slots (s : State) (cut : Bool) :
    (s.blankingStep cut).slots = s.slots := rfl

@[simp] theorem State.blankingStep_stack (s : State) (cut : Bool) :
    (s.blankingStep cut).stack = s.stack := rfl

@[simp] theorem State.blankingStep_held (s : State) (cut : Bool) :
    (s.blankingStep cut).held = s.held := rfl

@[simp] theorem State.blankingStep_guard (s : State) (cut : Bool) :
    (s.blankingStep cut).guard = s.guard := rfl

@[simp] theorem State.blankingStep_engine (s : State) (cut : Bool) :
    (s.blankingStep cut).engine = s.engine := rfl

@[simp] theorem State.blankingStep_feedA (s : State) (cut : Bool) :
    (s.blankingStep cut).feedA = s.feedA := rfl

@[simp] theorem State.blankingStep_feedB (s : State) (cut : Bool) :
    (s.blankingStep cut).feedB = s.feedB := rfl

@[simp] theorem State.blankingStep_tb (s : State) (cut : Bool) :
    (s.blankingStep cut).tb = s.tb := rfl

@[simp] theorem State.blankingStep_cmd (s : State) (cut : Bool) :
    (s.blankingStep cut).cmd = s.cmd := rfl

@[simp] theorem State.blankingStep_port (s : State) (cut : Bool) :
    (s.blankingStep cut).port = s.port := rfl

@[simp] theorem State.blankingStep_events (s : State) (cut : Bool) :
    (s.blankingStep cut).events = s.events := rfl

@[simp] theorem State.blankingStep_mask (s : State) (cut : Bool) :
    (s.blankingStep cut).mask = s.mask := rfl

@[simp] theorem State.blankingStep_marks (s : State) (cut : Bool) :
    (s.blankingStep cut).marks = s.marks := rfl

@[simp] theorem State.blankingStep_pending (s : State) (cut : Bool) :
    (s.blankingStep cut).pending = s.pending := rfl

@[simp] theorem State.latch_now (s : State) :
    (s.latch).now = s.now := rfl

@[simp] theorem State.latch_resetLine (s : State) :
    (s.latch).resetLine = s.resetLine := rfl

@[simp] theorem State.latch_slots (s : State) :
    (s.latch).slots = s.slots := rfl

@[simp] theorem State.latch_stack (s : State) :
    (s.latch).stack = s.stack := rfl

@[simp] theorem State.latch_held (s : State) :
    (s.latch).held = s.held := rfl

@[simp] theorem State.latch_guard (s : State) :
    (s.latch).guard = s.guard := rfl

@[simp] theorem State.latch_keyer (s : State) :
    (s.latch).keyer = s.keyer := rfl

@[simp] theorem State.latch_engine (s : State) :
    (s.latch).engine = s.engine := rfl

@[simp] theorem State.latch_feedA (s : State) :
    (s.latch).feedA = s.feedA := rfl

@[simp] theorem State.latch_feedB (s : State) :
    (s.latch).feedB = s.feedB := rfl

@[simp] theorem State.latch_cmd (s : State) :
    (s.latch).cmd = s.cmd := rfl

@[simp] theorem State.latch_port (s : State) :
    (s.latch).port = s.port := rfl

@[simp] theorem State.latch_events (s : State) :
    (s.latch).events = s.events := rfl

@[simp] theorem State.latch_mask (s : State) :
    (s.latch).mask = s.mask := rfl

@[simp] theorem State.latch_marks (s : State) :
    (s.latch).marks = s.marks := rfl

@[simp] theorem State.latch_pending (s : State) :
    (s.latch).pending = s.pending := rfl

@[simp] theorem State.setTimebaseState_now (s : State) (x : TimebaseState) :
    (s.setTimebaseState x).now = s.now := rfl

@[simp] theorem State.setTimebaseState_resetLine (s : State) (x : TimebaseState) :
    (s.setTimebaseState x).resetLine = s.resetLine := rfl

@[simp] theorem State.setTimebaseState_slots (s : State) (x : TimebaseState) :
    (s.setTimebaseState x).slots = s.slots := rfl

@[simp] theorem State.setTimebaseState_stack (s : State) (x : TimebaseState) :
    (s.setTimebaseState x).stack = s.stack := rfl

@[simp] theorem State.setTimebaseState_held (s : State) (x : TimebaseState) :
    (s.setTimebaseState x).held = s.held := rfl

@[simp] theorem State.setTimebaseState_guard (s : State) (x : TimebaseState) :
    (s.setTimebaseState x).guard = s.guard := rfl

@[simp] theorem State.setTimebaseState_keyer (s : State) (x : TimebaseState) :
    (s.setTimebaseState x).keyer = s.keyer := rfl

@[simp] theorem State.setTimebaseState_engine (s : State) (x : TimebaseState) :
    (s.setTimebaseState x).engine = s.engine := rfl

@[simp] theorem State.setTimebaseState_feedA (s : State) (x : TimebaseState) :
    (s.setTimebaseState x).feedA = s.feedA := rfl

@[simp] theorem State.setTimebaseState_feedB (s : State) (x : TimebaseState) :
    (s.setTimebaseState x).feedB = s.feedB := rfl

@[simp] theorem State.setTimebaseState_cmd (s : State) (x : TimebaseState) :
    (s.setTimebaseState x).cmd = s.cmd := rfl

@[simp] theorem State.setTimebaseState_port (s : State) (x : TimebaseState) :
    (s.setTimebaseState x).port = s.port := rfl

@[simp] theorem State.setTimebaseState_mask (s : State) (x : TimebaseState) :
    (s.setTimebaseState x).mask = s.mask := rfl

@[simp] theorem State.setTimebaseState_marks (s : State) (x : TimebaseState) :
    (s.setTimebaseState x).marks = s.marks := rfl

@[simp] theorem State.setTimebaseState_pending (s : State) (x : TimebaseState) :
    (s.setTimebaseState x).pending = s.pending := rfl

@[simp] theorem State.enterFollow_now (s : State) :
    (s.enterFollow).now = s.now := rfl

@[simp] theorem State.enterFollow_resetLine (s : State) :
    (s.enterFollow).resetLine = s.resetLine := rfl

@[simp] theorem State.enterFollow_slots (s : State) :
    (s.enterFollow).slots = s.slots := rfl

@[simp] theorem State.enterFollow_stack (s : State) :
    (s.enterFollow).stack = s.stack := rfl

@[simp] theorem State.enterFollow_held (s : State) :
    (s.enterFollow).held = s.held := rfl

@[simp] theorem State.enterFollow_guard (s : State) :
    (s.enterFollow).guard = s.guard := rfl

@[simp] theorem State.enterFollow_keyer (s : State) :
    (s.enterFollow).keyer = s.keyer := rfl

@[simp] theorem State.enterFollow_engine (s : State) :
    (s.enterFollow).engine = s.engine := rfl

@[simp] theorem State.enterFollow_feedA (s : State) :
    (s.enterFollow).feedA = s.feedA := rfl

@[simp] theorem State.enterFollow_feedB (s : State) :
    (s.enterFollow).feedB = s.feedB := rfl

@[simp] theorem State.enterFollow_cmd (s : State) :
    (s.enterFollow).cmd = s.cmd := rfl

@[simp] theorem State.enterFollow_port (s : State) :
    (s.enterFollow).port = s.port := rfl

@[simp] theorem State.enterFollow_mask (s : State) :
    (s.enterFollow).mask = s.mask := rfl

@[simp] theorem State.enterFollow_marks (s : State) :
    (s.enterFollow).marks = s.marks := rfl

@[simp] theorem State.enterFollow_pending (s : State) :
    (s.enterFollow).pending = s.pending := rfl

@[simp] theorem State.enterCoast_now (s : State) :
    (s.enterCoast).now = s.now := rfl

@[simp] theorem State.enterCoast_resetLine (s : State) :
    (s.enterCoast).resetLine = s.resetLine := rfl

@[simp] theorem State.enterCoast_slots (s : State) :
    (s.enterCoast).slots = s.slots := rfl

@[simp] theorem State.enterCoast_stack (s : State) :
    (s.enterCoast).stack = s.stack := rfl

@[simp] theorem State.enterCoast_held (s : State) :
    (s.enterCoast).held = s.held := rfl

@[simp] theorem State.enterCoast_guard (s : State) :
    (s.enterCoast).guard = s.guard := rfl

@[simp] theorem State.enterCoast_keyer (s : State) :
    (s.enterCoast).keyer = s.keyer := rfl

@[simp] theorem State.enterCoast_engine (s : State) :
    (s.enterCoast).engine = s.engine := rfl

@[simp] theorem State.enterCoast_feedA (s : State) :
    (s.enterCoast).feedA = s.feedA := rfl

@[simp] theorem State.enterCoast_feedB (s : State) :
    (s.enterCoast).feedB = s.feedB := rfl

@[simp] theorem State.enterCoast_cmd (s : State) :
    (s.enterCoast).cmd = s.cmd := rfl

@[simp] theorem State.enterCoast_port (s : State) :
    (s.enterCoast).port = s.port := rfl

@[simp] theorem State.enterCoast_mask (s : State) :
    (s.enterCoast).mask = s.mask := rfl

@[simp] theorem State.enterCoast_marks (s : State) :
    (s.enterCoast).marks = s.marks := rfl

@[simp] theorem State.enterCoast_pending (s : State) :
    (s.enterCoast).pending = s.pending := rfl

@[simp] theorem State.takeInput_now (s : State) (x : Input) :
    (s.takeInput x).now = s.now := rfl

@[simp] theorem State.takeInput_resetLine (s : State) (x : Input) :
    (s.takeInput x).resetLine = s.resetLine := rfl

@[simp] theorem State.takeInput_slots (s : State) (x : Input) :
    (s.takeInput x).slots = s.slots := rfl

@[simp] theorem State.takeInput_stack (s : State) (x : Input) :
    (s.takeInput x).stack = s.stack := rfl

@[simp] theorem State.takeInput_held (s : State) (x : Input) :
    (s.takeInput x).held = s.held := rfl

@[simp] theorem State.takeInput_guard (s : State) (x : Input) :
    (s.takeInput x).guard = s.guard := rfl

@[simp] theorem State.takeInput_keyer (s : State) (x : Input) :
    (s.takeInput x).keyer = s.keyer := rfl

@[simp] theorem State.takeInput_engine (s : State) (x : Input) :
    (s.takeInput x).engine = s.engine := rfl

@[simp] theorem State.takeInput_feedA (s : State) (x : Input) :
    (s.takeInput x).feedA = s.feedA := rfl

@[simp] theorem State.takeInput_feedB (s : State) (x : Input) :
    (s.takeInput x).feedB = s.feedB := rfl

@[simp] theorem State.takeInput_cmd (s : State) (x : Input) :
    (s.takeInput x).cmd = s.cmd := rfl

@[simp] theorem State.takeInput_port (s : State) (x : Input) :
    (s.takeInput x).port = s.port := rfl

@[simp] theorem State.takeInput_events (s : State) (x : Input) :
    (s.takeInput x).events = s.events := rfl

@[simp] theorem State.takeInput_mask (s : State) (x : Input) :
    (s.takeInput x).mask = s.mask := rfl

@[simp] theorem State.takeInput_marks (s : State) (x : Input) :
    (s.takeInput x).marks = s.marks := rfl

@[simp] theorem State.takeInput_pending (s : State) (x : Input) :
    (s.takeInput x).pending = s.pending := rfl

@[simp] theorem State.clockAt_resetLine (s : State) (n : Nat) :
    (s.clockAt n).resetLine = s.resetLine := rfl

@[simp] theorem State.clockAt_slots (s : State) (n : Nat) :
    (s.clockAt n).slots = s.slots := rfl

@[simp] theorem State.clockAt_stack (s : State) (n : Nat) :
    (s.clockAt n).stack = s.stack := rfl

@[simp] theorem State.clockAt_held (s : State) (n : Nat) :
    (s.clockAt n).held = s.held := rfl

@[simp] theorem State.clockAt_guard (s : State) (n : Nat) :
    (s.clockAt n).guard = s.guard := rfl

@[simp] theorem State.clockAt_keyer (s : State) (n : Nat) :
    (s.clockAt n).keyer = s.keyer := rfl

@[simp] theorem State.clockAt_engine (s : State) (n : Nat) :
    (s.clockAt n).engine = s.engine := rfl

@[simp] theorem State.clockAt_feedA (s : State) (n : Nat) :
    (s.clockAt n).feedA = s.feedA := rfl

@[simp] theorem State.clockAt_feedB (s : State) (n : Nat) :
    (s.clockAt n).feedB = s.feedB := rfl

@[simp] theorem State.clockAt_tb (s : State) (n : Nat) :
    (s.clockAt n).tb = s.tb := rfl

@[simp] theorem State.clockAt_cmd (s : State) (n : Nat) :
    (s.clockAt n).cmd = s.cmd := rfl

@[simp] theorem State.clockAt_port (s : State) (n : Nat) :
    (s.clockAt n).port = s.port := rfl

@[simp] theorem State.clockAt_events (s : State) (n : Nat) :
    (s.clockAt n).events = s.events := rfl

@[simp] theorem State.clockAt_mask (s : State) (n : Nat) :
    (s.clockAt n).mask = s.mask := rfl

@[simp] theorem State.clockAt_marks (s : State) (n : Nat) :
    (s.clockAt n).marks = s.marks := rfl

@[simp] theorem State.clockAt_pending (s : State) (n : Nat) :
    (s.clockAt n).pending = s.pending := rfl

@[simp] theorem State.purge_now (s : State) :
    (s.purge).now = s.now := rfl

@[simp] theorem State.purge_resetLine (s : State) :
    (s.purge).resetLine = s.resetLine := rfl

@[simp] theorem State.purge_slots (s : State) :
    (s.purge).slots = s.slots := rfl

@[simp] theorem State.purge_stack (s : State) :
    (s.purge).stack = s.stack := rfl

@[simp] theorem State.purge_held (s : State) :
    (s.purge).held = s.held := rfl

@[simp] theorem State.purge_guard (s : State) :
    (s.purge).guard = s.guard := rfl

@[simp] theorem State.purge_keyer (s : State) :
    (s.purge).keyer = s.keyer := rfl

@[simp] theorem State.purge_feedA (s : State) :
    (s.purge).feedA = s.feedA := rfl

@[simp] theorem State.purge_feedB (s : State) :
    (s.purge).feedB = s.feedB := rfl

@[simp] theorem State.purge_tb (s : State) :
    (s.purge).tb = s.tb := rfl

@[simp] theorem State.purge_cmd (s : State) :
    (s.purge).cmd = s.cmd := rfl

@[simp] theorem State.purge_port (s : State) :
    (s.purge).port = s.port := rfl

@[simp] theorem State.purge_events (s : State) :
    (s.purge).events = s.events := rfl

@[simp] theorem State.purge_mask (s : State) :
    (s.purge).mask = s.mask := rfl

@[simp] theorem State.purge_marks (s : State) :
    (s.purge).marks = s.marks := rfl

@[simp] theorem State.purge_pending (s : State) :
    (s.purge).pending = s.pending := rfl

@[simp] theorem State.finishHeld_now (s : State) (c : Completion) (r0 r1 : Word) :
    (s.finishHeld c r0 r1).now = s.now := rfl

@[simp] theorem State.finishHeld_resetLine (s : State) (c : Completion) (r0 r1 : Word) :
    (s.finishHeld c r0 r1).resetLine = s.resetLine := rfl

@[simp] theorem State.finishHeld_slots (s : State) (c : Completion) (r0 r1 : Word) :
    (s.finishHeld c r0 r1).slots = s.slots := rfl

@[simp] theorem State.finishHeld_stack (s : State) (c : Completion) (r0 r1 : Word) :
    (s.finishHeld c r0 r1).stack = s.stack := rfl

@[simp] theorem State.finishHeld_guard (s : State) (c : Completion) (r0 r1 : Word) :
    (s.finishHeld c r0 r1).guard = s.guard := rfl

@[simp] theorem State.finishHeld_keyer (s : State) (c : Completion) (r0 r1 : Word) :
    (s.finishHeld c r0 r1).keyer = s.keyer := rfl

@[simp] theorem State.finishHeld_engine (s : State) (c : Completion) (r0 r1 : Word) :
    (s.finishHeld c r0 r1).engine = s.engine := rfl

@[simp] theorem State.finishHeld_feedA (s : State) (c : Completion) (r0 r1 : Word) :
    (s.finishHeld c r0 r1).feedA = s.feedA := rfl

@[simp] theorem State.finishHeld_feedB (s : State) (c : Completion) (r0 r1 : Word) :
    (s.finishHeld c r0 r1).feedB = s.feedB := rfl

@[simp] theorem State.finishHeld_tb (s : State) (c : Completion) (r0 r1 : Word) :
    (s.finishHeld c r0 r1).tb = s.tb := rfl

@[simp] theorem State.finishHeld_port (s : State) (c : Completion) (r0 r1 : Word) :
    (s.finishHeld c r0 r1).port = s.port := rfl

@[simp] theorem State.finishHeld_mask (s : State) (c : Completion) (r0 r1 : Word) :
    (s.finishHeld c r0 r1).mask = s.mask := rfl

@[simp] theorem State.finishHeld_marks (s : State) (c : Completion) (r0 r1 : Word) :
    (s.finishHeld c r0 r1).marks = s.marks := rfl

@[simp] theorem State.finishHeld_pending (s : State) (c : Completion) (r0 r1 : Word) :
    (s.finishHeld c r0 r1).pending = s.pending := rfl

@[simp] theorem State.lineAt_now (s : State) (n : Nat) :
    (s.lineAt n).now = s.now := rfl

@[simp] theorem State.lineAt_resetLine (s : State) (n : Nat) :
    (s.lineAt n).resetLine = s.resetLine := rfl

@[simp] theorem State.lineAt_slots (s : State) (n : Nat) :
    (s.lineAt n).slots = s.slots := rfl

@[simp] theorem State.lineAt_stack (s : State) (n : Nat) :
    (s.lineAt n).stack = s.stack := rfl

@[simp] theorem State.lineAt_held (s : State) (n : Nat) :
    (s.lineAt n).held = s.held := rfl

@[simp] theorem State.lineAt_guard (s : State) (n : Nat) :
    (s.lineAt n).guard = s.guard := rfl

@[simp] theorem State.lineAt_keyer (s : State) (n : Nat) :
    (s.lineAt n).keyer = s.keyer := rfl

@[simp] theorem State.lineAt_engine (s : State) (n : Nat) :
    (s.lineAt n).engine = s.engine := rfl

@[simp] theorem State.lineAt_feedA (s : State) (n : Nat) :
    (s.lineAt n).feedA = s.feedA := rfl

@[simp] theorem State.lineAt_feedB (s : State) (n : Nat) :
    (s.lineAt n).feedB = s.feedB := rfl

@[simp] theorem State.lineAt_cmd (s : State) (n : Nat) :
    (s.lineAt n).cmd = s.cmd := rfl

@[simp] theorem State.lineAt_port (s : State) (n : Nat) :
    (s.lineAt n).port = s.port := rfl

@[simp] theorem State.lineAt_events (s : State) (n : Nat) :
    (s.lineAt n).events = s.events := rfl

@[simp] theorem State.lineAt_mask (s : State) (n : Nat) :
    (s.lineAt n).mask = s.mask := rfl

@[simp] theorem State.lineAt_marks (s : State) (n : Nat) :
    (s.lineAt n).marks = s.marks := rfl

@[simp] theorem State.lineAt_pending (s : State) (n : Nat) :
    (s.lineAt n).pending = s.pending := rfl

@[simp] theorem State.startLine_now (s : State) (n : Nat) :
    (s.startLine n).now = s.now := rfl

@[simp] theorem State.startLine_resetLine (s : State) (n : Nat) :
    (s.startLine n).resetLine = s.resetLine := rfl

@[simp] theorem State.startLine_slots (s : State) (n : Nat) :
    (s.startLine n).slots = s.slots := rfl

@[simp] theorem State.startLine_stack (s : State) (n : Nat) :
    (s.startLine n).stack = s.stack := rfl

@[simp] theorem State.startLine_held (s : State) (n : Nat) :
    (s.startLine n).held = s.held := rfl

@[simp] theorem State.startLine_guard (s : State) (n : Nat) :
    (s.startLine n).guard = s.guard := rfl

@[simp] theorem State.startLine_keyer (s : State) (n : Nat) :
    (s.startLine n).keyer = s.keyer := rfl

@[simp] theorem State.startLine_engine (s : State) (n : Nat) :
    (s.startLine n).engine = s.engine := rfl

@[simp] theorem State.startLine_feedA (s : State) (n : Nat) :
    (s.startLine n).feedA = s.feedA := rfl

@[simp] theorem State.startLine_feedB (s : State) (n : Nat) :
    (s.startLine n).feedB = s.feedB := rfl

@[simp] theorem State.startLine_cmd (s : State) (n : Nat) :
    (s.startLine n).cmd = s.cmd := rfl

@[simp] theorem State.startLine_port (s : State) (n : Nat) :
    (s.startLine n).port = s.port := rfl

@[simp] theorem State.startLine_events (s : State) (n : Nat) :
    (s.startLine n).events = s.events := rfl

@[simp] theorem State.startLine_mask (s : State) (n : Nat) :
    (s.startLine n).mask = s.mask := rfl

@[simp] theorem State.startLine_marks (s : State) (n : Nat) :
    (s.startLine n).marks = s.marks := rfl

@[simp] theorem State.startLine_pending (s : State) (n : Nat) :
    (s.startLine n).pending = s.pending := rfl

@[simp] theorem State.endLine_now (s : State) :
    (s.endLine).now = s.now := rfl

@[simp] theorem State.endLine_resetLine (s : State) :
    (s.endLine).resetLine = s.resetLine := rfl

@[simp] theorem State.endLine_slots (s : State) :
    (s.endLine).slots = s.slots := rfl

@[simp] theorem State.endLine_stack (s : State) :
    (s.endLine).stack = s.stack := rfl

@[simp] theorem State.endLine_held (s : State) :
    (s.endLine).held = s.held := rfl

@[simp] theorem State.endLine_guard (s : State) :
    (s.endLine).guard = s.guard := rfl

@[simp] theorem State.endLine_keyer (s : State) :
    (s.endLine).keyer = s.keyer := rfl

@[simp] theorem State.endLine_engine (s : State) :
    (s.endLine).engine = s.engine := rfl

@[simp] theorem State.endLine_feedA (s : State) :
    (s.endLine).feedA = s.feedA := rfl

@[simp] theorem State.endLine_feedB (s : State) :
    (s.endLine).feedB = s.feedB := rfl

@[simp] theorem State.endLine_cmd (s : State) :
    (s.endLine).cmd = s.cmd := rfl

@[simp] theorem State.endLine_port (s : State) :
    (s.endLine).port = s.port := rfl

@[simp] theorem State.endLine_events (s : State) :
    (s.endLine).events = s.events := rfl

@[simp] theorem State.endLine_mask (s : State) :
    (s.endLine).mask = s.mask := rfl

@[simp] theorem State.endLine_marks (s : State) :
    (s.endLine).marks = s.marks := rfl

@[simp] theorem State.endLine_pending (s : State) :
    (s.endLine).pending = s.pending := rfl

@[simp] theorem State.cutLine_now (s : State) (x : Input) :
    (s.cutLine x).now = s.now := rfl

@[simp] theorem State.cutLine_resetLine (s : State) (x : Input) :
    (s.cutLine x).resetLine = s.resetLine := rfl

@[simp] theorem State.cutLine_slots (s : State) (x : Input) :
    (s.cutLine x).slots = s.slots := rfl

@[simp] theorem State.cutLine_stack (s : State) (x : Input) :
    (s.cutLine x).stack = s.stack := rfl

@[simp] theorem State.cutLine_held (s : State) (x : Input) :
    (s.cutLine x).held = s.held := rfl

@[simp] theorem State.cutLine_guard (s : State) (x : Input) :
    (s.cutLine x).guard = s.guard := rfl

@[simp] theorem State.cutLine_keyer (s : State) (x : Input) :
    (s.cutLine x).keyer = s.keyer := rfl

@[simp] theorem State.cutLine_engine (s : State) (x : Input) :
    (s.cutLine x).engine = s.engine := rfl

@[simp] theorem State.cutLine_feedA (s : State) (x : Input) :
    (s.cutLine x).feedA = s.feedA := rfl

@[simp] theorem State.cutLine_feedB (s : State) (x : Input) :
    (s.cutLine x).feedB = s.feedB := rfl

@[simp] theorem State.cutLine_cmd (s : State) (x : Input) :
    (s.cutLine x).cmd = s.cmd := rfl

@[simp] theorem State.cutLine_port (s : State) (x : Input) :
    (s.cutLine x).port = s.port := rfl

@[simp] theorem State.cutLine_events (s : State) (x : Input) :
    (s.cutLine x).events = s.events := rfl

@[simp] theorem State.cutLine_mask (s : State) (x : Input) :
    (s.cutLine x).mask = s.mask := rfl

@[simp] theorem State.cutLine_marks (s : State) (x : Input) :
    (s.cutLine x).marks = s.marks := rfl

@[simp] theorem State.cutLine_pending (s : State) (x : Input) :
    (s.cutLine x).pending = s.pending := rfl

@[simp] theorem State.markFrom_now (s b : State) :
    (s.markFrom b).now = s.now := rfl

@[simp] theorem State.markFrom_resetLine (s b : State) :
    (s.markFrom b).resetLine = s.resetLine := rfl

@[simp] theorem State.markFrom_slots (s b : State) :
    (s.markFrom b).slots = s.slots := rfl

@[simp] theorem State.markFrom_stack (s b : State) :
    (s.markFrom b).stack = s.stack := rfl

@[simp] theorem State.markFrom_held (s b : State) :
    (s.markFrom b).held = s.held := rfl

@[simp] theorem State.markFrom_guard (s b : State) :
    (s.markFrom b).guard = s.guard := rfl

@[simp] theorem State.markFrom_keyer (s b : State) :
    (s.markFrom b).keyer = s.keyer := rfl

@[simp] theorem State.markFrom_engine (s b : State) :
    (s.markFrom b).engine = s.engine := rfl

@[simp] theorem State.markFrom_feedA (s b : State) :
    (s.markFrom b).feedA = s.feedA := rfl

@[simp] theorem State.markFrom_feedB (s b : State) :
    (s.markFrom b).feedB = s.feedB := rfl

@[simp] theorem State.markFrom_tb (s b : State) :
    (s.markFrom b).tb = s.tb := rfl

@[simp] theorem State.markFrom_cmd (s b : State) :
    (s.markFrom b).cmd = s.cmd := rfl

@[simp] theorem State.markFrom_port (s b : State) :
    (s.markFrom b).port = s.port := rfl

@[simp] theorem State.markFrom_events (s b : State) :
    (s.markFrom b).events = s.events := rfl

@[simp] theorem State.markFrom_mask (s b : State) :
    (s.markFrom b).mask = s.mask := rfl

@[simp] theorem State.markFrom_pending (s b : State) :
    (s.markFrom b).pending = s.pending := rfl

@[simp] theorem State.completeSelect_now (s : State) (c : Completion) :
    (s.completeSelect c).now = s.now := rfl

@[simp] theorem State.completeSelect_resetLine (s : State) (c : Completion) :
    (s.completeSelect c).resetLine = s.resetLine := rfl

@[simp] theorem State.completeSelect_slots (s : State) (c : Completion) :
    (s.completeSelect c).slots = s.slots := rfl

@[simp] theorem State.completeSelect_stack (s : State) (c : Completion) :
    (s.completeSelect c).stack = s.stack := rfl

@[simp] theorem State.completeSelect_held (s : State) (c : Completion) :
    (s.completeSelect c).held = s.held := rfl

@[simp] theorem State.completeSelect_guard (s : State) (c : Completion) :
    (s.completeSelect c).guard = s.guard := rfl

@[simp] theorem State.completeSelect_keyer (s : State) (c : Completion) :
    (s.completeSelect c).keyer = s.keyer := rfl

@[simp] theorem State.completeSelect_engine (s : State) (c : Completion) :
    (s.completeSelect c).engine = s.engine := rfl

@[simp] theorem State.completeSelect_feedA (s : State) (c : Completion) :
    (s.completeSelect c).feedA = s.feedA := rfl

@[simp] theorem State.completeSelect_feedB (s : State) (c : Completion) :
    (s.completeSelect c).feedB = s.feedB := rfl

@[simp] theorem State.completeSelect_tb (s : State) (c : Completion) :
    (s.completeSelect c).tb = s.tb := rfl

@[simp] theorem State.completeSelect_port (s : State) (c : Completion) :
    (s.completeSelect c).port = s.port := rfl

@[simp] theorem State.completeSelect_mask (s : State) (c : Completion) :
    (s.completeSelect c).mask = s.mask := rfl

@[simp] theorem State.completeSelect_marks (s : State) (c : Completion) :
    (s.completeSelect c).marks = s.marks := rfl

@[simp] theorem State.completeSelect_pending (s : State) (c : Completion) :
    (s.completeSelect c).pending = s.pending := rfl

@[simp] theorem State.timeoutHeld_now (s : State) :
    (s.timeoutHeld).now = s.now := rfl

@[simp] theorem State.timeoutHeld_resetLine (s : State) :
    (s.timeoutHeld).resetLine = s.resetLine := rfl

@[simp] theorem State.timeoutHeld_slots (s : State) :
    (s.timeoutHeld).slots = s.slots := rfl

@[simp] theorem State.timeoutHeld_stack (s : State) :
    (s.timeoutHeld).stack = s.stack := rfl

@[simp] theorem State.timeoutHeld_held (s : State) :
    (s.timeoutHeld).held = s.held := rfl

@[simp] theorem State.timeoutHeld_guard (s : State) :
    (s.timeoutHeld).guard = s.guard := rfl

@[simp] theorem State.timeoutHeld_keyer (s : State) :
    (s.timeoutHeld).keyer = s.keyer := rfl

@[simp] theorem State.timeoutHeld_engine (s : State) :
    (s.timeoutHeld).engine = s.engine := rfl

@[simp] theorem State.timeoutHeld_feedA (s : State) :
    (s.timeoutHeld).feedA = s.feedA := rfl

@[simp] theorem State.timeoutHeld_feedB (s : State) :
    (s.timeoutHeld).feedB = s.feedB := rfl

@[simp] theorem State.timeoutHeld_port (s : State) :
    (s.timeoutHeld).port = s.port := rfl

@[simp] theorem State.timeoutHeld_mask (s : State) :
    (s.timeoutHeld).mask = s.mask := rfl

@[simp] theorem State.timeoutHeld_marks (s : State) :
    (s.timeoutHeld).marks = s.marks := rfl

@[simp] theorem State.timeoutHeld_pending (s : State) :
    (s.timeoutHeld).pending = s.pending := rfl

@[simp] theorem State.guardExpire_now (s : State) :
    (s.guardExpire).now = s.now := by simp only [State.guardExpire, State.liftAll_now]

@[simp] theorem State.guardExpire_resetLine (s : State) :
    (s.guardExpire).resetLine = s.resetLine := by simp only [State.guardExpire, State.liftAll_resetLine]

@[simp] theorem State.guardExpire_held (s : State) :
    (s.guardExpire).held = s.held := by simp only [State.guardExpire, State.liftAll_held]

@[simp] theorem State.guardExpire_keyer (s : State) :
    (s.guardExpire).keyer = s.keyer := by simp only [State.guardExpire, State.liftAll_keyer]

@[simp] theorem State.guardExpire_engine (s : State) :
    (s.guardExpire).engine = s.engine := by simp only [State.guardExpire, State.liftAll_engine]

@[simp] theorem State.guardExpire_feedA (s : State) :
    (s.guardExpire).feedA = s.feedA := by simp only [State.guardExpire, State.liftAll_feedA]

@[simp] theorem State.guardExpire_feedB (s : State) :
    (s.guardExpire).feedB = s.feedB := by simp only [State.guardExpire, State.liftAll_feedB]

@[simp] theorem State.guardExpire_tb (s : State) :
    (s.guardExpire).tb = s.tb := by simp only [State.guardExpire, State.liftAll_tb]

@[simp] theorem State.guardExpire_cmd (s : State) :
    (s.guardExpire).cmd = s.cmd := by simp only [State.guardExpire, State.liftAll_cmd]

@[simp] theorem State.guardExpire_port (s : State) :
    (s.guardExpire).port = s.port := by simp only [State.guardExpire, State.liftAll_port]

@[simp] theorem State.guardExpire_mask (s : State) :
    (s.guardExpire).mask = s.mask := by simp only [State.guardExpire, State.liftAll_mask]

@[simp] theorem State.guardExpire_marks (s : State) :
    (s.guardExpire).marks = s.marks := by simp only [State.guardExpire, State.liftAll_marks]

@[simp] theorem State.guardExpire_pending (s : State) :
    (s.guardExpire).pending = s.pending := by simp only [State.guardExpire, State.liftAll_pending]

@[simp] theorem State.applyClearAir_now (s : State) :
    (s.applyClearAir).now = s.now := by simp only [State.applyClearAir, State.finishHeld_now, State.liftAll_now]

@[simp] theorem State.applyClearAir_resetLine (s : State) :
    (s.applyClearAir).resetLine = s.resetLine := by simp only [State.applyClearAir, State.finishHeld_resetLine, State.liftAll_resetLine]

@[simp] theorem State.applyClearAir_guard (s : State) :
    (s.applyClearAir).guard = s.guard := by simp only [State.applyClearAir, State.finishHeld_guard, State.liftAll_guard]

@[simp] theorem State.applyClearAir_keyer (s : State) :
    (s.applyClearAir).keyer = s.keyer := by simp only [State.applyClearAir, State.finishHeld_keyer, State.liftAll_keyer]

@[simp] theorem State.applyClearAir_engine (s : State) :
    (s.applyClearAir).engine = s.engine := by simp only [State.applyClearAir, State.finishHeld_engine, State.liftAll_engine]

@[simp] theorem State.applyClearAir_feedA (s : State) :
    (s.applyClearAir).feedA = s.feedA := by simp only [State.applyClearAir, State.finishHeld_feedA, State.liftAll_feedA]

@[simp] theorem State.applyClearAir_feedB (s : State) :
    (s.applyClearAir).feedB = s.feedB := by simp only [State.applyClearAir, State.finishHeld_feedB, State.liftAll_feedB]

@[simp] theorem State.applyClearAir_tb (s : State) :
    (s.applyClearAir).tb = s.tb := by simp only [State.applyClearAir, State.finishHeld_tb, State.liftAll_tb]

@[simp] theorem State.applyClearAir_port (s : State) :
    (s.applyClearAir).port = s.port := by simp only [State.applyClearAir, State.finishHeld_port, State.liftAll_port]

@[simp] theorem State.applyClearAir_mask (s : State) :
    (s.applyClearAir).mask = s.mask := by simp only [State.applyClearAir, State.finishHeld_mask, State.liftAll_mask]

@[simp] theorem State.applyClearAir_marks (s : State) :
    (s.applyClearAir).marks = s.marks := by simp only [State.applyClearAir, State.finishHeld_marks, State.liftAll_marks]

@[simp] theorem State.applyClearAir_pending (s : State) :
    (s.applyClearAir).pending = s.pending := by simp only [State.applyClearAir, State.finishHeld_pending, State.liftAll_pending]

@[simp] theorem State.fetchFault_now (s : State) (i : SlotId) :
    (s.fetchFault i).now = s.now := rfl

@[simp] theorem State.fetchFault_resetLine (s : State) (i : SlotId) :
    (s.fetchFault i).resetLine = s.resetLine := rfl

@[simp] theorem State.fetchFault_held (s : State) (i : SlotId) :
    (s.fetchFault i).held = s.held := rfl

@[simp] theorem State.fetchFault_guard (s : State) (i : SlotId) :
    (s.fetchFault i).guard = s.guard := rfl

@[simp] theorem State.fetchFault_feedA (s : State) (i : SlotId) :
    (s.fetchFault i).feedA = s.feedA := rfl

@[simp] theorem State.fetchFault_feedB (s : State) (i : SlotId) :
    (s.fetchFault i).feedB = s.feedB := rfl

@[simp] theorem State.fetchFault_tb (s : State) (i : SlotId) :
    (s.fetchFault i).tb = s.tb := rfl

@[simp] theorem State.fetchFault_cmd (s : State) (i : SlotId) :
    (s.fetchFault i).cmd = s.cmd := rfl

@[simp] theorem State.fetchFault_port (s : State) (i : SlotId) :
    (s.fetchFault i).port = s.port := rfl

@[simp] theorem State.fetchFault_mask (s : State) (i : SlotId) :
    (s.fetchFault i).mask = s.mask := rfl

@[simp] theorem State.fetchFault_marks (s : State) (i : SlotId) :
    (s.fetchFault i).marks = (s.markRaise i .fetchFault).marks := rfl

@[simp] theorem State.fetchFault_pending (s : State) (i : SlotId) :
    (s.fetchFault i).pending = s.pending := rfl

@[simp] theorem State.countStep_now (s : State) :
    (s.countStep).now = s.now := by simp only [State.countStep, State.mapSlots_now]

@[simp] theorem State.countStep_resetLine (s : State) :
    (s.countStep).resetLine = s.resetLine := by simp only [State.countStep, State.mapSlots_resetLine]

@[simp] theorem State.countStep_stack (s : State) :
    (s.countStep).stack = s.stack := by simp only [State.countStep, State.mapSlots_stack]

@[simp] theorem State.countStep_held (s : State) :
    (s.countStep).held = s.held := by simp only [State.countStep, State.mapSlots_held]

@[simp] theorem State.countStep_guard (s : State) :
    (s.countStep).guard = s.guard := by simp only [State.countStep, State.mapSlots_guard]

@[simp] theorem State.countStep_keyer (s : State) :
    (s.countStep).keyer = s.keyer := by simp only [State.countStep, State.mapSlots_keyer]

@[simp] theorem State.countStep_engine (s : State) :
    (s.countStep).engine = s.engine := by simp only [State.countStep, State.mapSlots_engine]

@[simp] theorem State.countStep_feedA (s : State) :
    (s.countStep).feedA = s.feedA := by simp only [State.countStep, State.mapSlots_feedA]

@[simp] theorem State.countStep_feedB (s : State) :
    (s.countStep).feedB = s.feedB := by simp only [State.countStep, State.mapSlots_feedB]

@[simp] theorem State.countStep_tb (s : State) :
    (s.countStep).tb = s.tb := by simp only [State.countStep, State.mapSlots_tb]

@[simp] theorem State.countStep_cmd (s : State) :
    (s.countStep).cmd = s.cmd := by simp only [State.countStep, State.mapSlots_cmd]

@[simp] theorem State.countStep_port (s : State) :
    (s.countStep).port = s.port := by simp only [State.countStep, State.mapSlots_port]

@[simp] theorem State.countStep_mask (s : State) :
    (s.countStep).mask = s.mask := by simp only [State.countStep, State.mapSlots_mask]

@[simp] theorem State.countStep_marks (s : State) :
    (s.countStep).marks = s.marks := by simp only [State.countStep, State.mapSlots_marks]

@[simp] theorem State.countStep_pending (s : State) :
    (s.countStep).pending = s.pending := by simp only [State.countStep, State.mapSlots_pending]

@[simp] theorem State.publicationStep_now (s : State) :
    (s.publicationStep).now = s.now := by simp only [State.publicationStep, State.mapSlots_now]

@[simp] theorem State.publicationStep_resetLine (s : State) :
    (s.publicationStep).resetLine = s.resetLine := by simp only [State.publicationStep, State.mapSlots_resetLine]

@[simp] theorem State.publicationStep_stack (s : State) :
    (s.publicationStep).stack = s.stack := by simp only [State.publicationStep, State.mapSlots_stack]

@[simp] theorem State.publicationStep_held (s : State) :
    (s.publicationStep).held = s.held := by simp only [State.publicationStep, State.mapSlots_held]

@[simp] theorem State.publicationStep_guard (s : State) :
    (s.publicationStep).guard = s.guard := by simp only [State.publicationStep, State.mapSlots_guard]

@[simp] theorem State.publicationStep_keyer (s : State) :
    (s.publicationStep).keyer = s.keyer := by simp only [State.publicationStep, State.mapSlots_keyer]

@[simp] theorem State.publicationStep_engine (s : State) :
    (s.publicationStep).engine = s.engine := by simp only [State.publicationStep, State.mapSlots_engine]

@[simp] theorem State.publicationStep_feedA (s : State) :
    (s.publicationStep).feedA = s.feedA := by simp only [State.publicationStep, State.mapSlots_feedA]

@[simp] theorem State.publicationStep_feedB (s : State) :
    (s.publicationStep).feedB = s.feedB := by simp only [State.publicationStep, State.mapSlots_feedB]

@[simp] theorem State.publicationStep_tb (s : State) :
    (s.publicationStep).tb = s.tb := by simp only [State.publicationStep, State.mapSlots_tb]

@[simp] theorem State.publicationStep_cmd (s : State) :
    (s.publicationStep).cmd = s.cmd := by simp only [State.publicationStep, State.mapSlots_cmd]

@[simp] theorem State.publicationStep_port (s : State) :
    (s.publicationStep).port = s.port := by simp only [State.publicationStep, State.mapSlots_port]

@[simp] theorem State.publicationStep_mask (s : State) :
    (s.publicationStep).mask = s.mask := by simp only [State.publicationStep, State.mapSlots_mask]

@[simp] theorem State.publicationStep_marks (s : State) :
    (s.publicationStep).marks = s.marks := by simp only [State.publicationStep, State.mapSlots_marks]

@[simp] theorem State.publicationStep_pending (s : State) :
    (s.publicationStep).pending = s.pending := by simp only [State.publicationStep, State.mapSlots_pending]

@[simp] theorem State.convertStep_now (s : State) :
    (s.convertStep).now = s.now := by simp only [State.convertStep, State.mapSlots_now]

@[simp] theorem State.convertStep_resetLine (s : State) :
    (s.convertStep).resetLine = s.resetLine := by simp only [State.convertStep, State.mapSlots_resetLine]

@[simp] theorem State.convertStep_stack (s : State) :
    (s.convertStep).stack = s.stack := by simp only [State.convertStep, State.mapSlots_stack]

@[simp] theorem State.convertStep_held (s : State) :
    (s.convertStep).held = s.held := by simp only [State.convertStep, State.mapSlots_held]

@[simp] theorem State.convertStep_guard (s : State) :
    (s.convertStep).guard = s.guard := by simp only [State.convertStep, State.mapSlots_guard]

@[simp] theorem State.convertStep_keyer (s : State) :
    (s.convertStep).keyer = s.keyer := by simp only [State.convertStep, State.mapSlots_keyer]

@[simp] theorem State.convertStep_engine (s : State) :
    (s.convertStep).engine = s.engine := by simp only [State.convertStep, State.mapSlots_engine]

@[simp] theorem State.convertStep_feedA (s : State) :
    (s.convertStep).feedA = s.feedA := by simp only [State.convertStep, State.mapSlots_feedA]

@[simp] theorem State.convertStep_feedB (s : State) :
    (s.convertStep).feedB = s.feedB := by simp only [State.convertStep, State.mapSlots_feedB]

@[simp] theorem State.convertStep_tb (s : State) :
    (s.convertStep).tb = s.tb := by simp only [State.convertStep, State.mapSlots_tb]

@[simp] theorem State.convertStep_cmd (s : State) :
    (s.convertStep).cmd = s.cmd := by simp only [State.convertStep, State.mapSlots_cmd]

@[simp] theorem State.convertStep_port (s : State) :
    (s.convertStep).port = s.port := by simp only [State.convertStep, State.mapSlots_port]

@[simp] theorem State.convertStep_mask (s : State) :
    (s.convertStep).mask = s.mask := by simp only [State.convertStep, State.mapSlots_mask]

@[simp] theorem State.convertStep_marks (s : State) :
    (s.convertStep).marks = s.marks := by simp only [State.convertStep, State.mapSlots_marks]

@[simp] theorem State.convertStep_pending (s : State) :
    (s.convertStep).pending = s.pending := by simp only [State.convertStep, State.mapSlots_pending]

@[simp] theorem State.endTransfer_now (s : State) (c : Completion) (n : Nat) :
    (s.endTransfer c n).now = s.now := rfl

@[simp] theorem State.endTransfer_resetLine (s : State) (c : Completion) (n : Nat) :
    (s.endTransfer c n).resetLine = s.resetLine := rfl

@[simp] theorem State.endTransfer_slots (s : State) (c : Completion) (n : Nat) :
    (s.endTransfer c n).slots = s.slots := rfl

@[simp] theorem State.endTransfer_stack (s : State) (c : Completion) (n : Nat) :
    (s.endTransfer c n).stack = s.stack := rfl

@[simp] theorem State.endTransfer_held (s : State) (c : Completion) (n : Nat) :
    (s.endTransfer c n).held = s.held := rfl

@[simp] theorem State.endTransfer_guard (s : State) (c : Completion) (n : Nat) :
    (s.endTransfer c n).guard = s.guard := rfl

@[simp] theorem State.endTransfer_keyer (s : State) (c : Completion) (n : Nat) :
    (s.endTransfer c n).keyer = s.keyer := rfl

@[simp] theorem State.endTransfer_engine (s : State) (c : Completion) (n : Nat) :
    (s.endTransfer c n).engine = s.engine := rfl

@[simp] theorem State.endTransfer_feedA (s : State) (c : Completion) (n : Nat) :
    (s.endTransfer c n).feedA = s.feedA := rfl

@[simp] theorem State.endTransfer_feedB (s : State) (c : Completion) (n : Nat) :
    (s.endTransfer c n).feedB = s.feedB := rfl

@[simp] theorem State.endTransfer_tb (s : State) (c : Completion) (n : Nat) :
    (s.endTransfer c n).tb = s.tb := rfl

@[simp] theorem State.endTransfer_mask (s : State) (c : Completion) (n : Nat) :
    (s.endTransfer c n).mask = s.mask := rfl

@[simp] theorem State.endTransfer_marks (s : State) (c : Completion) (n : Nat) :
    (s.endTransfer c n).marks = s.marks := rfl

@[simp] theorem State.endTransfer_pending (s : State) (c : Completion) (n : Nat) :
    (s.endTransfer c n).pending = s.pending := rfl

@[simp] theorem State.evict_now (s : State) (i : SlotId) :
    (s.evict i).now = s.now := rfl

@[simp] theorem State.evict_resetLine (s : State) (i : SlotId) :
    (s.evict i).resetLine = s.resetLine := rfl

@[simp] theorem State.evict_held (s : State) (i : SlotId) :
    (s.evict i).held = s.held := rfl

@[simp] theorem State.evict_guard (s : State) (i : SlotId) :
    (s.evict i).guard = s.guard := rfl

@[simp] theorem State.evict_keyer (s : State) (i : SlotId) :
    (s.evict i).keyer = s.keyer := rfl

@[simp] theorem State.evict_engine (s : State) (i : SlotId) :
    (s.evict i).engine = s.engine := rfl

@[simp] theorem State.evict_feedA (s : State) (i : SlotId) :
    (s.evict i).feedA = s.feedA := rfl

@[simp] theorem State.evict_feedB (s : State) (i : SlotId) :
    (s.evict i).feedB = s.feedB := rfl

@[simp] theorem State.evict_tb (s : State) (i : SlotId) :
    (s.evict i).tb = s.tb := rfl

@[simp] theorem State.evict_cmd (s : State) (i : SlotId) :
    (s.evict i).cmd = s.cmd := rfl

@[simp] theorem State.evict_port (s : State) (i : SlotId) :
    (s.evict i).port = s.port := rfl

@[simp] theorem State.evict_mask (s : State) (i : SlotId) :
    (s.evict i).mask = s.mask := rfl

@[simp] theorem State.evict_marks (s : State) (i : SlotId) :
    (s.evict i).marks = ((s.leaveStack i .standby).markRaise i .evicted).marks := rfl

@[simp] theorem State.evict_pending (s : State) (i : SlotId) :
    (s.evict i).pending = s.pending := rfl

@[simp] theorem State.modifySlot_ctx (s : State) (i : SlotId) (f : Slot → Slot) (y : Input) :
    (s.modifySlot i f).ctx y = s.ctx y := by
  cases y <;> simp only [State.ctx, State.modifySlot_feedA, State.modifySlot_feedB]

@[simp] theorem State.mapSlots_ctx (s : State) (f : SlotId → Slot → Slot) (y : Input) :
    (s.mapSlots f).ctx y = s.ctx y := by
  cases y <;> simp only [State.ctx, State.mapSlots_feedA, State.mapSlots_feedB]

@[simp] theorem State.raise_ctx (s : State) (i : SlotId) (a : AttentionFlag) (y : Input) :
    (s.raise i a).ctx y = s.ctx y := by
  cases y <;> simp only [State.ctx, State.raise_feedA, State.raise_feedB]

@[simp] theorem State.cancelPending_ctx (s : State) (i : SlotId) (y : Input) :
    (s.cancelPending i).ctx y = s.ctx y := by
  cases y <;> simp only [State.ctx, State.cancelPending_feedA, State.cancelPending_feedB]

@[simp] theorem State.freeRecord_ctx (s : State) (i : SlotId) (y : Input) :
    (s.freeRecord i).ctx y = s.ctx y := by
  cases y <;> simp only [State.ctx, State.freeRecord_feedA, State.freeRecord_feedB]

@[simp] theorem State.leaveStack_ctx (s : State) (i : SlotId) (x : RecState) (y : Input) :
    (s.leaveStack i x).ctx y = s.ctx y := by
  cases y <;> simp only [State.ctx, State.leaveStack_feedA, State.leaveStack_feedB]

@[simp] theorem State.enterStack_ctx (s : State) (i : SlotId) (y : Input) :
    (s.enterStack i).ctx y = s.ctx y := by
  cases y <;> simp only [State.ctx, State.enterStack_feedA, State.enterStack_feedB]

@[simp] theorem State.liftAll_ctx (s : State) (y : Input) :
    (s.liftAll).ctx y = s.ctx y := by
  cases y <;> simp only [State.ctx, State.liftAll_feedA, State.liftAll_feedB]

@[simp] theorem State.complete_slot (s : State) (c : Completion) (r0 r1 : Word) (j : SlotId) :
    (s.complete c r0 r1).slot j = s.slot j := rfl

@[simp] theorem State.complete_ctx (s : State) (c : Completion) (r0 r1 : Word) (y : Input) :
    (s.complete c r0 r1).ctx y = s.ctx y := by
  cases y <;> simp only [State.ctx, State.complete_feedA, State.complete_feedB]

@[simp] theorem State.completeZero_slot (s : State) (c : Completion) (j : SlotId) :
    (s.completeZero c).slot j = s.slot j := rfl

@[simp] theorem State.completeZero_ctx (s : State) (c : Completion) (y : Input) :
    (s.completeZero c).ctx y = s.ctx y := by
  cases y <;> simp only [State.ctx, State.completeZero_feedA, State.completeZero_feedB]

@[simp] theorem State.take_slot (s : State) (code : BitVec 5) (ie : Bool) (j : SlotId) :
    (s.take code ie).slot j = s.slot j := rfl

@[simp] theorem State.take_ctx (s : State) (code : BitVec 5) (ie : Bool) (y : Input) :
    (s.take code ie).ctx y = s.ctx y := by
  cases y <;> simp only [State.ctx, State.take_feedA, State.take_feedB]

@[simp] theorem State.overrun_slot (s : State) (j : SlotId) :
    (s.overrun).slot j = s.slot j := rfl

@[simp] theorem State.overrun_ctx (s : State) (y : Input) :
    (s.overrun).ctx y = s.ctx y := by
  cases y <;> simp only [State.ctx, State.overrun_feedA, State.overrun_feedB]

@[simp] theorem State.refuseAccess_slot (s : State) (j : SlotId) :
    (s.refuseAccess).slot j = s.slot j := rfl

@[simp] theorem State.refuseAccess_ctx (s : State) (y : Input) :
    (s.refuseAccess).ctx y = s.ctx y := by
  cases y <;> simp only [State.ctx, State.refuseAccess_feedA, State.refuseAccess_feedB]

@[simp] theorem State.signalLock_slot (s : State) (j : SlotId) :
    (s.signalLock).slot j = s.slot j := rfl

@[simp] theorem State.signalLock_ctx (s : State) (y : Input) :
    (s.signalLock).ctx y = s.ctx y := by
  cases y <;> simp only [State.ctx, State.signalLock_feedA, State.signalLock_feedB]

@[simp] theorem State.signalTimebase_slot (s : State) (j : SlotId) :
    (s.signalTimebase).slot j = s.slot j := rfl

@[simp] theorem State.signalTimebase_ctx (s : State) (y : Input) :
    (s.signalTimebase).ctx y = s.ctx y := by
  cases y <;> simp only [State.ctx, State.signalTimebase_feedA, State.signalTimebase_feedB]

@[simp] theorem State.stepPointer_slot (s : State) (j : SlotId) :
    (s.stepPointer).slot j = s.slot j := rfl

@[simp] theorem State.stepPointer_ctx (s : State) (y : Input) :
    (s.stepPointer).ctx y = s.ctx y := by
  cases y <;> simp only [State.ctx, State.stepPointer_feedA, State.stepPointer_feedB]

@[simp] theorem State.abandonEntry_slot (s : State) (i : SlotId) (x : Int) (j : SlotId) :
    (s.abandonEntry i x).slot j = s.slot j := rfl

@[simp] theorem State.abandonEntry_ctx (s : State) (i : SlotId) (x : Int) (y : Input) :
    (s.abandonEntry i x).ctx y = s.ctx y := by
  cases y <;> simp only [State.ctx, State.abandonEntry_feedA, State.abandonEntry_feedB]

@[simp] theorem State.noteTaken_slot (s : State) (i : SlotId) (k : Nat) (w : Word) (j : SlotId) :
    (s.noteTaken i k w).slot j = s.slot j := rfl

@[simp] theorem State.noteTaken_ctx (s : State) (i : SlotId) (k : Nat) (w : Word) (y : Input) :
    (s.noteTaken i k w).ctx y = s.ctx y := by
  cases y <;> simp only [State.ctx, State.noteTaken_feedA, State.noteTaken_feedB]

@[simp] theorem State.blankingStep_slot (s : State) (cut : Bool) (j : SlotId) :
    (s.blankingStep cut).slot j = s.slot j := rfl

@[simp] theorem State.blankingStep_ctx (s : State) (cut : Bool) (y : Input) :
    (s.blankingStep cut).ctx y = s.ctx y := by
  cases y <;> simp only [State.ctx, State.blankingStep_feedA, State.blankingStep_feedB]

@[simp] theorem State.latch_slot (s : State) (j : SlotId) :
    (s.latch).slot j = s.slot j := rfl

@[simp] theorem State.latch_ctx (s : State) (y : Input) :
    (s.latch).ctx y = s.ctx y := by
  cases y <;> simp only [State.ctx, State.latch_feedA, State.latch_feedB]

@[simp] theorem State.setTimebaseState_slot (s : State) (x : TimebaseState) (j : SlotId) :
    (s.setTimebaseState x).slot j = s.slot j := rfl

@[simp] theorem State.setTimebaseState_ctx (s : State) (x : TimebaseState) (y : Input) :
    (s.setTimebaseState x).ctx y = s.ctx y := by
  cases y <;> simp only [State.ctx, State.setTimebaseState_feedA, State.setTimebaseState_feedB]

@[simp] theorem State.enterFollow_slot (s : State) (j : SlotId) :
    (s.enterFollow).slot j = s.slot j := rfl

@[simp] theorem State.enterFollow_ctx (s : State) (y : Input) :
    (s.enterFollow).ctx y = s.ctx y := by
  cases y <;> simp only [State.ctx, State.enterFollow_feedA, State.enterFollow_feedB]

@[simp] theorem State.enterCoast_slot (s : State) (j : SlotId) :
    (s.enterCoast).slot j = s.slot j := rfl

@[simp] theorem State.enterCoast_ctx (s : State) (y : Input) :
    (s.enterCoast).ctx y = s.ctx y := by
  cases y <;> simp only [State.ctx, State.enterCoast_feedA, State.enterCoast_feedB]

@[simp] theorem State.takeInput_slot (s : State) (x : Input) (j : SlotId) :
    (s.takeInput x).slot j = s.slot j := rfl

@[simp] theorem State.takeInput_ctx (s : State) (x : Input) (y : Input) :
    (s.takeInput x).ctx y = s.ctx y := by
  cases y <;> simp only [State.ctx, State.takeInput_feedA, State.takeInput_feedB]

@[simp] theorem State.clockAt_slot (s : State) (n : Nat) (j : SlotId) :
    (s.clockAt n).slot j = s.slot j := rfl

@[simp] theorem State.clockAt_ctx (s : State) (n : Nat) (y : Input) :
    (s.clockAt n).ctx y = s.ctx y := by
  cases y <;> simp only [State.ctx, State.clockAt_feedA, State.clockAt_feedB]

@[simp] theorem State.purge_slot (s : State) (j : SlotId) :
    (s.purge).slot j = s.slot j := rfl

@[simp] theorem State.purge_ctx (s : State) (y : Input) :
    (s.purge).ctx y = s.ctx y := by
  cases y <;> simp only [State.ctx, State.purge_feedA, State.purge_feedB]

@[simp] theorem State.finishHeld_slot (s : State) (c : Completion) (r0 r1 : Word) (j : SlotId) :
    (s.finishHeld c r0 r1).slot j = s.slot j := rfl

@[simp] theorem State.finishHeld_ctx (s : State) (c : Completion) (r0 r1 : Word) (y : Input) :
    (s.finishHeld c r0 r1).ctx y = s.ctx y := by
  cases y <;> simp only [State.ctx, State.finishHeld_feedA, State.finishHeld_feedB]

@[simp] theorem State.lineAt_slot (s : State) (n : Nat) (j : SlotId) :
    (s.lineAt n).slot j = s.slot j := rfl

@[simp] theorem State.lineAt_ctx (s : State) (n : Nat) (y : Input) :
    (s.lineAt n).ctx y = s.ctx y := by
  cases y <;> simp only [State.ctx, State.lineAt_feedA, State.lineAt_feedB]

@[simp] theorem State.startLine_slot (s : State) (n : Nat) (j : SlotId) :
    (s.startLine n).slot j = s.slot j := rfl

@[simp] theorem State.startLine_ctx (s : State) (n : Nat) (y : Input) :
    (s.startLine n).ctx y = s.ctx y := by
  cases y <;> simp only [State.ctx, State.startLine_feedA, State.startLine_feedB]

@[simp] theorem State.endLine_slot (s : State) (j : SlotId) :
    (s.endLine).slot j = s.slot j := rfl

@[simp] theorem State.endLine_ctx (s : State) (y : Input) :
    (s.endLine).ctx y = s.ctx y := by
  cases y <;> simp only [State.ctx, State.endLine_feedA, State.endLine_feedB]

@[simp] theorem State.cutLine_slot (s : State) (x : Input) (j : SlotId) :
    (s.cutLine x).slot j = s.slot j := rfl

@[simp] theorem State.cutLine_ctx (s : State) (x : Input) (y : Input) :
    (s.cutLine x).ctx y = s.ctx y := by
  cases y <;> simp only [State.ctx, State.cutLine_feedA, State.cutLine_feedB]

@[simp] theorem State.markFrom_slot (s b : State) (j : SlotId) :
    (s.markFrom b).slot j = s.slot j := rfl

@[simp] theorem State.markFrom_ctx (s b : State) (y : Input) :
    (s.markFrom b).ctx y = s.ctx y := by
  cases y <;> simp only [State.ctx, State.markFrom_feedA, State.markFrom_feedB]

@[simp] theorem State.completeSelect_slot (s : State) (c : Completion) (j : SlotId) :
    (s.completeSelect c).slot j = s.slot j := rfl

@[simp] theorem State.completeSelect_ctx (s : State) (c : Completion) (y : Input) :
    (s.completeSelect c).ctx y = s.ctx y := by
  cases y <;> simp only [State.ctx, State.completeSelect_feedA, State.completeSelect_feedB]

@[simp] theorem State.timeoutHeld_slot (s : State) (j : SlotId) :
    (s.timeoutHeld).slot j = s.slot j := rfl

@[simp] theorem State.timeoutHeld_ctx (s : State) (y : Input) :
    (s.timeoutHeld).ctx y = s.ctx y := by
  cases y <;> simp only [State.ctx, State.timeoutHeld_feedA, State.timeoutHeld_feedB]

@[simp] theorem State.guardExpire_ctx (s : State) (y : Input) :
    (s.guardExpire).ctx y = s.ctx y := by
  cases y <;> simp only [State.ctx, State.guardExpire_feedA, State.guardExpire_feedB]

@[simp] theorem State.applyClearAir_ctx (s : State) (y : Input) :
    (s.applyClearAir).ctx y = s.ctx y := by
  cases y <;> simp only [State.ctx, State.applyClearAir_feedA, State.applyClearAir_feedB]

@[simp] theorem State.fetchFault_ctx (s : State) (i : SlotId) (y : Input) :
    (s.fetchFault i).ctx y = s.ctx y := by
  cases y <;> simp only [State.ctx, State.fetchFault_feedA, State.fetchFault_feedB]

@[simp] theorem State.countStep_ctx (s : State) (y : Input) :
    (s.countStep).ctx y = s.ctx y := by
  cases y <;> simp only [State.ctx, State.countStep_feedA, State.countStep_feedB]

@[simp] theorem State.publicationStep_ctx (s : State) (y : Input) :
    (s.publicationStep).ctx y = s.ctx y := by
  cases y <;> simp only [State.ctx, State.publicationStep_feedA, State.publicationStep_feedB]

@[simp] theorem State.convertStep_ctx (s : State) (y : Input) :
    (s.convertStep).ctx y = s.ctx y := by
  cases y <;> simp only [State.ctx, State.convertStep_feedA, State.convertStep_feedB]

@[simp] theorem State.endTransfer_slot (s : State) (c : Completion) (n : Nat) (j : SlotId) :
    (s.endTransfer c n).slot j = s.slot j := rfl

@[simp] theorem State.endTransfer_ctx (s : State) (c : Completion) (n : Nat) (y : Input) :
    (s.endTransfer c n).ctx y = s.ctx y := by
  cases y <;> simp only [State.ctx, State.endTransfer_feedA, State.endTransfer_feedB]

@[simp] theorem State.evict_ctx (s : State) (i : SlotId) (y : Input) :
    (s.evict i).ctx y = s.ctx y := by
  cases y <;> simp only [State.ctx, State.evict_feedA, State.evict_feedB]

end Sys2Proof.Machine
end

