-- ==== Sys2Proof/Laws/Records.lean ====
section
/-! SUPPORT. What the shared operations over records, the stack and the command word do. -/

namespace Sys2Proof.Machine

/-! ### Attention flags -/

@[simp] theorem Attention.newlySet_self (a : Attention) : a.newlySet a = false := by
  simp [Attention.newlySet]

@[simp] theorem Attention.newlySet_none (a : Attention) : a.newlySet Attention.none = false := by
  simp [Attention.newlySet, Attention.none]

@[simp] theorem Attention.newlySet_clear (a : Attention) (w : Word) : a.newlySet (a.clear w) = false := by
  rcases a with ⟨a, b, c, d, e⟩
  cases a <;> cases b <;> cases c <;> cases d <;> cases e <;> simp [Attention.newlySet, Attention.clear]

/-- A flag set in the flags common to two is set in both. -/
theorem Attention.meet_newlySet {a x y : Attention} (h : a.newlySet (x.meet y) = true) :
    a.newlySet x = true ∧ a.newlySet y = true := by
  rcases a with ⟨a, b, c, d, e⟩
  cases a <;> cases b <;> cases c <;> cases d <;> cases e <;>
    simp_all [Attention.newlySet, Attention.meet] <;> grind

/-- The flags common to two are those of the first with some cleared. -/
theorem Attention.meet_clear (x y : Attention) : ∃ w : Word, x.meet y = x.clear w :=
  ⟨BitVec.ofNat 16 (bit (!y.evicted) + 2 * bit (!y.late) + 4 * bit (!y.convert) + 8 * bit (!y.expired)
    + 16 * bit (!y.fetchFault)), by
    rcases y with ⟨a, b, c, d, e⟩
    cases a <;> cases b <;> cases c <;> cases d <;> cases e <;> simp [Attention.meet, Attention.clear, bit]⟩

@[simp] theorem Slot.blank_attention (g : Generation) : (Slot.blank g).attention = Attention.none := rfl

/-! ### One slot, all slots -/

/-- The slot that `modifySlot` names is the changed one, any other stands. -/
theorem State.modifySlot_slot (s : State) (i j : SlotId) (f : Slot → Slot) :
    (s.modifySlot i f).slot j = if j = i then f (s.slot i) else s.slot j := by
  simp only [State.slot, State.modifySlot]
  by_cases h : j = i
  · subst h; simp
  · have : (i : Nat) ≠ j := fun e => h (Fin.ext e.symm)
    simp [h, this]

@[simp] theorem State.modifySlot_slot_same (s : State) (i : SlotId) (f : Slot → Slot) :
    (s.modifySlot i f).slot i = f (s.slot i) := by
  simp [State.modifySlot_slot]

/-- Every slot is changed by `mapSlots` from its own record. -/
@[simp] theorem State.mapSlots_slot (s : State) (f : SlotId → Slot → Slot) (j : SlotId) :
    (s.mapSlots f).slot j = f j (s.slot j) := by
  simp [State.slot, State.mapSlots]

/-- `modifySlot` leaves WINDOW set where it was, and sets it where a flag is newly set (R171). -/
theorem State.modifySlot_window (s : State) (i : SlotId) (f : Slot → Slot) :
    (s.modifySlot i f).events.window =
      (s.events.window || (s.slot i).attention.newlySet (f (s.slot i)).attention) := rfl

/-- A change of a record that sets no attention flag is the change of its slot and nothing else. -/
theorem State.modifySlot_quiet (s : State) (i : SlotId) (f : Slot → Slot)
    (h : (s.slot i).attention.newlySet (f (s.slot i)).attention = false) :
    s.modifySlot i f = WithSlot s i (f (s.slot i)) := by
  simp [State.modifySlot, WithSlot, h]

@[simp] theorem WithSlot_slot (s : State) (i j : SlotId) (r : Slot) :
    (WithSlot s i r).slot j = if j = i then r else s.slot j := by
  simp only [State.slot, WithSlot]
  by_cases h : j = i
  · subst h; simp
  · have : (i : Nat) ≠ j := fun e => h (Fin.ext e.symm)
    simp [h, this]

/-- Writing back the record a slot holds changes nothing. -/
@[simp] theorem WithSlot_self (s : State) (i : SlotId) : WithSlot s i (s.slot i) = s := by
  simp [WithSlot, State.slot]

/-- Freeing a record: its slot is blank at the next generation and it is off the stack (R11, R44). -/
theorem State.freeRecord_eq (s : State) (i : SlotId) :
    s.freeRecord i =
      { WithSlot s i (Slot.blank ((s.slot i).gen + 1)) with stack := s.stack.erase i } := by
  simp [State.freeRecord, State.modifySlot_quiet]

/-- Leaving the stack: the record takes the state of its cause (R43, R44). -/
theorem State.leaveStack_eq (s : State) (i : SlotId) (x : RecState) :
    s.leaveStack i x =
      { WithSlot s i { s.slot i with state := x } with stack := s.stack.erase i } := by
  simp [State.leaveStack, State.modifySlot_quiet]

/-- Insertion at the top of the stack (R43, R44). -/
theorem State.enterStack_eq (s : State) (i : SlotId) :
    s.enterStack i =
      { WithSlot s i { s.slot i with state := .onAir } with stack := i :: s.stack.erase i } := by
  simp [State.enterStack, State.modifySlot_quiet]

/-- No element of a list meets the test that is always false. -/
theorem any_false {α : Type} (l : List α) : (l.any fun _ => false) = false := by
  induction l with
  | nil => rfl
  | cons _ _ ih => simp [ih]

/-- Removal of every entry at once: each becomes STANDBY, no attention flag is set (R48, R53). -/
theorem State.liftAll_eq (s : State) :
    s.liftAll =
      { s with
        slots := Vector.ofFn (fun i => if i ∈ s.stack then { s.slot i with state := .standby } else s.slot i)
        stack := [] } := by
  have h : ∀ i, (s.slot i).attention.newlySet
      (if i ∈ s.stack then { s.slot i with state := .standby } else s.slot i).attention = false := by
    intro i; split <;> simp
  simp [State.liftAll, State.mapSlots, h, any_false]

/-- Cancelling a pending publication changes the pending indicator and countdown alone (R31, R40). -/
theorem State.cancelPending_eq (s : State) (i : SlotId) :
    s.cancelPending i = WithSlot s i { s.slot i with pending := none } := by
  simp [State.cancelPending, State.modifySlot_quiet]

/-! ### Handles -/

/-- The handle of a slot and generation names that slot and generation (R12). -/
@[simp] theorem parseHandle_handleOf (i : SlotId) (g : Generation) :
    parseHandle (handleOf i g) = some (i, g) := by
  revert i g
  decide +kernel

/-- A handle of 512 or more, or with a slot field of 24..31, names nothing (R12). -/
theorem parseHandle_bad (a : Word) (h : 512 ≤ a.toNat ∨ 24 ≤ a.toNat % 32) : parseHandle a = none := by
  unfold parseHandle
  rw [dif_neg]
  omega

/-! ### Commands -/

/-- A command that is accepted is taken and has its effect (R157). -/
theorem State.command_accepts (s : State) (code : BitVec 5) (ie : Bool) (effect : State → State)
    (h : Accepts s) : s.command code ie effect = effect (s.take code ie) := by
  simp [State.command, h.1, h.2]

/-- Taking a command (R56, R157). -/
theorem State.take_eq (s : State) (code : BitVec 5) (ie : Bool) : s.take code ie = Taken s code ie := rfl

/-- Completion of a command (R158). -/
theorem State.complete_eq (s : State) (c : Completion) (r0 r1 : Word) :
    s.complete c r0 r1 = Finished s c r0 r1 := rfl

/-- Completion of a command just taken (R56, R157, R158). -/
theorem Finished_Taken (s : State) (code : BitVec 5) (ie : Bool) (c : Completion) (r0 r1 : Word) :
    Finished (Taken s code ie) c r0 r1 = Completed s code ie c r0 r1 := rfl

/-- Completion of a held request (R46, R158). -/
theorem State.finishHeld_eq (s : State) (c : Completion) (r0 r1 : Word) :
    s.finishHeld c r0 r1 = { Finished s c r0 r1 with held := none } := rfl

/-- A command whose handle names a live record goes on to its own checks (R12). -/
theorem State.withHandle_names (s : State) (i : SlotId) (k : SlotId → Generation → State → State)
    (h : Names s i) : s.withHandle k = k i (s.slot i).gen s := by
  simp [State.withHandle, h.2, State.live, h.1]

/-- A command whose handle names nothing is refused with BAD ARGUMENT (R12). -/
theorem State.withHandle_bad (s : State) (k : SlotId → Generation → State → State)
    (h : 512 ≤ s.cmd.arg0.toNat ∨ 24 ≤ s.cmd.arg0.toNat % 32) :
    s.withHandle k = s.completeZero .badArgument := by
  simp [State.withHandle, parseHandle_bad _ h]

/-- A command whose handle is stale is refused with STALE HANDLE (R12). -/
theorem State.withHandle_stale (s : State) (i : SlotId) (g : Generation)
    (k : SlotId → Generation → State → State) (ha : s.cmd.arg0 = handleOf i g)
    (h : (s.slot i).state = .free ∨ (s.slot i).gen ≠ g) :
    s.withHandle k = s.completeZero .staleHandle := by
  rcases h with h | h <;> simp [State.withHandle, ha, State.live, h]

end Sys2Proof.Machine
end

