-- ==== Sys2Proof/Laws/Frames.lean ====
section
/-! SUPPORT. For each shared operation of the engine, the stack, the timebase and the switches, the fields it leaves
alone. -/

namespace Sys2Proof.Machine

/-- An accepted write of a record word (R20, R163): one record's staging words or attention flags change and the
pointer steps; a pending record's staging words stand (R30). -/
theorem State.writePointed_some {s t : State} {value : Word} (h : s.writePointed value = some t) :
    ∃ (staging : Copy) (attention : Attention),
      t = { WithSlot s s.port.pointer.slot
              { s.slot s.port.pointer.slot with staging := staging, attention := attention } with
            port := { s.port with pointer := s.port.pointer.step } } ∧
      ((s.slot s.port.pointer.slot).state = .free ∨ (s.slot s.port.pointer.slot).pending.isSome = true →
        staging = (s.slot s.port.pointer.slot).staging) ∧
      (attention = (s.slot s.port.pointer.slot).attention ∨
        attention = (s.slot s.port.pointer.slot).attention.clear value) := by
  unfold State.writePointed at h
  dsimp only at h
  split at h
  · split at h
    · cases h
    · next hw hf =>
      refine ⟨(s.slot s.port.pointer.slot).staging.set s.port.pointer.word.val value,
        (s.slot s.port.pointer.slot).attention, ?_, fun hg => absurd hg hf, .inl rfl⟩
      simp only [Option.some.injEq] at h
      subst h
      rw [State.modifySlot_quiet _ _ _ (by simp)]; rfl
  · split at h
    · refine ⟨(s.slot s.port.pointer.slot).staging, (s.slot s.port.pointer.slot).attention.clear value, ?_,
        fun _ => rfl, .inr rfl⟩
      simp only [Option.some.injEq] at h
      subst h
      rw [State.modifySlot_quiet _ _ _ (by simp)]; rfl
    · cases h

/-- An accepted write of a record word changes nothing but slots and the pointer. -/
theorem State.writePointed_frame {s t : State} {value : Word} (h : s.writePointed value = some t) :
    t.now = s.now ∧ t.resetLine = s.resetLine ∧ t.stack = s.stack ∧ t.held = s.held ∧ t.guard = s.guard ∧
    t.keyer = s.keyer ∧ t.engine = s.engine ∧ t.feedA = s.feedA ∧ t.feedB = s.feedB ∧ t.tb = s.tb ∧
    t.cmd = s.cmd ∧ t.port.transfer = s.port.transfer ∧ t.events = s.events ∧ t.mask = s.mask ∧ t.marks = s.marks ∧
    t.pending = s.pending := by
  obtain ⟨_, _, e, _⟩ := State.writePointed_some h
  subst e
  simp [WithSlot]

/-- `raiseLate` changes nothing but slots, events, marks. -/
@[simp] theorem State.raiseLate_frame (s : State) (l : List SlotId) :
    (s.raiseLate l).now = s.now ∧ (s.raiseLate l).resetLine = s.resetLine ∧ (s.raiseLate l).stack = s.stack ∧
    (s.raiseLate l).held = s.held ∧ (s.raiseLate l).guard = s.guard ∧ (s.raiseLate l).keyer = s.keyer ∧
    (s.raiseLate l).engine = s.engine ∧ (s.raiseLate l).feedA = s.feedA ∧ (s.raiseLate l).feedB = s.feedB ∧
    (s.raiseLate l).tb = s.tb ∧ (s.raiseLate l).cmd = s.cmd ∧ (s.raiseLate l).port = s.port ∧
    (s.raiseLate l).mask = s.mask ∧ (s.raiseLate l).pending = s.pending := by
  unfold State.raiseLate
  induction l generalizing s with
  | nil => simp
  | cons i l ih => simpa using ih (s.raise i .late)

/-- `openLine` changes nothing but slots, events, engine, marks. -/
@[simp] theorem State.openLine_frame (s : State) (line : Nat) :
    (s.openLine line).now = s.now ∧ (s.openLine line).resetLine = s.resetLine ∧ (s.openLine line).stack = s.stack ∧
    (s.openLine line).held = s.held ∧ (s.openLine line).guard = s.guard ∧ (s.openLine line).keyer = s.keyer ∧
    (s.openLine line).feedA = s.feedA ∧ (s.openLine line).feedB = s.feedB ∧ (s.openLine line).tb = s.tb ∧
    (s.openLine line).cmd = s.cmd ∧ (s.openLine line).port = s.port ∧ (s.openLine line).mask = s.mask ∧
    (s.openLine line).pending = s.pending := by
  simp only [State.openLine]
  (repeat' split) <;> simp

/-- `present` changes nothing but engine. -/
@[simp] theorem State.present_frame (s : State) (op : Operation) :
    (s.present op).now = s.now ∧ (s.present op).resetLine = s.resetLine ∧ (s.present op).slots = s.slots ∧
    (s.present op).stack = s.stack ∧ (s.present op).held = s.held ∧ (s.present op).guard = s.guard ∧
    (s.present op).keyer = s.keyer ∧ (s.present op).feedA = s.feedA ∧ (s.present op).feedB = s.feedB ∧
    (s.present op).tb = s.tb ∧ (s.present op).cmd = s.cmd ∧ (s.present op).port = s.port ∧
    (s.present op).events = s.events ∧ (s.present op).mask = s.mask ∧ (s.present op).marks = s.marks ∧
    (s.present op).pending = s.pending := by
  simp only [State.present]
  (repeat' split) <;> simp

/-- `nextOnBus` changes nothing but engine. -/
@[simp] theorem State.nextOnBus_frame (s : State) :
    (s.nextOnBus).now = s.now ∧ (s.nextOnBus).resetLine = s.resetLine ∧ (s.nextOnBus).slots = s.slots ∧
    (s.nextOnBus).stack = s.stack ∧ (s.nextOnBus).held = s.held ∧ (s.nextOnBus).guard = s.guard ∧
    (s.nextOnBus).keyer = s.keyer ∧ (s.nextOnBus).feedA = s.feedA ∧ (s.nextOnBus).feedB = s.feedB ∧
    (s.nextOnBus).tb = s.tb ∧ (s.nextOnBus).cmd = s.cmd ∧ (s.nextOnBus).port = s.port ∧
    (s.nextOnBus).events = s.events ∧ (s.nextOnBus).mask = s.mask ∧ (s.nextOnBus).marks = s.marks ∧
    (s.nextOnBus).pending = s.pending := by
  simp only [State.nextOnBus]
  (repeat' split) <;> simp

/-- `arbitrate` changes nothing but engine. -/
@[simp] theorem State.arbitrate_frame (s : State) :
    (s.arbitrate).now = s.now ∧ (s.arbitrate).resetLine = s.resetLine ∧ (s.arbitrate).slots = s.slots ∧
    (s.arbitrate).stack = s.stack ∧ (s.arbitrate).held = s.held ∧ (s.arbitrate).guard = s.guard ∧
    (s.arbitrate).keyer = s.keyer ∧ (s.arbitrate).feedA = s.feedA ∧ (s.arbitrate).feedB = s.feedB ∧
    (s.arbitrate).tb = s.tb ∧ (s.arbitrate).cmd = s.cmd ∧ (s.arbitrate).port = s.port ∧
    (s.arbitrate).events = s.events ∧ (s.arbitrate).mask = s.mask ∧ (s.arbitrate).marks = s.marks ∧
    (s.arbitrate).pending = s.pending := by
  simp only [State.arbitrate]
  (repeat' split) <;> simp

/-- `advanceLine` changes nothing but slots, events, engine, marks. -/
@[simp] theorem State.advanceLine_frame (s : State) :
    (s.advanceLine).now = s.now ∧ (s.advanceLine).resetLine = s.resetLine ∧ (s.advanceLine).stack = s.stack ∧
    (s.advanceLine).held = s.held ∧ (s.advanceLine).guard = s.guard ∧ (s.advanceLine).keyer = s.keyer ∧
    (s.advanceLine).feedA = s.feedA ∧ (s.advanceLine).feedB = s.feedB ∧ (s.advanceLine).tb = s.tb ∧
    (s.advanceLine).cmd = s.cmd ∧ (s.advanceLine).port = s.port ∧ (s.advanceLine).mask = s.mask ∧
    (s.advanceLine).pending = s.pending := by
  simp only [State.advanceLine]
  (repeat' split) <;> simp

/-- `takeWord` changes nothing but engine, keyer. -/
@[simp] theorem State.takeWord_frame (s : State) (place k : Nat) (w : SiloWord) (rest : List SiloWord) :
    (s.takeWord place k w rest).now = s.now ∧ (s.takeWord place k w rest).resetLine = s.resetLine ∧ (s.takeWord place k w rest).slots = s.slots ∧
    (s.takeWord place k w rest).stack = s.stack ∧ (s.takeWord place k w rest).held = s.held ∧ (s.takeWord place k w rest).guard = s.guard ∧
    (s.takeWord place k w rest).feedA = s.feedA ∧ (s.takeWord place k w rest).feedB = s.feedB ∧ (s.takeWord place k w rest).tb = s.tb ∧
    (s.takeWord place k w rest).cmd = s.cmd ∧ (s.takeWord place k w rest).port = s.port ∧ (s.takeWord place k w rest).events = s.events ∧
    (s.takeWord place k w rest).mask = s.mask ∧ (s.takeWord place k w rest).marks = s.marks ∧ (s.takeWord place k w rest).pending = s.pending := by
  simp only [State.takeWord]
  (repeat' split) <;> simp

/-- `raiseLateOf` changes nothing but slots, events, marks. -/
@[simp] theorem State.raiseLateOf_frame (s : State) (d : Descriptor) :
    (s.raiseLateOf d).now = s.now ∧ (s.raiseLateOf d).resetLine = s.resetLine ∧ (s.raiseLateOf d).stack = s.stack ∧
    (s.raiseLateOf d).held = s.held ∧ (s.raiseLateOf d).guard = s.guard ∧ (s.raiseLateOf d).keyer = s.keyer ∧
    (s.raiseLateOf d).engine = s.engine ∧ (s.raiseLateOf d).feedA = s.feedA ∧ (s.raiseLateOf d).feedB = s.feedB ∧
    (s.raiseLateOf d).tb = s.tb ∧ (s.raiseLateOf d).cmd = s.cmd ∧ (s.raiseLateOf d).port = s.port ∧
    (s.raiseLateOf d).mask = s.mask ∧ (s.raiseLateOf d).pending = s.pending := by
  simp only [State.raiseLateOf]
  (repeat' split) <;> simp

/-- `abandonWindow` changes nothing but slots, events, engine, keyer, marks. -/
@[simp] theorem State.abandonWindow_frame (s : State) (place : Nat) (x : Int) :
    (s.abandonWindow place x).now = s.now ∧ (s.abandonWindow place x).resetLine = s.resetLine ∧ (s.abandonWindow place x).stack = s.stack ∧
    (s.abandonWindow place x).held = s.held ∧ (s.abandonWindow place x).guard = s.guard ∧ (s.abandonWindow place x).feedA = s.feedA ∧
    (s.abandonWindow place x).feedB = s.feedB ∧ (s.abandonWindow place x).tb = s.tb ∧ (s.abandonWindow place x).cmd = s.cmd ∧
    (s.abandonWindow place x).port = s.port ∧ (s.abandonWindow place x).mask = s.mask ∧ (s.abandonWindow place x).pending = s.pending := by
  simp only [State.abandonWindow]
  (repeat' split) <;> simp

/-- `takingPointReached` changes nothing but slots, events, engine, keyer, marks. -/
@[simp] theorem State.takingPointReached_frame (s : State) :
    (s.takingPointReached).now = s.now ∧ (s.takingPointReached).resetLine = s.resetLine ∧ (s.takingPointReached).stack = s.stack ∧
    (s.takingPointReached).held = s.held ∧ (s.takingPointReached).guard = s.guard ∧ (s.takingPointReached).feedA = s.feedA ∧
    (s.takingPointReached).feedB = s.feedB ∧ (s.takingPointReached).tb = s.tb ∧ (s.takingPointReached).cmd = s.cmd ∧
    (s.takingPointReached).port = s.port ∧ (s.takingPointReached).mask = s.mask ∧ (s.takingPointReached).pending = s.pending := by
  simp only [State.takingPointReached]
  (repeat' split) <;> simp

/-- `beginLine` changes nothing but slots, events, engine, keyer, marks. -/
@[simp] theorem State.beginLine_frame (s : State) (line : Nat) :
    (s.beginLine line).now = s.now ∧ (s.beginLine line).resetLine = s.resetLine ∧ (s.beginLine line).stack = s.stack ∧
    (s.beginLine line).held = s.held ∧ (s.beginLine line).guard = s.guard ∧ (s.beginLine line).feedA = s.feedA ∧
    (s.beginLine line).feedB = s.feedB ∧ (s.beginLine line).tb = s.tb ∧ (s.beginLine line).cmd = s.cmd ∧
    (s.beginLine line).port = s.port ∧ (s.beginLine line).mask = s.mask ∧ (s.beginLine line).pending = s.pending := by
  simp only [State.beginLine]
  (repeat' split) <;> simp

/-- `storeWord` changes nothing but engine. -/
@[simp] theorem State.storeWord_frame (s : State) (line place k : Nat) (current : Bool) (data : Word) :
    (s.storeWord line place k current data).now = s.now ∧ (s.storeWord line place k current data).resetLine = s.resetLine ∧ (s.storeWord line place k current data).slots = s.slots ∧
    (s.storeWord line place k current data).stack = s.stack ∧ (s.storeWord line place k current data).held = s.held ∧ (s.storeWord line place k current data).guard = s.guard ∧
    (s.storeWord line place k current data).keyer = s.keyer ∧ (s.storeWord line place k current data).feedA = s.feedA ∧ (s.storeWord line place k current data).feedB = s.feedB ∧
    (s.storeWord line place k current data).tb = s.tb ∧ (s.storeWord line place k current data).cmd = s.cmd ∧ (s.storeWord line place k current data).port = s.port ∧
    (s.storeWord line place k current data).events = s.events ∧ (s.storeWord line place k current data).mask = s.mask ∧ (s.storeWord line place k current data).marks = s.marks ∧
    (s.storeWord line place k current data).pending = s.pending := by
  simp only [State.storeWord]
  (repeat' split) <;> simp

/-- `answerMask` changes nothing but engine. -/
@[simp] theorem State.answerMask_frame (s : State) (data : Word) :
    (s.answerMask data).now = s.now ∧ (s.answerMask data).resetLine = s.resetLine ∧ (s.answerMask data).slots = s.slots ∧
    (s.answerMask data).stack = s.stack ∧ (s.answerMask data).held = s.held ∧ (s.answerMask data).guard = s.guard ∧
    (s.answerMask data).keyer = s.keyer ∧ (s.answerMask data).feedA = s.feedA ∧ (s.answerMask data).feedB = s.feedB ∧
    (s.answerMask data).tb = s.tb ∧ (s.answerMask data).cmd = s.cmd ∧ (s.answerMask data).port = s.port ∧
    (s.answerMask data).events = s.events ∧ (s.answerMask data).mask = s.mask ∧ (s.answerMask data).marks = s.marks ∧
    (s.answerMask data).pending = s.pending := by
  simp only [State.answerMask]
  (repeat' split) <;> simp

/-- `maskFault` changes nothing but slots, stack, events, engine, keyer, marks. -/
@[simp] theorem State.maskFault_frame (s : State) (i : SlotId) (g : Generation) :
    (s.maskFault i g).now = s.now ∧ (s.maskFault i g).resetLine = s.resetLine ∧ (s.maskFault i g).held = s.held ∧
    (s.maskFault i g).guard = s.guard ∧ (s.maskFault i g).feedA = s.feedA ∧ (s.maskFault i g).feedB = s.feedB ∧
    (s.maskFault i g).tb = s.tb ∧ (s.maskFault i g).cmd = s.cmd ∧ (s.maskFault i g).port = s.port ∧
    (s.maskFault i g).mask = s.mask ∧ (s.maskFault i g).pending = s.pending := by
  simp only [State.maskFault]
  (repeat' split) <;> simp

/-- `engineStep` changes nothing but slots, events, engine, marks. -/
@[simp] theorem State.engineStep_frame (s : State) :
    (s.engineStep).now = s.now ∧ (s.engineStep).resetLine = s.resetLine ∧ (s.engineStep).stack = s.stack ∧
    (s.engineStep).held = s.held ∧ (s.engineStep).guard = s.guard ∧ (s.engineStep).keyer = s.keyer ∧
    (s.engineStep).feedA = s.feedA ∧ (s.engineStep).feedB = s.feedB ∧ (s.engineStep).tb = s.tb ∧
    (s.engineStep).cmd = s.cmd ∧ (s.engineStep).port = s.port ∧ (s.engineStep).mask = s.mask ∧
    (s.engineStep).pending = s.pending := by
  simp only [State.engineStep]
  (repeat' split) <;> simp

/-- `wordMoved` changes nothing but cmd, events, port. -/
@[simp] theorem State.wordMoved_frame (s : State) (t : Transfer) :
    (s.wordMoved t).now = s.now ∧ (s.wordMoved t).resetLine = s.resetLine ∧ (s.wordMoved t).slots = s.slots ∧
    (s.wordMoved t).stack = s.stack ∧ (s.wordMoved t).held = s.held ∧ (s.wordMoved t).guard = s.guard ∧
    (s.wordMoved t).keyer = s.keyer ∧ (s.wordMoved t).engine = s.engine ∧ (s.wordMoved t).feedA = s.feedA ∧
    (s.wordMoved t).feedB = s.feedB ∧ (s.wordMoved t).tb = s.tb ∧ (s.wordMoved t).mask = s.mask ∧
    (s.wordMoved t).marks = s.marks ∧ (s.wordMoved t).pending = s.pending := by
  simp only [State.wordMoved]
  (repeat' split) <;> simp

/-- `imageFault` changes nothing but cmd, events, port. -/
@[simp] theorem State.imageFault_frame (s : State) :
    (s.imageFault).now = s.now ∧ (s.imageFault).resetLine = s.resetLine ∧ (s.imageFault).slots = s.slots ∧
    (s.imageFault).stack = s.stack ∧ (s.imageFault).held = s.held ∧ (s.imageFault).guard = s.guard ∧
    (s.imageFault).keyer = s.keyer ∧ (s.imageFault).engine = s.engine ∧ (s.imageFault).feedA = s.feedA ∧
    (s.imageFault).feedB = s.feedB ∧ (s.imageFault).tb = s.tb ∧ (s.imageFault).mask = s.mask ∧
    (s.imageFault).marks = s.marks ∧ (s.imageFault).pending = s.pending := by
  simp only [State.imageFault]
  (repeat' split) <;> simp

/-- `removeExpired` changes nothing but slots, stack, events. -/
@[simp] theorem State.removeExpired_frame (s : State) (i : SlotId) :
    (s.removeExpired i).now = s.now ∧ (s.removeExpired i).resetLine = s.resetLine ∧ (s.removeExpired i).held = s.held ∧
    (s.removeExpired i).guard = s.guard ∧ (s.removeExpired i).keyer = s.keyer ∧ (s.removeExpired i).engine = s.engine ∧
    (s.removeExpired i).feedA = s.feedA ∧ (s.removeExpired i).feedB = s.feedB ∧ (s.removeExpired i).tb = s.tb ∧
    (s.removeExpired i).cmd = s.cmd ∧ (s.removeExpired i).port = s.port ∧ (s.removeExpired i).mask = s.mask ∧
    (s.removeExpired i).marks = s.marks ∧ (s.removeExpired i).pending = s.pending := by
  simp only [State.removeExpired]
  (repeat' split) <;> simp

/-- `guardStep` changes nothing but slots, stack, events, guard. -/
@[simp] theorem State.guardStep_frame (s : State) :
    (s.guardStep).now = s.now ∧ (s.guardStep).resetLine = s.resetLine ∧ (s.guardStep).held = s.held ∧
    (s.guardStep).keyer = s.keyer ∧ (s.guardStep).engine = s.engine ∧ (s.guardStep).feedA = s.feedA ∧
    (s.guardStep).feedB = s.feedB ∧ (s.guardStep).tb = s.tb ∧ (s.guardStep).cmd = s.cmd ∧
    (s.guardStep).port = s.port ∧ (s.guardStep).mask = s.mask ∧ (s.guardStep).marks = s.marks ∧
    (s.guardStep).pending = s.pending := by
  simp only [State.guardStep]
  (repeat' split) <;> simp

/-- `applyPush` changes nothing but slots, stack, events, cmd, held, marks. -/
@[simp] theorem State.applyPush_frame (s : State) (i : SlotId) (g : Generation) :
    (s.applyPush i g).now = s.now ∧ (s.applyPush i g).resetLine = s.resetLine ∧ (s.applyPush i g).guard = s.guard ∧
    (s.applyPush i g).keyer = s.keyer ∧ (s.applyPush i g).engine = s.engine ∧ (s.applyPush i g).feedA = s.feedA ∧
    (s.applyPush i g).feedB = s.feedB ∧ (s.applyPush i g).tb = s.tb ∧ (s.applyPush i g).port = s.port ∧
    (s.applyPush i g).mask = s.mask ∧ (s.applyPush i g).pending = s.pending := by
  simp only [State.applyPush]
  (repeat' split) <;> simp

/-- `applyLift` changes nothing but slots, stack, events, cmd, held. -/
@[simp] theorem State.applyLift_frame (s : State) (i : SlotId) (g : Generation) :
    (s.applyLift i g).now = s.now ∧ (s.applyLift i g).resetLine = s.resetLine ∧ (s.applyLift i g).guard = s.guard ∧
    (s.applyLift i g).keyer = s.keyer ∧ (s.applyLift i g).engine = s.engine ∧ (s.applyLift i g).feedA = s.feedA ∧
    (s.applyLift i g).feedB = s.feedB ∧ (s.applyLift i g).tb = s.tb ∧ (s.applyLift i g).port = s.port ∧
    (s.applyLift i g).mask = s.mask ∧ (s.applyLift i g).marks = s.marks ∧ (s.applyLift i g).pending = s.pending := by
  simp only [State.applyLift]
  (repeat' split) <;> simp

/-- `applyRaise` changes nothing but stack, events, cmd, held. -/
@[simp] theorem State.applyRaise_frame (s : State) (i : SlotId) (g : Generation) :
    (s.applyRaise i g).now = s.now ∧ (s.applyRaise i g).resetLine = s.resetLine ∧ (s.applyRaise i g).slots = s.slots ∧
    (s.applyRaise i g).guard = s.guard ∧ (s.applyRaise i g).keyer = s.keyer ∧ (s.applyRaise i g).engine = s.engine ∧
    (s.applyRaise i g).feedA = s.feedA ∧ (s.applyRaise i g).feedB = s.feedB ∧ (s.applyRaise i g).tb = s.tb ∧
    (s.applyRaise i g).port = s.port ∧ (s.applyRaise i g).mask = s.mask ∧ (s.applyRaise i g).marks = s.marks ∧
    (s.applyRaise i g).pending = s.pending := by
  simp only [State.applyRaise]
  (repeat' split) <;> simp

/-- `applyLower` changes nothing but stack, events, cmd, held. -/
@[simp] theorem State.applyLower_frame (s : State) (i : SlotId) (g : Generation) :
    (s.applyLower i g).now = s.now ∧ (s.applyLower i g).resetLine = s.resetLine ∧ (s.applyLower i g).slots = s.slots ∧
    (s.applyLower i g).guard = s.guard ∧ (s.applyLower i g).keyer = s.keyer ∧ (s.applyLower i g).engine = s.engine ∧
    (s.applyLower i g).feedA = s.feedA ∧ (s.applyLower i g).feedB = s.feedB ∧ (s.applyLower i g).tb = s.tb ∧
    (s.applyLower i g).port = s.port ∧ (s.applyLower i g).mask = s.mask ∧ (s.applyLower i g).marks = s.marks ∧
    (s.applyLower i g).pending = s.pending := by
  simp only [State.applyLower]
  (repeat' split) <;> simp

/-- `applyRetire` changes nothing but slots, stack, events, cmd, held. -/
@[simp] theorem State.applyRetire_frame (s : State) (i : SlotId) (g : Generation) :
    (s.applyRetire i g).now = s.now ∧ (s.applyRetire i g).resetLine = s.resetLine ∧ (s.applyRetire i g).guard = s.guard ∧
    (s.applyRetire i g).keyer = s.keyer ∧ (s.applyRetire i g).engine = s.engine ∧ (s.applyRetire i g).feedA = s.feedA ∧
    (s.applyRetire i g).feedB = s.feedB ∧ (s.applyRetire i g).tb = s.tb ∧ (s.applyRetire i g).port = s.port ∧
    (s.applyRetire i g).mask = s.mask ∧ (s.applyRetire i g).marks = s.marks ∧ (s.applyRetire i g).pending = s.pending := by
  simp only [State.applyRetire]
  (repeat' split) <;> simp

/-- `applyHeld` changes nothing but slots, stack, events, cmd, held, marks. -/
@[simp] theorem State.applyHeld_frame (s : State) :
    (s.applyHeld).now = s.now ∧ (s.applyHeld).resetLine = s.resetLine ∧ (s.applyHeld).guard = s.guard ∧
    (s.applyHeld).keyer = s.keyer ∧ (s.applyHeld).engine = s.engine ∧ (s.applyHeld).feedA = s.feedA ∧
    (s.applyHeld).feedB = s.feedB ∧ (s.applyHeld).tb = s.tb ∧ (s.applyHeld).port = s.port ∧
    (s.applyHeld).mask = s.mask ∧ (s.applyHeld).pending = s.pending := by
  simp only [State.applyHeld]
  (repeat' split) <;> simp

/-- `removeAll` changes nothing but slots, stack, events. -/
@[simp] theorem State.removeAll_frame (s : State) (l : List SlotId) :
    (l.foldl State.removeExpired s).now = s.now ∧ (l.foldl State.removeExpired s).resetLine = s.resetLine ∧ (l.foldl State.removeExpired s).held = s.held ∧
    (l.foldl State.removeExpired s).guard = s.guard ∧ (l.foldl State.removeExpired s).keyer = s.keyer ∧ (l.foldl State.removeExpired s).engine = s.engine ∧
    (l.foldl State.removeExpired s).feedA = s.feedA ∧ (l.foldl State.removeExpired s).feedB = s.feedB ∧ (l.foldl State.removeExpired s).tb = s.tb ∧
    (l.foldl State.removeExpired s).cmd = s.cmd ∧ (l.foldl State.removeExpired s).port = s.port ∧ (l.foldl State.removeExpired s).mask = s.mask ∧
    (l.foldl State.removeExpired s).marks = s.marks ∧ (l.foldl State.removeExpired s).pending = s.pending := by
  induction l generalizing s with
  | nil => simp
  | cons i l ih => simpa using ih (s.removeExpired i)

/-- `stackStep` changes nothing but slots, stack, events, guard, cmd, held, marks. -/
@[simp] theorem State.stackStep_frame (s : State) (l : List SlotId) :
    (s.stackStep l).now = s.now ∧ (s.stackStep l).resetLine = s.resetLine ∧ (s.stackStep l).keyer = s.keyer ∧
    (s.stackStep l).engine = s.engine ∧ (s.stackStep l).feedA = s.feedA ∧ (s.stackStep l).feedB = s.feedB ∧
    (s.stackStep l).tb = s.tb ∧ (s.stackStep l).port = s.port ∧ (s.stackStep l).mask = s.mask ∧
    (s.stackStep l).pending = s.pending := by
  simp only [State.stackStep]
  (repeat' split) <;> simp

/-- `recordStep` changes nothing but slots, stack, events, guard, cmd, held, marks. -/
@[simp] theorem State.recordStep_frame (s : State) :
    (s.recordStep).now = s.now ∧ (s.recordStep).resetLine = s.resetLine ∧ (s.recordStep).keyer = s.keyer ∧
    (s.recordStep).engine = s.engine ∧ (s.recordStep).feedA = s.feedA ∧ (s.recordStep).feedB = s.feedB ∧
    (s.recordStep).tb = s.tb ∧ (s.recordStep).port = s.port ∧ (s.recordStep).mask = s.mask ∧
    (s.recordStep).pending = s.pending := by
  simp only [State.recordStep]
  (repeat' split) <;> simp

/-- `wordArrived` changes nothing but slots, cmd, events, port. -/
@[simp] theorem State.wordArrived_frame (s : State) (t : Transfer) (word : Word) :
    (s.wordArrived t word).now = s.now ∧ (s.wordArrived t word).resetLine = s.resetLine ∧ (s.wordArrived t word).stack = s.stack ∧
    (s.wordArrived t word).held = s.held ∧ (s.wordArrived t word).guard = s.guard ∧ (s.wordArrived t word).keyer = s.keyer ∧
    (s.wordArrived t word).engine = s.engine ∧ (s.wordArrived t word).feedA = s.feedA ∧ (s.wordArrived t word).feedB = s.feedB ∧
    (s.wordArrived t word).tb = s.tb ∧ (s.wordArrived t word).mask = s.mask ∧ (s.wordArrived t word).marks = s.marks ∧
    (s.wordArrived t word).pending = s.pending := by
  simp only [State.wordArrived]
  split
  · next f h => simp [State.writePointed_frame h]
  · simp

/-- `answerImage` changes nothing but slots, cmd, events, port, engine. -/
@[simp] theorem State.answerImage_frame (s : State) (word : Word) :
    (s.answerImage word).now = s.now ∧ (s.answerImage word).resetLine = s.resetLine ∧ (s.answerImage word).stack = s.stack ∧
    (s.answerImage word).held = s.held ∧ (s.answerImage word).guard = s.guard ∧ (s.answerImage word).keyer = s.keyer ∧
    (s.answerImage word).feedA = s.feedA ∧ (s.answerImage word).feedB = s.feedB ∧ (s.answerImage word).tb = s.tb ∧
    (s.answerImage word).mask = s.mask ∧ (s.answerImage word).marks = s.marks ∧ (s.answerImage word).pending = s.pending := by
  simp only [State.answerImage]
  (repeat' split) <;> simp

/-- `acknowledgeImage` changes nothing but cmd, events, port, engine. -/
@[simp] theorem State.acknowledgeImage_frame (s : State) :
    (s.acknowledgeImage).now = s.now ∧ (s.acknowledgeImage).resetLine = s.resetLine ∧ (s.acknowledgeImage).slots = s.slots ∧
    (s.acknowledgeImage).stack = s.stack ∧ (s.acknowledgeImage).held = s.held ∧ (s.acknowledgeImage).guard = s.guard ∧
    (s.acknowledgeImage).keyer = s.keyer ∧ (s.acknowledgeImage).feedA = s.feedA ∧ (s.acknowledgeImage).feedB = s.feedB ∧
    (s.acknowledgeImage).tb = s.tb ∧ (s.acknowledgeImage).mask = s.mask ∧ (s.acknowledgeImage).marks = s.marks ∧
    (s.acknowledgeImage).pending = s.pending := by
  simp only [State.acknowledgeImage]
  (repeat' split) <;> simp

/-- `busTimeout` changes nothing but slots, stack, events, engine, keyer, cmd, port, marks. -/
@[simp] theorem State.busTimeout_frame (s : State) :
    (s.busTimeout).now = s.now ∧ (s.busTimeout).resetLine = s.resetLine ∧ (s.busTimeout).held = s.held ∧
    (s.busTimeout).guard = s.guard ∧ (s.busTimeout).feedA = s.feedA ∧ (s.busTimeout).feedB = s.feedB ∧
    (s.busTimeout).tb = s.tb ∧ (s.busTimeout).mask = s.mask ∧ (s.busTimeout).pending = s.pending := by
  simp only [State.busTimeout]
  (repeat' split) <;> simp

/-- `slewOrFollow` changes nothing but tb, events. -/
@[simp] theorem State.slewOrFollow_frame (s : State) :
    (s.slewOrFollow).now = s.now ∧ (s.slewOrFollow).resetLine = s.resetLine ∧ (s.slewOrFollow).slots = s.slots ∧
    (s.slewOrFollow).stack = s.stack ∧ (s.slewOrFollow).held = s.held ∧ (s.slewOrFollow).guard = s.guard ∧
    (s.slewOrFollow).keyer = s.keyer ∧ (s.slewOrFollow).engine = s.engine ∧ (s.slewOrFollow).feedA = s.feedA ∧
    (s.slewOrFollow).feedB = s.feedB ∧ (s.slewOrFollow).cmd = s.cmd ∧ (s.slewOrFollow).port = s.port ∧
    (s.slewOrFollow).mask = s.mask ∧ (s.slewOrFollow).marks = s.marks ∧ (s.slewOrFollow).pending = s.pending := by
  simp only [State.slewOrFollow]
  (repeat' split) <;> simp

/-- `relock` changes nothing but tb, events. -/
@[simp] theorem State.relock_frame (s : State) :
    (s.relock).now = s.now ∧ (s.relock).resetLine = s.resetLine ∧ (s.relock).slots = s.slots ∧
    (s.relock).stack = s.stack ∧ (s.relock).held = s.held ∧ (s.relock).guard = s.guard ∧
    (s.relock).keyer = s.keyer ∧ (s.relock).engine = s.engine ∧ (s.relock).feedA = s.feedA ∧
    (s.relock).feedB = s.feedB ∧ (s.relock).cmd = s.cmd ∧ (s.relock).port = s.port ∧
    (s.relock).mask = s.mask ∧ (s.relock).marks = s.marks ∧ (s.relock).pending = s.pending := by
  simp only [State.relock]
  (repeat' split) <;> simp

/-- `settleSlew` changes nothing but tb, events. -/
@[simp] theorem State.settleSlew_frame (s : State) :
    (s.settleSlew).now = s.now ∧ (s.settleSlew).resetLine = s.resetLine ∧ (s.settleSlew).slots = s.slots ∧
    (s.settleSlew).stack = s.stack ∧ (s.settleSlew).held = s.held ∧ (s.settleSlew).guard = s.guard ∧
    (s.settleSlew).keyer = s.keyer ∧ (s.settleSlew).engine = s.engine ∧ (s.settleSlew).feedA = s.feedA ∧
    (s.settleSlew).feedB = s.feedB ∧ (s.settleSlew).cmd = s.cmd ∧ (s.settleSlew).port = s.port ∧
    (s.settleSlew).mask = s.mask ∧ (s.settleSlew).marks = s.marks ∧ (s.settleSlew).pending = s.pending := by
  simp only [State.settleSlew]
  (repeat' split) <;> simp

/-- `slewVertical` changes nothing but tb, events. -/
@[simp] theorem State.slewVertical_frame (s : State) :
    (s.slewVertical).now = s.now ∧ (s.slewVertical).resetLine = s.resetLine ∧ (s.slewVertical).slots = s.slots ∧
    (s.slewVertical).stack = s.stack ∧ (s.slewVertical).held = s.held ∧ (s.slewVertical).guard = s.guard ∧
    (s.slewVertical).keyer = s.keyer ∧ (s.slewVertical).engine = s.engine ∧ (s.slewVertical).feedA = s.feedA ∧
    (s.slewVertical).feedB = s.feedB ∧ (s.slewVertical).cmd = s.cmd ∧ (s.slewVertical).port = s.port ∧
    (s.slewVertical).mask = s.mask ∧ (s.slewVertical).marks = s.marks ∧ (s.slewVertical).pending = s.pending := by
  simp only [State.slewVertical]
  (repeat' split) <;> simp

/-- `beginField` changes nothing but tb, events. -/
@[simp] theorem State.beginField_frame (s : State) :
    (s.beginField).now = s.now ∧ (s.beginField).resetLine = s.resetLine ∧ (s.beginField).slots = s.slots ∧
    (s.beginField).stack = s.stack ∧ (s.beginField).held = s.held ∧ (s.beginField).guard = s.guard ∧
    (s.beginField).keyer = s.keyer ∧ (s.beginField).engine = s.engine ∧ (s.beginField).feedA = s.feedA ∧
    (s.beginField).feedB = s.feedB ∧ (s.beginField).cmd = s.cmd ∧ (s.beginField).port = s.port ∧
    (s.beginField).mask = s.mask ∧ (s.beginField).marks = s.marks ∧ (s.beginField).pending = s.pending := by
  simp only [State.beginField]
  (repeat' split) <;> simp

/-- `judgeSelect` changes nothing but tb, cmd, events. -/
@[simp] theorem State.judgeSelect_frame (s : State) (x : Input) (mode : SwitchMode) (confirm : Bool) :
    (s.judgeSelect x mode confirm).now = s.now ∧ (s.judgeSelect x mode confirm).resetLine = s.resetLine ∧ (s.judgeSelect x mode confirm).slots = s.slots ∧
    (s.judgeSelect x mode confirm).stack = s.stack ∧ (s.judgeSelect x mode confirm).held = s.held ∧ (s.judgeSelect x mode confirm).guard = s.guard ∧
    (s.judgeSelect x mode confirm).keyer = s.keyer ∧ (s.judgeSelect x mode confirm).engine = s.engine ∧ (s.judgeSelect x mode confirm).feedA = s.feedA ∧
    (s.judgeSelect x mode confirm).feedB = s.feedB ∧ (s.judgeSelect x mode confirm).port = s.port ∧ (s.judgeSelect x mode confirm).mask = s.mask ∧
    (s.judgeSelect x mode confirm).marks = s.marks ∧ (s.judgeSelect x mode confirm).pending = s.pending := by
  simp only [State.judgeSelect]
  (repeat' split) <;> simp

/-- `examineHeld` changes nothing but tb, cmd, events. -/
@[simp] theorem State.examineHeld_frame (s : State) (q : HeldSelect) :
    (s.examineHeld q).now = s.now ∧ (s.examineHeld q).resetLine = s.resetLine ∧ (s.examineHeld q).slots = s.slots ∧
    (s.examineHeld q).stack = s.stack ∧ (s.examineHeld q).held = s.held ∧ (s.examineHeld q).guard = s.guard ∧
    (s.examineHeld q).keyer = s.keyer ∧ (s.examineHeld q).engine = s.engine ∧ (s.examineHeld q).feedA = s.feedA ∧
    (s.examineHeld q).feedB = s.feedB ∧ (s.examineHeld q).port = s.port ∧ (s.examineHeld q).mask = s.mask ∧
    (s.examineHeld q).marks = s.marks ∧ (s.examineHeld q).pending = s.pending := by
  simp only [State.examineHeld]
  (repeat' split) <;> simp

/-- `settleHeldSelect` changes nothing but tb, cmd, events. -/
@[simp] theorem State.settleHeldSelect_frame (s : State) :
    (s.settleHeldSelect).now = s.now ∧ (s.settleHeldSelect).resetLine = s.resetLine ∧ (s.settleHeldSelect).slots = s.slots ∧
    (s.settleHeldSelect).stack = s.stack ∧ (s.settleHeldSelect).held = s.held ∧ (s.settleHeldSelect).guard = s.guard ∧
    (s.settleHeldSelect).keyer = s.keyer ∧ (s.settleHeldSelect).engine = s.engine ∧ (s.settleHeldSelect).feedA = s.feedA ∧
    (s.settleHeldSelect).feedB = s.feedB ∧ (s.settleHeldSelect).port = s.port ∧ (s.settleHeldSelect).mask = s.mask ∧
    (s.settleHeldSelect).marks = s.marks ∧ (s.settleHeldSelect).pending = s.pending := by
  simp only [State.settleHeldSelect]
  (repeat' split) <;> simp

/-- `heldSelectStep` changes nothing but tb, cmd, events. -/
@[simp] theorem State.heldSelectStep_frame (s : State) :
    (s.heldSelectStep).now = s.now ∧ (s.heldSelectStep).resetLine = s.resetLine ∧ (s.heldSelectStep).slots = s.slots ∧
    (s.heldSelectStep).stack = s.stack ∧ (s.heldSelectStep).held = s.held ∧ (s.heldSelectStep).guard = s.guard ∧
    (s.heldSelectStep).keyer = s.keyer ∧ (s.heldSelectStep).engine = s.engine ∧ (s.heldSelectStep).feedA = s.feedA ∧
    (s.heldSelectStep).feedB = s.feedB ∧ (s.heldSelectStep).port = s.port ∧ (s.heldSelectStep).mask = s.mask ∧
    (s.heldSelectStep).marks = s.marks ∧ (s.heldSelectStep).pending = s.pending := by
  simp only [State.heldSelectStep]
  (repeat' split) <;> simp

/-- `fieldStart` changes nothing but slots, stack, held, guard, keyer, engine, tb, cmd, events, marks. -/
@[simp] theorem State.fieldStart_frame (s : State) (cut : Bool) :
    (s.fieldStart cut).now = s.now ∧ (s.fieldStart cut).resetLine = s.resetLine ∧ (s.fieldStart cut).feedA = s.feedA ∧
    (s.fieldStart cut).feedB = s.feedB ∧ (s.fieldStart cut).port = s.port ∧ (s.fieldStart cut).mask = s.mask ∧
    (s.fieldStart cut).pending = s.pending := by
  simp only [State.fieldStart]
  (repeat' split) <;> simp

/-- `cutTo` changes nothing but tb, events. -/
@[simp] theorem State.cutTo_frame (s : State) (x : Input) :
    (s.cutTo x).now = s.now ∧ (s.cutTo x).resetLine = s.resetLine ∧ (s.cutTo x).slots = s.slots ∧
    (s.cutTo x).stack = s.stack ∧ (s.cutTo x).held = s.held ∧ (s.cutTo x).guard = s.guard ∧
    (s.cutTo x).keyer = s.keyer ∧ (s.cutTo x).engine = s.engine ∧ (s.cutTo x).feedA = s.feedA ∧
    (s.cutTo x).feedB = s.feedB ∧ (s.cutTo x).cmd = s.cmd ∧ (s.cutTo x).port = s.port ∧
    (s.cutTo x).mask = s.mask ∧ (s.cutTo x).marks = s.marks ∧ (s.cutTo x).pending = s.pending := by
  simp only [State.cutTo]
  (repeat' split) <;> simp

/-- `unmark` changes nothing but slots, events, marks. -/
@[simp] theorem State.unmark_frame (s : State) :
    (s.unmark).now = s.now ∧ (s.unmark).resetLine = s.resetLine ∧ (s.unmark).stack = s.stack ∧
    (s.unmark).held = s.held ∧ (s.unmark).guard = s.guard ∧ (s.unmark).keyer = s.keyer ∧
    (s.unmark).engine = s.engine ∧ (s.unmark).feedA = s.feedA ∧ (s.unmark).feedB = s.feedB ∧
    (s.unmark).tb = s.tb ∧ (s.unmark).cmd = s.cmd ∧ (s.unmark).port = s.port ∧
    (s.unmark).mask = s.mask ∧ (s.unmark).pending = s.pending := by
  simp only [State.unmark]
  (repeat' split) <;> simp

/-- `recutFieldStart` changes nothing but slots, keyer, engine, tb, cmd, events, marks. -/
@[simp] theorem State.recutFieldStart_frame (s : State) :
    (s.recutFieldStart).now = s.now ∧ (s.recutFieldStart).resetLine = s.resetLine ∧ (s.recutFieldStart).stack = s.stack ∧
    (s.recutFieldStart).held = s.held ∧ (s.recutFieldStart).guard = s.guard ∧ (s.recutFieldStart).feedA = s.feedA ∧
    (s.recutFieldStart).feedB = s.feedB ∧ (s.recutFieldStart).port = s.port ∧ (s.recutFieldStart).mask = s.mask ∧
    (s.recutFieldStart).pending = s.pending := by
  simp only [State.recutFieldStart]
  (repeat' split) <;> simp

/-- `cutSwitch` changes nothing but slots, stack, held, guard, keyer, engine, tb, cmd, events, marks. -/
@[simp] theorem State.cutSwitch_frame (s : State) (x : Input) :
    (s.cutSwitch x).now = s.now ∧ (s.cutSwitch x).resetLine = s.resetLine ∧ (s.cutSwitch x).feedA = s.feedA ∧
    (s.cutSwitch x).feedB = s.feedB ∧ (s.cutSwitch x).port = s.port ∧ (s.cutSwitch x).mask = s.mask ∧
    (s.cutSwitch x).pending = s.pending := by
  simp only [State.cutSwitch]
  (repeat' split) <;> simp

/-- `slewTo` changes nothing but tb, events. -/
@[simp] theorem State.slewTo_frame (s : State) (x : Input) :
    (s.slewTo x).now = s.now ∧ (s.slewTo x).resetLine = s.resetLine ∧ (s.slewTo x).slots = s.slots ∧
    (s.slewTo x).stack = s.stack ∧ (s.slewTo x).held = s.held ∧ (s.slewTo x).guard = s.guard ∧
    (s.slewTo x).keyer = s.keyer ∧ (s.slewTo x).engine = s.engine ∧ (s.slewTo x).feedA = s.feedA ∧
    (s.slewTo x).feedB = s.feedB ∧ (s.slewTo x).cmd = s.cmd ∧ (s.slewTo x).port = s.port ∧
    (s.slewTo x).mask = s.mask ∧ (s.slewTo x).marks = s.marks ∧ (s.slewTo x).pending = s.pending := by
  simp only [State.slewTo]
  (repeat' split) <;> simp

/-- `slewSwitch` changes nothing but tb, cmd, events. -/
@[simp] theorem State.slewSwitch_frame (s : State) (x : Input) :
    (s.slewSwitch x).now = s.now ∧ (s.slewSwitch x).resetLine = s.resetLine ∧ (s.slewSwitch x).slots = s.slots ∧
    (s.slewSwitch x).stack = s.stack ∧ (s.slewSwitch x).held = s.held ∧ (s.slewSwitch x).guard = s.guard ∧
    (s.slewSwitch x).keyer = s.keyer ∧ (s.slewSwitch x).engine = s.engine ∧ (s.slewSwitch x).feedA = s.feedA ∧
    (s.slewSwitch x).feedB = s.feedB ∧ (s.slewSwitch x).port = s.port ∧ (s.slewSwitch x).mask = s.mask ∧
    (s.slewSwitch x).marks = s.marks ∧ (s.slewSwitch x).pending = s.pending := by
  simp [State.slewSwitch]

/-- `makeSwitch` changes nothing but slots, stack, held, guard, keyer, engine, tb, cmd, events, marks. -/
@[simp] theorem State.makeSwitch_frame (s : State) (x : Input) (m : SwitchMode) :
    (s.makeSwitch x m).now = s.now ∧ (s.makeSwitch x m).resetLine = s.resetLine ∧ (s.makeSwitch x m).feedA = s.feedA ∧
    (s.makeSwitch x m).feedB = s.feedB ∧ (s.makeSwitch x m).port = s.port ∧ (s.makeSwitch x m).mask = s.mask ∧
    (s.makeSwitch x m).pending = s.pending := by
  simp only [State.makeSwitch]
  (repeat' split) <;> simp

/-- `withdrawSwitch` changes nothing but tb, events. -/
@[simp] theorem State.withdrawSwitch_frame (s : State) (x : Input) :
    (s.withdrawSwitch x).now = s.now ∧ (s.withdrawSwitch x).resetLine = s.resetLine ∧ (s.withdrawSwitch x).slots = s.slots ∧
    (s.withdrawSwitch x).stack = s.stack ∧ (s.withdrawSwitch x).held = s.held ∧ (s.withdrawSwitch x).guard = s.guard ∧
    (s.withdrawSwitch x).keyer = s.keyer ∧ (s.withdrawSwitch x).engine = s.engine ∧ (s.withdrawSwitch x).feedA = s.feedA ∧
    (s.withdrawSwitch x).feedB = s.feedB ∧ (s.withdrawSwitch x).cmd = s.cmd ∧ (s.withdrawSwitch x).port = s.port ∧
    (s.withdrawSwitch x).mask = s.mask ∧ (s.withdrawSwitch x).marks = s.marks ∧ (s.withdrawSwitch x).pending = s.pending := by
  simp only [State.withdrawSwitch]
  (repeat' split) <;> simp

/-- `programLockChanged` changes nothing but tb, events. -/
@[simp] theorem State.programLockChanged_frame (s : State) (l : LockState) :
    (s.programLockChanged l).now = s.now ∧ (s.programLockChanged l).resetLine = s.resetLine ∧ (s.programLockChanged l).slots = s.slots ∧
    (s.programLockChanged l).stack = s.stack ∧ (s.programLockChanged l).held = s.held ∧ (s.programLockChanged l).guard = s.guard ∧
    (s.programLockChanged l).keyer = s.keyer ∧ (s.programLockChanged l).engine = s.engine ∧ (s.programLockChanged l).feedA = s.feedA ∧
    (s.programLockChanged l).feedB = s.feedB ∧ (s.programLockChanged l).cmd = s.cmd ∧ (s.programLockChanged l).port = s.port ∧
    (s.programLockChanged l).mask = s.mask ∧ (s.programLockChanged l).marks = s.marks ∧ (s.programLockChanged l).pending = s.pending := by
  simp only [State.programLockChanged]
  (repeat' split) <;> simp

/-- `lockChanged` changes nothing but tb, events. -/
@[simp] theorem State.lockChanged_frame (s : State) (x : Input) (l : LockState) :
    (s.lockChanged x l).now = s.now ∧ (s.lockChanged x l).resetLine = s.resetLine ∧ (s.lockChanged x l).slots = s.slots ∧
    (s.lockChanged x l).stack = s.stack ∧ (s.lockChanged x l).held = s.held ∧ (s.lockChanged x l).guard = s.guard ∧
    (s.lockChanged x l).keyer = s.keyer ∧ (s.lockChanged x l).engine = s.engine ∧ (s.lockChanged x l).feedA = s.feedA ∧
    (s.lockChanged x l).feedB = s.feedB ∧ (s.lockChanged x l).cmd = s.cmd ∧ (s.lockChanged x l).port = s.port ∧
    (s.lockChanged x l).mask = s.mask ∧ (s.lockChanged x l).marks = s.marks ∧ (s.lockChanged x l).pending = s.pending := by
  simp only [State.lockChanged]
  (repeat' split) <;> simp

/-- `followLine` changes nothing but slots, stack, held, guard, keyer, engine, tb, cmd, events, marks. -/
@[simp] theorem State.followLine_frame (s : State) (x : Input) (r : Option Nat) :
    (s.followLine x r).now = s.now ∧ (s.followLine x r).resetLine = s.resetLine ∧ (s.followLine x r).feedA = s.feedA ∧
    (s.followLine x r).feedB = s.feedB ∧ (s.followLine x r).port = s.port ∧ (s.followLine x r).mask = s.mask ∧
    (s.followLine x r).pending = s.pending := by
  simp only [State.followLine]
  (repeat' split) <;> simp

/-- `handOn` changes nothing but slots, stack, held, guard, keyer, engine, tb, cmd, events, marks. -/
@[simp] theorem State.handOn_frame (s : State) (x : Input) :
    (s.handOn x).now = s.now ∧ (s.handOn x).resetLine = s.resetLine ∧ (s.handOn x).feedA = s.feedA ∧
    (s.handOn x).feedB = s.feedB ∧ (s.handOn x).port = s.port ∧ (s.handOn x).mask = s.mask ∧
    (s.handOn x).pending = s.pending := by
  simp only [State.handOn]
  (repeat' split) <;> simp

/-- `setCtx` changes nothing but feedA, feedB. -/
@[simp] theorem State.setCtx_frame (s : State) (x : Input) (c : LockContext) :
    (s.setCtx x c).now = s.now ∧ (s.setCtx x c).resetLine = s.resetLine ∧ (s.setCtx x c).slots = s.slots ∧
    (s.setCtx x c).stack = s.stack ∧ (s.setCtx x c).held = s.held ∧ (s.setCtx x c).guard = s.guard ∧
    (s.setCtx x c).keyer = s.keyer ∧ (s.setCtx x c).engine = s.engine ∧ (s.setCtx x c).tb = s.tb ∧
    (s.setCtx x c).cmd = s.cmd ∧ (s.setCtx x c).port = s.port ∧ (s.setCtx x c).events = s.events ∧
    (s.setCtx x c).mask = s.mask ∧ (s.setCtx x c).marks = s.marks ∧ (s.setCtx x c).pending = s.pending := by
  simp only [State.setCtx]
  (repeat' split) <;> simp

/-- `tracked` changes nothing but slots, stack, held, guard, keyer, engine, tb, cmd, events, marks, feedA, feedB. -/
@[simp] theorem State.tracked_frame (s : State) (x : Input) (t : Tracked) :
    (s.tracked x t).now = s.now ∧ (s.tracked x t).resetLine = s.resetLine ∧ (s.tracked x t).port = s.port ∧
    (s.tracked x t).mask = s.mask ∧ (s.tracked x t).pending = s.pending := by
  simp only [State.tracked]
  (repeat' split) <;> simp

/-- `lineEvent` changes nothing but slots, stack, held, guard, keyer, engine, tb, cmd, events, marks, feedA, feedB,
now. -/
@[simp] theorem State.lineEvent_frame (s : State) (x : Input) (time : Nat) (q : Option Parity) :
    (s.lineEvent x time q).resetLine = s.resetLine ∧ (s.lineEvent x time q).port = s.port ∧ (s.lineEvent x time q).mask = s.mask ∧
    (s.lineEvent x time q).pending = s.pending := by
  simp only [State.lineEvent]
  (repeat' split) <;> simp

/-- `nextComputerLine` changes nothing but tb, events. -/
@[simp] theorem State.nextComputerLine_frame (s : State) :
    (s.nextComputerLine).now = s.now ∧ (s.nextComputerLine).resetLine = s.resetLine ∧ (s.nextComputerLine).slots = s.slots ∧
    (s.nextComputerLine).stack = s.stack ∧ (s.nextComputerLine).held = s.held ∧ (s.nextComputerLine).guard = s.guard ∧
    (s.nextComputerLine).keyer = s.keyer ∧ (s.nextComputerLine).engine = s.engine ∧ (s.nextComputerLine).feedA = s.feedA ∧
    (s.nextComputerLine).feedB = s.feedB ∧ (s.nextComputerLine).cmd = s.cmd ∧ (s.nextComputerLine).port = s.port ∧
    (s.nextComputerLine).mask = s.mask ∧ (s.nextComputerLine).marks = s.marks ∧ (s.nextComputerLine).pending = s.pending := by
  simp only [State.nextComputerLine]
  (repeat' split) <;> simp

/-- `computerLineEnd` changes nothing but slots, stack, held, guard, keyer, engine, tb, cmd, events, marks. -/
@[simp] theorem State.computerLineEnd_frame (s : State) :
    (s.computerLineEnd).now = s.now ∧ (s.computerLineEnd).resetLine = s.resetLine ∧ (s.computerLineEnd).feedA = s.feedA ∧
    (s.computerLineEnd).feedB = s.feedB ∧ (s.computerLineEnd).port = s.port ∧ (s.computerLineEnd).mask = s.mask ∧
    (s.computerLineEnd).pending = s.pending := by
  simp only [State.computerLineEnd]
  (repeat' split) <;> simp

/-- `noopEffect` changes nothing but cmd, events. -/
@[simp] theorem noopEffect_frame (s : State) :
    (noopEffect s).now = s.now ∧ (noopEffect s).resetLine = s.resetLine ∧ (noopEffect s).slots = s.slots ∧
    (noopEffect s).stack = s.stack ∧ (noopEffect s).held = s.held ∧ (noopEffect s).guard = s.guard ∧
    (noopEffect s).keyer = s.keyer ∧ (noopEffect s).engine = s.engine ∧ (noopEffect s).feedA = s.feedA ∧
    (noopEffect s).feedB = s.feedB ∧ (noopEffect s).tb = s.tb ∧ (noopEffect s).port = s.port ∧
    (noopEffect s).mask = s.mask ∧ (noopEffect s).marks = s.marks ∧ (noopEffect s).pending = s.pending := by
  simp only [noopEffect]
  (repeat' split) <;> simp

/-- `openEffect` changes nothing but slots, cmd, events. -/
@[simp] theorem openEffect_frame (s : State) :
    (openEffect s).now = s.now ∧ (openEffect s).resetLine = s.resetLine ∧ (openEffect s).stack = s.stack ∧
    (openEffect s).held = s.held ∧ (openEffect s).guard = s.guard ∧ (openEffect s).keyer = s.keyer ∧
    (openEffect s).engine = s.engine ∧ (openEffect s).feedA = s.feedA ∧ (openEffect s).feedB = s.feedB ∧
    (openEffect s).tb = s.tb ∧ (openEffect s).port = s.port ∧ (openEffect s).mask = s.mask ∧
    (openEffect s).marks = s.marks ∧ (openEffect s).pending = s.pending := by
  simp only [openEffect]
  (repeat' split) <;> simp

/-- `cloneEffect` changes nothing but slots, cmd, events. -/
@[simp] theorem cloneEffect_frame (s : State) :
    (cloneEffect s).now = s.now ∧ (cloneEffect s).resetLine = s.resetLine ∧ (cloneEffect s).stack = s.stack ∧
    (cloneEffect s).held = s.held ∧ (cloneEffect s).guard = s.guard ∧ (cloneEffect s).keyer = s.keyer ∧
    (cloneEffect s).engine = s.engine ∧ (cloneEffect s).feedA = s.feedA ∧ (cloneEffect s).feedB = s.feedB ∧
    (cloneEffect s).tb = s.tb ∧ (cloneEffect s).port = s.port ∧ (cloneEffect s).mask = s.mask ∧
    (cloneEffect s).marks = s.marks ∧ (cloneEffect s).pending = s.pending := by
  simp only [cloneEffect, State.withHandle]
  (repeat' split) <;> simp

/-- `retireEffect` changes nothing but slots, stack, held, cmd, events. -/
@[simp] theorem retireEffect_frame (s : State) :
    (retireEffect s).now = s.now ∧ (retireEffect s).resetLine = s.resetLine ∧ (retireEffect s).guard = s.guard ∧
    (retireEffect s).keyer = s.keyer ∧ (retireEffect s).engine = s.engine ∧ (retireEffect s).feedA = s.feedA ∧
    (retireEffect s).feedB = s.feedB ∧ (retireEffect s).tb = s.tb ∧ (retireEffect s).port = s.port ∧
    (retireEffect s).mask = s.mask ∧ (retireEffect s).marks = s.marks ∧ (retireEffect s).pending = s.pending := by
  simp only [retireEffect, State.withHandle]
  (repeat' split) <;> simp

/-- `findEffect` changes nothing but cmd, events. -/
@[simp] theorem findEffect_frame (s : State) :
    (findEffect s).now = s.now ∧ (findEffect s).resetLine = s.resetLine ∧ (findEffect s).slots = s.slots ∧
    (findEffect s).stack = s.stack ∧ (findEffect s).held = s.held ∧ (findEffect s).guard = s.guard ∧
    (findEffect s).keyer = s.keyer ∧ (findEffect s).engine = s.engine ∧ (findEffect s).feedA = s.feedA ∧
    (findEffect s).feedB = s.feedB ∧ (findEffect s).tb = s.tb ∧ (findEffect s).port = s.port ∧
    (findEffect s).mask = s.mask ∧ (findEffect s).marks = s.marks ∧ (findEffect s).pending = s.pending := by
  simp only [findEffect]
  (repeat' split) <;> simp

/-- `publishEffect` changes nothing but slots, cmd, events. -/
@[simp] theorem publishEffect_frame (s : State) :
    (publishEffect s).now = s.now ∧ (publishEffect s).resetLine = s.resetLine ∧ (publishEffect s).stack = s.stack ∧
    (publishEffect s).held = s.held ∧ (publishEffect s).guard = s.guard ∧ (publishEffect s).keyer = s.keyer ∧
    (publishEffect s).engine = s.engine ∧ (publishEffect s).feedA = s.feedA ∧ (publishEffect s).feedB = s.feedB ∧
    (publishEffect s).tb = s.tb ∧ (publishEffect s).port = s.port ∧ (publishEffect s).mask = s.mask ∧
    (publishEffect s).marks = s.marks ∧ (publishEffect s).pending = s.pending := by
  simp only [publishEffect]
  (repeat' split) <;> simp

/-- `withdrawEffect` changes nothing but slots, cmd, events. -/
@[simp] theorem withdrawEffect_frame (s : State) :
    (withdrawEffect s).now = s.now ∧ (withdrawEffect s).resetLine = s.resetLine ∧ (withdrawEffect s).stack = s.stack ∧
    (withdrawEffect s).held = s.held ∧ (withdrawEffect s).guard = s.guard ∧ (withdrawEffect s).keyer = s.keyer ∧
    (withdrawEffect s).engine = s.engine ∧ (withdrawEffect s).feedA = s.feedA ∧ (withdrawEffect s).feedB = s.feedB ∧
    (withdrawEffect s).tb = s.tb ∧ (withdrawEffect s).port = s.port ∧ (withdrawEffect s).mask = s.mask ∧
    (withdrawEffect s).marks = s.marks ∧ (withdrawEffect s).pending = s.pending := by
  simp only [withdrawEffect, State.withHandle]
  (repeat' split) <;> simp

/-- `pushEffect` changes nothing but held, cmd, events. -/
@[simp] theorem pushEffect_frame (s : State) :
    (pushEffect s).now = s.now ∧ (pushEffect s).resetLine = s.resetLine ∧ (pushEffect s).slots = s.slots ∧
    (pushEffect s).stack = s.stack ∧ (pushEffect s).guard = s.guard ∧ (pushEffect s).keyer = s.keyer ∧
    (pushEffect s).engine = s.engine ∧ (pushEffect s).feedA = s.feedA ∧ (pushEffect s).feedB = s.feedB ∧
    (pushEffect s).tb = s.tb ∧ (pushEffect s).port = s.port ∧ (pushEffect s).mask = s.mask ∧
    (pushEffect s).marks = s.marks ∧ (pushEffect s).pending = s.pending := by
  simp only [pushEffect, State.withHandle]
  (repeat' split) <;> simp

/-- `clearAirEffect` changes nothing but held. -/
@[simp] theorem clearAirEffect_frame (s : State) :
    (clearAirEffect s).now = s.now ∧ (clearAirEffect s).resetLine = s.resetLine ∧ (clearAirEffect s).slots = s.slots ∧
    (clearAirEffect s).stack = s.stack ∧ (clearAirEffect s).guard = s.guard ∧ (clearAirEffect s).keyer = s.keyer ∧
    (clearAirEffect s).engine = s.engine ∧ (clearAirEffect s).feedA = s.feedA ∧ (clearAirEffect s).feedB = s.feedB ∧
    (clearAirEffect s).tb = s.tb ∧ (clearAirEffect s).cmd = s.cmd ∧ (clearAirEffect s).port = s.port ∧
    (clearAirEffect s).events = s.events ∧ (clearAirEffect s).mask = s.mask ∧ (clearAirEffect s).marks = s.marks ∧
    (clearAirEffect s).pending = s.pending := by
  simp only [clearAirEffect]
  (repeat' split) <;> simp

/-- `setGeometryEffect` changes nothing but tb, cmd, events. -/
@[simp] theorem setGeometryEffect_frame (s : State) :
    (setGeometryEffect s).now = s.now ∧ (setGeometryEffect s).resetLine = s.resetLine ∧ (setGeometryEffect s).slots = s.slots ∧
    (setGeometryEffect s).stack = s.stack ∧ (setGeometryEffect s).held = s.held ∧ (setGeometryEffect s).guard = s.guard ∧
    (setGeometryEffect s).keyer = s.keyer ∧ (setGeometryEffect s).engine = s.engine ∧ (setGeometryEffect s).feedA = s.feedA ∧
    (setGeometryEffect s).feedB = s.feedB ∧ (setGeometryEffect s).port = s.port ∧ (setGeometryEffect s).mask = s.mask ∧
    (setGeometryEffect s).marks = s.marks ∧ (setGeometryEffect s).pending = s.pending := by
  simp only [setGeometryEffect]
  (repeat' split) <;> simp

/-- `selectEffect` changes nothing but tb, cmd, events. -/
@[simp] theorem selectEffect_frame (s : State) :
    (selectEffect s).now = s.now ∧ (selectEffect s).resetLine = s.resetLine ∧ (selectEffect s).slots = s.slots ∧
    (selectEffect s).stack = s.stack ∧ (selectEffect s).held = s.held ∧ (selectEffect s).guard = s.guard ∧
    (selectEffect s).keyer = s.keyer ∧ (selectEffect s).engine = s.engine ∧ (selectEffect s).feedA = s.feedA ∧
    (selectEffect s).feedB = s.feedB ∧ (selectEffect s).port = s.port ∧ (selectEffect s).mask = s.mask ∧
    (selectEffect s).marks = s.marks ∧ (selectEffect s).pending = s.pending := by
  simp only [selectEffect]
  (repeat' split) <;> simp

/-- `queryInputEffect` changes nothing but feedA, feedB, cmd, events. -/
@[simp] theorem queryInputEffect_frame (s : State) :
    (queryInputEffect s).now = s.now ∧ (queryInputEffect s).resetLine = s.resetLine ∧ (queryInputEffect s).slots = s.slots ∧
    (queryInputEffect s).stack = s.stack ∧ (queryInputEffect s).held = s.held ∧ (queryInputEffect s).guard = s.guard ∧
    (queryInputEffect s).keyer = s.keyer ∧ (queryInputEffect s).engine = s.engine ∧ (queryInputEffect s).tb = s.tb ∧
    (queryInputEffect s).port = s.port ∧ (queryInputEffect s).mask = s.mask ∧ (queryInputEffect s).marks = s.marks ∧
    (queryInputEffect s).pending = s.pending := by
  simp only [queryInputEffect]
  (repeat' split) <;> simp

/-- `unknownEffect` changes nothing but cmd, events. -/
@[simp] theorem unknownEffect_frame (s : State) :
    (unknownEffect s).now = s.now ∧ (unknownEffect s).resetLine = s.resetLine ∧ (unknownEffect s).slots = s.slots ∧
    (unknownEffect s).stack = s.stack ∧ (unknownEffect s).held = s.held ∧ (unknownEffect s).guard = s.guard ∧
    (unknownEffect s).keyer = s.keyer ∧ (unknownEffect s).engine = s.engine ∧ (unknownEffect s).feedA = s.feedA ∧
    (unknownEffect s).feedB = s.feedB ∧ (unknownEffect s).tb = s.tb ∧ (unknownEffect s).port = s.port ∧
    (unknownEffect s).mask = s.mask ∧ (unknownEffect s).marks = s.marks ∧ (unknownEffect s).pending = s.pending := by
  simp only [unknownEffect]
  (repeat' split) <;> simp

/-- `holdIfOnAir` changes nothing but held, cmd, events. -/
@[simp] theorem holdIfOnAir_frame (request : SlotId → Generation → HeldRequest) (s : State) :
    (holdIfOnAir request s).now = s.now ∧ (holdIfOnAir request s).resetLine = s.resetLine ∧ (holdIfOnAir request s).slots = s.slots ∧
    (holdIfOnAir request s).stack = s.stack ∧ (holdIfOnAir request s).guard = s.guard ∧ (holdIfOnAir request s).keyer = s.keyer ∧
    (holdIfOnAir request s).engine = s.engine ∧ (holdIfOnAir request s).feedA = s.feedA ∧ (holdIfOnAir request s).feedB = s.feedB ∧
    (holdIfOnAir request s).tb = s.tb ∧ (holdIfOnAir request s).port = s.port ∧ (holdIfOnAir request s).mask = s.mask ∧
    (holdIfOnAir request s).marks = s.marks ∧ (holdIfOnAir request s).pending = s.pending := by
  simp only [holdIfOnAir, State.withHandle]
  (repeat' split) <;> simp

/-- `liftEffect` changes nothing but held, cmd, events. -/
@[simp] theorem liftEffect_frame (s : State) :
    (liftEffect s).now = s.now ∧ (liftEffect s).resetLine = s.resetLine ∧ (liftEffect s).slots = s.slots ∧
    (liftEffect s).stack = s.stack ∧ (liftEffect s).guard = s.guard ∧ (liftEffect s).keyer = s.keyer ∧
    (liftEffect s).engine = s.engine ∧ (liftEffect s).feedA = s.feedA ∧ (liftEffect s).feedB = s.feedB ∧
    (liftEffect s).tb = s.tb ∧ (liftEffect s).port = s.port ∧ (liftEffect s).mask = s.mask ∧
    (liftEffect s).marks = s.marks ∧ (liftEffect s).pending = s.pending := by
  simp only [liftEffect]
  (repeat' split) <;> simp

/-- `raiseEffect` changes nothing but held, cmd, events. -/
@[simp] theorem raiseEffect_frame (s : State) :
    (raiseEffect s).now = s.now ∧ (raiseEffect s).resetLine = s.resetLine ∧ (raiseEffect s).slots = s.slots ∧
    (raiseEffect s).stack = s.stack ∧ (raiseEffect s).guard = s.guard ∧ (raiseEffect s).keyer = s.keyer ∧
    (raiseEffect s).engine = s.engine ∧ (raiseEffect s).feedA = s.feedA ∧ (raiseEffect s).feedB = s.feedB ∧
    (raiseEffect s).tb = s.tb ∧ (raiseEffect s).port = s.port ∧ (raiseEffect s).mask = s.mask ∧
    (raiseEffect s).marks = s.marks ∧ (raiseEffect s).pending = s.pending := by
  simp only [raiseEffect]
  (repeat' split) <;> simp

/-- `lowerEffect` changes nothing but held, cmd, events. -/
@[simp] theorem lowerEffect_frame (s : State) :
    (lowerEffect s).now = s.now ∧ (lowerEffect s).resetLine = s.resetLine ∧ (lowerEffect s).slots = s.slots ∧
    (lowerEffect s).stack = s.stack ∧ (lowerEffect s).guard = s.guard ∧ (lowerEffect s).keyer = s.keyer ∧
    (lowerEffect s).engine = s.engine ∧ (lowerEffect s).feedA = s.feedA ∧ (lowerEffect s).feedB = s.feedB ∧
    (lowerEffect s).tb = s.tb ∧ (lowerEffect s).port = s.port ∧ (lowerEffect s).mask = s.mask ∧
    (lowerEffect s).marks = s.marks ∧ (lowerEffect s).pending = s.pending := by
  simp only [lowerEffect]
  (repeat' split) <;> simp

/-- `guardEffect` changes nothing but guard, cmd, events. -/
@[simp] theorem guardEffect_frame (x : Bool) (s : State) :
    (guardEffect x s).now = s.now ∧ (guardEffect x s).resetLine = s.resetLine ∧ (guardEffect x s).slots = s.slots ∧
    (guardEffect x s).stack = s.stack ∧ (guardEffect x s).held = s.held ∧ (guardEffect x s).keyer = s.keyer ∧
    (guardEffect x s).engine = s.engine ∧ (guardEffect x s).feedA = s.feedA ∧ (guardEffect x s).feedB = s.feedB ∧
    (guardEffect x s).tb = s.tb ∧ (guardEffect x s).port = s.port ∧ (guardEffect x s).mask = s.mask ∧
    (guardEffect x s).marks = s.marks ∧ (guardEffect x s).pending = s.pending := by
  simp only [guardEffect]
  (repeat' split) <;> simp

/-- `startTransfer` changes nothing but port, engine, cmd, events. -/
@[simp] theorem startTransfer_frame (x : Bool) (s : State) :
    (startTransfer x s).now = s.now ∧ (startTransfer x s).resetLine = s.resetLine ∧ (startTransfer x s).slots = s.slots ∧
    (startTransfer x s).stack = s.stack ∧ (startTransfer x s).held = s.held ∧ (startTransfer x s).guard = s.guard ∧
    (startTransfer x s).keyer = s.keyer ∧ (startTransfer x s).feedA = s.feedA ∧ (startTransfer x s).feedB = s.feedB ∧
    (startTransfer x s).tb = s.tb ∧ (startTransfer x s).mask = s.mask ∧ (startTransfer x s).marks = s.marks ∧
    (startTransfer x s).pending = s.pending := by
  simp only [startTransfer]
  (repeat' split) <;> simp

/-- `imageInEffect` changes nothing but port, engine, cmd, events. -/
@[simp] theorem imageInEffect_frame (s : State) :
    (imageInEffect s).now = s.now ∧ (imageInEffect s).resetLine = s.resetLine ∧ (imageInEffect s).slots = s.slots ∧
    (imageInEffect s).stack = s.stack ∧ (imageInEffect s).held = s.held ∧ (imageInEffect s).guard = s.guard ∧
    (imageInEffect s).keyer = s.keyer ∧ (imageInEffect s).feedA = s.feedA ∧ (imageInEffect s).feedB = s.feedB ∧
    (imageInEffect s).tb = s.tb ∧ (imageInEffect s).mask = s.mask ∧ (imageInEffect s).marks = s.marks ∧
    (imageInEffect s).pending = s.pending := by
  simp only [imageInEffect]
  (repeat' split) <;> simp

/-- `imageOutEffect` changes nothing but port, engine, cmd, events. -/
@[simp] theorem imageOutEffect_frame (s : State) :
    (imageOutEffect s).now = s.now ∧ (imageOutEffect s).resetLine = s.resetLine ∧ (imageOutEffect s).slots = s.slots ∧
    (imageOutEffect s).stack = s.stack ∧ (imageOutEffect s).held = s.held ∧ (imageOutEffect s).guard = s.guard ∧
    (imageOutEffect s).keyer = s.keyer ∧ (imageOutEffect s).feedA = s.feedA ∧ (imageOutEffect s).feedB = s.feedB ∧
    (imageOutEffect s).tb = s.tb ∧ (imageOutEffect s).mask = s.mask ∧ (imageOutEffect s).marks = s.marks ∧
    (imageOutEffect s).pending = s.pending := by
  simp only [imageOutEffect]
  (repeat' split) <;> simp

end Sys2Proof.Machine
end

