-- ==== Sys2Proof/Laws/Steps.lean ====
section
/-! SUPPORT. What a command can do, said once: every outcome of exec and of step is one of a short list of updates. -/

namespace Sys2Proof.Machine

/-- What an event of an input can make of its lock context. -/
inductive Tracks (c : LockContext) : Tracked → Prop where
  | pulse (time : Nat) : Tracks c { ctx := c.pulse time, vsync := false }
  | line (time : Nat) (seq : Option Parity) : Tracks c (c.lineEvent time seq)
  | missing (moment : Nat) : Tracks c (c.missingLine moment)
  | limit (moment : Nat) : c.lock = .holdover → Tracks c { ctx := c.enterHunt moment, vsync := false }
  | loss : c.lock ≠ .noSignal → Tracks c { ctx := c.enterNoSignal, vsync := false }

/-- The effect of a command by its function code is one of the nineteen. -/
theorem commandEffect_cases {P : (State → State) → Prop} (noop : P noopEffect) (openRecord : P openEffect)
    (clone : P cloneEffect) (retire : P retireEffect) (find : P findEffect) (publish : P publishEffect)
    (withdraw : P withdrawEffect) (push : P pushEffect) (lift : P liftEffect) (raise : P raiseEffect)
    (lower : P lowerEffect) (clearAir : P clearAirEffect) (guard : ∀ x, P (guardEffect x))
    (setGeometry : P setGeometryEffect) (select : P selectEffect) (queryInput : P queryInputEffect)
    (imageIn : P imageInEffect) (imageOut : P imageOutEffect) (unknown : P unknownEffect) (x : Bool)
    (code : BitVec 5) : P (commandEffect x code) := by
  unfold commandEffect
  split <;> first | assumption | exact guard x

/-- A write that takes a command has its effect, or is ignored, or is an overrun (R157, R158, R167). -/
theorem State.command_ind {P : State → Prop} {s : State} {code : BitVec 5} {ie : Bool} {effect : State → State}
    (self : P s) (overrun : s.cmd.ready = false → P s.overrun)
    (taken : Accepts s → P (effect (s.take code ie))) : P (s.command code ie effect) := by
  unfold State.command
  split
  · exact self
  · split
    · next hr h => exact taken ⟨h, by simpa using hr⟩
    · next h => exact overrun (by simpa using h)

/-- A write of a word of the command group: a command, a new value of the command word's fields or of an argument, an
overrun, or nothing (R154, R157, R158, R167). -/
theorem State.writeGroup_ind {P : State → Prop} {s : State} {target : CommandGroup} {value : Word}
    (self : P s) (overrun : s.cmd.ready = false → P s.overrun)
    (taken : ∀ code ie, Accepts s → P (commandEffect s.guard.expired code (s.take code ie)))
    (stored : ∀ func ie a0 a1 a2, Accepts s →
      P { s with cmd := { s.cmd with func := func, ie := ie, arg0 := a0, arg1 := a1, arg2 := a2 } }) :
    P (s.writeGroup target value) := by
  have arg : ∀ store : CommandUnit → CommandUnit, (Accepts s → P { s with cmd := store s.cmd }) →
      P (s.writeArgument store) := by
    intro store h
    unfold State.writeArgument
    split
    · exact self
    · next hr =>
      split
      · next h => exact overrun (by simpa using h)
      · next h' => exact h ⟨by simpa using h', by simpa using hr⟩
  cases target
  · unfold State.writeGroup State.writeCommandWord
    dsimp only
    split
    · exact self
    · next hr =>
      split
      · next h => exact overrun (by simpa using h)
      · next h =>
        split
        · exact stored _ _ _ _ _ ⟨by simpa using h, by simpa using hr⟩
        · exact State.command_ind self overrun (taken _ _)
  · exact arg (fun u => { u with arg0 := value }) (stored s.cmd.func s.cmd.ie value s.cmd.arg1 s.cmd.arg2)
  · exact arg (fun u => { u with arg1 := value }) (stored s.cmd.func s.cmd.ie s.cmd.arg0 value s.cmd.arg2)
  · exact arg (fun u => { u with arg2 := value }) (stored s.cmd.func s.cmd.ie s.cmd.arg0 s.cmd.arg1 value)

/-- Every outcome of a command is one of these updates: what holds of each of them holds of the next state. -/
theorem exec_ind {P : State → Prop} {s : State} {c : Instr} {t : State} (h : exec c s = .next t)
    (self : P s) (powerOn : c = .powerOn → P s.powerOn) (busReset : P s.busReset) (release : P { s with resetLine := false })
    (overrun : s.cmd.ready = false → P s.overrun) (refuseAccess : P s.refuseAccess)
    (taken : ∀ code ie, Accepts s → P (commandEffect s.guard.expired code (s.take code ie)))
    (stored : ∀ func ie a0 a1 a2, Accepts s →
      P { s with cmd := { s.cmd with func := func, ie := ie, arg0 := a0, arg1 := a1, arg2 := a2 } })
    (flags : ∀ e, P { s with events := s.events.clear e })
    (mask : ∀ m, P { s with mask := m })
    (pointer : ∀ p, P { s with port := { s.port with pointer := p } })
    (read : ∀ w p, P { s with port := { s.port with readData := w, pointer := p } })
    (readRefused : ∀ w, P ({ s with port := { s.port with readData := w } } : State).refuseAccess)
    (written : ∀ v t, s.port.transfer = none → s.writePointed v = some t → P t)
    (fieldStart : P (s.fieldStart false))
    (adoption : ∀ i, (s.slot i).adoptionDue = true → P (s.modifySlot i Slot.adopt))
    (expiry : ∀ i, (s.slot i).expires = true → 
      P (((s.markRaise i .expired).modifySlot i Slot.countLifetimeOnly).leaveStack i .standby))
    (autoRetire : ∀ i, (s.slot i).expires = true → 
      P (((s.markRaise i .expired).modifySlot i Slot.countLifetimeOnly).freeRecord i))
    (blink : ∀ i, (s.slot i).blinks = true → P (s.modifySlot i Slot.countLifetimeOnly))
    (guardExpire : s.guard.due = true → P s.guardExpire)
    (applyHeld : P s.applyHeld)
    (timeoutHeld : s.tb.heldSelect.isSome = true → P s.timeoutHeld)
    (settleHeldSelect : P s.settleHeldSelect)
    (beginLine : ∀ l, P (s.beginLine l)) (takingPoint : P s.takingPointReached)
    (grant : s.engine.channel = .awaiting → P s.nextOnBus) (answerMask : ∀ w, P (s.answerMask w))
    (answerImage : ∀ w, P (s.answerImage w)) (acknowledge : P s.acknowledgeImage) (busTimeout : P s.busTimeout)
    (tracked : ∀ x time t, Tracks (s.ctx x) t → P ((s.clockAt time).tracked x t))
    (cut : ∀ x, s.tb.switch = .scheduled x .cut → P (s.cutSwitch x))
    (slew : ∀ x, s.tb.switch = .scheduled x .slew → P (s.slewSwitch x))
    (lineEnd : P s.computerLineEnd) : P t := by
  have cmd : ∀ (code : BitVec 5) (ie : Bool) (e : State → State), e = commandEffect s.guard.expired code →
      P (s.command code ie e) := by
    intro code ie e he; subst he
    exact State.command_ind self overrun (taken code ie)
  have group : ∀ tg v, P (s.writeGroup tg v) := fun tg v => State.writeGroup_ind self overrun taken stored
  have unclocked : ∀ x t, Tracks (s.ctx x) t → P (s.tracked x t) := by
    intro x t ht
    have : s.clockAt 0 = s := by simp [State.clockAt]
    simpa [this] using tracked x 0 t ht
  have key : ∀ {u}, Host.Outcome.next u = (Host.Outcome.next t : Result) → P u → P t := by
    intro u e hu; cases e; exact hu
  cases c <;> simp only [exec] at h
  case powerOn => exact key h (powerOn rfl)
  case busReset => exact key h busReset
  case noop => exact key h (cmd _ _ _ rfl)
  case openRecord => exact key h (cmd _ _ _ rfl)
  case clone => exact key h (cmd _ _ _ rfl)
  case retire => exact key h (cmd _ _ _ rfl)
  case find => exact key h (cmd _ _ _ rfl)
  case publish => exact key h (cmd _ _ _ rfl)
  case withdraw => exact key h (cmd _ _ _ rfl)
  case push => exact key h (cmd _ _ _ rfl)
  case lift => exact key h (cmd _ _ _ rfl)
  case raise => exact key h (cmd _ _ _ rfl)
  case lower => exact key h (cmd _ _ _ rfl)
  case clearAir => exact key h (cmd _ _ _ rfl)
  case guard => exact key h (cmd _ _ _ rfl)
  case setGeometry => exact key h (cmd _ _ _ rfl)
  case select => exact key h (cmd _ _ _ rfl)
  case queryInput => exact key h (cmd _ _ _ rfl)
  case imageIn => exact key h (cmd _ _ _ rfl)
  case imageOut => exact key h (cmd _ _ _ rfl)
  case unknownCommand => exact key h (cmd _ _ _ rfl)
  case commandWordUpdate v => exact key h (group .command v)
  case overrunWrite tg v => exact key h (group tg v)
  case eventFlagsWrite v =>
    refine key h ?_
    unfold State.writeEventFlags; split
    · exact self
    · exact flags _
  case eventMaskWrite v =>
    refine key h ?_
    unfold State.writeEventMask; split
    · exact self
    · exact mask _
  case accessPointerWrite v =>
    refine key h ?_
    unfold State.writePointer; split
    · exact self
    · split
      · exact pointer _
      · exact refuseAccess
  case accessDataRead =>
    refine key h ?_
    unfold State.readData
    dsimp only
    split
    · exact read _ _
    · split
      · exact readRefused _
      · exact read _ _
  case accessDataWrite v =>
    refine key h ?_
    unfold State.writeData
    split
    · exact self
    · split
      · exact refuseAccess
      · next hn =>
        cases hw : s.writePointed v with
        | none => exact refuseAccess
        | some u => exact written v u (by simpa using hn) hw
  case registerWrite tg v =>
    refine key h ?_
    cases tg <;> first | exact self | exact group .arg0 v | exact group .arg1 v | exact group .arg2 v
  case fieldStart => exact key h fieldStart
  case adoption i =>
    unfold execAdoption at h
    split at h
    · next hd => exact key h (adoption i hd)
    · exact key h self
  case lifetimeExpiry i =>
    unfold execLifetimeExpiry at h
    split at h
    · next hd => exact key h (expiry i hd.1)
    · exact key h self
  case expiryAutoRetire i =>
    unfold execExpiryAutoRetire at h
    split at h
    · next hd => exact key h (autoRetire i hd.1)
    · exact key h self
  case blinkToggle i =>
    unfold execBlinkToggle at h
    split at h
    · next hd => exact key h (blink i hd.1)
    · exact key h self
  case blinkHide i =>
    unfold execBlinkHide at h
    split at h
    · next hd => exact key h (blink i hd.1)
    · exact key h self
  case guardExpiry =>
    unfold execGuardExpiry at h
    split at h
    · next hd => exact key h (guardExpire hd)
    · exact key h self
  case pushApply =>
    unfold execPushApply at h
    split at h
    · next i g hd => exact key h (by simpa [State.applyHeld, hd] using applyHeld)
    · exact key h self
  case liftApply =>
    unfold execLiftApply at h
    split at h
    · next i g hd => exact key h (by simpa [State.applyHeld, hd] using applyHeld)
    · exact key h self
  case raiseApply =>
    unfold execRaiseApply at h
    split at h
    · next i g hd => exact key h (by simpa [State.applyHeld, hd] using applyHeld)
    · exact key h self
  case lowerApply =>
    unfold execLowerApply at h
    split at h
    · next i g hd => exact key h (by simpa [State.applyHeld, hd] using applyHeld)
    · exact key h self
  case clearAirApply =>
    unfold execClearAirApply at h
    split at h
    · next hd => exact key h (by simpa [State.applyHeld, hd] using applyHeld)
    · exact key h self
  case retireApply =>
    unfold execRetireApply at h
    split at h
    · next i g hd => exact key h (by simpa [State.applyHeld, hd] using applyHeld)
    · exact key h self
  case heldSelectTimeout =>
    unfold execHeldSelectTimeout at h
    split at h
    · exact key h self
    · next q hd =>
      split at h
      · exact key h (timeoutHeld (by simp [hd]))
      · exact key h self
  case heldSelectExamine => exact key h settleHeldSelect
  case lineBegin l => exact key h (beginLine l)
  case takingPoint => exact key h takingPoint
  case busGrant =>
    unfold execBusGrant at h
    split at h
    · next hd => exact key h (grant hd)
    · exact key h self
  case maskReadAnswer w => exact key h (answerMask w)
  case imageInWordAnswer w => exact key h (answerImage w)
  case imageOutWordAck => exact key h acknowledge
  case busTimeout => exact key h busTimeout
  case syncPulse x time => exact key h (tracked x time _ (.pulse time))
  case lineStart x time => exact key h (tracked x time _ (.line time none))
  case verifyPass x time =>
    unfold execVerifyPass at h
    split at h
    · exact key h (tracked x time _ (.line time _))
    · exact key h self
  case verticalSyncSequence x time p => exact key h (tracked x time _ (.line time (some p)))
  case missingLineStart x => exact key h (unclocked x _ (.missing _))
  case holdoverRelock x time =>
    unfold execHoldoverRelock at h
    split at h
    · exact key h (tracked x time _ (.line time none))
    · exact key h self
  case holdoverLimit x =>
    unfold execHoldoverLimit at h
    split at h
    · next hd => exact key h (unclocked x _ (.limit _ (by simp [LockContext.limitDue] at hd; exact hd.1)))
    · exact key h self
  case lossTimerExpiry x =>
    unfold execLossTimerExpiry at h
    split at h
    · exact key h self
    · next hd => exact key h (unclocked x _ (.loss hd))
  case cutSwitch =>
    unfold execCutSwitch at h
    split at h
    · next x hd => exact key h (cut x hd)
    · exact key h self
  case slewSwitch =>
    unfold execSlewSwitch at h
    split at h
    · next x hd => exact key h (slew x hd)
    · exact key h self
  case computerLineEnd => exact key h lineEnd
  case busResetRelease => exact key h release

/-- A step is a command from the front of the queue, a timed event that is due, or one tick of the sample clock: a
relation that each of them meets relates a state and its next state. -/
theorem step_ind {P : State → State → Prop}
    (command : ∀ c s t rest, exec c { s with pending := rest } = .next t → P s t)
    (event : ∀ c s t, exec c s = .next t → P s t)
    (tick : ∀ s, P s { s with now := s.now + 1 }) (s t : State) (h : step s = .next t) : P s t := by
  unfold step at h
  split at h
  · unfold State.idleStep at h
    split at h
    · exact event _ _ _ h
    · cases h; exact tick s
  · exact command _ _ _ _ h

/-- What every command keeps, and neither the queue nor the sample clock touches, every step keeps. -/
theorem step_keeps {P : State → Prop} (command : ∀ c s t, P s → exec c s = .next t → P t)
    (queue : ∀ s rest, P s → P { s with pending := rest }) (tick : ∀ s, P s → P { s with now := s.now + 1 })
    (s t : State) (hs : P s) (h : step s = .next t) : P t :=
  step_ind (P := fun s t => P s → P t) (fun c s t rest h hs => command c _ t (queue s rest hs) h)
    (fun c s t h hs => command c s t hs h) tick s t h hs

end Sys2Proof.Machine
end

