-- ==== Sys2Proof/Laws/Timebase.lean ====
section
/-! SUPPORT. For each operation of the timebase, the timebase items it leaves alone. -/

namespace Sys2Proof.Machine

/-- `lineAt` leaves every timebase item alone but lineStartAt, lineLength, lineSlew, lineFollows. -/
@[simp] theorem State.lineAt_tbFrame (s : State) (n : Nat) :
    (s.lineAt n).tb.state = s.tb.state ∧ (s.lineAt n).tb.standard = s.tb.standard ∧
    (s.lineAt n).tb.program = s.tb.program ∧ (s.lineAt n).tb.h = s.tb.h ∧
    (s.lineAt n).tb.v = s.tb.v ∧ (s.lineAt n).tb.runPeriod = s.tb.runPeriod ∧
    (s.lineAt n).tb.setScale = s.tb.setScale ∧ (s.lineAt n).tb.setTrim = s.tb.setTrim ∧
    (s.lineAt n).tb.latched = s.tb.latched ∧ (s.lineAt n).tb.switch = s.tb.switch ∧
    (s.lineAt n).tb.heldSelect = s.tb.heldSelect ∧ (s.lineAt n).tb.fieldCounter = s.tb.fieldCounter ∧
    (s.lineAt n).tb.parity = s.tb.parity ∧ (s.lineAt n).tb.inputLines = s.tb.inputLines ∧
    (s.lineAt n).tb.linesRun = s.tb.linesRun ∧ (s.lineAt n).tb.lastField = s.tb.lastField ∧
    (s.lineAt n).tb.previousLineAt = s.tb.previousLineAt := by
  refine ⟨rfl, rfl, rfl, rfl, rfl, rfl, rfl, rfl, rfl, rfl, rfl, rfl, rfl, rfl, rfl, rfl, rfl⟩

@[simp] theorem State.lineAt_lineStartAt (s : State) (n : Nat) : (s.lineAt n).tb.lineStartAt = n := rfl

/-- `startLine` leaves every timebase item alone but previousLineAt, lineStartAt, lineLength, lineSlew, lineFollows. -/
@[simp] theorem State.startLine_tbFrame (s : State) (n : Nat) :
    (s.startLine n).tb.state = s.tb.state ∧ (s.startLine n).tb.standard = s.tb.standard ∧
    (s.startLine n).tb.program = s.tb.program ∧ (s.startLine n).tb.h = s.tb.h ∧
    (s.startLine n).tb.v = s.tb.v ∧ (s.startLine n).tb.runPeriod = s.tb.runPeriod ∧
    (s.startLine n).tb.setScale = s.tb.setScale ∧ (s.startLine n).tb.setTrim = s.tb.setTrim ∧
    (s.startLine n).tb.latched = s.tb.latched ∧ (s.startLine n).tb.switch = s.tb.switch ∧
    (s.startLine n).tb.heldSelect = s.tb.heldSelect ∧ (s.startLine n).tb.fieldCounter = s.tb.fieldCounter ∧
    (s.startLine n).tb.parity = s.tb.parity ∧ (s.startLine n).tb.inputLines = s.tb.inputLines ∧
    (s.startLine n).tb.linesRun = s.tb.linesRun ∧ (s.startLine n).tb.lastField = s.tb.lastField := by
  refine ⟨rfl, rfl, rfl, rfl, rfl, rfl, rfl, rfl, rfl, rfl, rfl, rfl, rfl, rfl, rfl, rfl⟩

/-- `endLine` leaves every timebase item alone but linesRun, h. -/
@[simp] theorem State.endLine_tbFrame (s : State) :
    (s.endLine).tb.state = s.tb.state ∧ (s.endLine).tb.standard = s.tb.standard ∧
    (s.endLine).tb.program = s.tb.program ∧ (s.endLine).tb.v = s.tb.v ∧
    (s.endLine).tb.runPeriod = s.tb.runPeriod ∧ (s.endLine).tb.setScale = s.tb.setScale ∧
    (s.endLine).tb.setTrim = s.tb.setTrim ∧ (s.endLine).tb.latched = s.tb.latched ∧
    (s.endLine).tb.switch = s.tb.switch ∧ (s.endLine).tb.heldSelect = s.tb.heldSelect ∧
    (s.endLine).tb.fieldCounter = s.tb.fieldCounter ∧ (s.endLine).tb.parity = s.tb.parity ∧
    (s.endLine).tb.inputLines = s.tb.inputLines ∧ (s.endLine).tb.lastField = s.tb.lastField ∧
    (s.endLine).tb.lineStartAt = s.tb.lineStartAt ∧ (s.endLine).tb.previousLineAt = s.tb.previousLineAt ∧
    (s.endLine).tb.lineLength = s.tb.lineLength ∧ (s.endLine).tb.lineSlew = s.tb.lineSlew ∧
    (s.endLine).tb.lineFollows = s.tb.lineFollows := by
  refine ⟨rfl, rfl, rfl, rfl, rfl, rfl, rfl, rfl, rfl, rfl, rfl, rfl, rfl, rfl, rfl, rfl, rfl, rfl, rfl⟩

/-- `cutLine` leaves every timebase item alone but linesRun, previousLineAt, lineStartAt, lineLength, lineSlew,
lineFollows. -/
@[simp] theorem State.cutLine_tbFrame (s : State) (x : Input) :
    (s.cutLine x).tb.state = s.tb.state ∧ (s.cutLine x).tb.standard = s.tb.standard ∧
    (s.cutLine x).tb.program = s.tb.program ∧ (s.cutLine x).tb.h = s.tb.h ∧
    (s.cutLine x).tb.v = s.tb.v ∧ (s.cutLine x).tb.runPeriod = s.tb.runPeriod ∧
    (s.cutLine x).tb.setScale = s.tb.setScale ∧ (s.cutLine x).tb.setTrim = s.tb.setTrim ∧
    (s.cutLine x).tb.latched = s.tb.latched ∧ (s.cutLine x).tb.switch = s.tb.switch ∧
    (s.cutLine x).tb.heldSelect = s.tb.heldSelect ∧ (s.cutLine x).tb.fieldCounter = s.tb.fieldCounter ∧
    (s.cutLine x).tb.parity = s.tb.parity ∧ (s.cutLine x).tb.inputLines = s.tb.inputLines ∧
    (s.cutLine x).tb.lastField = s.tb.lastField := by
  refine ⟨rfl, rfl, rfl, rfl, rfl, rfl, rfl, rfl, rfl, rfl, rfl, rfl, rfl, rfl, rfl⟩

/-- `setTimebaseState` leaves every timebase item alone but state. -/
@[simp] theorem State.setTimebaseState_tbFrame (s : State) (x : TimebaseState) :
    (s.setTimebaseState x).tb.standard = s.tb.standard ∧ (s.setTimebaseState x).tb.program = s.tb.program ∧
    (s.setTimebaseState x).tb.h = s.tb.h ∧ (s.setTimebaseState x).tb.v = s.tb.v ∧
    (s.setTimebaseState x).tb.runPeriod = s.tb.runPeriod ∧ (s.setTimebaseState x).tb.setScale = s.tb.setScale ∧
    (s.setTimebaseState x).tb.setTrim = s.tb.setTrim ∧ (s.setTimebaseState x).tb.latched = s.tb.latched ∧
    (s.setTimebaseState x).tb.switch = s.tb.switch ∧ (s.setTimebaseState x).tb.heldSelect = s.tb.heldSelect ∧
    (s.setTimebaseState x).tb.fieldCounter = s.tb.fieldCounter ∧ (s.setTimebaseState x).tb.parity = s.tb.parity ∧
    (s.setTimebaseState x).tb.inputLines = s.tb.inputLines ∧ (s.setTimebaseState x).tb.linesRun = s.tb.linesRun ∧
    (s.setTimebaseState x).tb.lastField = s.tb.lastField ∧ (s.setTimebaseState x).tb.lineStartAt = s.tb.lineStartAt ∧
    (s.setTimebaseState x).tb.previousLineAt = s.tb.previousLineAt ∧ (s.setTimebaseState x).tb.lineLength = s.tb.lineLength ∧
    (s.setTimebaseState x).tb.lineSlew = s.tb.lineSlew ∧ (s.setTimebaseState x).tb.lineFollows = s.tb.lineFollows := by
  refine ⟨rfl, rfl, rfl, rfl, rfl, rfl, rfl, rfl, rfl, rfl, rfl, rfl, rfl, rfl, rfl, rfl, rfl, rfl, rfl, rfl⟩

/-- `enterFollow` leaves every timebase item alone but state, switch. -/
@[simp] theorem State.enterFollow_tbFrame (s : State) :
    (s.enterFollow).tb.standard = s.tb.standard ∧ (s.enterFollow).tb.program = s.tb.program ∧
    (s.enterFollow).tb.h = s.tb.h ∧ (s.enterFollow).tb.v = s.tb.v ∧
    (s.enterFollow).tb.runPeriod = s.tb.runPeriod ∧ (s.enterFollow).tb.setScale = s.tb.setScale ∧
    (s.enterFollow).tb.setTrim = s.tb.setTrim ∧ (s.enterFollow).tb.latched = s.tb.latched ∧
    (s.enterFollow).tb.heldSelect = s.tb.heldSelect ∧ (s.enterFollow).tb.fieldCounter = s.tb.fieldCounter ∧
    (s.enterFollow).tb.parity = s.tb.parity ∧ (s.enterFollow).tb.inputLines = s.tb.inputLines ∧
    (s.enterFollow).tb.linesRun = s.tb.linesRun ∧ (s.enterFollow).tb.lastField = s.tb.lastField ∧
    (s.enterFollow).tb.lineStartAt = s.tb.lineStartAt ∧ (s.enterFollow).tb.previousLineAt = s.tb.previousLineAt ∧
    (s.enterFollow).tb.lineLength = s.tb.lineLength ∧ (s.enterFollow).tb.lineSlew = s.tb.lineSlew ∧
    (s.enterFollow).tb.lineFollows = s.tb.lineFollows := by
  refine ⟨rfl, rfl, rfl, rfl, rfl, rfl, rfl, rfl, rfl, rfl, rfl, rfl, rfl, rfl, rfl, rfl, rfl, rfl, rfl⟩

/-- `enterCoast` leaves every timebase item alone but state, runPeriod, lineFollows. -/
@[simp] theorem State.enterCoast_tbFrame (s : State) :
    (s.enterCoast).tb.standard = s.tb.standard ∧ (s.enterCoast).tb.program = s.tb.program ∧
    (s.enterCoast).tb.h = s.tb.h ∧ (s.enterCoast).tb.v = s.tb.v ∧
    (s.enterCoast).tb.setScale = s.tb.setScale ∧ (s.enterCoast).tb.setTrim = s.tb.setTrim ∧
    (s.enterCoast).tb.latched = s.tb.latched ∧ (s.enterCoast).tb.switch = s.tb.switch ∧
    (s.enterCoast).tb.heldSelect = s.tb.heldSelect ∧ (s.enterCoast).tb.fieldCounter = s.tb.fieldCounter ∧
    (s.enterCoast).tb.parity = s.tb.parity ∧ (s.enterCoast).tb.inputLines = s.tb.inputLines ∧
    (s.enterCoast).tb.linesRun = s.tb.linesRun ∧ (s.enterCoast).tb.lastField = s.tb.lastField ∧
    (s.enterCoast).tb.lineStartAt = s.tb.lineStartAt ∧ (s.enterCoast).tb.previousLineAt = s.tb.previousLineAt ∧
    (s.enterCoast).tb.lineLength = s.tb.lineLength ∧ (s.enterCoast).tb.lineSlew = s.tb.lineSlew := by
  refine ⟨rfl, rfl, rfl, rfl, rfl, rfl, rfl, rfl, rfl, rfl, rfl, rfl, rfl, rfl, rfl, rfl, rfl, rfl⟩

/-- `takeInput` leaves every timebase item alone but program, standard. -/
@[simp] theorem State.takeInput_tbFrame (s : State) (x : Input) :
    (s.takeInput x).tb.state = s.tb.state ∧ (s.takeInput x).tb.h = s.tb.h ∧
    (s.takeInput x).tb.v = s.tb.v ∧ (s.takeInput x).tb.runPeriod = s.tb.runPeriod ∧
    (s.takeInput x).tb.setScale = s.tb.setScale ∧ (s.takeInput x).tb.setTrim = s.tb.setTrim ∧
    (s.takeInput x).tb.latched = s.tb.latched ∧ (s.takeInput x).tb.switch = s.tb.switch ∧
    (s.takeInput x).tb.heldSelect = s.tb.heldSelect ∧ (s.takeInput x).tb.fieldCounter = s.tb.fieldCounter ∧
    (s.takeInput x).tb.parity = s.tb.parity ∧ (s.takeInput x).tb.inputLines = s.tb.inputLines ∧
    (s.takeInput x).tb.linesRun = s.tb.linesRun ∧ (s.takeInput x).tb.lastField = s.tb.lastField ∧
    (s.takeInput x).tb.lineStartAt = s.tb.lineStartAt ∧ (s.takeInput x).tb.previousLineAt = s.tb.previousLineAt ∧
    (s.takeInput x).tb.lineLength = s.tb.lineLength ∧ (s.takeInput x).tb.lineSlew = s.tb.lineSlew ∧
    (s.takeInput x).tb.lineFollows = s.tb.lineFollows := by
  refine ⟨rfl, rfl, rfl, rfl, rfl, rfl, rfl, rfl, rfl, rfl, rfl, rfl, rfl, rfl, rfl, rfl, rfl, rfl, rfl⟩

/-- `latch` leaves every timebase item alone but latched. -/
@[simp] theorem State.latch_tbFrame (s : State) :
    (s.latch).tb.state = s.tb.state ∧ (s.latch).tb.standard = s.tb.standard ∧
    (s.latch).tb.program = s.tb.program ∧ (s.latch).tb.h = s.tb.h ∧
    (s.latch).tb.v = s.tb.v ∧ (s.latch).tb.runPeriod = s.tb.runPeriod ∧
    (s.latch).tb.setScale = s.tb.setScale ∧ (s.latch).tb.setTrim = s.tb.setTrim ∧
    (s.latch).tb.switch = s.tb.switch ∧ (s.latch).tb.heldSelect = s.tb.heldSelect ∧
    (s.latch).tb.fieldCounter = s.tb.fieldCounter ∧ (s.latch).tb.parity = s.tb.parity ∧
    (s.latch).tb.inputLines = s.tb.inputLines ∧ (s.latch).tb.linesRun = s.tb.linesRun ∧
    (s.latch).tb.lastField = s.tb.lastField ∧ (s.latch).tb.lineStartAt = s.tb.lineStartAt ∧
    (s.latch).tb.previousLineAt = s.tb.previousLineAt ∧ (s.latch).tb.lineLength = s.tb.lineLength ∧
    (s.latch).tb.lineSlew = s.tb.lineSlew ∧ (s.latch).tb.lineFollows = s.tb.lineFollows := by
  refine ⟨rfl, rfl, rfl, rfl, rfl, rfl, rfl, rfl, rfl, rfl, rfl, rfl, rfl, rfl, rfl, rfl, rfl, rfl, rfl, rfl⟩

/-- `slewOrFollow` leaves every timebase item alone but state, switch. -/
@[simp] theorem State.slewOrFollow_tbFrame (s : State) :
    (s.slewOrFollow).tb.standard = s.tb.standard ∧ (s.slewOrFollow).tb.program = s.tb.program ∧
    (s.slewOrFollow).tb.h = s.tb.h ∧ (s.slewOrFollow).tb.v = s.tb.v ∧
    (s.slewOrFollow).tb.runPeriod = s.tb.runPeriod ∧ (s.slewOrFollow).tb.setScale = s.tb.setScale ∧
    (s.slewOrFollow).tb.setTrim = s.tb.setTrim ∧ (s.slewOrFollow).tb.latched = s.tb.latched ∧
    (s.slewOrFollow).tb.heldSelect = s.tb.heldSelect ∧ (s.slewOrFollow).tb.fieldCounter = s.tb.fieldCounter ∧
    (s.slewOrFollow).tb.parity = s.tb.parity ∧ (s.slewOrFollow).tb.inputLines = s.tb.inputLines ∧
    (s.slewOrFollow).tb.linesRun = s.tb.linesRun ∧ (s.slewOrFollow).tb.lastField = s.tb.lastField ∧
    (s.slewOrFollow).tb.lineStartAt = s.tb.lineStartAt ∧ (s.slewOrFollow).tb.previousLineAt = s.tb.previousLineAt ∧
    (s.slewOrFollow).tb.lineLength = s.tb.lineLength ∧ (s.slewOrFollow).tb.lineSlew = s.tb.lineSlew ∧
    (s.slewOrFollow).tb.lineFollows = s.tb.lineFollows := by
  simp only [State.slewOrFollow]
  (repeat' split) <;> simp

/-- `relock` leaves every timebase item alone but standard, h, v, parity, inputLines, state, switch. -/
@[simp] theorem State.relock_tbFrame (s : State) :
    (s.relock).tb.program = s.tb.program ∧ (s.relock).tb.runPeriod = s.tb.runPeriod ∧
    (s.relock).tb.setScale = s.tb.setScale ∧ (s.relock).tb.setTrim = s.tb.setTrim ∧
    (s.relock).tb.latched = s.tb.latched ∧ (s.relock).tb.heldSelect = s.tb.heldSelect ∧
    (s.relock).tb.fieldCounter = s.tb.fieldCounter ∧ (s.relock).tb.linesRun = s.tb.linesRun ∧
    (s.relock).tb.lastField = s.tb.lastField ∧ (s.relock).tb.lineStartAt = s.tb.lineStartAt ∧
    (s.relock).tb.previousLineAt = s.tb.previousLineAt ∧ (s.relock).tb.lineLength = s.tb.lineLength ∧
    (s.relock).tb.lineSlew = s.tb.lineSlew ∧ (s.relock).tb.lineFollows = s.tb.lineFollows := by
  simp [State.relock, Timebase.measure]

/-- `settleSlew` leaves every timebase item alone but state, switch. -/
@[simp] theorem State.settleSlew_tbFrame (s : State) :
    (s.settleSlew).tb.standard = s.tb.standard ∧ (s.settleSlew).tb.program = s.tb.program ∧
    (s.settleSlew).tb.h = s.tb.h ∧ (s.settleSlew).tb.v = s.tb.v ∧
    (s.settleSlew).tb.runPeriod = s.tb.runPeriod ∧ (s.settleSlew).tb.setScale = s.tb.setScale ∧
    (s.settleSlew).tb.setTrim = s.tb.setTrim ∧ (s.settleSlew).tb.latched = s.tb.latched ∧
    (s.settleSlew).tb.heldSelect = s.tb.heldSelect ∧ (s.settleSlew).tb.fieldCounter = s.tb.fieldCounter ∧
    (s.settleSlew).tb.parity = s.tb.parity ∧ (s.settleSlew).tb.inputLines = s.tb.inputLines ∧
    (s.settleSlew).tb.linesRun = s.tb.linesRun ∧ (s.settleSlew).tb.lastField = s.tb.lastField ∧
    (s.settleSlew).tb.lineStartAt = s.tb.lineStartAt ∧ (s.settleSlew).tb.previousLineAt = s.tb.previousLineAt ∧
    (s.settleSlew).tb.lineLength = s.tb.lineLength ∧ (s.settleSlew).tb.lineSlew = s.tb.lineSlew ∧
    (s.settleSlew).tb.lineFollows = s.tb.lineFollows := by
  simp only [State.settleSlew]
  (repeat' split) <;> simp

/-- `slewVertical` leaves every timebase item alone but v, state, switch. -/
@[simp] theorem State.slewVertical_tbFrame (s : State) :
    (s.slewVertical).tb.standard = s.tb.standard ∧ (s.slewVertical).tb.program = s.tb.program ∧
    (s.slewVertical).tb.h = s.tb.h ∧ (s.slewVertical).tb.runPeriod = s.tb.runPeriod ∧
    (s.slewVertical).tb.setScale = s.tb.setScale ∧ (s.slewVertical).tb.setTrim = s.tb.setTrim ∧
    (s.slewVertical).tb.latched = s.tb.latched ∧ (s.slewVertical).tb.heldSelect = s.tb.heldSelect ∧
    (s.slewVertical).tb.fieldCounter = s.tb.fieldCounter ∧ (s.slewVertical).tb.parity = s.tb.parity ∧
    (s.slewVertical).tb.inputLines = s.tb.inputLines ∧ (s.slewVertical).tb.linesRun = s.tb.linesRun ∧
    (s.slewVertical).tb.lastField = s.tb.lastField ∧ (s.slewVertical).tb.lineStartAt = s.tb.lineStartAt ∧
    (s.slewVertical).tb.previousLineAt = s.tb.previousLineAt ∧ (s.slewVertical).tb.lineLength = s.tb.lineLength ∧
    (s.slewVertical).tb.lineSlew = s.tb.lineSlew ∧ (s.slewVertical).tb.lineFollows = s.tb.lineFollows := by
  simp only [State.slewVertical]
  (repeat' split) <;> simp

/-- `beginField` leaves every timebase item alone but v, state, switch, fieldCounter, linesRun, lastField, parity,
inputLines, latched. -/
@[simp] theorem State.beginField_tbFrame (s : State) :
    (s.beginField).tb.standard = s.tb.standard ∧ (s.beginField).tb.program = s.tb.program ∧
    (s.beginField).tb.h = s.tb.h ∧ (s.beginField).tb.runPeriod = s.tb.runPeriod ∧
    (s.beginField).tb.setScale = s.tb.setScale ∧ (s.beginField).tb.setTrim = s.tb.setTrim ∧
    (s.beginField).tb.heldSelect = s.tb.heldSelect ∧ (s.beginField).tb.lineStartAt = s.tb.lineStartAt ∧
    (s.beginField).tb.previousLineAt = s.tb.previousLineAt ∧ (s.beginField).tb.lineLength = s.tb.lineLength ∧
    (s.beginField).tb.lineSlew = s.tb.lineSlew ∧ (s.beginField).tb.lineFollows = s.tb.lineFollows := by
  simp only [State.beginField]
  (repeat' split) <;> simp

/-- `completeSelect` leaves every timebase item alone. -/
@[simp] theorem State.completeSelect_tbFrame (s : State) (c : Completion) :
    (s.completeSelect c).tb.state = s.tb.state ∧ (s.completeSelect c).tb.standard = s.tb.standard ∧
    (s.completeSelect c).tb.program = s.tb.program ∧ (s.completeSelect c).tb.h = s.tb.h ∧
    (s.completeSelect c).tb.v = s.tb.v ∧ (s.completeSelect c).tb.runPeriod = s.tb.runPeriod ∧
    (s.completeSelect c).tb.setScale = s.tb.setScale ∧ (s.completeSelect c).tb.setTrim = s.tb.setTrim ∧
    (s.completeSelect c).tb.latched = s.tb.latched ∧ (s.completeSelect c).tb.switch = s.tb.switch ∧
    (s.completeSelect c).tb.heldSelect = s.tb.heldSelect ∧ (s.completeSelect c).tb.fieldCounter = s.tb.fieldCounter ∧
    (s.completeSelect c).tb.parity = s.tb.parity ∧ (s.completeSelect c).tb.inputLines = s.tb.inputLines ∧
    (s.completeSelect c).tb.linesRun = s.tb.linesRun ∧ (s.completeSelect c).tb.lastField = s.tb.lastField ∧
    (s.completeSelect c).tb.lineStartAt = s.tb.lineStartAt ∧ (s.completeSelect c).tb.previousLineAt = s.tb.previousLineAt ∧
    (s.completeSelect c).tb.lineLength = s.tb.lineLength ∧ (s.completeSelect c).tb.lineSlew = s.tb.lineSlew ∧
    (s.completeSelect c).tb.lineFollows = s.tb.lineFollows := by
  refine ⟨rfl, rfl, rfl, rfl, rfl, rfl, rfl, rfl, rfl, rfl, rfl, rfl, rfl, rfl, rfl, rfl, rfl, rfl, rfl, rfl, rfl⟩

/-- `judgeSelect` leaves every timebase item alone but switch. -/
@[simp] theorem State.judgeSelect_tbFrame (s : State) (x : Input) (mode : SwitchMode) (confirm : Bool) :
    (s.judgeSelect x mode confirm).tb.state = s.tb.state ∧ (s.judgeSelect x mode confirm).tb.standard = s.tb.standard ∧
    (s.judgeSelect x mode confirm).tb.program = s.tb.program ∧ (s.judgeSelect x mode confirm).tb.h = s.tb.h ∧
    (s.judgeSelect x mode confirm).tb.v = s.tb.v ∧ (s.judgeSelect x mode confirm).tb.runPeriod = s.tb.runPeriod ∧
    (s.judgeSelect x mode confirm).tb.setScale = s.tb.setScale ∧ (s.judgeSelect x mode confirm).tb.setTrim = s.tb.setTrim ∧
    (s.judgeSelect x mode confirm).tb.latched = s.tb.latched ∧ (s.judgeSelect x mode confirm).tb.heldSelect = s.tb.heldSelect ∧
    (s.judgeSelect x mode confirm).tb.fieldCounter = s.tb.fieldCounter ∧ (s.judgeSelect x mode confirm).tb.parity = s.tb.parity ∧
    (s.judgeSelect x mode confirm).tb.inputLines = s.tb.inputLines ∧ (s.judgeSelect x mode confirm).tb.linesRun = s.tb.linesRun ∧
    (s.judgeSelect x mode confirm).tb.lastField = s.tb.lastField ∧ (s.judgeSelect x mode confirm).tb.lineStartAt = s.tb.lineStartAt ∧
    (s.judgeSelect x mode confirm).tb.previousLineAt = s.tb.previousLineAt ∧ (s.judgeSelect x mode confirm).tb.lineLength = s.tb.lineLength ∧
    (s.judgeSelect x mode confirm).tb.lineSlew = s.tb.lineSlew ∧ (s.judgeSelect x mode confirm).tb.lineFollows = s.tb.lineFollows := by
  simp only [State.judgeSelect]
  (repeat' split) <;> simp

/-- `examineHeld` leaves every timebase item alone but switch, heldSelect. -/
@[simp] theorem State.examineHeld_tbFrame (s : State) (q : HeldSelect) :
    (s.examineHeld q).tb.state = s.tb.state ∧ (s.examineHeld q).tb.standard = s.tb.standard ∧
    (s.examineHeld q).tb.program = s.tb.program ∧ (s.examineHeld q).tb.h = s.tb.h ∧
    (s.examineHeld q).tb.v = s.tb.v ∧ (s.examineHeld q).tb.runPeriod = s.tb.runPeriod ∧
    (s.examineHeld q).tb.setScale = s.tb.setScale ∧ (s.examineHeld q).tb.setTrim = s.tb.setTrim ∧
    (s.examineHeld q).tb.latched = s.tb.latched ∧ (s.examineHeld q).tb.fieldCounter = s.tb.fieldCounter ∧
    (s.examineHeld q).tb.parity = s.tb.parity ∧ (s.examineHeld q).tb.inputLines = s.tb.inputLines ∧
    (s.examineHeld q).tb.linesRun = s.tb.linesRun ∧ (s.examineHeld q).tb.lastField = s.tb.lastField ∧
    (s.examineHeld q).tb.lineStartAt = s.tb.lineStartAt ∧ (s.examineHeld q).tb.previousLineAt = s.tb.previousLineAt ∧
    (s.examineHeld q).tb.lineLength = s.tb.lineLength ∧ (s.examineHeld q).tb.lineSlew = s.tb.lineSlew ∧
    (s.examineHeld q).tb.lineFollows = s.tb.lineFollows := by
  simp only [State.examineHeld]
  (repeat' split) <;> simp

/-- `settleHeldSelect` leaves every timebase item alone but switch, heldSelect. -/
@[simp] theorem State.settleHeldSelect_tbFrame (s : State) :
    (s.settleHeldSelect).tb.state = s.tb.state ∧ (s.settleHeldSelect).tb.standard = s.tb.standard ∧
    (s.settleHeldSelect).tb.program = s.tb.program ∧ (s.settleHeldSelect).tb.h = s.tb.h ∧
    (s.settleHeldSelect).tb.v = s.tb.v ∧ (s.settleHeldSelect).tb.runPeriod = s.tb.runPeriod ∧
    (s.settleHeldSelect).tb.setScale = s.tb.setScale ∧ (s.settleHeldSelect).tb.setTrim = s.tb.setTrim ∧
    (s.settleHeldSelect).tb.latched = s.tb.latched ∧ (s.settleHeldSelect).tb.fieldCounter = s.tb.fieldCounter ∧
    (s.settleHeldSelect).tb.parity = s.tb.parity ∧ (s.settleHeldSelect).tb.inputLines = s.tb.inputLines ∧
    (s.settleHeldSelect).tb.linesRun = s.tb.linesRun ∧ (s.settleHeldSelect).tb.lastField = s.tb.lastField ∧
    (s.settleHeldSelect).tb.lineStartAt = s.tb.lineStartAt ∧ (s.settleHeldSelect).tb.previousLineAt = s.tb.previousLineAt ∧
    (s.settleHeldSelect).tb.lineLength = s.tb.lineLength ∧ (s.settleHeldSelect).tb.lineSlew = s.tb.lineSlew ∧
    (s.settleHeldSelect).tb.lineFollows = s.tb.lineFollows := by
  simp only [State.settleHeldSelect]
  (repeat' split) <;> simp

/-- `timeoutHeld` leaves every timebase item alone but heldSelect. -/
@[simp] theorem State.timeoutHeld_tbFrame (s : State) :
    (s.timeoutHeld).tb.state = s.tb.state ∧ (s.timeoutHeld).tb.standard = s.tb.standard ∧
    (s.timeoutHeld).tb.program = s.tb.program ∧ (s.timeoutHeld).tb.h = s.tb.h ∧
    (s.timeoutHeld).tb.v = s.tb.v ∧ (s.timeoutHeld).tb.runPeriod = s.tb.runPeriod ∧
    (s.timeoutHeld).tb.setScale = s.tb.setScale ∧ (s.timeoutHeld).tb.setTrim = s.tb.setTrim ∧
    (s.timeoutHeld).tb.latched = s.tb.latched ∧ (s.timeoutHeld).tb.switch = s.tb.switch ∧
    (s.timeoutHeld).tb.fieldCounter = s.tb.fieldCounter ∧ (s.timeoutHeld).tb.parity = s.tb.parity ∧
    (s.timeoutHeld).tb.inputLines = s.tb.inputLines ∧ (s.timeoutHeld).tb.linesRun = s.tb.linesRun ∧
    (s.timeoutHeld).tb.lastField = s.tb.lastField ∧ (s.timeoutHeld).tb.lineStartAt = s.tb.lineStartAt ∧
    (s.timeoutHeld).tb.previousLineAt = s.tb.previousLineAt ∧ (s.timeoutHeld).tb.lineLength = s.tb.lineLength ∧
    (s.timeoutHeld).tb.lineSlew = s.tb.lineSlew ∧ (s.timeoutHeld).tb.lineFollows = s.tb.lineFollows := by
  refine ⟨rfl, rfl, rfl, rfl, rfl, rfl, rfl, rfl, rfl, rfl, rfl, rfl, rfl, rfl, rfl, rfl, rfl, rfl, rfl, rfl⟩

/-- `heldSelectStep` leaves every timebase item alone but switch, heldSelect. -/
@[simp] theorem State.heldSelectStep_tbFrame (s : State) :
    (s.heldSelectStep).tb.state = s.tb.state ∧ (s.heldSelectStep).tb.standard = s.tb.standard ∧
    (s.heldSelectStep).tb.program = s.tb.program ∧ (s.heldSelectStep).tb.h = s.tb.h ∧
    (s.heldSelectStep).tb.v = s.tb.v ∧ (s.heldSelectStep).tb.runPeriod = s.tb.runPeriod ∧
    (s.heldSelectStep).tb.setScale = s.tb.setScale ∧ (s.heldSelectStep).tb.setTrim = s.tb.setTrim ∧
    (s.heldSelectStep).tb.latched = s.tb.latched ∧ (s.heldSelectStep).tb.fieldCounter = s.tb.fieldCounter ∧
    (s.heldSelectStep).tb.parity = s.tb.parity ∧ (s.heldSelectStep).tb.inputLines = s.tb.inputLines ∧
    (s.heldSelectStep).tb.linesRun = s.tb.linesRun ∧ (s.heldSelectStep).tb.lastField = s.tb.lastField ∧
    (s.heldSelectStep).tb.lineStartAt = s.tb.lineStartAt ∧ (s.heldSelectStep).tb.previousLineAt = s.tb.previousLineAt ∧
    (s.heldSelectStep).tb.lineLength = s.tb.lineLength ∧ (s.heldSelectStep).tb.lineSlew = s.tb.lineSlew ∧
    (s.heldSelectStep).tb.lineFollows = s.tb.lineFollows := by
  simp only [State.heldSelectStep]
  (repeat' split) <;> simp

/-- `fieldStart` leaves every timebase item alone but state, v, latched, switch, heldSelect, fieldCounter, parity,
inputLines, linesRun, lastField. -/
@[simp] theorem State.fieldStart_tbFrame (s : State) (cut : Bool) :
    (s.fieldStart cut).tb.standard = s.tb.standard ∧ (s.fieldStart cut).tb.program = s.tb.program ∧
    (s.fieldStart cut).tb.h = s.tb.h ∧ (s.fieldStart cut).tb.runPeriod = s.tb.runPeriod ∧
    (s.fieldStart cut).tb.setScale = s.tb.setScale ∧ (s.fieldStart cut).tb.setTrim = s.tb.setTrim ∧
    (s.fieldStart cut).tb.lineStartAt = s.tb.lineStartAt ∧ (s.fieldStart cut).tb.previousLineAt = s.tb.previousLineAt ∧
    (s.fieldStart cut).tb.lineLength = s.tb.lineLength ∧ (s.fieldStart cut).tb.lineSlew = s.tb.lineSlew ∧
    (s.fieldStart cut).tb.lineFollows = s.tb.lineFollows := by
  simp only [State.fieldStart]
  (repeat' split) <;> simp

/-- `cutTo` leaves every timebase item alone but program, standard, h, v, state, switch, runPeriod, lineFollows. -/
@[simp] theorem State.cutTo_tbFrame (s : State) (x : Input) :
    (s.cutTo x).tb.setScale = s.tb.setScale ∧ (s.cutTo x).tb.setTrim = s.tb.setTrim ∧
    (s.cutTo x).tb.latched = s.tb.latched ∧ (s.cutTo x).tb.heldSelect = s.tb.heldSelect ∧
    (s.cutTo x).tb.fieldCounter = s.tb.fieldCounter ∧ (s.cutTo x).tb.parity = s.tb.parity ∧
    (s.cutTo x).tb.inputLines = s.tb.inputLines ∧ (s.cutTo x).tb.linesRun = s.tb.linesRun ∧
    (s.cutTo x).tb.lastField = s.tb.lastField ∧ (s.cutTo x).tb.lineStartAt = s.tb.lineStartAt ∧
    (s.cutTo x).tb.previousLineAt = s.tb.previousLineAt ∧ (s.cutTo x).tb.lineLength = s.tb.lineLength ∧
    (s.cutTo x).tb.lineSlew = s.tb.lineSlew := by
  simp only [State.cutTo]
  (repeat' split) <;> simp

/-- `recutFieldStart` leaves every timebase item alone but latched, switch, heldSelect, lineLength, lineSlew,
lineFollows. -/
@[simp] theorem State.recutFieldStart_tbFrame (s : State) :
    (s.recutFieldStart).tb.state = s.tb.state ∧ (s.recutFieldStart).tb.standard = s.tb.standard ∧
    (s.recutFieldStart).tb.program = s.tb.program ∧ (s.recutFieldStart).tb.h = s.tb.h ∧
    (s.recutFieldStart).tb.v = s.tb.v ∧ (s.recutFieldStart).tb.runPeriod = s.tb.runPeriod ∧
    (s.recutFieldStart).tb.setScale = s.tb.setScale ∧ (s.recutFieldStart).tb.setTrim = s.tb.setTrim ∧
    (s.recutFieldStart).tb.fieldCounter = s.tb.fieldCounter ∧ (s.recutFieldStart).tb.parity = s.tb.parity ∧
    (s.recutFieldStart).tb.inputLines = s.tb.inputLines ∧ (s.recutFieldStart).tb.linesRun = s.tb.linesRun ∧
    (s.recutFieldStart).tb.lastField = s.tb.lastField ∧ (s.recutFieldStart).tb.lineStartAt = s.tb.lineStartAt ∧
    (s.recutFieldStart).tb.previousLineAt = s.tb.previousLineAt := by
  simp only [State.recutFieldStart]
  (repeat' split) <;> simp

/-- `slewTo` leaves every timebase item alone but program, standard, h, v, parity, inputLines, switch, state,
runPeriod, lineFollows. -/
@[simp] theorem State.slewTo_tbFrame (s : State) (x : Input) :
    (s.slewTo x).tb.setScale = s.tb.setScale ∧ (s.slewTo x).tb.setTrim = s.tb.setTrim ∧
    (s.slewTo x).tb.latched = s.tb.latched ∧ (s.slewTo x).tb.heldSelect = s.tb.heldSelect ∧
    (s.slewTo x).tb.fieldCounter = s.tb.fieldCounter ∧ (s.slewTo x).tb.linesRun = s.tb.linesRun ∧
    (s.slewTo x).tb.lastField = s.tb.lastField ∧ (s.slewTo x).tb.lineStartAt = s.tb.lineStartAt ∧
    (s.slewTo x).tb.previousLineAt = s.tb.previousLineAt ∧ (s.slewTo x).tb.lineLength = s.tb.lineLength ∧
    (s.slewTo x).tb.lineSlew = s.tb.lineSlew := by
  simp only [State.slewTo, Timebase.measure]
  split <;> simp

/-- `withdrawSwitch` leaves every timebase item alone but switch. -/
@[simp] theorem State.withdrawSwitch_tbFrame (s : State) (x : Input) :
    (s.withdrawSwitch x).tb.state = s.tb.state ∧ (s.withdrawSwitch x).tb.standard = s.tb.standard ∧
    (s.withdrawSwitch x).tb.program = s.tb.program ∧ (s.withdrawSwitch x).tb.h = s.tb.h ∧
    (s.withdrawSwitch x).tb.v = s.tb.v ∧ (s.withdrawSwitch x).tb.runPeriod = s.tb.runPeriod ∧
    (s.withdrawSwitch x).tb.setScale = s.tb.setScale ∧ (s.withdrawSwitch x).tb.setTrim = s.tb.setTrim ∧
    (s.withdrawSwitch x).tb.latched = s.tb.latched ∧ (s.withdrawSwitch x).tb.heldSelect = s.tb.heldSelect ∧
    (s.withdrawSwitch x).tb.fieldCounter = s.tb.fieldCounter ∧ (s.withdrawSwitch x).tb.parity = s.tb.parity ∧
    (s.withdrawSwitch x).tb.inputLines = s.tb.inputLines ∧ (s.withdrawSwitch x).tb.linesRun = s.tb.linesRun ∧
    (s.withdrawSwitch x).tb.lastField = s.tb.lastField ∧ (s.withdrawSwitch x).tb.lineStartAt = s.tb.lineStartAt ∧
    (s.withdrawSwitch x).tb.previousLineAt = s.tb.previousLineAt ∧ (s.withdrawSwitch x).tb.lineLength = s.tb.lineLength ∧
    (s.withdrawSwitch x).tb.lineSlew = s.tb.lineSlew ∧ (s.withdrawSwitch x).tb.lineFollows = s.tb.lineFollows := by
  simp only [State.withdrawSwitch]
  (repeat' split) <;> simp

/-- `programLockChanged` leaves every timebase item alone but standard, h, v, parity, inputLines, state, switch,
runPeriod, lineFollows. -/
@[simp] theorem State.programLockChanged_tbFrame (s : State) (l : LockState) :
    (s.programLockChanged l).tb.program = s.tb.program ∧ (s.programLockChanged l).tb.setScale = s.tb.setScale ∧
    (s.programLockChanged l).tb.setTrim = s.tb.setTrim ∧ (s.programLockChanged l).tb.latched = s.tb.latched ∧
    (s.programLockChanged l).tb.heldSelect = s.tb.heldSelect ∧ (s.programLockChanged l).tb.fieldCounter = s.tb.fieldCounter ∧
    (s.programLockChanged l).tb.linesRun = s.tb.linesRun ∧ (s.programLockChanged l).tb.lastField = s.tb.lastField ∧
    (s.programLockChanged l).tb.lineStartAt = s.tb.lineStartAt ∧ (s.programLockChanged l).tb.previousLineAt = s.tb.previousLineAt ∧
    (s.programLockChanged l).tb.lineLength = s.tb.lineLength ∧ (s.programLockChanged l).tb.lineSlew = s.tb.lineSlew := by
  simp only [State.programLockChanged]
  (repeat' split) <;> simp

/-- `lockChanged` leaves every timebase item alone but standard, h, v, parity, inputLines, state, switch, runPeriod,
lineFollows. -/
@[simp] theorem State.lockChanged_tbFrame (s : State) (x : Input) (l : LockState) :
    (s.lockChanged x l).tb.program = s.tb.program ∧ (s.lockChanged x l).tb.setScale = s.tb.setScale ∧
    (s.lockChanged x l).tb.setTrim = s.tb.setTrim ∧ (s.lockChanged x l).tb.latched = s.tb.latched ∧
    (s.lockChanged x l).tb.heldSelect = s.tb.heldSelect ∧ (s.lockChanged x l).tb.fieldCounter = s.tb.fieldCounter ∧
    (s.lockChanged x l).tb.linesRun = s.tb.linesRun ∧ (s.lockChanged x l).tb.lastField = s.tb.lastField ∧
    (s.lockChanged x l).tb.lineStartAt = s.tb.lineStartAt ∧ (s.lockChanged x l).tb.previousLineAt = s.tb.previousLineAt ∧
    (s.lockChanged x l).tb.lineLength = s.tb.lineLength ∧ (s.lockChanged x l).tb.lineSlew = s.tb.lineSlew := by
  simp only [State.lockChanged]
  (repeat' split) <;> simp

/-- `nextComputerLine` leaves every timebase item alone but state, switch, linesRun, h, previousLineAt, lineStartAt,
lineLength, lineSlew, lineFollows. -/
@[simp] theorem State.nextComputerLine_tbFrame (s : State) :
    (s.nextComputerLine).tb.standard = s.tb.standard ∧ (s.nextComputerLine).tb.program = s.tb.program ∧
    (s.nextComputerLine).tb.v = s.tb.v ∧ (s.nextComputerLine).tb.runPeriod = s.tb.runPeriod ∧
    (s.nextComputerLine).tb.setScale = s.tb.setScale ∧ (s.nextComputerLine).tb.setTrim = s.tb.setTrim ∧
    (s.nextComputerLine).tb.latched = s.tb.latched ∧ (s.nextComputerLine).tb.heldSelect = s.tb.heldSelect ∧
    (s.nextComputerLine).tb.fieldCounter = s.tb.fieldCounter ∧ (s.nextComputerLine).tb.parity = s.tb.parity ∧
    (s.nextComputerLine).tb.inputLines = s.tb.inputLines ∧ (s.nextComputerLine).tb.lastField = s.tb.lastField := by
  simp only [State.nextComputerLine]
  (repeat' split) <;> simp

end Sys2Proof.Machine
end

