-- ==== Sys2Proof/Laws/Switching.lean ====
section
/-! SUPPORT. What the events of the inputs and the end of a computer line can do: changes of the timing alone, field
starts, and the settling of a held SELECT. -/

namespace Sys2Proof.Machine

/-- Two states differ at most in the clock, the lock contexts, the event flags but WINDOW, and the timebase but for its
latched values, its set values, its field counter and its held SELECT. -/
def Retimed (u v : State) : Prop :=
  (v.resetLine = u.resetLine ∧ v.slots = u.slots ∧ v.stack = u.stack ∧ v.held = u.held ∧ v.guard = u.guard ∧
    v.keyer = u.keyer ∧ v.engine = u.engine ∧ v.cmd = u.cmd ∧ v.port = u.port ∧ v.mask = u.mask ∧
    v.marks = u.marks) ∧
  v.events.window = u.events.window ∧ v.tb.latched = u.tb.latched ∧ v.tb.heldSelect = u.tb.heldSelect ∧
  v.tb.setScale = u.tb.setScale ∧ v.tb.setTrim = u.tb.setTrim ∧ v.tb.fieldCounter = u.tb.fieldCounter

theorem Retimed.refl (u : State) : Retimed u u := by
  unfold Retimed; simp

theorem Retimed.trans {u v w : State} (a : Retimed u v) (b : Retimed v w) : Retimed u w := by
  unfold Retimed at *
  simp_all

theorem State.setTimebaseState_retimed (s : State) (x : TimebaseState) : Retimed s (s.setTimebaseState x) :=
  ⟨by simp, rfl, by simp⟩

theorem State.enterFollow_retimed (s : State) : Retimed s s.enterFollow := ⟨by simp, rfl, by simp⟩

theorem State.enterCoast_retimed (s : State) : Retimed s s.enterCoast := ⟨by simp, rfl, by simp⟩

theorem State.slewOrFollow_retimed (s : State) : Retimed s s.slewOrFollow := by
  unfold State.slewOrFollow
  split
  · exact s.enterFollow_retimed
  · exact s.setTimebaseState_retimed _

theorem State.relock_retimed (s : State) : Retimed s s.relock := by
  unfold State.relock
  exact Retimed.trans (by unfold Retimed Timebase.measure; simp) (State.slewOrFollow_retimed _)

theorem State.settleSlew_retimed (s : State) : Retimed s s.settleSlew := by
  unfold State.settleSlew
  split
  · exact s.enterFollow_retimed
  · exact Retimed.refl s

theorem State.takeInput_retimed (s : State) (x : Input) : Retimed s (s.takeInput x) := ⟨by simp, rfl, by simp⟩

theorem State.cutTo_retimed (s : State) (x : Input) : Retimed s (s.cutTo x) := by
  unfold State.cutTo
  dsimp only
  split
  · exact ⟨by simp, rfl, by simp⟩
  · exact ⟨by simp, rfl, by simp⟩

theorem State.slewTo_retimed (s : State) (x : Input) : Retimed s (s.slewTo x) := by
  unfold State.slewTo
  dsimp only
  split
  · refine Retimed.trans ?_ (State.slewOrFollow_retimed _)
    unfold Retimed Timebase.measure; simp
  · refine Retimed.trans ?_ (State.enterCoast_retimed _)
    unfold Retimed; simp

theorem State.withdrawSwitch_retimed (s : State) (x : Input) : Retimed s (s.withdrawSwitch x) := by
  unfold State.withdrawSwitch
  split
  · split
    · unfold Retimed; simp [State.signalTimebase]
    · exact Retimed.refl s
  · exact Retimed.refl s
  · exact Retimed.refl s

theorem State.programLockChanged_retimed (s : State) (l : LockState) : Retimed s (s.programLockChanged l) := by
  unfold State.programLockChanged
  split
  · split
    · exact s.enterCoast_retimed
    · exact Retimed.refl s
  · split
    · split
      · exact s.relock_retimed
      · exact Retimed.refl s
    · exact Retimed.refl s

theorem State.signalLock_retimed (s : State) : Retimed s s.signalLock := by
  unfold Retimed; simp [State.signalLock]

theorem State.lockChanged_retimed (s : State) (x : Input) (l : LockState) : Retimed s (s.lockChanged x l) := by
  unfold State.lockChanged
  dsimp only
  have w : Retimed s (if (s.ctx x).lock = .hunt ∨ (s.ctx x).lock = .noSignal then s.signalLock.withdrawSwitch x
      else s.signalLock) := by
    split
    · exact s.signalLock_retimed.trans (State.withdrawSwitch_retimed _ x)
    · exact s.signalLock_retimed
  split
  · exact Retimed.refl s
  · split
    · exact w.trans (State.programLockChanged_retimed _ l)
    · exact w

theorem State.setCtx_retimed (s : State) (x : Input) (c : LockContext) : Retimed s (s.setCtx x c) := by
  cases x <;> exact Retimed.refl s

theorem State.clockAt_retimed (s : State) (time : Nat) : Retimed s (s.clockAt time) := Retimed.refl s

theorem State.lineAt_retimed (s : State) (time : Nat) : Retimed s (s.lineAt time) := ⟨by simp, rfl, by simp⟩

theorem State.startLine_retimed (s : State) (time : Nat) : Retimed s (s.startLine time) := ⟨by simp, rfl, by simp⟩

theorem State.endLine_retimed (s : State) : Retimed s s.endLine := ⟨by simp, rfl, by simp⟩

theorem State.cutLine_retimed (s : State) (x : Input) : Retimed s (s.cutLine x) := ⟨by simp, rfl, by simp⟩

/-- The events of the inputs and the end of a computer line are made of these operations: what each of them keeps, every
such event keeps. -/
theorem State.timing_ops_ind {P : State → Prop} (cutTo : ∀ u x, P u → P (u.cutTo x))
    (slewTo : ∀ u x, P u → P (u.slewTo x))
    (changed : ∀ u x c, P u → P ((u.setCtx x c).lockChanged x (u.ctx x).lock))
    (lineAt : ∀ u t, P u → P (u.lineAt t)) (startLine : ∀ u t, P u → P (u.startLine t))
    (endLine : ∀ u, P u → P u.endLine) (cutLine : ∀ u x, P u → P (u.cutLine x))
    (parity : ∀ (u : State) p, P u → P { u with tb := { u.tb with parity := p } })
    (settleSlew : ∀ u, P u → P u.settleSlew)
    (field : ∀ u cut, P u → P (u.fieldStart cut)) (recut : ∀ u, P u → P u.recutFieldStart)
    (settle : ∀ u, P u → P u.settleHeldSelect) (s : State) (h : P s) :
    (∀ x, P (s.cutSwitch x)) ∧ (∀ x, P (s.slewSwitch x)) ∧ P s.computerLineEnd ∧ (∀ x t, P (s.tracked x t)) := by
  have cut : ∀ u x, P u → P (u.cutSwitch x) := by
    intro u x hu
    have hc := cutTo u x hu
    unfold State.cutSwitch
    dsimp only
    split
    · exact parity _ _ (recut _ hc)
    · exact parity _ _ (field _ _ (cutLine _ x hc))
  have slew : ∀ u x, P u → P (u.slewSwitch x) := by
    intro u x hu
    exact settle _ (slewTo u x hu)
  refine ⟨fun x => cut s x h, fun x => slew s x h, ?_, fun x t => ?_⟩
  · have h1 : P s.nextComputerLine := startLine _ _ (settleSlew _ (endLine _ h))
    unfold State.computerLineEnd
    refine settle _ ?_
    split
    · exact field _ _ h1
    · exact h1
  · have h1 := changed s x t.ctx h
    unfold State.tracked
    generalize (s.setCtx x t.ctx).lockChanged x (s.ctx x).lock = u at h1
    have h2 : P (u.followLine x (s.ctx x).reference) := by
      unfold State.followLine
      dsimp only
      split
      · exact h1
      · split
        · exact h1
        · split
          · exact lineAt u _ h1
          · split
            · exact field _ _ (startLine _ _ (endLine _ h1))
            · exact startLine _ _ (endLine _ h1)
    refine settle _ ?_
    split
    · generalize u.followLine x (s.ctx x).reference = v at h2
      unfold State.handOn
      split
      · split
        · next mode _ _ =>
          cases mode
          · exact cut _ _ h2
          · exact slew _ _ h2
        · split
          · exact field _ _ h2
          · exact h2
      · split
        · exact field _ _ h2
        · exact h2
    · exact h2

/-- The events of the inputs and the end of a computer line retime the part, make field starts and settle a held
SELECT: what these three keep, every such event keeps. -/
theorem State.timing_ind {P : State → Prop} (retimed : ∀ u v, Retimed u v → P u → P v)
    (field : ∀ u cut, P u → P (u.fieldStart cut)) (recut : ∀ u, P u → P u.recutFieldStart)
    (settle : ∀ u, P u → P u.settleHeldSelect) (s : State) (h : P s) :
    (∀ x, P (s.cutSwitch x)) ∧ (∀ x, P (s.slewSwitch x)) ∧ P s.computerLineEnd ∧ (∀ x t, P (s.tracked x t)) :=
  State.timing_ops_ind (fun u x => retimed _ _ (u.cutTo_retimed x)) (fun u x => retimed _ _ (u.slewTo_retimed x))
    (fun u x c => retimed _ _ ((u.setCtx_retimed x c).trans (State.lockChanged_retimed _ x (u.ctx x).lock)))
    (fun u t => retimed _ _ (u.lineAt_retimed t)) (fun u t => retimed _ _ (u.startLine_retimed t))
    (fun u => retimed _ _ u.endLine_retimed) (fun u x => retimed _ _ (u.cutLine_retimed x))
    (fun u p => retimed u _ (by unfold Retimed; simp)) (fun u => retimed _ _ u.settleSlew_retimed) field recut settle s h

end Sys2Proof.Machine
end

