-- ==== Sys2Proof/Laws/Stack.lean ====
section
/-! SUPPORT. The layer stack's operations keep the law of the stack, and every change of a record is one of a short
list. -/

namespace Sys2Proof.Machine

/-! ### Changes of one record -/

/-- One change of one record that no OPEN or CLONE makes; `V` says which values it may be converted under. -/
inductive SlotStep (V : Latched → Prop) : Slot → Slot → Prop where
  | flagged (r : Slot) (a : Attention) : r.state ≠ .free → SlotStep V r { r with attention := a }
  | marked (r : Slot) (a : Attention) (o : Bool) : r.state ≠ .free →
      SlotStep V r { r with attention := a, geometry := { r.geometry with offRaster := o } }
  | cleared (r : Slot) (w : Word) : SlotStep V r { r with attention := r.attention.clear w }
  | freed (r : Slot) : r.state ≠ .free → SlotStep V r (Slot.blank (r.gen + 1))
  | published (r : Slot) (n : Nat) : r.state ≠ .free → n ≤ 255 → r.staging.legal = true →
      SlotStep V r { r with pending := some n }
  | cancelled (r : Slot) : SlotStep V r { r with pending := none }
  | staged (r : Slot) (c : Copy) : r.state ≠ .free → r.pending = none → SlotStep V r { r with staging := c }
  | left (r : Slot) (x : RecState) : r.state = .onAir → x = .standby ∨ x = .faulted →
      SlotStep V r { r with state := x }
  | entered (r : Slot) : r.state = .onAir ∨ r.state = .standby → SlotStep V r { r with state := .onAir }
  | ticked (r : Slot) : SlotStep V r r.publicationTick
  | adopted (r : Slot) : r.adoptionDue = true → SlotStep V r r.adopt
  | counted (r : Slot) : SlotStep V r r.count
  | lifetime (r : Slot) : r.state = .onAir → SlotStep V r r.countLifetimeOnly
  | converted (r : Slot) (v : Latched) : V v → SlotStep V r (r.convert v)

/-- Any number of changes of one record, one after the other. -/
inductive SlotSteps (V : Latched → Prop) (r : Slot) : Slot → Prop where
  | refl : SlotSteps V r r
  | tail {a b : Slot} : SlotSteps V r a → SlotStep V a b → SlotSteps V r b

/-- What every change keeps, any number of changes keeps. -/
theorem SlotSteps.keeps {V : Latched → Prop} {P : Slot → Prop} (step : ∀ a b, SlotStep V a b → P a → P b) {r t : Slot}
    (h : SlotSteps V r t) (hr : P r) : P t := by
  induction h with
  | refl => exact hr
  | tail _ hs ih => exact step _ _ hs ih

/-! ### The law of the stack under each operation -/

/-- The law of the stack reads the stack and the records' states. -/
theorem StackLaw_congr {s t : State} (h : StackLaw s) (hk : t.stack = s.stack)
    (hs : ∀ i, (t.slot i).state = .onAir ↔ (s.slot i).state = .onAir) : StackLaw t := by
  unfold StackLaw at *
  rw [hk]
  exact ⟨h.1, h.2.1, fun i => (h.2.2 i).trans (hs i).symm⟩

theorem State.modifySlot_stackLaw (s : State) (i : SlotId) (f : Slot → Slot) (h : StackLaw s)
    (hf : (f (s.slot i)).state = .onAir ↔ (s.slot i).state = .onAir) : StackLaw (s.modifySlot i f) := by
  refine StackLaw_congr h (by simp) fun j => ?_
  rw [State.modifySlot_slot]
  split
  · next e => subst e; exact hf
  · exact Iff.rfl

theorem State.mapSlots_stackLaw (s : State) (f : SlotId → Slot → Slot) (h : StackLaw s)
    (hf : ∀ i, (f i (s.slot i)).state = .onAir ↔ (s.slot i).state = .onAir) : StackLaw (s.mapSlots f) :=
  StackLaw_congr h (by simp) fun j => by simpa using hf j

/-- A record taken off the stack and out of ON AIR. -/
theorem StackLaw_removed {s t : State} (i : SlotId) (h : StackLaw s) (hk : t.stack = s.stack.erase i)
    (hi : (t.slot i).state ≠ .onAir) (hj : ∀ j, j ≠ i → t.slot j = s.slot j) : StackLaw t := by
  unfold StackLaw at *
  rw [hk]
  refine ⟨h.1.erase i, Nat.le_trans (List.length_erase_le) h.2.1, fun j => ?_⟩
  rw [List.Nodup.mem_erase_iff h.1]
  by_cases e : j = i
  · subst e; simp [hi]
  · simp [e, hj j e, h.2.2 j]

theorem State.freeRecord_stackLaw (s : State) (i : SlotId) (h : StackLaw s) : StackLaw (s.freeRecord i) := by
  rw [State.freeRecord_eq]
  refine StackLaw_removed i h rfl ?_ fun j e => ?_
  · show ((WithSlot s i _).slot i).state ≠ _
    simp [Slot.blank]
  · show (WithSlot s i _).slot j = _
    simp [e]

theorem State.leaveStack_stackLaw (s : State) (i : SlotId) (x : RecState) (h : StackLaw s) (hx : x ≠ .onAir) :
    StackLaw (s.leaveStack i x) := by
  rw [State.leaveStack_eq]
  refine StackLaw_removed i h rfl ?_ fun j e => ?_
  · show ((WithSlot s i _).slot i).state ≠ _
    simpa using hx
  · show (WithSlot s i _).slot j = _
    simp [e]

/-- Insertion where the entry is on the stack already, or there is room. -/
theorem State.enterStack_stackLaw (s : State) (i : SlotId) (h : StackLaw s)
    (hr : i ∈ s.stack ∨ s.stack.length < Config.stackDepth) : StackLaw (s.enterStack i) := by
  rw [State.enterStack_eq]
  unfold StackLaw at *
  have hs : ∀ j, ({ WithSlot s i { s.slot i with state := .onAir } with
      stack := i :: s.stack.erase i } : State).slot j =
        if j = i then { s.slot i with state := .onAir } else s.slot j := fun j => WithSlot_slot s i j _
  refine ⟨?_, ?_, fun j => ?_⟩
  · simp only [List.nodup_cons]
    exact ⟨fun hm => ((List.Nodup.mem_erase_iff h.1).1 hm).1 rfl, h.1.erase i⟩
  · simp only [List.length_cons]
    by_cases hm : i ∈ s.stack
    · rw [List.length_erase_of_mem hm]
      have := List.length_pos_of_mem hm
      have := h.2.1
      omega
    · rw [List.erase_of_not_mem hm]
      have := hr.resolve_left hm
      omega
  · rw [hs, List.mem_cons, List.Nodup.mem_erase_iff h.1]
    by_cases e : j = i
    · subst e; simp
    · simp [e, h.2.2 j]

theorem State.liftAll_slot (s : State) (j : SlotId) :
    s.liftAll.slot j = if j ∈ s.stack then { s.slot j with state := .standby } else s.slot j := by
  rw [State.liftAll_eq]
  simp [State.slot]

theorem State.liftAll_stackLaw (s : State) (h : StackLaw s) : StackLaw s.liftAll := by
  refine ⟨by simp [State.liftAll], by simp [State.liftAll], fun j => ?_⟩
  rw [State.liftAll_slot]
  have := h.2.2 j
  by_cases e : j ∈ s.stack
  · simp [State.liftAll, e]
  · simp [State.liftAll, e]
    intro hc; exact e (this.2 hc)

/-- Exchanging two entries that stand next to each other permutes the list. -/
theorem exchange_perm {α : Type} (k : Nat) (l : List α) : (exchange k l).Perm l := by
  fun_induction exchange k l with
  | case1 a b rest => exact List.Perm.swap a b rest
  | case2 k a rest ih => exact ih.cons a
  | case3 => exact List.Perm.refl _

theorem StackLaw_perm {s t : State} (h : StackLaw s) (hp : t.stack.Perm s.stack) (hs : t.slots = s.slots) :
    StackLaw t := by
  unfold StackLaw at *
  refine ⟨hp.nodup_iff.2 h.1, by rw [hp.length_eq]; exact h.2.1, fun i => ?_⟩
  rw [hp.mem_iff, h.2.2 i]
  simp [State.slot, hs]

end Sys2Proof.Machine
end

