-- ==== Sys2Proof/Laws/Moves.lean ====
section
/-! SUPPORT. Every operation keeps the law of the stack, and under it changes each record by the listed changes
alone. -/

namespace Sys2Proof.Machine

variable {V : Latched → Prop}

/-- From a state that meets the law of the stack: the law is kept, and every record has gone through some of the listed
changes, converted only under values of which `V` holds. -/
def Moves (V : Latched → Prop) (s t : State) : Prop :=
  StackLaw s → StackLaw t ∧ ∀ i, SlotSteps V (s.slot i) (t.slot i)

theorem SlotSteps.one {a b : Slot} (h : SlotStep V a b) : SlotSteps V a b := .tail .refl h

theorem SlotSteps.trans {a b c : Slot} (h : SlotSteps V a b) (k : SlotSteps V b c) : SlotSteps V a c := by
  induction k with
  | refl => exact h
  | tail _ hs ih => exact ih.tail hs

theorem Moves.refl (s : State) : Moves V s s := fun h => ⟨h, fun _ => .refl⟩

theorem Moves.trans {s t u : State} (a : Moves V s t) (b : Moves V t u) : Moves V s u := fun h =>
  ⟨(b (a h).1).1, fun i => ((a h).2 i).trans ((b (a h).1).2 i)⟩

/-- The records and the stack are the same. -/
theorem Moves.same {s t : State} (hs : t.slots = s.slots) (hk : t.stack = s.stack) : Moves V s t := by
  have e : ∀ i, t.slot i = s.slot i := fun i => by simp [State.slot, hs]
  exact fun h => ⟨StackLaw_congr h hk fun i => by rw [e], fun i => by rw [e]; exact .refl⟩

theorem State.modifySlot_moves (s : State) (i : SlotId) (f : Slot → Slot) (h : SlotStep V (s.slot i) (f (s.slot i)))
    (hf : (f (s.slot i)).state = .onAir ↔ (s.slot i).state = .onAir) : Moves V s (s.modifySlot i f) := fun hs =>
  ⟨State.modifySlot_stackLaw s i f hs hf, fun j => by
    rw [State.modifySlot_slot]
    split
    · next e => subst e; exact .one h
    · exact .refl⟩

theorem State.mapSlots_moves (s : State) (f : SlotId → Slot → Slot) (h : ∀ i, SlotStep V (s.slot i) (f i (s.slot i)))
    (hf : ∀ i, (f i (s.slot i)).state = .onAir ↔ (s.slot i).state = .onAir) : Moves V s (s.mapSlots f) := fun hs =>
  ⟨State.mapSlots_stackLaw s f hs hf, fun j => by
    rw [State.mapSlots_slot]; exact .one (h j)⟩

theorem State.freeRecord_slot (s : State) (i j : SlotId) :
    (s.freeRecord i).slot j = if j = i then Slot.blank ((s.slot i).gen + 1) else s.slot j := by
  rw [State.freeRecord_eq]
  exact WithSlot_slot s i j _

theorem State.leaveStack_slot (s : State) (i j : SlotId) (x : RecState) :
    (s.leaveStack i x).slot j = if j = i then { s.slot i with state := x } else s.slot j := by
  rw [State.leaveStack_eq]
  exact WithSlot_slot s i j _

theorem State.enterStack_slot (s : State) (i j : SlotId) :
    (s.enterStack i).slot j = if j = i then { s.slot i with state := .onAir } else s.slot j := by
  rw [State.enterStack_eq]
  exact WithSlot_slot s i j _

theorem State.freeRecord_moves (s : State) (i : SlotId) (h : (s.slot i).state ≠ .free) :
    Moves V s (s.freeRecord i) := fun hs =>
  ⟨s.freeRecord_stackLaw i hs, fun j => by
    rw [State.freeRecord_slot]
    split
    · next e => subst e; exact .one (.freed _ h)
    · exact .refl⟩

theorem State.leaveStack_moves (s : State) (i : SlotId) (x : RecState) (h : (s.slot i).state = .onAir)
    (hx : x = .standby ∨ x = .faulted) : Moves V s (s.leaveStack i x) := fun hs =>
  ⟨s.leaveStack_stackLaw i x hs (by rcases hx with e | e <;> simp [e]), fun j => by
    rw [State.leaveStack_slot]
    split
    · next e => subst e; exact .one (.left _ x h hx)
    · exact .refl⟩

theorem State.enterStack_moves (s : State) (i : SlotId) (h : (s.slot i).state = .onAir ∨ (s.slot i).state = .standby)
    (hr : i ∈ s.stack ∨ s.stack.length < Config.stackDepth) : Moves V s (s.enterStack i) := fun hs =>
  ⟨s.enterStack_stackLaw i hs hr, fun j => by
    rw [State.enterStack_slot]
    split
    · next e => subst e; exact .one (.entered _ h)
    · exact .refl⟩

theorem State.liftAll_moves (s : State) : Moves V s s.liftAll := fun hs =>
  ⟨s.liftAll_stackLaw hs, fun j => by
    rw [State.liftAll_slot]
    split
    · next e => exact .one (.left _ _ ((hs.2.2 j).1 e) (.inl rfl))
    · exact .refl⟩

/-! ### Operations that change attention flags alone -/

theorem State.raise_moves (s : State) (i : SlotId) (a : AttentionFlag) (h : (s.slot i).state ≠ .free) :
    Moves V s (s.raise i a) :=
  Moves.trans (t := s.markRaise i a) (.same rfl rfl) ((s.markRaise i a).modifySlot_moves i _ (.flagged _ _ h) Iff.rfl)

@[simp] theorem State.raise_state (s : State) (i j : SlotId) (a : AttentionFlag) :
    ((s.raise i a).slot j).state = (s.slot j).state := by
  simp only [State.raise, State.modifySlot_slot]
  split
  · next e => subst e; rfl
  · rfl

theorem State.raiseLate_moves (s : State) (l : List SlotId) (h : ∀ i, i ∈ l → (s.slot i).state ≠ .free) :
    Moves V s (s.raiseLate l) := by
  unfold State.raiseLate
  induction l generalizing s with
  | nil => exact .refl s
  | cons i l ih =>
    exact (s.raise_moves i .late (h i (by simp))).trans (ih _ fun j hj => by simpa using h j (by simp [hj]))

/-- Insertion by mask origin inserts the window and keeps the others. -/
theorem insertByOrigin_perm (origin : SlotId → Int) (i : SlotId) (l : List SlotId) :
    (insertByOrigin origin i l).Perm (i :: l) := by
  induction l with
  | nil => exact .refl _
  | cons j l ih =>
    unfold insertByOrigin
    split
    · exact .refl _
    · exact (ih.cons j).trans (.swap i j l)

/-- The need order is an order of the MASK windows drawn on the line (R111). -/
theorem State.needOrder_perm (s : State) (line : Nat) :
    (s.needOrder line).Perm (s.stack.filter (s.drawnMask line)) := by
  unfold State.needOrder
  generalize s.stack.filter (s.drawnMask line) = l
  induction l with
  | nil => exact .refl _
  | cons i l ih => exact (insertByOrigin_perm _ i _).trans (ih.cons i)

theorem State.needOrder_mem {s : State} {line : Nat} {i : SlotId} (h : i ∈ s.needOrder line) :
    i ∈ s.stack ∧ s.drawnMask line i = true := by
  simpa using (s.needOrder_perm line).mem_iff.1 h

theorem State.openLine_moves (s : State) (line : Nat) : Moves V s (s.openLine line) := by
  intro hs
  unfold State.openLine
  refine Moves.trans ?_ (State.raiseLate_moves _ _ fun i hi => ?_) hs
  · exact .same rfl rfl
  · have hm := (State.needOrder_mem (List.mem_of_mem_drop hi)).1
    have ho := (hs.2.2 i).1 hm
    show (s.slot i).state ≠ .free
    simp [ho]

theorem State.advanceLine_moves (s : State) : Moves V s s.advanceLine := by
  unfold State.advanceLine
  split
  · exact s.openLine_moves _
  · exact .refl s

theorem State.arbitrate_moves (s : State) : Moves V s s.arbitrate := .same (by simp) (by simp)

theorem State.raiseLateOf_moves (s : State) (d : Descriptor) : Moves V s (s.raiseLateOf d) := by
  unfold State.raiseLateOf
  split
  · next h =>
    simp [State.live] at h
    exact s.raise_moves _ _ h.1
  · exact .refl s

theorem State.abandonWindow_moves (s : State) (place : Nat) (x : Int) : Moves V s (s.abandonWindow place x) := by
  unfold State.abandonWindow
  split
  · exact .refl s
  · refine Moves.trans ?_ (State.raiseLateOf_moves _ _)
    exact .same (by simp) (by simp)

theorem State.takingPointReached_moves (s : State) : Moves V s s.takingPointReached := by
  unfold State.takingPointReached
  split
  · exact .refl s
  · split
    · refine Moves.trans ?_ ((State.advanceLine_moves _).trans (State.arbitrate_moves _))
      exact .same (by simp) (by simp)
    · exact (State.abandonWindow_moves s _ _).trans
        ((State.advanceLine_moves _).trans (State.arbitrate_moves _))

theorem State.beginLine_moves (s : State) (line : Nat) : Moves V s (s.beginLine line) := by
  unfold State.beginLine
  dsimp only
  split
  · refine Moves.trans ?_ ((State.openLine_moves _ _).trans (State.arbitrate_moves _))
    exact .same rfl rfl
  · exact .same rfl rfl

theorem State.engineStep_moves (s : State) : Moves V s s.engineStep := by
  unfold State.engineStep
  dsimp only
  split
  · exact .same rfl rfl
  · split
    · refine Moves.trans ?_ ((State.openLine_moves _ _).trans (State.arbitrate_moves _))
      exact .same rfl rfl
    · refine Moves.trans ?_ (State.arbitrate_moves _)
      exact .same rfl rfl

/-! ### Operations of the stack and the records -/

theorem State.fetchFault_moves (s : State) (i : SlotId) (h : (s.slot i).state = .onAir) :
    Moves V s (s.fetchFault i) := by
  have h1 := s.raise_moves (V := V) i .fetchFault (by simp [h])
  have h2 := State.leaveStack_moves (V := V) (s.raise i .fetchFault) i .faulted (by simpa using h) (.inr rfl)
  exact (h1.trans h2).trans (Moves.same rfl rfl)

theorem State.maskFault_moves (s : State) (i : SlotId) (g : Generation) : Moves V s (s.maskFault i g) := by
  unfold State.maskFault
  split
  · next h =>
    have hf := State.fetchFault_moves (V := V) { s with engine := { s.engine with channel := .idle } } i h.1
    refine Moves.trans (.same rfl rfl) ?_
    dsimp only
    split
    · exact hf
    · exact hf.trans (State.advanceLine_moves _)
  · exact .refl s

/-- A record that expires was ON AIR. -/
theorem Slot.expires_onAir {r : Slot} (h : r.expires = true) : r.state = .onAir := by
  unfold Slot.expires at h
  split at h
  · simp at h
  · simp [Slot.counted] at h; exact h.1.1.1

theorem Slot.blinks_onAir {r : Slot} (h : r.blinks = true) : r.state = .onAir := by
  unfold Slot.blinks at h
  split at h
  · simp at h
  · simp [Slot.counted] at h; exact h.1.1.1

@[simp] theorem Slot.count_state (r : Slot) : r.count.state = r.state := by
  unfold Slot.count
  split
  · rfl
  · split <;> rfl

@[simp] theorem Slot.countLifetimeOnly_state (r : Slot) : r.countLifetimeOnly.state = r.state := by
  unfold Slot.countLifetimeOnly
  split <;> rfl

@[simp] theorem Slot.convert_state (r : Slot) (v : Latched) : (r.convert v).state = r.state := by
  unfold Slot.convert
  split
  · rfl
  · split <;> rfl

/-- Adoption neither puts a record on the stack nor takes it off (R35). -/
theorem Slot.adopt_onAir (r : Slot) : r.adopt.state = .onAir ↔ r.state = .onAir := by
  cases h : r.state <;> simp [Slot.adopt, h, RecState.adopted]

theorem Slot.publicationTick_onAir (r : Slot) : r.publicationTick.state = .onAir ↔ r.state = .onAir := by
  unfold Slot.publicationTick
  split
  · exact r.adopt_onAir
  · exact Iff.rfl

theorem State.removeExpired_moves (s : State) (i : SlotId) (h : (s.slot i).state = .onAir) :
    Moves V s (s.removeExpired i) := by
  unfold State.removeExpired
  split
  · exact s.freeRecord_moves i (by simp [h])
  · exact s.leaveStack_moves i _ h (.inl rfl)

theorem State.removeExpired_slot (s : State) (i j : SlotId) (h : j ≠ i) : (s.removeExpired i).slot j = s.slot j := by
  unfold State.removeExpired
  split
  · rw [State.freeRecord_slot]; simp [h]
  · rw [State.leaveStack_slot]; simp [h]

theorem State.removeAll_moves (l : List SlotId) (hl : l.Nodup) (s : State)
    (h : ∀ i, i ∈ l → (s.slot i).state = .onAir) : Moves V s (l.foldl State.removeExpired s) := by
  induction l generalizing s with
  | nil => exact .refl s
  | cons i l ih =>
    have hi := List.nodup_cons.1 hl
    refine (s.removeExpired_moves i (h i (by simp))).trans (ih hi.2 _ fun j hj => ?_)
    rw [State.removeExpired_slot _ _ _ (fun e => hi.1 (by rw [← e]; exact hj))]
    exact h j (by simp [hj])

theorem State.guardExpire_moves (s : State) : Moves V s s.guardExpire :=
  s.liftAll_moves.trans (.same rfl rfl)

theorem State.guardStep_moves (s : State) : Moves V s s.guardStep := by
  unfold State.guardStep
  split
  · exact s.guardExpire_moves
  · split
    · exact .same rfl rfl
    · exact .refl s

theorem State.finishHeld_moves (s : State) (c : Completion) (r0 r1 : Word) : Moves V s (s.finishHeld c r0 r1) :=
  .same rfl rfl

theorem State.evict_moves (s : State) (i : SlotId) (h : (s.slot i).state = .onAir) : Moves V s (s.evict i) :=
  (s.leaveStack_moves i _ h (.inl rfl)).trans (State.raise_moves _ _ _ (by simp [State.leaveStack_slot]))

theorem State.evict_stack (s : State) (i : SlotId) : (s.evict i).stack = s.stack.erase i := rfl

theorem State.evict_state (s : State) (i j : SlotId) (h : j ≠ i) : ((s.evict i).slot j).state = (s.slot j).state := by
  unfold State.evict
  rw [State.raise_state, State.leaveStack_slot]
  simp [h]

/-- A held PUSH applied keeps the law of the stack (R49, R50). -/
theorem State.applyPush_moves (s : State) (i : SlotId) (g : Generation) : Moves V s (s.applyPush i g) := by
  intro hs
  unfold State.applyPush
  split
  · exact s.finishHeld_moves _ _ _ hs
  · split
    · next h =>
      exact ((s.enterStack_moves i (.inl h) (.inl ((hs.2.2 i).2 h))).trans (State.finishHeld_moves _ _ _ _)) hs
    · next h =>
      split
      · split
        · next e he =>
          have hm : e ∈ s.stack := List.mem_of_getLast? he
          have ho := (hs.2.2 e).1 hm
          have hne : i ≠ e := fun c => by rw [c, ho] at h; cases h
          refine ((s.evict_moves e ho).trans ((State.enterStack_moves _ i (.inr ?_) (.inr ?_)).trans
            (State.finishHeld_moves _ _ _ _))) hs
          · rw [State.evict_state _ _ _ hne]; exact h
          · rw [State.evict_stack, List.length_erase_of_mem hm]
            have := List.length_pos_of_mem hm
            have := hs.2.1
            omega
        · next he =>
          rw [List.getLast?_eq_none_iff] at he
          refine ((s.enterStack_moves i (.inr h) (.inr ?_)).trans (State.finishHeld_moves _ _ _ _)) hs
          simp [he, Config.stackDepth]
      · next hl =>
        refine ((s.enterStack_moves i (.inr h) (.inr ?_)).trans (State.finishHeld_moves _ _ _ _)) hs
        omega
    · exact s.finishHeld_moves _ _ _ hs

theorem State.stillOnAir_onAir {s : State} {i : SlotId} {g : Generation} (h : s.stillOnAir i g = true) :
    (s.slot i).state = .onAir := by
  simp [State.stillOnAir] at h
  exact h.1

theorem Moves.perm {s t : State} (hs : t.slots = s.slots) (hp : t.stack.Perm s.stack) : Moves V s t := fun h =>
  ⟨StackLaw_perm h hp hs, fun i => by
    have : t.slot i = s.slot i := by simp [State.slot, hs]
    rw [this]; exact .refl⟩

/-- The application of a held request keeps the law of the stack (R46 to R53). -/
theorem State.applyHeld_moves (s : State) : Moves V s s.applyHeld := by
  unfold State.applyHeld
  split
  · exact .refl s
  · exact s.applyPush_moves _ _
  · unfold State.applyLift
    split
    · next h =>
      exact (s.leaveStack_moves _ _ (State.stillOnAir_onAir h) (.inl rfl)).trans (State.finishHeld_moves _ _ _ _)
    · exact s.finishHeld_moves _ _ _
  · unfold State.applyRaise
    split
    · split
      · exact s.finishHeld_moves _ _ _
      · exact Moves.perm (by simp) (exchange_perm _ _)
    · exact s.finishHeld_moves _ _ _
  · unfold State.applyLower
    split
    · split
      · exact Moves.perm (by simp) (exchange_perm _ _)
      · exact s.finishHeld_moves _ _ _
    · exact s.finishHeld_moves _ _ _
  · exact s.liftAll_moves.trans (State.finishHeld_moves _ _ _ _)
  · unfold State.applyRetire
    split
    · next h =>
      have hf := s.freeRecord_moves (V := V) _ (fun e => by rcases h.2 with c | c <;> rw [e] at c <;> cases c)
      exact hf.trans (.same rfl rfl)
    · exact .same (by simp) (by simp)

theorem State.countStep_moves (s : State) : Moves V s s.countStep :=
  s.mapSlots_moves _ (fun _ => .counted _) (fun _ => by simp)

theorem State.publicationStep_moves (s : State) : Moves V s s.publicationStep :=
  s.mapSlots_moves _ (fun _ => .ticked _) (fun _ => Slot.publicationTick_onAir _)

theorem State.convertStep_moves (s : State) (hv : V s.tb.latched) : Moves V s s.convertStep :=
  s.mapSlots_moves _ (fun _ => .converted _ _ hv) (fun _ => by simp)

/-- The records' work at a field start keeps the law of the stack. -/
theorem State.recordStep_moves (s : State) : Moves V s s.recordStep := by
  unfold State.recordStep State.stackStep
  refine s.countStep_moves.trans ((State.removeAll_moves _ ?_ _ fun i hi => ?_).trans
    ((State.guardStep_moves _).trans ((State.applyHeld_moves _).trans (State.publicationStep_moves _))))
  · exact (List.nodup_finRange 24).filter _
  · have : (s.slot i).expires = true := by simpa [State.expiring] using hi
    show ((s.mapSlots _).slot i).state = _
    simpa using Slot.expires_onAir this

theorem State.fieldStart_moves (s : State) (cut : Bool) (hv : ∀ v, V v) : Moves V s (s.fieldStart cut) := by
  unfold State.fieldStart
  refine Moves.trans (t := s.beginField.recordStep.convertStep) ?_ ?_
  · have h1 : Moves V s s.beginField.recordStep :=
      (Moves.same (by simp) (by simp)).trans ((State.recordStep_moves s.beginField).trans (.same (by simp) (by simp)))
    exact h1.trans (State.convertStep_moves _ (hv _))
  · refine Moves.trans ?_ ((State.engineStep_moves
      (s.beginField.recordStep.convertStep.blankingStep cut)).trans ?_)
    · exact .same (by simp) (by simp)
    · exact .same (by simp) (by simp)

/-- The marks of a superseded conversion taken back clear flags of a record, and change the off-raster history of a
converted one. -/
theorem Slot.unmark_steps (r m : Slot) : SlotSteps V r (r.unmark m) := by
  obtain ⟨w, e⟩ := r.attention.meet_clear m.attention
  have hc : SlotSteps V r { r with attention := r.attention.clear w } := .one (.cleared r w)
  unfold Slot.unmark
  rw [e]
  split
  · next h =>
    exact hc.tail (.marked { r with attention := r.attention.clear w } _ _
      (fun (e : r.state = .free) => by simp [e, RecState.converted] at h))
  · exact hc

@[simp] theorem Slot.unmark_state (r m : Slot) : (r.unmark m).state = r.state := rfl

theorem State.unmark_slot (s : State) (i : SlotId) :
    s.unmark.slot i = match s.marks with
      | none => s.slot i
      | some m => (s.slot i).unmark m.records[i] := by
  unfold State.unmark
  split <;> simp [*, State.slot]

theorem State.unmark_moves (s : State) : Moves V s s.unmark := fun hs =>
  ⟨StackLaw_congr hs (by simp) fun i => by rw [State.unmark_slot]; split <;> simp, fun i => by
    rw [State.unmark_slot]
    split
    · exact .refl
    · exact Slot.unmark_steps _ _⟩

theorem State.recutFieldStart_moves (s : State) (hv : ∀ v, V v) : Moves V s s.recutFieldStart := by
  unfold State.recutFieldStart
  refine Moves.trans (t := (s.lineAt s.tb.lineStartAt).unmark.latch.convertStep) ?_ ?_
  · have h1 : Moves V s (s.lineAt s.tb.lineStartAt).unmark.latch :=
      (Moves.same rfl rfl).trans ((State.unmark_moves (s.lineAt s.tb.lineStartAt)).trans (.same (by simp) (by simp)))
    exact h1.trans (State.convertStep_moves _ (hv _))
  · refine Moves.trans ?_ ((State.engineStep_moves
      ((s.lineAt s.tb.lineStartAt).unmark.latch.convertStep.blankingStep true)).trans ?_)
    · exact .same (by simp) (by simp)
    · exact .same (by simp) (by simp)

/-! ### Commands -/

/-- What is kept by every way a command on a handle can end. -/
theorem State.withHandle_ind {P : State → Prop} {s : State} {k : SlotId → Generation → State → State}
    (bad : P (s.completeZero .badArgument)) (stale : P (s.completeZero .staleHandle))
    (live : ∀ i g, s.cmd.arg0 = handleOf i g → (s.slot i).state ≠ .free → (s.slot i).gen = g → P (k i g s)) :
    P (s.withHandle k) := by
  unfold State.withHandle
  split
  · exact bad
  · next i g h =>
    split
    · next hl =>
      simp [State.live] at hl
      refine live i g ?_ hl.1 hl.2
      unfold parseHandle at h
      split at h
      · next hb =>
        simp only [Option.some.injEq, Prod.mk.injEq] at h
        rw [← h.1, ← h.2]
        unfold handleOf
        apply BitVec.eq_of_toNat_eq
        simp
        omega
      · cases h
    · exact stale

theorem State.lowestFree_free {s : State} {i : SlotId} (h : s.lowestFree = some i) : (s.slot i).state = .free := by
  unfold State.lowestFree at h
  simpa using List.find?_some h

/-- A FREE slot becomes a new DRAFT record, and no other record changes (R13, R14). -/
def Drafts (s t : State) : Prop :=
  ∃ i c, (s.slot i).state = .free ∧ t.stack = s.stack ∧
    ∀ j, t.slot j = if j = i then (s.slot i).drafted c else s.slot j

theorem State.draftIn_drafts (s : State) (i : SlotId) (c : Copy) (r0 : Word) (h : (s.slot i).state = .free) :
    Drafts s ((s.modifySlot i (fun r => r.drafted c)).complete .ok r0 0#16) :=
  ⟨i, c, h, rfl, fun j => by
    rw [State.complete_slot, State.modifySlot_slot]⟩

/-- A new DRAFT record leaves the law of the stack. -/
theorem Drafts.stackLaw {s t : State} (h : Drafts s t) (hs : StackLaw s) : StackLaw t := by
  obtain ⟨i, c, hf, hk, hj⟩ := h
  refine StackLaw_congr hs hk fun j => ?_
  rw [hj]
  split
  · next e => subst e; simp [Slot.drafted, hf]
  · exact Iff.rfl

theorem State.cancelPending_moves (s : State) (i : SlotId) : Moves V s (s.cancelPending i) :=
  s.modifySlot_moves i _ (.cancelled _) Iff.rfl

theorem State.setPending_moves (s : State) (i : SlotId) (n : Nat) (h : (s.slot i).state ≠ .free) (hn : n ≤ 255)
    (hl : (s.slot i).staging.legal = true) : Moves V s (s.modifySlot i (fun r => { r with pending := some n })) :=
  s.modifySlot_moves i _ (.published _ n h hn hl) Iff.rfl

/-- A command just taken drafts a record, or changes each record by the listed changes alone. -/
theorem commandEffect_moves (x : Bool) (code : BitVec 5) (s : State) :
    Moves V s (commandEffect x code s) ∨ Drafts s (commandEffect x code s) := by
  have same : ∀ {t : State}, t.slots = s.slots → t.stack = s.stack → Moves V s t ∨ Drafts s t :=
    fun h k => .inl (.same h k)
  apply commandEffect_cases (P := fun e => Moves V s (e s) ∨ Drafts s (e s))
  case openRecord =>
    unfold openEffect
    split
    · exact same (by simp) (by simp)
    · split
      · exact same (by simp) (by simp)
      · next i hi =>
        exact .inr (s.draftIn_drafts i _ _ (State.lowestFree_free hi))
  case clone =>
    unfold cloneEffect
    refine State.withHandle_ind (P := fun t => Moves V s t ∨ Drafts s t) (same (by simp) (by simp)) (same (by simp) (by simp)) ?_
    intro src g _ _ _
    split
    · exact same (by simp) (by simp)
    · next i hi =>
      exact .inr (s.draftIn_drafts i _ _ (State.lowestFree_free hi))
  case retire =>
    unfold retireEffect
    refine State.withHandle_ind (P := fun t => Moves V s t ∨ Drafts s t) (same (by simp) (by simp)) (same (by simp) (by simp)) ?_
    intro i g _ hl _
    split
    · exact .inl ((s.cancelPending_moves i).trans (.same rfl rfl))
    · exact .inl ((s.freeRecord_moves i hl).trans (.same rfl rfl))
  case publish =>
    unfold publishEffect
    split
    · exact same (by simp) (by simp)
    · next i g _ =>
      split
      · exact same (by simp) (by simp)
      · next hn =>
        split
        · exact same (by simp) (by simp)
        · next hl =>
          split
          · exact same (by simp) (by simp)
          · split
            · exact same (by simp) (by simp)
            · next hp =>
              simp [State.live] at hl
              exact .inl ((s.setPending_moves i _ hl.1 (by omega) (by simp [Copy.legal, hp])).trans (.same rfl rfl))
  case withdraw =>
    unfold withdrawEffect
    refine State.withHandle_ind (P := fun t => Moves V s t ∨ Drafts s t) (same (by simp) (by simp)) (same (by simp) (by simp)) ?_
    intro i g _ hl _
    split
    · exact .inl ((s.cancelPending_moves i).trans (.same rfl rfl))
    · exact same (by simp) (by simp)
  all_goals intros; exact same (by simp) (by simp)

/-- An accepted write of a record word keeps the law of the stack. -/
theorem State.writePointed_moves {s t : State} {value : Word} (h : s.writePointed value = some t) : Moves V s t := by
  obtain ⟨staging, attention, e, hp, ha⟩ := State.writePointed_some h
  intro hs
  have hw : ∀ j, t.slot j = if j = s.port.pointer.slot then
      { s.slot s.port.pointer.slot with staging := staging, attention := attention } else s.slot j := by
    intro j; subst e; exact WithSlot_slot s _ j _
  refine ⟨StackLaw_congr hs (by subst e; rfl) fun j => ?_, fun j => ?_⟩
  · rw [hw]
    split
    · next e => subst e; exact Iff.rfl
    · exact Iff.rfl
  · rw [hw]
    split
    · next e =>
      subst e
      generalize s.slot s.port.pointer.slot = r at *
      have last : ∀ q : Slot, q.attention = r.attention → SlotSteps V q { q with attention := attention } := by
        intro q hq
        rcases ha with e | e
        · rw [e, ← hq]; exact .refl
        · rw [e, ← hq]; exact .one (.cleared q value)
      by_cases hc : r.state = .free ∨ r.pending.isSome = true
      · rw [hp hc]; exact last r rfl
      · have hn : r.pending = none := by simpa using fun h => hc (.inr h)
        exact (SlotSteps.one (V := V) (.staged r staging (fun h => hc (.inl h)) hn)).trans (last _ rfl)
    · exact .refl

theorem State.answerImage_moves (s : State) (w : Word) : Moves V s (s.answerImage w) := by
  unfold State.answerImage
  split
  · next t _ _ =>
    refine Moves.trans (t := s.wordArrived t w) ?_ (.same (by simp) (by simp))
    unfold State.wordArrived
    split
    · next f hf => exact (State.writePointed_moves hf).trans (.same (by simp) (by simp))
    · exact .same (by simp) (by simp)
  · exact .refl s

theorem State.busTimeout_moves (s : State) : Moves V s s.busTimeout := by
  unfold State.busTimeout
  split
  · next i g _ _ _ _ => exact (s.maskFault_moves i g).trans (.same (by simp) (by simp))
  all_goals exact .same (by simp) (by simp)

/-- Every command but power-on drafts a record, or changes each record by the listed changes alone. -/
theorem exec_moves (hv : ∀ v, V v) (c : Instr) (s t : State) (hc : c ≠ .powerOn) (h : exec c s = .next t) :
    Moves V s t ∨ Drafts s t := by
  have tim : ∀ u, Moves V s u → (∀ x, Moves V s (u.cutSwitch x)) ∧ (∀ x, Moves V s (u.slewSwitch x)) ∧
      Moves V s u.computerLineEnd ∧ (∀ x t, Moves V s (u.tracked x t)) :=
    fun u hu => State.timing_ind (P := Moves V s)
      (fun _ _ r h => h.trans (.same r.1.2.1 r.1.2.2.1)) (fun _ _ h => h.trans (State.fieldStart_moves _ _ hv))
      (fun _ h => h.trans (State.recutFieldStart_moves _ hv)) (fun _ h => h.trans (.same (by simp) (by simp))) u hu
  have key : c ≠ .powerOn → Moves V s t ∨ Drafts s t := by
    refine exec_ind (P := fun t => c ≠ .powerOn → Moves V s t ∨ Drafts s t) h ?self ?powerOn ?busReset ?release ?overrun
      ?refuse ?taken ?stored ?flags ?mask ?pointer ?read ?readRefused ?written ?field ?adoption ?expiry ?autoRetire
      ?blink ?guard ?applyHeld ?timeout ?settle ?beginLine ?takingPoint ?grant ?answerMask ?answerImage ?acknowledge
      ?busTimeout ?tracked ?cut ?slew ?lineEnd
    case powerOn => exact fun e hc => absurd e hc
    case busReset =>
      refine fun _ => .inl fun hs => ?_
      have hb : ∀ i, s.busReset.slot i = (s.slot i).busReset := by
        intro i; simp [State.busReset, State.slot]
      have hf : ∀ r : Slot, r.busReset.state = .free := by
        intro r; unfold Slot.busReset; split
        · assumption
        · rfl
      refine ⟨⟨by simp [State.busReset], by simp [State.busReset], fun i => ?_⟩, fun i => ?_⟩
      · rw [hb, hf]; simp [State.busReset]
      · rw [hb]
        unfold Slot.busReset
        split
        · exact .refl
        · next e => exact .one (.freed _ e)
    case taken =>
      intro code ie _ _
      have h0 : Moves V s (s.take code ie) := .same rfl rfl
      exact (commandEffect_moves _ _ (s.take code ie)).imp h0.trans id
    case written => exact fun v t _ hw _ => .inl <| State.writePointed_moves hw
    case field => exact fun _ => .inl <| s.fieldStart_moves _ hv
    case adoption => exact fun i ha _ => .inl <| s.modifySlot_moves i _ (.adopted _ ha) (Slot.adopt_onAir _)
    case expiry =>
      intro i he _
      have ho := Slot.expires_onAir he
      refine .inl <| (s.modifySlot_moves i _ (.lifetime _ ho) (by simp)).trans (State.leaveStack_moves _ i _ ?_ (.inl rfl))
      simpa using ho
    case autoRetire =>
      intro i he _
      have ho := Slot.expires_onAir he
      refine .inl <| (s.modifySlot_moves i _ (.lifetime _ ho) (by simp)).trans (State.freeRecord_moves _ i ?_)
      simp [ho]
    case blink => exact fun i hb _ => .inl <| s.modifySlot_moves i _ (.lifetime _ (Slot.blinks_onAir hb)) (by simp)
    case guard => exact fun _ _ => .inl <| s.guardExpire_moves
    case applyHeld => exact fun _ => .inl <| s.applyHeld_moves
    case beginLine => exact fun l _ => .inl <| s.beginLine_moves l
    case takingPoint => exact fun _ => .inl <| s.takingPointReached_moves
    case answerImage => exact fun w _ => .inl <| s.answerImage_moves w
    case busTimeout => exact fun _ => .inl <| s.busTimeout_moves
    case tracked => exact fun x time t _ _ => .inl <| (tim (s.clockAt time) (.same rfl rfl)).2.2.2 x t
    case cut => exact fun x _ _ => .inl <| (tim _ (.refl s)).1 x
    case slew => exact fun x _ _ => .inl <| (tim _ (.refl s)).2.1 x
    case lineEnd => exact fun _ => .inl <| (tim _ (.refl s)).2.2.1
    all_goals intros; exact .inl (.same (by simp) (by simp))
  exact key hc

end Sys2Proof.Machine
end

