-- ==== Sys2Proof/Laws/Attention.lean ====
section
/-! SUPPORT. Wherever an attention flag goes from clear to set, WINDOW is set (R171). -/

namespace Sys2Proof.Machine

/-- WINDOW stays set, and it is set where some record's attention flag is newly set (R171). -/
def Announces (s t : State) : Prop :=
  (s.events.window = true → t.events.window = true) ∧
    ∀ i, (s.slot i).attention.newlySet (t.slot i).attention = true → t.events.window = true

/-- A flag newly set over two changes is newly set by the first or by the second. -/
theorem Attention.newlySet_trans {a b c : Attention} (h : a.newlySet c = true) :
    a.newlySet b = true ∨ b.newlySet c = true := by
  simp only [Attention.newlySet, Bool.or_eq_true, Bool.and_eq_true, Bool.not_eq_true'] at *
  rcases h with (((h | h) | h) | h) | h
  · cases hb : b.evicted <;> simp [h]
  · cases hb : b.late <;> simp [h]
  · cases hb : b.convert <;> simp [h]
  · cases hb : b.expired <;> simp [h]
  · cases hb : b.fetchFault <;> simp [h]

theorem Announces.trans {s t u : State} (a : Announces s t) (b : Announces t u) : Announces s u :=
  ⟨fun h => b.1 (a.1 h), fun i h => by
    rcases Attention.newlySet_trans (b := (t.slot i).attention) h with h | h
    · exact b.1 (a.2 i h)
    · exact b.2 i h⟩

/-- No record changes and WINDOW stands. -/
theorem Announces.same {s t : State} (hs : t.slots = s.slots) (hw : t.events.window = s.events.window) :
    Announces s t :=
  ⟨fun h => by rw [hw]; exact h, fun i h => by
    have : t.slot i = s.slot i := by simp [State.slot, hs]
    rw [this] at h
    simp at h⟩

theorem Announces.refl (s : State) : Announces s s := .same rfl rfl

theorem State.modifySlot_announces (s : State) (i : SlotId) (f : Slot → Slot) : Announces s (s.modifySlot i f) :=
  ⟨fun h => by rw [State.modifySlot_window]; simp [h], fun j h => by
    rw [State.modifySlot_slot] at h
    rw [State.modifySlot_window]
    split at h
    · next e => subst e; simp [h]
    · simp at h⟩

theorem State.mapSlots_announces (s : State) (f : SlotId → Slot → Slot) : Announces s (s.mapSlots f) :=
  ⟨fun h => by simp [State.mapSlots, h], fun j h => by
    rw [State.mapSlots_slot] at h
    simp only [State.mapSlots]
    rw [Bool.or_eq_true, List.any_eq_true]
    exact .inr ⟨j, List.mem_finRange j, h⟩⟩

/-! ### The engine -/

theorem State.raise_announces (s : State) (i : SlotId) (a : AttentionFlag) : Announces s (s.raise i a) :=
  Announces.trans (t := s.markRaise i a) (.same rfl rfl) ((s.markRaise i a).modifySlot_announces i _)

theorem State.raiseLate_announces (s : State) (l : List SlotId) : Announces s (s.raiseLate l) := by
  unfold State.raiseLate
  induction l generalizing s with
  | nil => exact .refl s
  | cons i l ih => exact (s.raise_announces i .late).trans (ih _)

theorem State.openLine_announces (s : State) (line : Nat) : Announces s (s.openLine line) := by
  unfold State.openLine
  refine Announces.trans ?_ (State.raiseLate_announces _ _)
  exact .same rfl rfl

theorem State.advanceLine_announces (s : State) : Announces s s.advanceLine := by
  unfold State.advanceLine
  split
  · exact s.openLine_announces _
  · exact .refl s

theorem State.arbitrate_announces (s : State) : Announces s s.arbitrate := .same (by simp) (by simp)

theorem State.abandonWindow_announces (s : State) (place : Nat) (x : Int) :
    Announces s (s.abandonWindow place x) := by
  unfold State.abandonWindow
  split
  · exact .refl s
  · unfold State.raiseLateOf
    split
    · refine Announces.trans ?_ (State.raise_announces _ _ _)
      exact .same (by simp) (by simp)
    · exact .same (by simp) (by simp)

theorem State.takingPointReached_announces (s : State) : Announces s s.takingPointReached := by
  unfold State.takingPointReached
  split
  · exact .refl s
  · split
    · refine Announces.trans ?_ ((State.advanceLine_announces _).trans (State.arbitrate_announces _))
      exact .same (by simp) (by simp)
    · exact (s.abandonWindow_announces _ _).trans
        ((State.advanceLine_announces _).trans (State.arbitrate_announces _))

theorem State.beginLine_announces (s : State) (line : Nat) : Announces s (s.beginLine line) := by
  unfold State.beginLine
  dsimp only
  split
  · refine Announces.trans ?_ ((State.openLine_announces _ _).trans (State.arbitrate_announces _))
    exact .same rfl rfl
  · exact .same rfl rfl

theorem State.engineStep_announces (s : State) : Announces s s.engineStep := by
  unfold State.engineStep
  dsimp only
  split
  · exact .same rfl rfl
  · split
    · refine Announces.trans ?_ ((State.openLine_announces _ _).trans (State.arbitrate_announces _))
      exact .same rfl rfl
    · refine Announces.trans ?_ (State.arbitrate_announces _)
      exact .same rfl rfl

/-! ### The stack -/

theorem State.freeRecord_announces (s : State) (i : SlotId) : Announces s (s.freeRecord i) := by
  unfold State.freeRecord
  exact (s.modifySlot_announces i (fun r => Slot.blank (r.gen + 1))).trans (.same rfl rfl)

theorem State.leaveStack_announces (s : State) (i : SlotId) (x : RecState) : Announces s (s.leaveStack i x) := by
  unfold State.leaveStack
  exact (s.modifySlot_announces i (fun r => { r with state := x })).trans (.same rfl rfl)

theorem State.enterStack_announces (s : State) (i : SlotId) : Announces s (s.enterStack i) := by
  unfold State.enterStack
  exact (s.modifySlot_announces i (fun r => { r with state := .onAir })).trans (.same rfl rfl)

theorem State.liftAll_announces (s : State) : Announces s s.liftAll := by
  unfold State.liftAll
  exact (s.mapSlots_announces (fun i r => if i ∈ s.stack then { r with state := .standby } else r)).trans (.same rfl rfl)

theorem State.fetchFault_announces (s : State) (i : SlotId) : Announces s (s.fetchFault i) := by
  have h1 := s.raise_announces i .fetchFault
  have h2 := State.leaveStack_announces (s.raise i .fetchFault) i .faulted
  exact (h1.trans h2).trans (.same rfl rfl)

theorem State.maskFault_announces (s : State) (i : SlotId) (g : Generation) : Announces s (s.maskFault i g) := by
  unfold State.maskFault
  split
  · have hf := State.fetchFault_announces { s with engine := { s.engine with channel := .idle } } i
    refine Announces.trans (.same rfl rfl) ?_
    dsimp only
    split
    · exact hf
    · exact hf.trans (State.advanceLine_announces _)
  · exact .refl s

theorem State.removeExpired_announces (s : State) (i : SlotId) : Announces s (s.removeExpired i) := by
  unfold State.removeExpired
  split
  · exact s.freeRecord_announces i
  · exact s.leaveStack_announces i _

theorem State.removeAll_announces (s : State) (l : List SlotId) : Announces s (l.foldl State.removeExpired s) := by
  induction l generalizing s with
  | nil => exact .refl s
  | cons i l ih => exact (s.removeExpired_announces i).trans (ih _)

theorem State.guardExpire_announces (s : State) : Announces s s.guardExpire := by
  unfold State.guardExpire
  exact s.liftAll_announces.trans (.same rfl rfl)

theorem State.guardStep_announces (s : State) : Announces s s.guardStep := by
  unfold State.guardStep
  split
  · exact s.guardExpire_announces
  · split
    · exact .same rfl rfl
    · exact .refl s

theorem State.finishHeld_announces (s : State) (c : Completion) (r0 r1 : Word) :
    Announces s (s.finishHeld c r0 r1) := .same rfl rfl

theorem State.evict_announces (s : State) (i : SlotId) : Announces s (s.evict i) := by
  unfold State.evict
  exact (s.leaveStack_announces i _).trans (State.raise_announces _ _ _)

theorem State.cancelPending_announces (s : State) (i : SlotId) : Announces s (s.cancelPending i) :=
  s.modifySlot_announces i _

theorem State.applyHeld_announces (s : State) : Announces s s.applyHeld := by
  have enter : ∀ (u : State) i c r0 r1, Announces u ((u.enterStack i).finishHeld c r0 r1) :=
    fun u i c r0 r1 => (u.enterStack_announces i).trans (State.finishHeld_announces _ _ _ _)
  unfold State.applyHeld
  split
  · exact .refl s
  · unfold State.applyPush
    split
    · exact s.finishHeld_announces _ _ _
    · split
      · exact enter _ _ _ _ _
      · split
        · split
          · exact (s.evict_announces _).trans (enter _ _ _ _ _)
          · exact enter _ _ _ _ _
        · exact enter _ _ _ _ _
      · exact s.finishHeld_announces _ _ _
  · unfold State.applyLift
    split
    · exact (s.leaveStack_announces _ _).trans (State.finishHeld_announces _ _ _ _)
    · exact s.finishHeld_announces _ _ _
  · unfold State.applyRaise
    split
    · split
      · exact s.finishHeld_announces _ _ _
      · exact .same rfl rfl
    · exact s.finishHeld_announces _ _ _
  · unfold State.applyLower
    split
    · split
      · exact .same rfl rfl
      · exact s.finishHeld_announces _ _ _
    · exact s.finishHeld_announces _ _ _
  · exact s.liftAll_announces.trans (State.finishHeld_announces _ _ _ _)
  · unfold State.applyRetire
    split
    · exact (s.freeRecord_announces _).trans (.same rfl rfl)
    · exact .same rfl rfl

/-! ### Field starts -/

theorem State.recordStep_announces (s : State) : Announces s s.recordStep := by
  unfold State.recordStep State.stackStep
  exact (s.mapSlots_announces _).trans ((State.removeAll_announces _ _).trans ((State.guardStep_announces _).trans
    ((State.applyHeld_announces _).trans (State.mapSlots_announces _ _))))

theorem State.judgeSelect_window (s : State) (x : Input) (m : SwitchMode) (c : Bool) :
    (s.judgeSelect x m c).events.window = s.events.window := by
  simp only [State.judgeSelect]
  (repeat' split) <;> rfl

theorem State.settleHeldSelect_window (s : State) : s.settleHeldSelect.events.window = s.events.window := by
  simp only [State.settleHeldSelect, State.examineHeld]
  (repeat' split) <;> first | rfl | exact State.judgeSelect_window _ _ _ _

theorem State.heldSelectStep_window (s : State) : s.heldSelectStep.events.window = s.events.window := by
  simp only [State.heldSelectStep, State.examineHeld]
  (repeat' split) <;> first | rfl | exact State.judgeSelect_window _ _ _ _

theorem State.settleSlew_window (s : State) : s.settleSlew.events.window = s.events.window :=
  (State.settleSlew_retimed s).2.1

theorem State.beginField_window (s : State) : s.beginField.events.window = s.events.window := by
  have : s.slewVertical.events.window = s.events.window := by
    unfold State.slewVertical
    split
    · exact State.settleSlew_window _
    · rfl
  exact this

/-- A field start as far as its marks. -/
theorem State.recordStep_beginField_announces (s : State) : Announces s s.beginField.recordStep :=
  Announces.trans (.same (by simp) (State.beginField_window s)) (State.recordStep_announces _)

theorem State.fieldStart_announces (s : State) (cut : Bool) : Announces s (s.fieldStart cut) := by
  unfold State.fieldStart
  generalize hu : s.beginField.recordStep = u
  have h1 : Announces s u := hu ▸ s.recordStep_beginField_announces
  have h3 : Announces u u.convertStep := State.mapSlots_announces _ _
  generalize u.convertStep = v at *
  have h4 : Announces v (v.blankingStep cut) := .same rfl rfl
  have h5 := State.engineStep_announces (v.blankingStep cut)
  generalize (v.blankingStep cut).engineStep = w at *
  have h6 : Announces w (w.markFrom u) := .same rfl rfl
  exact h1.trans (h3.trans (h4.trans (h5.trans (h6.trans
    (.same (State.heldSelectStep_frame _).2.2.1 (State.heldSelectStep_window _))))))

theorem State.settleHeldSelect_announces (s : State) : Announces s s.settleHeldSelect :=
  .same (by simp) (State.settleHeldSelect_window s)

/-- Between two states of one event: WINDOW is set where a flag is newly set, and where one is, the marks of the latest
field start belong to the event, so that taking them back leaves WINDOW as the event's own flags need it. -/
def Announced (s u : State) : Prop :=
  (∀ i, (s.slot i).attention.newlySet (u.slot i).attention = true → u.events.window = true) ∧
    ((∀ i, (s.slot i).attention.newlySet (u.slot i).attention = false) ∨
      ∀ m, u.marks = some m → ∀ i : SlotId, (s.slot i).attention.newlySet m.records[i].attention = true →
        m.window = true)

theorem Announces.after {s u v : State} (a : Announced s u) (b : Announces u v) (i : SlotId)
    (h : (s.slot i).attention.newlySet (v.slot i).attention = true) : v.events.window = true := by
  rcases Attention.newlySet_trans (b := (u.slot i).attention) h with h | h
  · exact b.1 (a.1 i h)
  · exact b.2 i h

theorem Announced.same {s u v : State} (a : Announced s u) (hs : v.slots = u.slots)
    (hw : v.events.window = u.events.window) (hm : v.marks = u.marks) : Announced s v := by
  have e : ∀ i, v.slot i = u.slot i := fun i => by simp [State.slot, hs]
  unfold Announced at *
  simp only [e, hw, hm]
  exact a

theorem Announced.fieldStart {s u : State} (a : Announced s u) (cut : Bool) : Announced s (u.fieldStart cut) := by
  refine ⟨Announces.after a (u.fieldStart_announces cut), .inr fun m hm i h => ?_⟩
  have e : (u.fieldStart cut).marks =
      some { records := u.beginField.recordStep.slots, window := u.beginField.recordStep.events.window } := by
    unfold State.fieldStart; simp [State.markFrom]
  rw [e, Option.some.injEq] at hm
  subst hm
  exact Announces.after a u.recordStep_beginField_announces i h

/-- A conversion that is taken back sets no flag that is not marked. -/
theorem Slot.unmark_newlySet {r m : Slot} {a : Attention} (h : a.newlySet (r.unmark m).attention = true) :
    a.newlySet r.attention = true ∧ a.newlySet m.attention = true :=
  Attention.meet_newlySet h

theorem Announced.unmark {s u : State} (a : Announced s u) : Announced s u.unmark := by
  refine ⟨fun i h => ?_, .inr fun m hm => ?_⟩
  · rw [State.unmark_slot] at h
    unfold State.unmark
    cases e : u.marks with
    | none => simp only [e] at h ⊢; exact a.1 i h
    | some m =>
      simp only [e] at h ⊢
      have hu := Slot.unmark_newlySet h
      have hm := a.2.resolve_left fun c => by rw [c i] at hu; cases hu.1
      rw [a.1 i hu.1, hm m e i hu.2]
      rfl
  · unfold State.unmark at hm
    split at hm
    · next e => rw [e] at hm; cases hm
    · cases hm

theorem State.raiseLate_unmarked (s : State) (l : List SlotId) (h : s.marks = none) : (s.raiseLate l).marks = none := by
  unfold State.raiseLate
  induction l generalizing s with
  | nil => exact h
  | cons i l ih => exact ih _ (by simp [State.raise, State.markRaise, State.modifySlot, h])

/-- Where no field start is marked, opening a line marks none. -/
theorem State.engineStep_unmarked (s : State) (h : s.marks = none) : s.engineStep.marks = none := by
  unfold State.engineStep
  dsimp only
  split
  · exact h
  · split
    · rw [(State.arbitrate_frame _).2.2.2.2.2.2.2.2.2.2.2.2.2.2.1]
      exact State.raiseLate_unmarked _ _ h
    · simp [h]

theorem Announced.recutFieldStart {s u : State} (a : Announced s u) : Announced s u.recutFieldStart := by
  unfold State.recutFieldStart
  have h1 : Announced s (u.lineAt u.tb.lineStartAt).unmark.latch :=
    Announced.same (Announced.unmark (u := u.lineAt u.tb.lineStartAt) (a.same rfl rfl rfl)) rfl rfl rfl
  have hn : (u.lineAt u.tb.lineStartAt).unmark.latch.marks = none := by
    show (u.lineAt u.tb.lineStartAt).unmark.marks = none
    unfold State.unmark
    split
    · assumption
    · rfl
  generalize (u.lineAt u.tb.lineStartAt).unmark.latch = v at *
  have h2 : Announces v v.convertStep := State.mapSlots_announces _ _
  have h3 : Announces v.convertStep (v.convertStep.blankingStep true) := .same rfl rfl
  refine ⟨Announces.after h1 (h2.trans (h3.trans ((State.engineStep_announces _).trans
    (State.settleHeldSelect_announces _)))), .inr fun m hm => ?_⟩
  simp only [State.settleHeldSelect_frame] at hm
  rw [State.engineStep_unmarked (v.convertStep.blankingStep true) (by simp [hn])] at hm
  cases hm

/-- Each event of the inputs and each end of a computer line sets WINDOW where it sets an attention flag. -/
theorem State.timing_announced (s u : State) (h : Announced s u) :
    (∀ x, Announced s (u.cutSwitch x)) ∧ (∀ x, Announced s (u.slewSwitch x)) ∧ Announced s u.computerLineEnd ∧
      (∀ x t, Announced s (u.tracked x t)) :=
  State.timing_ind (P := Announced s) (fun _ _ r a => a.same r.1.2.1 r.2.1 r.1.2.2.2.2.2.2.2.2.2.2)
    (fun _ cut a => a.fieldStart cut) (fun _ a => a.recutFieldStart)
    (fun u a => a.same (by simp) (State.settleHeldSelect_window u) (by simp)) u h

theorem Announced.refl (s : State) : Announced s s := ⟨fun i h => by simp at h, .inl fun i => by simp⟩

/-! ### Commands -/

theorem commandEffect_announces (x : Bool) (code : BitVec 5) (s : State) : Announces s (commandEffect x code s) := by
  have hold : ∀ request, Announces s (holdIfOnAir request s) := by
    intro request
    unfold holdIfOnAir
    refine State.withHandle_ind (P := Announces s) (.same rfl rfl) (.same rfl rfl) ?_
    intro i g _ _ _
    split <;> exact .same rfl rfl
  have start : ∀ toMemory, Announces s (startTransfer toMemory s) := by
    intro toMemory
    unfold startTransfer
    split
    · exact .same (by simp) (by simp)
    · exact .same rfl rfl
  apply commandEffect_cases (P := fun e => Announces s (e s))
  case openRecord =>
    unfold openEffect
    split
    · exact .same rfl rfl
    · split
      · exact .same rfl rfl
      · exact (s.modifySlot_announces _ (fun r => r.drafted (Copy.opened s.cmd.arg0))).trans (.same rfl rfl)
  case clone =>
    unfold cloneEffect
    refine State.withHandle_ind (P := Announces s) (.same rfl rfl) (.same rfl rfl) ?_
    intro src g _ _ _
    split
    · exact .same rfl rfl
    · exact (s.modifySlot_announces _ (fun r => r.drafted (s.slot src).staging)).trans (.same rfl rfl)
  case retire =>
    unfold retireEffect
    refine State.withHandle_ind (P := Announces s) (.same rfl rfl) (.same rfl rfl) ?_
    intro i g _ _ _
    split
    · exact (s.cancelPending_announces i).trans (.same rfl rfl)
    · exact (s.freeRecord_announces i).trans (.same rfl rfl)
  case publish =>
    unfold publishEffect
    split
    · exact .same rfl rfl
    · split
      · exact .same rfl rfl
      · split
        · exact .same rfl rfl
        · split
          · exact .same rfl rfl
          · split
            · exact .same rfl rfl
            · exact (s.modifySlot_announces _ (fun r => { r with pending := some s.cmd.arg1.toNat })).trans (.same rfl rfl)
  case withdraw =>
    unfold withdrawEffect
    refine State.withHandle_ind (P := Announces s) (.same rfl rfl) (.same rfl rfl) ?_
    intro i g _ _ _
    split
    · exact (s.cancelPending_announces i).trans (.same rfl rfl)
    · exact .same rfl rfl
  case push =>
    unfold pushEffect
    refine State.withHandle_ind (P := Announces s) (.same rfl rfl) (.same rfl rfl) ?_
    intro i g _ _ _
    split <;> exact .same rfl rfl
  case lift => exact hold _
  case raise => exact hold _
  case lower => exact hold _
  case imageIn => exact start _
  case imageOut => exact start _
  case noop => exact .same rfl rfl
  case unknown => exact .same rfl rfl
  case clearAir => exact .same rfl rfl
  case find =>
    unfold findEffect
    split
    · exact .same rfl rfl
    · split <;> exact .same rfl rfl
  case guard =>
    intro x
    unfold guardEffect
    split <;> exact .same rfl rfl
  case setGeometry =>
    unfold setGeometryEffect
    split <;> exact .same rfl rfl
  case select =>
    unfold selectEffect
    split
    · split
      · exact .same rfl rfl
      · split
        · exact .same (by simp) (State.judgeSelect_window _ _ _ _)
        · exact .same rfl rfl
    · exact .same rfl rfl
  case queryInput =>
    unfold queryInputEffect
    split
    · exact .same rfl rfl
    · next x _ =>
      split
      · exact .same rfl rfl
      · cases x <;> exact .same rfl rfl

theorem State.writePointed_announces {s t : State} {value : Word} (h : s.writePointed value = some t) :
    Announces s t := by
  obtain ⟨staging, attention, e, _, ha⟩ := State.writePointed_some h
  have hw : ∀ j, t.slot j = if j = s.port.pointer.slot then
      { s.slot s.port.pointer.slot with staging := staging, attention := attention } else s.slot j := by
    intro j; subst e; exact WithSlot_slot s _ j _
  refine ⟨fun hwin => by subst e; exact hwin, fun j hj => ?_⟩
  rw [hw] at hj
  split at hj
  · next e => subst e; rcases ha with e | e <;> simp [e] at hj
  · simp at hj

end Sys2Proof.Machine
end

