-- ==== Sys2Proof/Laws/Engine.lean ====
section
/-! SUPPORT. The Mask Fetch Engine: every operation keeps the bounds of the silo and the descriptor places, and all but
an answered mask read only take words from the silo's head. -/

namespace Sys2Proof.Machine

/-- The bounds of the engine (R108, R109), read from the engine alone. -/
def EngineBounds (e : Engine) : Prop :=
  e.silo.length ≤ Config.siloDepth ∧ (e.channel.isMaskRead = true → e.silo.length + 1 ≤ Config.siloDepth) ∧
  e.descs.length ≤ Config.descriptorPlaces

theorem EngineLaw_iff (s : State) : EngineLaw s ↔ EngineBounds s.engine := Iff.rfl

/-- From a state within the engine's bounds: the next is within them too, and words have left the silo at its head
alone. -/
def Drains (s t : State) : Prop :=
  EngineBounds s.engine → EngineBounds t.engine ∧ ∃ n, t.engine.silo = s.engine.silo.drop n

theorem Drains.trans {s t u : State} (a : Drains s t) (b : Drains t u) : Drains s u := fun h => by
  obtain ⟨ha, n, hn⟩ := a h
  obtain ⟨hb, m, hm⟩ := b ha
  exact ⟨hb, n + m, by rw [hm, hn, List.drop_drop]⟩

theorem Drains.same {s t : State} (h : t.engine = s.engine) : Drains s t := fun hs => by
  rw [h]; exact ⟨hs, 0, rfl⟩

theorem Drains.refl (s : State) : Drains s s := .same rfl

/-- The channel changes, and is no mask read but one there is room for. -/
theorem Drains.channel {s t : State} (hd : t.engine.descs.length = s.engine.descs.length)
    (hs : t.engine.silo = s.engine.silo)
    (hc : t.engine.channel.isMaskRead = true →
      s.engine.channel.isMaskRead = true ∨ s.engine.silo.length + 1 ≤ Config.siloDepth) : Drains s t := fun h => by
  refine ⟨⟨by rw [hs]; exact h.1, fun hm => ?_, by rw [hd]; exact h.2.2⟩, 0, by rw [hs]; rfl⟩
  rw [hs]
  rcases hc hm with c | c
  · exact h.2.1 c
  · exact c

@[simp] theorem Channel.closeLine_isMaskRead (c : Channel) : c.closeLine.isMaskRead = c.isMaskRead := by
  cases c <;> rfl

theorem State.buildDescs_length (s : State) (line : Nat) :
    (s.buildDescs line).length ≤ Config.descriptorPlaces := by
  unfold State.buildDescs
  refine Nat.le_trans (List.length_filterMap_le _ _) ?_
  rw [List.length_take]
  exact Nat.min_le_left _ _

@[simp] theorem State.raiseLate_engine (s : State) (l : List SlotId) : (s.raiseLate l).engine = s.engine := by simp

/-- A line that is opened leaves the silo as it is (R110, R111). -/
theorem State.openLine_engine (s : State) (line : Nat) :
    (s.openLine line).engine =
      { s.engine with
        openLine := some line, drawn := false, descs := s.buildDescs line, channel := s.engine.channel.closeLine } := by
  unfold State.openLine
  simp

theorem State.openLine_drains (s : State) (line : Nat) : Drains s (s.openLine line) := fun h => by
  rw [State.openLine_engine]
  exact ⟨⟨h.1, by simpa using h.2.1, s.buildDescs_length line⟩, 0, rfl⟩

theorem State.advanceLine_drains (s : State) : Drains s s.advanceLine := by
  unfold State.advanceLine
  split
  · exact s.openLine_drains _
  · exact .refl s

theorem State.arbitrate_drains (s : State) : Drains s s.arbitrate := by
  unfold State.arbitrate
  split
  · split
    · exact .channel rfl rfl (by simp [Channel.isMaskRead])
    · exact .refl s
  · split
    · exact .refl s
    · exact .channel rfl rfl (by simp [Channel.isMaskRead])
  · exact .refl s

/-- A mask word is chosen only where the silo has room for it (R109, R121). -/
theorem State.nextOperation_room {s : State} {place k : Nat} (h : s.nextOperation = some (.maskWord place k)) :
    s.engine.silo.length + 1 ≤ Config.siloDepth := by
  unfold State.nextOperation at h
  split at h
  · split at h
    · assumption
    · cases h
  · split at h
    · split at h <;> cases h
    · cases h

/-- The next operation on the bus: the silo stands, and a mask read has room (R109, R115). -/
theorem State.nextOnBus_bounds (s : State) (h1 : s.engine.silo.length ≤ Config.siloDepth)
    (h2 : s.engine.descs.length ≤ Config.descriptorPlaces) :
    EngineBounds s.nextOnBus.engine ∧ s.nextOnBus.engine.silo = s.engine.silo := by
  unfold State.nextOnBus
  split
  · next op h =>
    cases op with
    | maskWord place k =>
      have hr := State.nextOperation_room h
      unfold State.present
      dsimp only
      split
      · exact ⟨⟨h1, fun _ => hr, by simpa [Engine.modifyDesc] using h2⟩, rfl⟩
      · exact ⟨⟨h1, by simp [Channel.isMaskRead], h2⟩, rfl⟩
    | imageWord t =>
      unfold State.present
      refine ⟨⟨h1, fun hm => ?_, h2⟩, rfl⟩
      dsimp only at hm
      split at hm <;> simp [Channel.isMaskRead] at hm
  · exact ⟨⟨h1, by simp [Channel.isMaskRead], h2⟩, rfl⟩

theorem State.nextOnBus_drains (s : State) : Drains s s.nextOnBus := fun h => by
  have hb := s.nextOnBus_bounds h.1 h.2.2
  exact ⟨hb.1, 0, hb.2⟩

theorem dropWhile_eq_drop {α : Type} (p : α → Bool) (l : List α) : ∃ n, l.dropWhile p = l.drop n := by
  induction l with
  | nil => exact ⟨0, rfl⟩
  | cons a l ih =>
    by_cases h : p a = true
    · obtain ⟨n, hn⟩ := ih
      exact ⟨n + 1, by simpa [List.dropWhile_cons, h] using hn⟩
    · exact ⟨0, by simp [h]⟩

/-- Words taken from the silo's head, descriptors changed in place. -/
theorem Drains.taken {s t : State} (n : Nat) (hd : t.engine.descs.length = s.engine.descs.length)
    (hc : t.engine.channel = s.engine.channel) (hs : t.engine.silo = s.engine.silo.drop n) : Drains s t := fun h => by
  have hl : t.engine.silo.length ≤ s.engine.silo.length := by rw [hs, List.length_drop]; omega
  refine ⟨⟨Nat.le_trans hl h.1, fun hm => ?_, by rw [hd]; exact h.2.2⟩, n, hs⟩
  rw [hc] at hm
  have := h.2.1 hm
  omega

theorem State.purge_drains (s : State) : Drains s s.purge := by
  obtain ⟨n, hn⟩ := dropWhile_eq_drop s.engine.dead s.engine.silo
  exact .taken n rfl rfl hn

theorem State.takeWord_drains (s : State) (place k : Nat) (w : SiloWord) (rest : List SiloWord)
    (h : s.engine.silo = w :: rest) : Drains s (s.takeWord place k w rest) := by
  unfold State.takeWord
  split
  · exact .refl s
  · refine Drains.trans ?_ (State.purge_drains _)
    exact .taken 1 (by simp [State.noteTaken, Engine.modifyDesc]) rfl (by simp [State.noteTaken, h])

theorem State.abandonWindow_drains (s : State) (place : Nat) (x : Int) : Drains s (s.abandonWindow place x) := by
  unfold State.abandonWindow
  split
  · exact .refl s
  · exact .taken 0 (by simp [State.abandonEntry, Engine.modifyDesc]) (by simp [State.abandonEntry, Engine.modifyDesc])
      (by simp [State.abandonEntry, Engine.modifyDesc])

theorem State.takingPointReached_drains (s : State) : Drains s s.takingPointReached := by
  unfold State.takingPointReached
  split
  · exact .refl s
  · split
    · next h => exact (s.takeWord_drains _ _ _ _ h).trans ((State.advanceLine_drains _).trans (State.arbitrate_drains _))
    · exact (s.abandonWindow_drains _ _).trans ((State.advanceLine_drains _).trans (State.arbitrate_drains _))

theorem State.beginLine_drains (s : State) (line : Nat) : Drains s (s.beginLine line) := by
  unfold State.beginLine
  dsimp only
  split
  · refine Drains.trans ?_ ((State.openLine_drains _ _).trans (State.arbitrate_drains _))
    exact .channel rfl rfl .inl
  · exact .channel rfl rfl .inl

theorem State.fetchFault_drains (s : State) (i : SlotId) : Drains s (s.fetchFault i) := by
  unfold State.fetchFault
  dsimp only
  refine Drains.trans ?_ (State.purge_drains _)
  exact .taken 0 (by simp [State.abandonEntry]) rfl rfl

theorem State.maskFault_drains (s : State) (i : SlotId) (g : Generation) : Drains s (s.maskFault i g) := by
  unfold State.maskFault
  split
  · have hf := State.fetchFault_drains { s with engine := { s.engine with channel := .idle } } i
    have hc : Drains s { s with engine := { s.engine with channel := .idle } } :=
      .channel rfl rfl (by simp [Channel.isMaskRead])
    dsimp only
    split
    · exact hc.trans hf
    · exact hc.trans (hf.trans (State.advanceLine_drains _))
  · exact .refl s

theorem State.busTimeout_drains (s : State) : Drains s s.busTimeout := by
  unfold State.busTimeout
  split
  · next i g _ _ _ _ => exact (s.maskFault_drains i g).trans (State.nextOnBus_drains _)
  · exact Drains.trans (.same (by simp)) (State.nextOnBus_drains s.imageFault)
  · exact Drains.trans (.same (by simp)) (State.nextOnBus_drains s.imageFault)
  · exact .refl s
  · exact .refl s

/-- At a field start the silo is emptied (R123). -/
theorem State.engineStep_drains (s : State) : Drains s s.engineStep := by
  have hc : Drains s { s with engine :=
      { openLine := none, drawn := false, descs := [], silo := [], channel := s.engine.channel.closeLine } } := fun h =>
    ⟨⟨by simp, fun _ => by simp [Config.siloDepth], by simp⟩, s.engine.silo.length, by simp⟩
  unfold State.engineStep
  dsimp only
  split
  · exact hc
  · split
    · exact hc.trans ((State.openLine_drains _ _).trans (State.arbitrate_drains _))
    · exact hc.trans (State.arbitrate_drains _)

theorem State.fieldStart_drains (s : State) (cut : Bool) : Drains s (s.fieldStart cut) := by
  unfold State.fieldStart
  refine Drains.trans ?_ ((State.engineStep_drains (s.beginField.recordStep.convertStep.blankingStep cut)).trans ?_)
  · exact .same (by simp)
  · exact .same (by simp)

theorem State.recutFieldStart_drains (s : State) : Drains s s.recutFieldStart := by
  unfold State.recutFieldStart
  refine Drains.trans ?_ ((State.engineStep_drains
    ((s.lineAt s.tb.lineStartAt).unmark.latch.convertStep.blankingStep true)).trans ?_)
  · exact .same (by simp)
  · exact .same (by simp)

theorem startTransfer_drains (toMemory : Bool) (s : State) : Drains s (startTransfer toMemory s) := by
  unfold startTransfer
  split
  · refine Drains.trans ?_ (State.arbitrate_drains _)
    exact .same rfl
  · exact .same rfl

theorem commandEffect_drains (x : Bool) (code : BitVec 5) (s : State) : Drains s (commandEffect x code s) := by
  apply commandEffect_cases (P := fun e => Drains s (e s))
  case imageIn => exact startTransfer_drains _ _
  case imageOut => exact startTransfer_drains _ _
  all_goals intros; exact .same (by simp)

/-- An answered mask read puts at most one word at the silo's tail (R109, R116). -/
theorem State.answerMask_silo (s : State) (word : Word) (h : EngineLaw s) :
    EngineLaw (s.answerMask word) ∧
      ∃ n l, l.length ≤ 1 ∧ (s.answerMask word).engine.silo = (s.engine.silo ++ l).drop n := by
  unfold State.answerMask
  split
  · next line place k _ _ _ current _ hc =>
    have hroom : s.engine.silo.length + 1 ≤ Config.siloDepth := h.2.1 (by rw [hc]; rfl)
    have hst : ∃ l, l.length ≤ 1 ∧ (s.storeWord line place k current word).engine.silo = s.engine.silo ++ l ∧
        (s.storeWord line place k current word).engine.descs = s.engine.descs := by
      unfold State.storeWord
      split
      · exact ⟨[], by simp, by simp, rfl⟩
      · split
        · exact ⟨[_], Nat.le_refl 1, rfl, rfl⟩
        · exact ⟨[], by simp, by simp, rfl⟩
    obtain ⟨l, hl, hs, hd⟩ := hst
    generalize s.storeWord line place k current word = u at hs hd
    obtain ⟨n, hn⟩ := dropWhile_eq_drop u.engine.dead u.engine.silo
    have hp : u.purge.engine.silo = (s.engine.silo ++ l).drop n := by rw [← hs, ← hn]; rfl
    have hb := State.nextOnBus_bounds u.purge
      (by rw [hp, List.length_drop, List.length_append]; omega) (by show u.engine.descs.length ≤ _; rw [hd]; exact h.2.2)
    exact ⟨hb.1, n, l, hl, by rw [hb.2, hp]⟩
  · exact ⟨h, 0, [], by simp, by simp⟩

end Sys2Proof.Machine
end

