-- ==== Sys2Proof/Laws/Slots.lean ====
section
/-! SUPPORT. What every change of a record keeps: the agreement of its parts with its state, the legality of its copies,
and the rule of generations. -/

namespace Sys2Proof.Machine

variable {V : Latched → Prop}

/-- What a record holds agrees with its state (R7, R9, R11, R24): the law of records for one record. -/
def SlotRecord (r : Slot) : Prop :=
  (r.state = .free → r = Slot.blank r.gen) ∧ r.active.isSome = r.state.converted ∧
  (∀ n, r.pending = some n → n ≤ 255)

/-- The copies of a record are legal where the law of copies says so (R28, R30, R72, R73). -/
def SlotCopies (r : Slot) : Prop :=
  (r.pending.isSome → r.staging.legal = true) ∧ (∀ c, r.active = some c → c.legal = true) ∧ r.counters.mix ≤ 63

/-! ### Legal copies -/

theorem Copy.legal_iff (c : Copy) : c.legal = true ↔ ∀ t, t ∈ c.tests → t.2 = true := by
  simp [Copy.legal, Copy.failingWord]

/-- The record checks, word by word (R26, R27). -/
theorem Copy.legal_words (cp : Copy) : cp.legal = true ↔
    (cp[0].toNat ≤ 255 ∧ bits cp[1] 9 7 = 0 ∧ (-1024 ≤ cp.left ∧ cp.left ≤ 1023) ∧
      ((-1024 ≤ cp.right ∧ cp.right ≤ 1023) ∧ cp.left ≤ cp.right) ∧ cp.top ≤ 287 ∧ (cp.bottom ≤ 287 ∧ cp.top ≤ cp.bottom) ∧
      cp.keyValue ≤ 255 ∧ cp.mixLevel ≤ 63 ∧ (bits cp[8] 6 2 = 0 ∧ bits cp[8] 12 4 = 0) ∧
      -16 ≤ cp.crawlStep ∧ cp.crawlStep ≤ 15) ∧
    (cp.keyMode = .mask → cp[12].toNat ≤ 255 ∧ (1 ≤ cp.maskStride ∧ cp.maskStride ≤ 64) ∧
      1 ≤ cp.maskWords ∧ cp.maskWords ≤ 45) := by
  rw [Copy.legal_iff]
  unfold Copy.tests
  split
  · next h =>
    simp only [h, List.forall_mem_append, Copy.headTests, Copy.maskTests, inTitleRange]
    simp
  · next h =>
    simp only [h, Copy.headTests, inTitleRange]
    simp

/-- What a legal copy's words satisfy (R26). -/
theorem Copy.legal_head {c : Copy} (h : c.legal = true) :
    (-1024 ≤ c.left ∧ c.left ≤ 1023) ∧ (-1024 ≤ c.right ∧ c.right ≤ 1023) ∧ c.left ≤ c.right ∧
    c.top ≤ 287 ∧ c.bottom ≤ 287 ∧ c.top ≤ c.bottom ∧ c.mixLevel ≤ 63 ∧ -16 ≤ c.crawlStep ∧ c.crawlStep ≤ 15 := by
  have := ((Copy.legal_words c).1 h).1
  omega

theorem bits_le (w : Word) (lo len : Nat) : bits w lo len ≤ 2 ^ len - 1 := by
  have : bits w lo len < 2 ^ len := Nat.mod_lt _ (Nat.two_pow_pos len)
  omega

/-- The mix level stays within 0..63 at a fade step (R72). -/
theorem fadeStep_le {m t k : Nat} (hm : m ≤ 63) (ht : t ≤ 63) : fadeStep m t k ≤ 63 := by
  unfold fadeStep
  (repeat' split) <;> omega

/-- A title coordinate in range is read back from its word. -/
theorem toInt_ofInt_title {x : Int} (h1 : -1024 ≤ x) (h2 : x ≤ 1023) : (BitVec.ofInt 16 x).toInt = x := by
  rw [BitVec.toInt_ofInt]
  exact Int.bmod_eq_of_le (by omega) (by omega)

/-- The crawl keeps a legal copy legal (R73). -/
theorem Copy.crawled_legal {cp : Copy} (h : cp.legal = true) (hf : crawlFits cp = true) : cp.crawled.legal = true := by
  have hl := Copy.legal_head h
  simp [crawlFits, inTitleRange] at hf
  have e2 : cp.crawled.left = cp.left + cp.crawlStep := by
    simp only [Copy.crawled, Copy.left]
    rw [Vector.getElem_set_ne _ _ (by decide), Vector.getElem_set_self]
    exact toInt_ofInt_title hf.1.1 hf.1.2
  have e3 : cp.crawled.right = cp.right + cp.crawlStep := by
    simp only [Copy.crawled, Copy.right]
    rw [Vector.getElem_set_self]
    exact toInt_ofInt_title hf.2.1 hf.2.2
  have e : ∀ k (hk : k < 16), k ≠ 2 → k ≠ 3 → cp.crawled[k] = cp[k] := by
    intro k hk h2 h3
    simp only [Copy.crawled]
    rw [Vector.getElem_set_ne _ _ (by omega), Vector.getElem_set_ne _ _ (by omega)]
  have hw := (Copy.legal_words cp).1 h
  rw [Copy.legal_words]
  simp only [Copy.keyMode, Copy.top, Copy.bottom, Copy.keyValue, Copy.mixLevel, Copy.crawlStep, Copy.maskStride,
    Copy.maskWords] at hw ⊢
  rw [e 0 (by decide) (by decide) (by decide), e 1 (by decide) (by decide) (by decide),
    e 4 (by decide) (by decide) (by decide), e 5 (by decide) (by decide) (by decide),
    e 6 (by decide) (by decide) (by decide), e 7 (by decide) (by decide) (by decide),
    e 8 (by decide) (by decide) (by decide), e 11 (by decide) (by decide) (by decide),
    e 12 (by decide) (by decide) (by decide), e 14 (by decide) (by decide) (by decide),
    e 15 (by decide) (by decide) (by decide), e2, e3]
  refine ⟨⟨hw.1.1, hw.1.2.1, hf.1, ⟨hf.2, ?_⟩, hw.1.2.2.2.2⟩, hw.2⟩
  omega

theorem countCrawl_legal {c : Copy} (h : c.legal = true) (halted : Bool) : (countCrawl c halted).1.legal = true := by
  unfold countCrawl
  split
  · exact h
  · split
    · next hf => exact Copy.crawled_legal h hf
    · exact h

/-! ### Changes of one record -/

theorem Slot.blank_record (g : Generation) : SlotRecord (Slot.blank g) := by
  simp [SlotRecord, Slot.blank, RecState.converted]

theorem Slot.blank_copies (g : Generation) : SlotCopies (Slot.blank g) := by
  simp [SlotCopies, Slot.blank, Counters.none]

theorem Slot.drafted_record (r : Slot) (c : Copy) : SlotRecord (r.drafted c) := by
  simp [SlotRecord, Slot.drafted, Slot.blank, RecState.converted]

theorem Slot.drafted_copies (r : Slot) (c : Copy) : SlotCopies (r.drafted c) := by
  simp [SlotCopies, Slot.drafted, Slot.blank, Counters.none]

@[simp] theorem Attention.clear_none (w : Word) : Attention.none.clear w = Attention.none := by
  simp [Attention.clear, Attention.none]

theorem Slot.adopt_record {r : Slot} (hd : r.adoptionDue = true) : SlotRecord r.adopt := by
  simp [Slot.adoptionDue] at hd
  cases hs : r.state <;> simp_all [SlotRecord, Slot.adopt, RecState.adopted, RecState.converted]

theorem Slot.adopt_copies {r : Slot} (hd : r.adoptionDue = true) (h : SlotCopies r) : SlotCopies r.adopt := by
  simp [Slot.adoptionDue] at hd
  have hl := h.1 (by simp [hd.2])
  refine ⟨by simp [Slot.adopt], ?_, (Copy.legal_head hl).2.2.2.2.2.2.1⟩
  intro c hc
  simp only [Slot.adopt, Option.some.injEq] at hc
  rw [← hc]; exact hl

/-- Every change of a record keeps the agreement of its parts with its state. -/
theorem SlotStep.record {a b : Slot} (h : SlotStep V a b) (ha : SlotRecord a) : SlotRecord b := by
  cases h with
  | flagged _ hf => exact ⟨fun e => absurd e hf, ha.2⟩
  | marked _ _ hf => exact ⟨fun e => absurd e hf, ha.2⟩
  | cleared w =>
    refine ⟨fun e => ?_, ha.2⟩
    have := ha.1 e
    have e2 : a.attention = Attention.none := by rw [this]; rfl
    rw [e2, Attention.clear_none, ← e2]
    exact this
  | freed => exact Slot.blank_record _
  | published n hf hn =>
    exact ⟨fun e => absurd e hf, ha.2.1, fun m hm => by simp at hm; omega⟩
  | cancelled =>
    refine ⟨fun e => ?_, ha.2.1, by simp⟩
    have := ha.1 e
    have e2 : a.pending = none := by rw [this]; rfl
    rw [← e2]
    exact this
  | staged c hf => exact ⟨fun e => absurd e hf, ha.2⟩
  | left x ho hx =>
    refine ⟨?_, ?_, ha.2.2⟩
    · rcases hx with e | e <;> simp [e]
    · have := ha.2.1
      rcases hx with e | e <;> simp_all [RecState.converted]
  | entered ho =>
    refine ⟨by simp, ?_, ha.2.2⟩
    have := ha.2.1
    rcases ho with e | e <;> simp_all [RecState.converted]
  | ticked =>
    unfold Slot.publicationTick
    split
    · next hd => exact Slot.adopt_record hd
    · refine ⟨fun e => ?_, ha.2.1, fun m hm => ?_⟩
      · have := ha.1 e
        have e2 : a.pending = none := by rw [this]; rfl
        rw [e2, Option.map_none, ← e2]
        exact this
      · simp at hm
        obtain ⟨n, hn, e⟩ := hm
        have := ha.2.2 n hn
        omega
  | adopted hd => exact Slot.adopt_record hd
  | counted =>
    unfold Slot.count
    split
    · exact ha
    · next c hc =>
      split
      · next ho =>
        simp [Slot.counted] at ho
        refine ⟨by simp [ho], ?_, ha.2.2⟩
        have := ha.2.1
        simpa [hc] using this
      · exact ha
  | lifetime ho =>
    unfold Slot.countLifetimeOnly
    split
    · exact ha
    · exact ⟨by simp [ho], ha.2⟩
  | converted v _ =>
    unfold Slot.convert
    split
    · exact ha
    · split
      · next hs =>
        refine ⟨fun e => ?_, ha.2⟩
        simp at e
        simp [e, RecState.converted] at hs
      · exact ha

/-- Every change of a record keeps its copies legal. -/
theorem SlotStep.copies {a b : Slot} (h : SlotStep V a b) (ha : SlotCopies a) : SlotCopies b := by
  cases h with
  | flagged => exact ha
  | marked => exact ha
  | cleared => exact ha
  | freed => exact Slot.blank_copies _
  | published n hf hn hl => exact ⟨fun _ => hl, ha.2⟩
  | cancelled => exact ⟨by simp, ha.2⟩
  | staged c hf hp => exact ⟨by simp [hp], ha.2⟩
  | left => exact ha
  | entered => exact ha
  | ticked =>
    unfold Slot.publicationTick
    split
    · next hd => exact Slot.adopt_copies hd ha
    · exact ⟨fun e => ha.1 (by simpa using e), ha.2⟩
  | adopted hd => exact Slot.adopt_copies hd ha
  | counted =>
    unfold Slot.count
    split
    · exact ha
    · next cp hc =>
      split
      · refine ⟨ha.1, ?_, ?_⟩
        · intro d hd
          simp only [Option.some.injEq] at hd
          rw [← hd]; exact countCrawl_legal (ha.2.1 cp hc) _
        · exact fadeStep_le ha.2.2 (by simpa [Copy.fadeTarget] using bits_le cp[8] 0 6)
      · exact ha
  | lifetime =>
    unfold Slot.countLifetimeOnly
    split
    · exact ha
    · refine ⟨ha.1, ha.2.1, ?_⟩
      have : ∀ (c : Copy) (n : Counters), (countLifetime c n).mix = n.mix := by
        intro c n; unfold countLifetime; (repeat' split) <;> rfl
      rw [this]; exact ha.2.2
  | converted v _ =>
    unfold Slot.convert
    split
    · exact ha
    · split <;> exact ha

/-- From one record to a later one in the same slot: the generation is the same and a FREE slot has stayed FREE, or the
record has been freed and the generation is the next (R11). -/
def SameOrFreed (a b : Slot) : Prop :=
  (b.gen = a.gen ∧ (a.state = .free → b.state = .free)) ∨
    (a.state ≠ .free ∧ b.state = .free ∧ b.gen = a.gen + 1)

theorem SlotStep.sameOrFreed {a b : Slot} (h : SlotStep V a b) : SameOrFreed a b := by
  have tick : SameOrFreed a a.adopt := .inl ⟨rfl, fun e => by simp [Slot.adopt, e, RecState.adopted]⟩
  cases h with
  | freed hf => exact .inr ⟨hf, rfl, rfl⟩
  | left x ho => exact .inl ⟨rfl, fun e => by simp [ho] at e⟩
  | entered ho => exact .inl ⟨rfl, fun e => by simp [e] at ho⟩
  | ticked =>
    unfold Slot.publicationTick
    split
    · exact tick
    · exact .inl ⟨rfl, id⟩
  | adopted => exact tick
  | counted =>
    refine .inl ⟨?_, by simp⟩
    unfold Slot.count
    split
    · rfl
    · split <;> rfl
  | lifetime =>
    refine .inl ⟨?_, by simp⟩
    unfold Slot.countLifetimeOnly
    split <;> rfl
  | converted v _ =>
    refine .inl ⟨?_, by simp⟩
    unfold Slot.convert
    split
    · rfl
    · split <;> rfl
  | flagged => exact .inl ⟨rfl, id⟩
  | marked => exact .inl ⟨rfl, id⟩
  | cleared => exact .inl ⟨rfl, id⟩
  | published => exact .inl ⟨rfl, id⟩
  | cancelled => exact .inl ⟨rfl, id⟩
  | staged => exact .inl ⟨rfl, id⟩

theorem SlotSteps.sameOrFreed {a b : Slot} (h : SlotSteps V a b) : SameOrFreed a b := by
  induction h with
  | refl => exact .inl ⟨rfl, id⟩
  | tail _ hs ih =>
    rcases hs.sameOrFreed with ⟨e, f⟩ | ⟨e, f, g⟩
    · rcases ih with ⟨e', f'⟩ | ⟨e', f', g'⟩
      · exact .inl ⟨e.trans e', fun h => f (f' h)⟩
      · exact .inr ⟨e', f f', by rw [e, g']⟩
    · rcases ih with ⟨e', f'⟩ | ⟨e', f', g'⟩
      · exact .inr ⟨fun h => e (f' h), f, by rw [g, e']⟩
      · exact absurd f' e

end Sys2Proof.Machine
end

