-- ==== Sys2Proof/Laws/Geometry.lean ====
section
/-! SUPPORT. Position conversion: rounding, the derived words of a legal copy, and what the changes of a record do to
its derived words. -/

namespace Sys2Proof.Machine

/-! ### Rounding and derived words -/

/-- Rounding keeps the order of positions, under each mode (R82). -/
theorem roundSample_mono (mode : Rounding) {x y : Int} (h : x ≤ y) : roundSample mode x ≤ roundSample mode y := by
  cases mode <;> simp only [roundSample] <;> (repeat' split) <;> omega

/-- Rounded edges keep the order of title coordinates (R82). -/
theorem roundedEdge_mono (c : Copy) (v : Latched) {a b : Int} (h : a ≤ b) :
    roundedEdge c v a ≤ roundedEdge c v b := by
  unfold roundedEdge exact64
  refine roundSample_mono _ ?_
  have := Int.mul_le_mul_of_nonneg_right h (Int.natCast_nonneg v.scale)
  omega

theorem Standard.pictureLines_pos (std : Standard) : (1 : Int) ≤ std.pictureLines := by
  cases std <;> decide

/-- The derived words of a legal copy are indefinite or on the raster of the values' standard (R84 to R86). -/
theorem derive_onRaster {c : Copy} (h : c.legal = true) (v : Latched) :
    (derive c v).indefinite ∨ (derive c v).onRaster v.standard := by
  have hl := Copy.legal_head h
  have hp := v.standard.pictureLines_pos
  have hm := roundedEdge_mono c v hl.2.2.1
  unfold derive
  dsimp only
  split
  · exact .inl ⟨rfl, rfl, rfl, rfl⟩
  · next ho =>
    right
    have ht : (c.top : Int) ≤ c.bottom := by exact_mod_cast hl.2.2.2.2.2.1
    have ho' : wholly (roundedEdge c v c.left) (roundedEdge c v c.right) (c.top + v.v) (c.bottom + v.v)
        (v.standard.pictureLines - 1) = false := by
      unfold offRaster at ho
      split at ho
      · simp only [partly, wholly, Bool.or_eq_true, decide_eq_true_eq, Bool.or_eq_false_iff,
          decide_eq_false_iff_not] at *
        omega
      · simpa using ho
    simp only [wholly, Bool.or_eq_false_iff, decide_eq_false_iff_not, Config.lastSample] at ho'
    generalize roundedEdge c v c.left = l at *
    generalize roundedEdge c v c.right = r at *
    simp only [Geometry.onRaster, clampTo, Config.lastSample]
    refine ⟨?_, ?_, ?_, ?_, ?_, ?_⟩ <;> (repeat' split) <;> omega

/-! ### Changes of one record -/

/-- The law of derived words for one record, under a standard (R7, R86). -/
def SlotGeometry (std : Standard) (r : Slot) : Prop :=
  (r.state = .draft → r.geometry.indefinite) ∧
  (r.active.isSome → r.geometry.indefinite ∨ r.geometry.onRaster std)

/-- The three laws of one record together. -/
def SlotSound (std : Standard) (r : Slot) : Prop :=
  SlotRecord r ∧ SlotCopies r ∧ SlotGeometry std r

theorem Slot.blank_sound (std : Standard) (g : Generation) : SlotSound std (Slot.blank g) :=
  ⟨Slot.blank_record g, Slot.blank_copies g, by simp [SlotGeometry, Slot.blank]⟩

theorem Slot.drafted_sound (std : Standard) (r : Slot) (c : Copy) : SlotSound std (r.drafted c) :=
  ⟨Slot.drafted_record r c, Slot.drafted_copies r c,
    by simp [SlotGeometry, Slot.drafted, Slot.blank, Geometry.indefinite]⟩

theorem Slot.adopt_geometry {std : Standard} {r : Slot} (hr : SlotRecord r) (h : SlotGeometry std r)
    (hd : r.adoptionDue = true) : SlotGeometry std r.adopt := by
  simp [Slot.adoptionDue] at hd
  refine ⟨fun e => ?_, fun _ => ?_⟩
  · cases hs : r.state <;> simp [Slot.adopt, hs, RecState.adopted] at e
  · show r.geometry.indefinite ∨ _
    by_cases hs : r.state = .draft
    · exact .inl (h.1 hs)
    · refine h.2 ?_
      have := hr.2.1
      cases hs' : r.state <;> simp_all [RecState.converted]

/-- Every change of a record but its conversion keeps the three laws. -/
theorem SlotStep.sound {std : Standard} {a b : Slot} (h : SlotStep (fun _ => False) a b) (ha : SlotSound std a) :
    SlotSound std b := by
  refine ⟨h.record ha.1, h.copies ha.2.1, ?_⟩
  have hg := ha.2.2
  cases h with
  | converted v hv => exact hv.elim
  | freed => exact (Slot.blank_sound std _).2.2
  | left x ho hx => exact ⟨fun e => by (rcases hx with c | c <;> rw [c] at e <;> cases e), hg.2⟩
  | entered ho => exact ⟨fun e => (by cases e), hg.2⟩
  | ticked =>
    unfold Slot.publicationTick
    split
    · next hd => exact Slot.adopt_geometry ha.1 hg hd
    · exact hg
  | adopted hd => exact Slot.adopt_geometry ha.1 hg hd
  | counted =>
    unfold Slot.count
    split
    · exact hg
    · next c hc =>
      split
      · exact ⟨hg.1, fun _ => hg.2 (by simp [hc])⟩
      · exact hg
  | lifetime =>
    unfold Slot.countLifetimeOnly
    split <;> exact hg
  | flagged => exact hg
  | marked => exact hg
  | cleared => exact hg
  | published => exact hg
  | cancelled => exact hg
  | staged => exact hg

/-- A conversion brings the derived words under the values' standard (R78, R86). -/
theorem Slot.convert_sound {std : Standard} {r : Slot} (v : Latched) (h : SlotSound std r) :
    SlotSound v.standard (r.convert v) := by
  have hs : SlotStep (fun _ => True) r (r.convert v) := .converted r v trivial
  refine ⟨hs.record h.1, hs.copies h.2.1, ?_⟩
  unfold Slot.convert
  split
  · next hn => exact ⟨h.2.2.1, fun e => by simp [hn] at e⟩
  · next c hc =>
    split
    · next hv =>
      refine ⟨fun e => ?_, fun _ => derive_onRaster (h.2.1.2.1 c hc) v⟩
      dsimp only at e
      simp [e, RecState.converted] at hv
    · next hv =>
      have := h.1.2.1
      rw [hc] at this
      simp only [Option.isSome_some] at this
      exact absurd this.symm hv

/-! ### The machine -/

/-- The laws of the stack and of every record together. -/
def WindowsSound (s : State) : Prop :=
  StackLaw s ∧ ∀ i, SlotSound s.tb.latched.standard (s.slot i)

theorem WindowsSound_iff (s : State) :
    WindowsSound s ↔ StackLaw s ∧ RecordLaw s ∧ CopyLaw s ∧ GeometryLaw s :=
  ⟨fun h => ⟨h.1, fun i => (h.2 i).1, fun i => (h.2 i).2.1, fun i => (h.2 i).2.2⟩,
    fun h => ⟨h.1, fun i => ⟨h.2.1 i, h.2.2.1 i, h.2.2.2 i⟩⟩⟩

/-- Changes without a conversion keep the laws, where the latched standard stands. -/
theorem Moves.sound {s t : State} (m : Moves (fun _ => False) s t)
    (hl : t.tb.latched.standard = s.tb.latched.standard) (h : WindowsSound s) : WindowsSound t :=
  ⟨(m h.1).1, fun i => by
    rw [hl]
    exact ((m h.1).2 i).keeps (fun _ _ k hk => k.sound hk) (h.2 i)⟩

theorem Drafts.sound {s t : State} (d : Drafts s t) (hl : t.tb.latched.standard = s.tb.latched.standard)
    (h : WindowsSound s) : WindowsSound t := by
  refine ⟨d.stackLaw h.1, fun i => ?_⟩
  obtain ⟨j, c, hf, hk, hj⟩ := d
  rw [hl, hj]
  split
  · exact Slot.drafted_sound _ _ _
  · exact h.2 i

/-- The conversion of every record under the values just latched brings all derived words under the latched standard:
the standard before may have been another (R78). -/
theorem State.convertStep_sound (s : State) (std : Standard) (h : StackLaw s)
    (hs : ∀ i, SlotSound std (s.slot i)) : WindowsSound s.convertStep := by
  refine ⟨((State.convertStep_moves (V := fun _ => True) s trivial) h).1, fun i => ?_⟩
  have e : s.convertStep.slot i = (s.slot i).convert s.tb.latched := by simp [State.convertStep]
  rw [e, State.convertStep_tb]
  exact Slot.convert_sound _ (hs i)

/-- A field start brings every record's derived words under the values it latches. -/
theorem State.fieldStart_sound (s : State) (cut : Bool) (h : WindowsSound s) : WindowsSound (s.fieldStart cut) := by
  have h1 : Moves (fun _ => False) s s.beginField.recordStep :=
    (Moves.same (by simp) (by simp)).trans ((State.recordStep_moves s.beginField).trans (.same (by simp) (by simp)))
  have h2 : WindowsSound s.beginField.recordStep.convertStep :=
    State.convertStep_sound _ s.tb.latched.standard (h1 h.1).1
      fun i => ((h1 h.1).2 i).keeps (fun _ _ k hk => k.sound hk) (h.2 i)
  have h3 : Moves (fun _ => False) s.beginField.recordStep.convertStep (s.fieldStart cut) := by
    unfold State.fieldStart
    refine Moves.trans ?_ ((State.engineStep_moves
      (s.beginField.recordStep.convertStep.blankingStep cut)).trans ?_)
    · exact .same (by simp) (by simp)
    · exact .same (by simp) (by simp)
  exact h3.sound (by unfold State.fieldStart; simp) h2

theorem State.recutFieldStart_sound (s : State) (h : WindowsSound s) : WindowsSound s.recutFieldStart := by
  have h1 : Moves (fun _ => False) s (s.lineAt s.tb.lineStartAt).unmark.latch :=
    (Moves.same rfl rfl).trans ((State.unmark_moves (s.lineAt s.tb.lineStartAt)).trans (.same (by simp) (by simp)))
  have h2 : WindowsSound (s.lineAt s.tb.lineStartAt).unmark.latch.convertStep :=
    State.convertStep_sound _ s.tb.latched.standard (h1 h.1).1
      fun i => ((h1 h.1).2 i).keeps (fun _ _ k hk => k.sound hk) (h.2 i)
  have h3 : Moves (fun _ => False) (s.lineAt s.tb.lineStartAt).unmark.latch.convertStep s.recutFieldStart := by
    unfold State.recutFieldStart
    refine Moves.trans ?_ ((State.engineStep_moves
      ((s.lineAt s.tb.lineStartAt).unmark.latch.convertStep.blankingStep true)).trans ?_)
    · exact .same (by simp) (by simp)
    · exact .same (by simp) (by simp)
  exact h3.sound (by unfold State.recutFieldStart; simp) h2

/-- Changes of the timing alone keep the laws of the windows. -/
theorem Retimed.sound {u v : State} (r : Retimed u v) (h : WindowsSound u) : WindowsSound v :=
  Moves.sound (.same r.1.2.1 r.1.2.2.1) (by rw [r.2.2.1]) h

end Sys2Proof.Machine
end

