-- ==== Sys2Proof/Laws/Lock.lean ====
section
/-! SUPPORT. The lock contexts under each event of an input, and the timebase's dependence on the program input's
context. -/

namespace Sys2Proof.Machine

/-! ### One context -/

/-- The law of contexts for one context (R125, R127, R129, R131). -/
def ContextSound (c : LockContext) : Prop :=
  c.standard.isSome = c.lock.knowsStandard ∧ (c.standard.isSome → c.remembered = c.standard) ∧
  (c.lock = .noSignal ∨ c.lock = .hunt → c.parity = .first) ∧ (c.lock = .noSignal → c.period = none) ∧
  (∀ p, c.period = some p → 1 ≤ p ∧ p ≤ 4095) ∧ c.headSwitch ≤ 255

theorem clampPeriod_range (d : Nat) : 1 ≤ clampPeriod d ∧ clampPeriod d ≤ 4095 := by
  unfold clampPeriod; omega

/-- Any change of a context's progress items alone. -/
theorem ContextSound.progress {c d : LockContext} (h : ContextSound c) (h1 : d.standard = c.standard)
    (h2 : d.lock = c.lock) (h3 : d.remembered = c.remembered) (h4 : d.parity = c.parity ∨ (c.lock ≠ .noSignal ∧ c.lock ≠ .hunt))
    (h5 : d.period = c.period) (h6 : d.headSwitch ≤ 255) : ContextSound d := by
  unfold ContextSound at *
  rw [h1, h2, h3, h5]
  refine ⟨h.1, h.2.1, fun hl => ?_, h.2.2.2.1, h.2.2.2.2.1, h6⟩
  rcases h4 with e | e
  · rw [e]; exact h.2.2.1 hl
  · rcases hl with hl | hl
    · exact absurd hl e.1
    · exact absurd hl e.2

theorem LockContext.measurePeriod_sound {c : LockContext} (time : Nat) (h : ContextSound c)
    (hl : c.lock ≠ .noSignal) : ContextSound (c.measurePeriod time) := by
  refine ⟨h.1, h.2.1, h.2.2.1, fun e => absurd e hl, fun p hp => ?_, h.2.2.2.2.2⟩
  unfold LockContext.measurePeriod at hp
  dsimp only at hp
  split at hp
  · cases hp; exact clampPeriod_range _
  · exact h.2.2.2.2.1 p hp

theorem LockContext.enterHunt_sound {c : LockContext} (moment : Nat) (h : ContextSound c) :
    ContextSound (c.enterHunt moment) :=
  ⟨rfl, fun e => (nomatch e), fun _ => rfl, fun _ => rfl, fun _ e => (nomatch e), h.2.2.2.2.2⟩

theorem LockContext.failVerify_sound {c : LockContext} (moment : Nat) (h : ContextSound c) :
    ContextSound (c.failVerify moment) :=
  ⟨rfl, fun e => (nomatch e), fun _ => rfl, fun e => (nomatch e), h.2.2.2.2⟩

theorem LockContext.enterNoSignal_sound {c : LockContext} (h : ContextSound c) : ContextSound c.enterNoSignal :=
  ⟨rfl, fun e => (nomatch e), fun _ => rfl, fun _ => rfl, fun _ e => (nomatch e), h.2.2.2.2.2⟩

theorem LockContext.enterVerify_sound {c : LockContext} (std : Standard) (p : Parity) (h : ContextSound c) :
    ContextSound (c.enterVerify std p) := by
  refine ⟨rfl, fun _ => rfl, fun e => ?_, fun e => (nomatch e), h.2.2.2.2.1, ?_⟩
  · rcases e with e | e <;> cases e
  · show (if _ then c.headSwitch else 0) ≤ 255
    split
    · exact h.2.2.2.2.2
    · omega

/-- Entry to a state in which the standard is known, from one in which it is known. -/
theorem ContextSound.known {c d : LockContext} (h : ContextSound c) (hs : c.lock.knowsStandard = true)
    (hd : d.lock.knowsStandard = true) (h1 : d.standard = c.standard) (h3 : d.remembered = c.remembered)
    (h5 : d.period = c.period) (h6 : d.headSwitch ≤ 255) : ContextSound d := by
  refine ⟨by rw [h1, hd, h.1, hs], by rw [h1, h3]; exact h.2.1, fun e => ?_, fun e => ?_, by rw [h5]; exact h.2.2.2.2.1,
    h6⟩
  · rcases e with e | e <;> rw [e] at hd <;> cases hd
  · rw [e] at hd; cases hd

theorem LockContext.nextLine_sound {c : LockContext} (h : ContextSound c) (hs : c.lock.knowsStandard = true) :
    ContextSound c.nextLine.1 := by
  unfold LockContext.nextLine
  split
  · exact h.known hs hs rfl rfl rfl h.2.2.2.2.2
  · exact h.known hs hs rfl rfl rfl h.2.2.2.2.2

@[simp] theorem LockContext.nextLine_lock (c : LockContext) : c.nextLine.1.lock = c.lock := by
  unfold LockContext.nextLine
  split <;> rfl

theorem LockContext.huntLine_sound {c : LockContext} (time : Nat) (seq : Option Parity) (h : ContextSound c)
    (hl : c.lock = .hunt) : ContextSound (c.huntLine time seq).ctx := by
  have hm := LockContext.measurePeriod_sound time h (by simp [hl])
  unfold LockContext.huntLine
  dsimp only
  split
  · exact hm.progress rfl rfl rfl (.inl rfl) rfl hm.2.2.2.2.2
  · exact hm.progress rfl rfl rfl (.inl rfl) rfl hm.2.2.2.2.2
  · split
    · exact LockContext.enterVerify_sound _ _ hm
    · split
      · exact LockContext.enterVerify_sound _ _ hm
      · exact hm.progress rfl rfl rfl (.inl rfl) rfl hm.2.2.2.2.2

theorem LockContext.verifyLine_sound {c : LockContext} (time : Nat) (seq : Option Parity) (h : ContextSound c)
    (hl : c.lock = .verify) : ContextSound (c.verifyLine time seq).ctx := by
  have hm := LockContext.measurePeriod_sound time h (by simp [hl])
  have hk : (c.measurePeriod time).lock.knowsStandard = true := by
    show c.lock.knowsStandard = true
    rw [hl]; rfl
  unfold LockContext.verifyLine
  dsimp only
  split
  · exact LockContext.failVerify_sound _ hm
  · split
    · split
      · exact hm.known hk hk rfl rfl rfl hm.2.2.2.2.2
      · exact LockContext.failVerify_sound _ hm
    · split
      · exact LockContext.failVerify_sound _ hm
      · split
        · exact hm.known hk hk rfl rfl rfl hm.2.2.2.2.2
        · exact hm.known hk rfl rfl rfl rfl hm.2.2.2.2.2

theorem LockContext.lockedFound_sound {c : LockContext} (time : Nat) (h : ContextSound c) (hl : c.lock = .locked) :
    ContextSound (c.lockedFound time) ∧ (c.lockedFound time).lock.knowsStandard = true := by
  have hm := LockContext.measurePeriod_sound time h (by simp [hl])
  have hk : c.lock.knowsStandard = true := by rw [hl]; rfl
  unfold LockContext.lockedFound
  split
  · split
    · exact ⟨hm.known hk hk rfl rfl rfl hm.2.2.2.2.2, hk⟩
    · exact ⟨h.known hk hk rfl rfl rfl h.2.2.2.2.2, hk⟩
  · split
    · exact ⟨h.known hk hk rfl rfl rfl (Nat.min_le_left _ _), hk⟩
    · exact ⟨h.known hk rfl rfl rfl rfl h.2.2.2.2.2, rfl⟩

theorem LockContext.lockedLine_sound {c : LockContext} (time : Nat) (seq : Option Parity) (h : ContextSound c)
    (hl : c.lock = .locked) : ContextSound (c.lockedLine time seq).ctx := by
  have hf := LockContext.lockedFound_sound time h hl
  have hn := LockContext.nextLine_sound hf.1 hf.2
  unfold LockContext.lockedLine
  split
  · exact h
  · dsimp only
    split
    · exact hn
    · split
      · exact hn
      · exact h.known (by rw [hl]; rfl) rfl rfl rfl rfl h.2.2.2.2.2

theorem LockContext.holdoverEnd_sound {c : LockContext} (v : Bool) (moment : Nat) (h : ContextSound c) :
    ContextSound (c.holdoverEnd v moment).ctx := by
  unfold LockContext.holdoverEnd
  split
  · exact LockContext.enterHunt_sound _ h
  · exact h

theorem LockContext.holdoverLine_sound {c : LockContext} (time : Nat) (seq : Option Parity) (h : ContextSound c)
    (hl : c.lock = .holdover) : ContextSound (c.holdoverLine time seq).ctx := by
  have hk : c.lock.knowsStandard = true := by rw [hl]; rfl
  unfold LockContext.holdoverLine
  split
  · exact h
  · dsimp only
    generalize (if c.distance time ≤ Config.jumpTolerance then c.run + 1 else 0) = good
    generalize hd : ({ c with reference := some time, found := true, run := good, heldLines := c.heldLines + 1 } :
      LockContext) = d
    have hds : ContextSound d := by
      subst hd; exact h.known hk hk rfl rfl rfl h.2.2.2.2.2
    have hdk : d.lock.knowsStandard = true := by subst hd; exact hk
    have hn := LockContext.nextLine_sound hds hdk
    have hnk : d.nextLine.1.lock.knowsStandard = true := by simpa using hdk
    cases seq with
    | none =>
      dsimp only
      split
      · exact hn.known hnk rfl rfl rfl rfl hn.2.2.2.2.2
      · exact LockContext.holdoverEnd_sound _ _ hn
    | some p =>
      dsimp only
      split
      · exact hn.known hnk rfl rfl rfl rfl hn.2.2.2.2.2
      · exact LockContext.holdoverEnd_sound _ _ (hn.known hnk hnk rfl rfl rfl hn.2.2.2.2.2)

theorem LockContext.lineEvent_sound {c : LockContext} (time : Nat) (seq : Option Parity) (h : ContextSound c) :
    ContextSound (c.lineEvent time seq).ctx := by
  unfold LockContext.lineEvent
  split
  · exact h
  · next hl => exact LockContext.huntLine_sound time seq h hl
  · next hl => exact LockContext.verifyLine_sound time seq h hl
  · next hl => exact LockContext.lockedLine_sound time seq h hl
  · next hl => exact LockContext.holdoverLine_sound time seq h hl

theorem LockContext.missingLine_sound {c : LockContext} (moment : Nat) (h : ContextSound c) :
    ContextSound (c.missingLine moment).ctx := by
  unfold LockContext.missingLine
  split
  · exact h
  · next t _ =>
    split
    · next hl =>
      have hk : c.lock.knowsStandard = true := by rw [hl]; rfl
      have hd : ContextSound { c with reference := some t, found := false, run := c.run + 1 } :=
        h.known hk hk rfl rfl rfl h.2.2.2.2.2
      have hn := LockContext.nextLine_sound hd hk
      dsimp only
      split
      · exact hn.known (by simpa using hk) rfl rfl rfl rfl hn.2.2.2.2.2
      · exact hn
    · next hl =>
      have hk : c.lock.knowsStandard = true := by rw [hl]; rfl
      have hd : ContextSound { c with reference := some t, found := false, run := 0, heldLines := c.heldLines + 1 } :=
        h.known hk hk rfl rfl rfl h.2.2.2.2.2
      exact LockContext.holdoverEnd_sound _ _ (LockContext.nextLine_sound hd hk)
    all_goals exact h

/-- Every event of an input keeps the law of its context. -/
theorem Tracks.sound {c : LockContext} {t : Tracked} (h : Tracks c t) (hc : ContextSound c) : ContextSound t.ctx := by
  cases h with
  | pulse time =>
    unfold LockContext.pulse
    split
    · exact ⟨rfl, fun e => (nomatch e), fun _ => rfl, fun _ => rfl, fun _ e => (nomatch e), hc.2.2.2.2.2⟩
    · exact hc.progress rfl rfl rfl (.inl rfl) rfl hc.2.2.2.2.2
  | line time seq => exact LockContext.lineEvent_sound time seq hc
  | missing moment => exact LockContext.missingLine_sound moment hc
  | limit _ _ => exact LockContext.enterHunt_sound _ hc
  | loss _ => exact LockContext.enterNoSignal_sound hc

/-- An event of one input leaves the context it makes, and the other input's context alone (R125). -/
theorem State.tracked_ctx (s : State) (x y : Input) (t : Tracked) :
    (s.tracked x t).ctx y = if y = x then t.ctx else s.ctx y := by
  have h : (s.tracked x t).feedA = (s.setCtx x t.ctx).feedA ∧ (s.tracked x t).feedB = (s.setCtx x t.ctx).feedB := by
    simp only [State.tracked]
    split <;> simp
  cases x <;> cases y <;> simp [State.ctx, h, State.setCtx]

/-! ### The timebase and the program input's context (R146) -/

/-- The law reads the timebase's state and the program input's lock state. -/
theorem FollowLaw_congr {s t : State} (h : FollowLaw s) (h1 : t.tb.state = s.tb.state)
    (h2 : t.programCtx.lock = s.programCtx.lock) : FollowLaw t := by
  unfold FollowLaw at *; rw [h1, h2]; exact h

/-- In FREE RUN and COAST the law says nothing. -/
theorem FollowLaw_free {s : State} (h : s.tb.state ≠ .follow ∧ s.tb.state ≠ .slew) : FollowLaw s :=
  fun e => by rcases e with e | e <;> simp_all

/-- While the program input is LOCKED the law holds. -/
theorem FollowLaw_locked {s : State} (h : s.programCtx.lock = .locked) : FollowLaw s := fun _ => h

@[simp] theorem State.enterCoast_state (s : State) : s.enterCoast.tb.state = .coast := rfl

theorem State.settleSlew_followLaw (s : State) (h : FollowLaw s) : FollowLaw s.settleSlew := by
  unfold State.settleSlew
  split
  · next hs => exact FollowLaw_locked (h (.inr hs.1))
  · exact h

theorem State.slewVertical_followLaw (s : State) (h : FollowLaw s) : FollowLaw s.slewVertical := by
  unfold State.slewVertical
  split
  · exact State.settleSlew_followLaw _ h
  · exact h

/-- Nothing but the timebase's state, the program input and the contexts matters. -/
theorem FollowLaw_same {s t : State} (h : FollowLaw s) (h1 : t.tb.state = s.tb.state)
    (h2 : t.tb.program = s.tb.program) (h3 : t.feedA = s.feedA) (h4 : t.feedB = s.feedB) : FollowLaw t := by
  refine FollowLaw_congr h h1 ?_
  simp only [State.programCtx, h2]
  cases s.tb.program <;> simp [State.ctx, h3, h4]

theorem State.fieldStart_followLaw (s : State) (cut : Bool) (h : FollowLaw s) : FollowLaw (s.fieldStart cut) := by
  have h1 : FollowLaw s.beginField := s.slewVertical_followLaw h
  unfold State.fieldStart
  exact FollowLaw_same h1 (by simp) (by simp) (by simp) (by simp)

@[simp] theorem State.cutTo_ctx (s : State) (x y : Input) : (s.cutTo x).ctx y = s.ctx y := by
  cases y <;> simp [State.ctx]

@[simp] theorem State.slewTo_ctx (s : State) (x y : Input) : (s.slewTo x).ctx y = s.ctx y := by
  cases y <;> simp [State.ctx]

theorem State.cutTo_followLaw (s : State) (x : Input) : FollowLaw (s.cutTo x) := by
  have hp : (s.cutTo x).tb.program = x := by
    unfold State.cutTo; dsimp only; split <;> simp [State.takeInput]
  by_cases hl : (s.ctx x).lock = .locked
  · refine FollowLaw_locked ?_
    simp [State.programCtx, hp, hl]
  · refine FollowLaw_free ?_
    unfold State.cutTo
    simp [hl]

theorem State.slewTo_followLaw (s : State) (x : Input) : FollowLaw (s.slewTo x) := by
  have hp : (s.slewTo x).tb.program = x := by
    unfold State.slewTo; dsimp only; split <;> simp [State.takeInput, Timebase.measure]
  by_cases hl : (s.ctx x).lock = .locked
  · refine FollowLaw_locked ?_
    simp [State.programCtx, hp, hl]
  · refine FollowLaw_free ?_
    unfold State.slewTo
    simp [hl]

@[simp] theorem State.setCtx_ctx (s : State) (x y : Input) (c : LockContext) :
    (s.setCtx x c).ctx y = if y = x then c else s.ctx y := by
  cases x <;> cases y <;> simp [State.ctx, State.setCtx]

@[simp] theorem State.relock_ctx (s : State) (y : Input) : s.relock.ctx y = s.ctx y := by
  cases y <;> simp [State.ctx]

@[simp] theorem State.relock_program (s : State) : s.relock.tb.program = s.tb.program := by simp

/-- A change of an input's context, with what it hands on to the timebase, keeps the law (R146). -/
theorem State.changed_followLaw (s : State) (x : Input) (c : LockContext) (h : FollowLaw s) :
    FollowLaw ((s.setCtx x c).lockChanged x (s.ctx x).lock) := by
  unfold State.lockChanged
  dsimp only
  split
  · next hl =>
    refine FollowLaw_congr h (by simp) ?_
    simp only [State.programCtx, State.setCtx_ctx]
    simp only [State.setCtx_ctx, if_true] at hl
    by_cases e : s.tb.program = x
    · subst e; simp [hl]
    · simp [e]
  · next hl =>
    generalize hw : (if ((s.setCtx x c).ctx x).lock = .hunt ∨ ((s.setCtx x c).ctx x).lock = .noSignal then
      (s.setCtx x c).signalLock.withdrawSwitch x else (s.setCtx x c).signalLock) = w
    have hs : w.tb.state = s.tb.state := by rw [← hw]; split <;> simp
    have hp : w.tb.program = s.tb.program := by rw [← hw]; split <;> simp
    have hc : ∀ y, w.ctx y = if y = x then c else s.ctx y := by
      intro y
      have : w.ctx y = (s.setCtx x c).ctx y := by
        rw [← hw]; split <;> cases y <;> simp [State.ctx]
      rw [this, State.setCtx_ctx]
    simp only [State.setCtx_ctx, if_true] at hl
    split
    · next hx =>
      have hx' : s.tb.program = x := by simpa using hx.symm
      have hpc : w.programCtx = c := by simp [State.programCtx, hp, hx', hc]
      unfold State.programLockChanged
      split
      · split
        · exact FollowLaw_free (by simp)
        · next hf => exact FollowLaw_free (by simpa using hf)
      · next ho =>
        split
        · next hn =>
          split
          · refine FollowLaw_locked ?_
            simpa [State.programCtx] using hn
          · exact FollowLaw_locked hn
        · refine FollowLaw_free ?_
          rw [hs]
          have hns : s.programCtx.lock ≠ .locked := by simpa [State.programCtx, hx'] using ho
          exact ⟨fun e => hns (h (.inl e)), fun e => hns (h (.inr e))⟩
    · next hx =>
      refine FollowLaw_congr h hs ?_
      have hx' : s.tb.program ≠ x := fun e => hx (by simp [e])
      simp [State.programCtx, hp, hc, hx']

/-- The events of the inputs and the end of a computer line keep the law. -/
theorem State.timing_followLaw (s : State) (h : FollowLaw s) :
    (∀ x, FollowLaw (s.cutSwitch x)) ∧ (∀ x, FollowLaw (s.slewSwitch x)) ∧ FollowLaw s.computerLineEnd ∧
      (∀ x t, FollowLaw (s.tracked x t)) :=
  State.timing_ops_ind (fun u x _ => u.cutTo_followLaw x) (fun u x _ => u.slewTo_followLaw x)
    State.changed_followLaw (fun _ _ hu => hu) (fun _ _ hu => hu) (fun _ hu => hu) (fun _ _ hu => hu) (fun _ _ hu => hu)
    State.settleSlew_followLaw
    State.fieldStart_followLaw
    (fun u hu => FollowLaw_same hu (by simp) (by simp) (by simp) (by simp))
    (fun u hu => FollowLaw_same hu (by simp) (by simp) (by simp) (by simp)) s h

end Sys2Proof.Machine
end

