-- ==== Sys2Proof/Laws/Ranges.lean ====
section
/-! SUPPORT. The ranges of the timebase's items, the air guard and the held SELECT under each operation. -/

namespace Sys2Proof.Machine

/-! ### Residuals -/

/-- A horizontal residual lies in -432..431 (R141, R144). -/
theorem Timebase.measureH_range (t : Timebase) (c : LockContext) :
    -432 ≤ t.measureH c ∧ t.measureH c ≤ 431 := by
  have hn : 858 ≤ t.standard.nominal ∧ t.standard.nominal ≤ 864 := by cases t.standard <;> decide
  unfold Timebase.measureH reduceH
  generalize t.offsetH c = d
  generalize t.standard.nominal = n at *
  have h0 := Int.emod_nonneg d (show (n : Int) ≠ 0 by omega)
  have h1 := Int.emod_lt_of_pos d (show (0 : Int) < n by omega)
  split <;> omega

theorem LockContext.expected_range (c : LockContext) : 262 ≤ c.expected ∧ c.expected ≤ 313 := by
  unfold LockContext.expected
  generalize c.lineStandard = std
  generalize c.parity = p
  cases std <;> cases p <;> decide

/-- An offset reduced over a context's field lies in -156..156 (R141, R144). -/
theorem reduceV_range (c : LockContext) (d : Int) : -156 ≤ reduceV c.expected d ∧ reduceV c.expected d ≤ 156 := by
  have he := c.expected_range
  unfold reduceV
  generalize c.expected = n at *
  have h0 := Int.emod_nonneg d (show (n : Int) ≠ 0 by omega)
  have h1 := Int.emod_lt_of_pos d (show (0 : Int) < n by omega)
  split <;> omega

/-- A vertical residual lies in -156..156 (R141, R144). -/
theorem Timebase.measureV_range (t : Timebase) (c : LockContext) :
    -156 ≤ t.measureV c ∧ t.measureV c ≤ 156 := reduceV_range c _

/-- A residual moved toward 0 stays within a range around 0 (R145). -/
theorem towardZero_range (n : Nat) {x lo hi : Int} (h1 : lo ≤ x) (h2 : x ≤ hi) (hl : lo ≤ 0) (hh : 0 ≤ hi) :
    lo ≤ towardZero n x ∧ towardZero n x ≤ hi := by
  unfold towardZero
  split <;> omega

/-! ### The timebase -/

/-- The law of the timebase reads these items. -/
theorem TimebaseLaw_congr {s t : State} (h : TimebaseLaw s) (h1 : t.tb.h = s.tb.h) (h2 : t.tb.v = s.tb.v)
    (h3 : t.tb.setScale = s.tb.setScale) (h4 : t.tb.setTrim = s.tb.setTrim) (h5 : t.tb.latched = s.tb.latched)
    (h6 : t.keyer.cutBlanking = s.keyer.cutBlanking) : TimebaseLaw t := by
  unfold TimebaseLaw at *
  rw [h1, h2, h3, h4, h5, h6]; exact h

/-- New residuals within their ranges. -/
theorem TimebaseLaw_residuals {s t : State} (h : TimebaseLaw s) (h1 : -432 ≤ t.tb.h ∧ t.tb.h ≤ 431)
    (h2 : -156 ≤ t.tb.v ∧ t.tb.v ≤ 156) (h3 : t.tb.setScale = s.tb.setScale) (h4 : t.tb.setTrim = s.tb.setTrim)
    (h5 : t.tb.latched = s.tb.latched) (h6 : t.keyer.cutBlanking = s.keyer.cutBlanking) : TimebaseLaw t := by
  unfold TimebaseLaw at *
  rw [h3, h4, h5, h6]; exact ⟨h1, h2, h.2.2⟩

/-- The vertical residual after a field start in SLEW stays in its range (R141, R145). -/
theorem State.slewedV_range (s : State) (h : -156 ≤ s.tb.v ∧ s.tb.v ≤ 156) : -156 ≤ s.slewedV ∧ s.slewedV ≤ 156 := by
  unfold State.slewedV
  split
  · exact reduceV_range _ _
  · exact towardZero_range _ h.1 h.2 (by omega) (by omega)

theorem State.slewVertical_timebaseLaw (s : State) (h : TimebaseLaw s) : TimebaseLaw s.slewVertical := by
  unfold State.slewVertical
  split
  · exact TimebaseLaw_residuals h (by simpa using h.1)
      (by simpa using s.slewedV_range h.2.1) (by simp) (by simp) (by simp) (by simp)
  · exact h

theorem State.latch_timebaseLaw (s : State) (h : TimebaseLaw s) : TimebaseLaw s.latch :=
  ⟨h.1, h.2.1, h.2.2.1, h.2.2.2.1, h.2.2.1, h.2.2.2.1, h.1, h.2.1, h.2.2.2.2.2.2.2.2⟩

theorem State.beginField_timebaseLaw (s : State) (h : TimebaseLaw s) : TimebaseLaw s.beginField := by
  unfold State.beginField
  exact State.latch_timebaseLaw _ (s.slewVertical_timebaseLaw h)

theorem State.blankingStep_timebaseLaw (s : State) (cut : Bool) (h : TimebaseLaw s) :
    TimebaseLaw (s.blankingStep cut) := by
  refine ⟨h.1, h.2.1, h.2.2.1, h.2.2.2.1, h.2.2.2.2.1, h.2.2.2.2.2.1, h.2.2.2.2.2.2.1, h.2.2.2.2.2.2.2.1, ?_⟩
  have := h.2.2.2.2.2.2.2.2
  show (if cut = true then Config.cutBlankingFields else s.keyer.cutBlanking - 1) ≤ _
  split <;> omega

theorem State.fieldStart_timebaseLaw (s : State) (cut : Bool) (h : TimebaseLaw s) :
    TimebaseLaw (s.fieldStart cut) := by
  unfold State.fieldStart
  have h1 : TimebaseLaw s.beginField.recordStep.convertStep :=
    TimebaseLaw_congr (s.beginField_timebaseLaw h) (by simp) (by simp) (by simp) (by simp) (by simp) (by simp)
  exact TimebaseLaw_congr (State.blankingStep_timebaseLaw _ cut h1) (by simp) (by simp) (by simp) (by simp) (by simp)
    (by simp)

theorem State.recutFieldStart_timebaseLaw (s : State) (h : TimebaseLaw s) : TimebaseLaw s.recutFieldStart := by
  unfold State.recutFieldStart
  have h0 : TimebaseLaw (s.lineAt s.tb.lineStartAt).unmark := TimebaseLaw_congr h (by simp) (by simp) (by simp) (by simp)
    (by simp) (by simp)
  have h1 : TimebaseLaw (s.lineAt s.tb.lineStartAt).unmark.latch.convertStep :=
    TimebaseLaw_congr (State.latch_timebaseLaw _ h0) (by simp) (by simp) (by simp) (by simp) (by simp) (by simp)
  exact TimebaseLaw_congr (State.blankingStep_timebaseLaw _ true h1) (by simp) (by simp) (by simp) (by simp) (by simp)
    (by simp)

theorem State.settleHeldSelect_timebaseLaw (s : State) (h : TimebaseLaw s) : TimebaseLaw s.settleHeldSelect :=
  TimebaseLaw_congr h (by simp) (by simp) (by simp) (by simp) (by simp) (by simp)

theorem State.cutTo_timebaseLaw (s : State) (x : Input) (h : TimebaseLaw s) : TimebaseLaw (s.cutTo x) := by
  refine TimebaseLaw_residuals h ?_ ?_ (by simp) (by simp) (by simp) (by simp)
  all_goals
    unfold State.cutTo
    dsimp only
    split <;> simp

theorem State.slewTo_timebaseLaw (s : State) (x : Input) (h : TimebaseLaw s) : TimebaseLaw (s.slewTo x) := by
  refine TimebaseLaw_residuals h ?_ ?_ (by simp) (by simp) (by simp) (by simp)
  all_goals
    unfold State.slewTo
    dsimp only
    split <;> simp [Timebase.measure, Timebase.measureH_range, Timebase.measureV_range]

theorem State.relock_timebaseLaw (s : State) (h : TimebaseLaw s) : TimebaseLaw s.relock := by
  refine TimebaseLaw_residuals h ?_ ?_ (by simp) (by simp) (by simp) (by simp)
  all_goals simp [State.relock, Timebase.measure, Timebase.measureH_range, Timebase.measureV_range]

theorem State.lockChanged_timebaseLaw (s : State) (x : Input) (l : LockState) (h : TimebaseLaw s) :
    TimebaseLaw (s.lockChanged x l) := by
  have program : ∀ u : State, TimebaseLaw u → TimebaseLaw (u.programLockChanged l) := by
    intro u hu
    unfold State.programLockChanged
    split
    · split
      · exact TimebaseLaw_congr hu (by simp) (by simp) (by simp) (by simp) (by simp) (by simp)
      · exact hu
    · split
      · split
        · exact u.relock_timebaseLaw hu
        · exact hu
      · exact hu
  have withdrawn : TimebaseLaw (if (s.ctx x).lock = .hunt ∨ (s.ctx x).lock = .noSignal then
      s.signalLock.withdrawSwitch x else s.signalLock) := by
    split
    · exact TimebaseLaw_congr h (by simp) (by simp) (by simp) (by simp) (by simp) (by simp)
    · exact TimebaseLaw_congr h (by simp) (by simp) (by simp) (by simp) (by simp) (by simp)
  unfold State.lockChanged
  dsimp only
  split
  · exact h
  · split
    · exact program _ withdrawn
    · exact withdrawn

theorem State.endLine_timebaseLaw (s : State) (h : TimebaseLaw s) : TimebaseLaw s.endLine := by
  refine TimebaseLaw_residuals h ?_ h.2.1 rfl rfl rfl rfl
  have := h.1
  unfold State.endLine
  dsimp only
  (repeat' split) <;> omega

/-- The events of the inputs and the end of a computer line keep the ranges of the timebase. -/
theorem State.timing_timebaseLaw (s : State) (h : TimebaseLaw s) :
    (∀ x, TimebaseLaw (s.cutSwitch x)) ∧ (∀ x, TimebaseLaw (s.slewSwitch x)) ∧ TimebaseLaw s.computerLineEnd ∧
      (∀ x t, TimebaseLaw (s.tracked x t)) :=
  State.timing_ops_ind State.cutTo_timebaseLaw State.slewTo_timebaseLaw
    (fun u x c hu => State.lockChanged_timebaseLaw (u.setCtx x c) x (u.ctx x).lock
      (TimebaseLaw_congr hu (by simp) (by simp) (by simp) (by simp) (by simp) (by simp)))
    (fun _ _ hu => hu) (fun _ _ hu => hu) State.endLine_timebaseLaw (fun _ _ hu => hu) (fun _ _ hu => hu)
    (fun _ hu => TimebaseLaw_congr hu (by simp) (by simp) (by simp) (by simp) (by simp) (by simp))
    State.fieldStart_timebaseLaw
    State.recutFieldStart_timebaseLaw State.settleHeldSelect_timebaseLaw s h

@[simp] theorem State.beginLine_cutBlanking (s : State) (line : Nat) :
    (s.beginLine line).keyer.cutBlanking = s.keyer.cutBlanking := by
  simp only [State.beginLine]
  split <;> simp

@[simp] theorem State.takingPointReached_cutBlanking (s : State) :
    s.takingPointReached.keyer.cutBlanking = s.keyer.cutBlanking := by
  simp only [State.takingPointReached]
  (repeat' split) <;> simp [State.takeWord, State.abandonWindow] <;> (repeat' split) <;>
    simp [State.noteTaken, State.abandonEntry]

@[simp] theorem State.busTimeout_cutBlanking (s : State) :
    s.busTimeout.keyer.cutBlanking = s.keyer.cutBlanking := by
  simp only [State.busTimeout]
  (repeat' split) <;> simp [State.maskFault]
  (repeat' split) <;> simp [State.fetchFault, State.abandonEntry]

/-- A command just taken keeps the ranges of the timebase (R89). -/
theorem commandEffect_timebaseLaw (x : Bool) (code : BitVec 5) (s : State) (h : TimebaseLaw s) :
    TimebaseLaw (commandEffect x code s) := by
  have same : ∀ t : State, t.tb.h = s.tb.h → t.tb.v = s.tb.v → t.tb.setScale = s.tb.setScale →
      t.tb.setTrim = s.tb.setTrim → t.tb.latched = s.tb.latched → t.keyer = s.keyer → TimebaseLaw t :=
    fun t h1 h2 h3 h4 h5 h6 => TimebaseLaw_congr h h1 h2 h3 h4 h5 (by rw [h6])
  apply commandEffect_cases (P := fun e => TimebaseLaw (e s))
  case setGeometry =>
    unfold setGeometryEffect
    split
    · exact h
    · next hh =>
      refine ⟨h.1, h.2.1, ?_, ?_, h.2.2.2.2⟩
      · show 64 ≤ s.cmd.arg0.toNat ∧ s.cmd.arg0.toNat ≤ 128; omega
      · show -32 ≤ s.cmd.arg1.toInt ∧ s.cmd.arg1.toInt ≤ 31; omega
  case select =>
    unfold selectEffect
    (repeat' split) <;> apply same <;> simp
  all_goals intros; apply same <;> simp

/-! ### The air guard -/

/-- The guard's bounds, read from the guard alone (R56, R57). -/
def GuardBounds (g : AirGuard) : Prop :=
  g.setting ≤ 255 ∧ g.count ≤ g.setting ∧ (g.expired = true → g.count = g.setting)

theorem GuardLaw_iff (s : State) : GuardLaw s ↔ GuardBounds s.guard := Iff.rfl

theorem GuardLaw_congr {s t : State} (h : GuardLaw s) (hg : t.guard = s.guard) : GuardLaw t := by
  rw [GuardLaw_iff] at *; rw [hg]; exact h

theorem State.take_guardLaw (s : State) (code : BitVec 5) (ie : Bool) (h : GuardLaw s) :
    GuardLaw (s.take code ie) :=
  ⟨h.1, Nat.zero_le _, fun e => by cases e⟩

theorem State.guardExpire_guardLaw (s : State) (h : GuardLaw s) : GuardLaw s.guardExpire :=
  ⟨h.1, Nat.le_refl _, fun _ => rfl⟩

theorem State.guardStep_guardLaw (s : State) (h : GuardLaw s) : GuardLaw s.guardStep := by
  unfold State.guardStep
  split
  · exact s.guardExpire_guardLaw h
  · next hd =>
    split
    · next hs =>
      simp [AirGuard.due, hs.1, hs.2] at hd
      exact ⟨h.1, Nat.le_of_lt hd, fun e => absurd e hs.2⟩
    · exact h

theorem State.fieldStart_guardLaw (s : State) (cut : Bool) (h : GuardLaw s) : GuardLaw (s.fieldStart cut) := by
  unfold State.fieldStart State.recordStep State.stackStep
  generalize hu : s.beginField.expiring.foldl State.removeExpired s.beginField.countStep = u
  have h1 : GuardLaw u := GuardLaw_congr h (by rw [← hu]; simp)
  exact GuardLaw_congr (u.guardStep_guardLaw h1) (by simp)

/-- GUARD leaves the guard within its bounds where it stands just reset, as a taken command leaves it (R56, R58). -/
theorem guardEffect_guardLaw (x : Bool) (s : State) (h : GuardLaw s) (h0 : s.guard.count = 0)
    (h1 : s.guard.expired = false) : GuardLaw (guardEffect x s) := by
  unfold guardEffect
  split
  · exact h
  · refine ⟨?_, ?_, ?_⟩
    · show s.cmd.arg0.toNat ≤ 255; omega
    · show s.guard.count ≤ s.cmd.arg0.toNat; omega
    · show s.guard.expired = true → _; simp [h1]

theorem commandEffect_guardLaw (x : Bool) (code : BitVec 5) (s : State) (h : GuardLaw s) (h0 : s.guard.count = 0)
    (h1 : s.guard.expired = false) : GuardLaw (commandEffect x code s) := by
  apply commandEffect_cases (P := fun e => GuardLaw (e s))
  case guard => exact fun x => guardEffect_guardLaw x s h h0 h1
  all_goals exact GuardLaw_congr h (by simp)

/-! ### The held SELECT -/

/-- A held SELECT has counted fewer field starts than its limit (R153). -/
def HeldSelectCount (s : State) : Prop :=
  ∀ q, s.tb.heldSelect = some q → q.count < Config.heldSelectLimit

/-- A held SELECT waits on a switch in flight (R153). -/
def HeldSelectWaits (s : State) : Prop :=
  ∀ q, s.tb.heldSelect = some q → s.tb.switch ≠ .none

theorem HeldSelectLaw_iff (s : State) : HeldSelectLaw s ↔ HeldSelectWaits s ∧ HeldSelectCount s :=
  ⟨fun h => ⟨fun q hq => (h q hq).1, fun q hq => (h q hq).2⟩, fun h q hq => ⟨h.1 q hq, h.2 q hq⟩⟩

theorem HeldSelectCount_congr {s t : State} (h : HeldSelectCount s) (ht : t.tb.heldSelect = s.tb.heldSelect) :
    HeldSelectCount t := by
  unfold HeldSelectCount; rw [ht]; exact h

/-- Where a held SELECT has been settled, one that is still held waits on a switch (R153). -/
theorem State.settleHeldSelect_waits (s : State) : HeldSelectWaits s.settleHeldSelect := by
  unfold State.settleHeldSelect
  split
  · next h => intro q hq; rw [h] at hq; cases hq
  · split
    · intro q hq; simp [State.examineHeld] at hq
    · next h => exact fun _ _ => h

theorem State.settleHeldSelect_count (s : State) (h : HeldSelectCount s) : HeldSelectCount s.settleHeldSelect := by
  unfold State.settleHeldSelect
  split
  · exact h
  · split
    · intro q hq; simp [State.examineHeld] at hq
    · exact h

theorem State.heldSelectStep_law (s : State) : HeldSelectWaits s.heldSelectStep ∧ HeldSelectCount s.heldSelectStep := by
  unfold State.heldSelectStep
  split
  · next h => exact ⟨fun q hq => absurd (h.symm.trans hq) (by simp), fun q hq => absurd (h.symm.trans hq) (by simp)⟩
  · split
    · exact ⟨fun q hq => by (simp [State.examineHeld] at hq), fun q hq => by (simp [State.examineHeld] at hq)⟩
    · next hs =>
      split
      · exact ⟨fun q hq => (nomatch hq), fun q hq => (nomatch hq)⟩
      · next hc =>
        refine ⟨fun _ _ => hs, fun q hq => ?_⟩
        cases hq
        show _ + 1 < _
        omega

theorem State.fieldStart_heldSelect (s : State) (cut : Bool) : HeldSelectLaw (s.fieldStart cut) := by
  rw [HeldSelectLaw_iff]
  unfold State.fieldStart
  exact State.heldSelectStep_law _

/-- After each event of the inputs and each end of a computer line, a held SELECT waits on a switch and has counted
fewer field starts than its limit. -/
theorem State.timing_heldSelect (s : State) (h : HeldSelectCount s) :
    (∀ x, HeldSelectLaw (s.cutSwitch x)) ∧ (∀ x, HeldSelectLaw (s.slewSwitch x)) ∧
      HeldSelectLaw s.computerLineEnd ∧ (∀ x t, HeldSelectLaw (s.tracked x t)) := by
  have ht := State.timing_ind (P := HeldSelectCount) (fun _ _ r hu => HeldSelectCount_congr hu r.2.2.2.1)
    (fun u cut _ => ((HeldSelectLaw_iff _).1 (u.fieldStart_heldSelect cut)).2)
    (fun u hu => State.settleHeldSelect_count _ (HeldSelectCount_congr hu (by simp)))
    (fun u hu => u.settleHeldSelect_count hu) s h
  have parity : ∀ (u : State) p, HeldSelectWaits u → HeldSelectWaits { u with tb := { u.tb with parity := p } } :=
    fun _ _ hu => hu
  refine ⟨fun x => ?_, fun x => ?_, ?_, fun x t => ?_⟩
  · refine (HeldSelectLaw_iff _).2 ⟨?_, ht.1 x⟩
    unfold State.cutSwitch
    dsimp only
    split
    · exact parity _ _ (State.settleHeldSelect_waits _)
    · exact parity _ _ ((HeldSelectLaw_iff _).1 (State.fieldStart_heldSelect _ _)).1
  · exact (HeldSelectLaw_iff _).2 ⟨State.settleHeldSelect_waits _, ht.2.1 x⟩
  · exact (HeldSelectLaw_iff _).2 ⟨State.settleHeldSelect_waits _, ht.2.2.1⟩
  · exact (HeldSelectLaw_iff _).2 ⟨State.settleHeldSelect_waits _, ht.2.2.2 x t⟩

end Sys2Proof.Machine
end

