-- ==== Sys2Proof/Laws/Ready.lean ====
section
/-! SUPPORT. The command in progress: what each operation does to READY, the held request, the held SELECT and the
image transfer (R158). -/

namespace Sys2Proof.Machine

/-- The four ways the law of READY can hold: no command in progress, or exactly one of the three kinds. -/
theorem ReadyLaw_iff (s : State) : ReadyLaw s ↔
    ((s.cmd.ready = true ∧ s.held = none ∧ s.tb.heldSelect = none ∧ s.port.transfer = none) ∨
      (s.cmd.ready = false ∧ s.held ≠ none ∧ s.tb.heldSelect = none ∧ s.port.transfer = none) ∨
      (s.cmd.ready = false ∧ s.held = none ∧ s.tb.heldSelect ≠ none ∧ s.port.transfer = none) ∨
      (s.cmd.ready = false ∧ s.held = none ∧ s.tb.heldSelect = none ∧ s.port.transfer ≠ none)) := by
  unfold ReadyLaw commandsInProgress
  cases s.held <;> cases s.tb.heldSelect <;> cases s.port.transfer <;> cases s.cmd.ready <;> simp [bit]

/-- The law of READY reads four items. -/
theorem ReadyLaw_congr {s t : State} (h : ReadyLaw s) (h1 : t.held = s.held)
    (h2 : t.tb.heldSelect = s.tb.heldSelect) (h3 : t.port.transfer = s.port.transfer)
    (h4 : t.cmd.ready = s.cmd.ready) : ReadyLaw t := by
  unfold ReadyLaw commandsInProgress at *; rw [h1, h2, h3, h4]; exact h

/-- No command in progress and READY set. -/
theorem ReadyLaw_idle {s : State} (h1 : s.cmd.ready = true) (h2 : s.held = none) (h3 : s.tb.heldSelect = none)
    (h4 : s.port.transfer = none) : ReadyLaw s :=
  (ReadyLaw_iff s).2 (.inl ⟨h1, h2, h3, h4⟩)

/-- A held request and READY clear. -/
theorem ReadyLaw_held {s : State} (h1 : s.cmd.ready = false) (h2 : s.held ≠ none) (h3 : s.tb.heldSelect = none)
    (h4 : s.port.transfer = none) : ReadyLaw s :=
  (ReadyLaw_iff s).2 (.inr (.inl ⟨h1, h2, h3, h4⟩))

@[simp] theorem State.complete_ready (s : State) (c : Completion) (r0 r1 : Word) :
    (s.complete c r0 r1).cmd.ready = true := rfl

@[simp] theorem State.completeZero_ready (s : State) (c : Completion) : (s.completeZero c).cmd.ready = true := rfl

@[simp] theorem State.completeSelect_ready (s : State) (c : Completion) :
    (s.completeSelect c).cmd.ready = true := rfl

@[simp] theorem State.finishHeld_ready (s : State) (c : Completion) (r0 r1 : Word) :
    (s.finishHeld c r0 r1).cmd.ready = true := rfl

@[simp] theorem State.finishHeld_held (s : State) (c : Completion) (r0 r1 : Word) :
    (s.finishHeld c r0 r1).held = none := rfl

@[simp] theorem State.endTransfer_ready (s : State) (c : Completion) (n : Nat) :
    (s.endTransfer c n).cmd.ready = true := rfl

@[simp] theorem State.endTransfer_transfer (s : State) (c : Completion) (n : Nat) :
    (s.endTransfer c n).port.transfer = none := rfl

@[simp] theorem State.take_ready (s : State) (code : BitVec 5) (ie : Bool) :
    (s.take code ie).cmd.ready = false := rfl

/-- A SELECT that is examined completes (R149). -/
@[simp] theorem State.judgeSelect_ready (s : State) (x : Input) (m : SwitchMode) (c : Bool) :
    (s.judgeSelect x m c).cmd.ready = true := by
  simp only [State.judgeSelect]
  (repeat' split) <;> simp

/-- A held SELECT that is examined is held no more (R153). -/
@[simp] theorem State.examineHeld_ready (s : State) (q : HeldSelect) :
    (s.examineHeld q).cmd.ready = true ∧ (s.examineHeld q).tb.heldSelect = none := by
  simp [State.examineHeld]

/-- With a held SELECT, nothing else is in progress. -/
theorem ReadyLaw_heldSelect {s : State} {q : HeldSelect} (h : ReadyLaw s) (hq : s.tb.heldSelect = some q) :
    s.held = none ∧ s.port.transfer = none := by
  rw [ReadyLaw_iff] at h
  simp [hq] at h
  exact h.2

/-- With an image transfer, nothing else is in progress, and READY is clear. -/
theorem ReadyLaw_transfer {s : State} {t : Transfer} (h : ReadyLaw s) (ht : s.port.transfer = some t) :
    s.held = none ∧ s.tb.heldSelect = none ∧ s.cmd.ready = false := by
  rw [ReadyLaw_iff] at h
  simp [ht] at h
  exact ⟨h.2.1, h.2.2, h.1⟩

theorem State.settleHeldSelect_readyLaw (s : State) (h : ReadyLaw s) : ReadyLaw s.settleHeldSelect := by
  simp only [State.settleHeldSelect]
  split
  · exact h
  · next q hq =>
    have hr := ReadyLaw_heldSelect h hq
    split
    · exact ReadyLaw_idle (by simp) (by simp [hr]) (by simp) (by simp [hr])
    · exact h

theorem State.heldSelectStep_readyLaw (s : State) (h : ReadyLaw s) : ReadyLaw s.heldSelectStep := by
  simp only [State.heldSelectStep]
  split
  · exact h
  · next q hq =>
    have hr := ReadyLaw_heldSelect h hq
    split
    · exact ReadyLaw_idle (by simp) (by simp [hr]) (by simp) (by simp [hr])
    · split
      · exact ReadyLaw_idle rfl (by simp [hr]) rfl (by simp [hr])
      · rw [ReadyLaw_iff] at *
        simp_all

/-- The application of a held request completes it (R46). -/
theorem State.applyHeld_completes (s : State) (h : s.held ≠ none) :
    s.applyHeld.cmd.ready = true ∧ s.applyHeld.held = none := by
  unfold State.applyHeld
  split
  · contradiction
  all_goals
    simp only [State.applyPush, State.applyLift, State.applyRaise, State.applyLower, State.applyClearAir,
      State.applyRetire]
    (repeat' split) <;> simp

theorem State.applyHeld_readyLaw (s : State) (h : ReadyLaw s) : ReadyLaw s.applyHeld := by
  by_cases hn : s.held = none
  · simpa [State.applyHeld, hn] using h
  · have hc := State.applyHeld_completes s hn
    rw [ReadyLaw_iff] at h
    simp [hn] at h
    exact ReadyLaw_idle hc.1 hc.2 (by simp [h]) (by simp [h])

theorem State.fieldStart_readyLaw (s : State) (cut : Bool) (h : ReadyLaw s) : ReadyLaw (s.fieldStart cut) := by
  unfold State.fieldStart State.recordStep State.stackStep
  refine State.heldSelectStep_readyLaw _ ?_
  generalize hu : (s.beginField.countStep.expiring.foldl State.removeExpired s.beginField.countStep).guardStep = u
  generalize hv : (s.beginField.expiring.foldl State.removeExpired s.beginField.countStep).guardStep = v
  have h1 : ReadyLaw v := by subst hv; exact ReadyLaw_congr h (by simp) (by simp) (by simp) (by simp)
  exact ReadyLaw_congr (State.applyHeld_readyLaw v h1) (by simp) (by simp) (by simp) (by simp)

theorem State.recutFieldStart_readyLaw (s : State) (h : ReadyLaw s) : ReadyLaw s.recutFieldStart :=
  State.settleHeldSelect_readyLaw _ (ReadyLaw_congr h (by simp) (by simp) (by simp) (by simp))

/-- A word of a transfer in progress leaves one in progress, or completes it (R164 to R166). -/
theorem State.wordMoved_readyLaw (s : State) (t : Transfer) (h1 : s.held = none) (h2 : s.tb.heldSelect = none)
    (h3 : s.cmd.ready = false) : ReadyLaw (s.wordMoved t) := by
  unfold State.wordMoved
  split
  · exact ReadyLaw_idle (by simp) (by simp [h1]) (by simp [h2]) (by simp)
  · rw [ReadyLaw_iff]; simp [*]

/-- A command just taken completes, is held, or starts a transfer (R46, R153, R157, R158, R164). -/
theorem commandEffect_readyLaw (x : Bool) (code : BitVec 5) (s : State) (h0 : s.cmd.ready = false)
    (h1 : s.held = none) (h2 : s.tb.heldSelect = none) (h3 : s.port.transfer = none) :
    ReadyLaw (commandEffect x code s) := by
  have hold : ∀ request, ReadyLaw (holdIfOnAir request s) := by
    intro request
    simp only [holdIfOnAir, State.withHandle]
    (repeat' split)
    · exact ReadyLaw_idle (by simp) (by simp [*]) (by simp [*]) (by simp [*])
    · exact ReadyLaw_held (by simp [*]) (by simp) (by simp [*]) (by simp [*])
    all_goals exact ReadyLaw_idle (by simp) (by simp [*]) (by simp [*]) (by simp [*])
  have start : ∀ toMemory, ReadyLaw (startTransfer toMemory s) := by
    intro toMemory
    unfold startTransfer
    split
    · rw [ReadyLaw_iff]; simp [*]
    · exact ReadyLaw_idle (by simp) (by simp [*]) (by simp [*]) (by simp [*])
  apply commandEffect_cases (P := fun e => ReadyLaw (e s))
  case clearAir => 
    unfold clearAirEffect
    exact ReadyLaw_held (by simp [*]) (by simp) (by simp [*]) (by simp [*])
  case lift => exact hold _
  case raise => exact hold _
  case lower => exact hold _
  case imageIn => exact start _
  case imageOut => exact start _
  case push =>
    simp only [pushEffect, State.withHandle]
    (repeat' split)
    · exact ReadyLaw_idle (by simp) (by simp [*]) (by simp [*]) (by simp [*])
    · exact ReadyLaw_held (by simp [*]) (by simp) (by simp [*]) (by simp [*])
    · exact ReadyLaw_held (by simp [*]) (by simp) (by simp [*]) (by simp [*])
    all_goals exact ReadyLaw_idle (by simp) (by simp [*]) (by simp [*]) (by simp [*])
  case retire =>
    simp only [retireEffect, State.withHandle]
    (repeat' split)
    case h_2.isTrue.isTrue => exact ReadyLaw_held (by simp [*]) (by simp) (by simp [*]) (by simp [*])
    all_goals exact ReadyLaw_idle (by simp) (by simp [*]) (by simp [*]) (by simp [*])
  case select =>
    simp only [selectEffect]
    (repeat' split)
    case h_1.isFalse.isFalse => rw [ReadyLaw_iff]; simp [*]
    all_goals exact ReadyLaw_idle (by simp) (by simp [*]) (by simp [*]) (by simp [*])
  case guard =>
    intro x
    unfold guardEffect
    split <;> exact ReadyLaw_idle (by simp) (by simp [*]) (by simp [*]) (by simp [*])
  case clone =>
    simp only [cloneEffect, State.withHandle]
    (repeat' split) <;> exact ReadyLaw_idle (by simp) (by simp [*]) (by simp [*]) (by simp [*])
  case withdraw =>
    simp only [withdrawEffect, State.withHandle]
    (repeat' split) <;> exact ReadyLaw_idle (by simp) (by simp [*]) (by simp [*]) (by simp [*])
  all_goals
    simp only [noopEffect, openEffect, findEffect, publishEffect, setGeometryEffect, queryInputEffect,
      unknownEffect]
    (repeat' split) <;> exact ReadyLaw_idle (by simp) (by simp [*]) (by simp [*]) (by simp [*])

theorem State.answerImage_readyLaw (s : State) (w : Word) (h : ReadyLaw s) : ReadyLaw (s.answerImage w) := by
  unfold State.answerImage
  split
  · next t _ ht =>
    have hr := ReadyLaw_transfer h ht
    refine ReadyLaw_congr (s := s.wordArrived t w) ?_ (by simp) (by simp) (by simp) (by simp)
    unfold State.wordArrived
    split
    · next f hf => apply State.wordMoved_readyLaw <;> simp [State.writePointed_frame hf, hr]
    · exact ReadyLaw_idle (by simp) (by simp [hr]) (by simp [hr]) (by simp)
  · exact h

theorem State.acknowledgeImage_readyLaw (s : State) (h : ReadyLaw s) : ReadyLaw s.acknowledgeImage := by
  unfold State.acknowledgeImage
  split
  · next t _ ht =>
    have hr := ReadyLaw_transfer h ht
    exact ReadyLaw_congr (State.wordMoved_readyLaw s.stepPointer t (by simp [hr]) (by simp [hr]) (by simp [hr]))
      (by simp) (by simp) (by simp) (by simp)
  · exact h

theorem State.busTimeout_readyLaw (s : State) (h : ReadyLaw s) : ReadyLaw s.busTimeout := by
  have image : ReadyLaw s.imageFault := by
    unfold State.imageFault
    split
    · next t ht =>
      have hr := ReadyLaw_transfer h ht
      exact ReadyLaw_idle (by simp) (by simp [hr]) (by simp [hr]) (by simp)
    · exact h
  unfold State.busTimeout
  split
  · exact ReadyLaw_congr h (by simp) (by simp) (by simp) (by simp)
  · exact ReadyLaw_congr image (by simp) (by simp) (by simp) (by simp)
  · exact ReadyLaw_congr image (by simp) (by simp) (by simp) (by simp)
  · exact h
  · exact h

/-- Changes of the timing alone keep the law of READY. -/
theorem Retimed.readyLaw {u v : State} (r : Retimed u v) (h : ReadyLaw u) : ReadyLaw v :=
  ReadyLaw_congr h r.1.2.2.2.1 r.2.2.2.1 (by rw [r.1.2.2.2.2.2.2.2.2.1]) (by rw [r.1.2.2.2.2.2.2.2.1])

end Sys2Proof.Machine
end

