-- ==== Sys2Proof/Tests/Slice0.lean ====
section
/-! SUPPORT. Tests: the checks of well-formedness, the spec's worked numbers, and for each statement with hypotheses a
concrete state and operands that meet them, with what the machine then does. -/

namespace Sys2Proof.Tests

open Sys2Proof.Machine

/- One test at a time: tests checked side by side hold one thread's stack each. -/
set_option Elab.async false

/-! ### Small states -/

/-- The next state, if the outcome is one. -/
def ran (r : Result) : Option State :=
  match r with
  | .next t => some t
  | _ => none

/-- The state a command leaves. -/
def after (r : Result) : State := (ran r).getD State.reset

/-- An outcome that is a next state is the next state `after` names. -/
theorem next_after {r : Result} (h : (ran r).isSome = true) : r = .next (after r) := by
  cases r with
  | next t => rfl
  | fault _ => cases h
  | refused _ => cases h

/-- The state with arguments in ARG0 to ARG2. -/
def args (a b c : Word) (s : State) : State :=
  { s with cmd := { s.cmd with arg0 := a, arg1 := b, arg2 := c } }

/-- A LUMA title of tag 7. -/
def title : Copy := Copy.opened 7#16

/-- A MASK title at the mask address of R114's example: three words on each line, samples 0 to 40. -/
def masked : Copy :=
  #v[7#16, 2#16, 0#16, 36#16, 0#16, 239#16, 0#16, 63#16, 63#16, 0#16, 0#16, 0#16, 255#16, 65500#16, 40#16, 3#16]

/-- A record of a state with a copy, converted under the power-on values. -/
def record (x : RecState) (c : Copy) : Slot :=
  { Slot.blank 0#4 with
    state := x, staging := c
    active := if x.converted then some c else none
    counters := if x.converted then { mix := c.mixLevel, lifetime := c.lifetime, hidden := false, halted := false }
      else Counters.none
    geometry := if x.converted then derive c Timebase.powerOn.latched
      else { Geometry.none with left := -32768, right := -32768, top := -32768, bottom := -32768 } }

/-- The state with a window on air below those that already are. -/
def onAir (i : SlotId) (c : Copy) (s : State) : State :=
  { WithSlot s i (record .onAir c) with stack := s.stack ++ [i] }

/-- Slot 0 DRAFT, slot 1 STANDBY, slots 2 (MASK) and 3 ON AIR, slot 4 FAULTED. -/
def table : State :=
  onAir 3 title (onAir 2 masked
    (WithSlot (WithSlot (WithSlot State.reset 0 (record .draft title)) 1 (record .standby title)) 4
      (record .faulted title)))

/-- The table with one record changed. -/
def tableWith (i : SlotId) (f : Slot → Slot) : State :=
  WithSlot table i (f (table.slot i))

/-- Slots 3 to 10 ON AIR and slot 11 STANDBY (spec/03 section 3.9). -/
def full : State :=
  (([3, 4, 5, 6, 7, 8, 9, 10] : List SlotId).foldl (fun s i => onAir i title s) State.reset |>
    fun s => WithSlot s 11 { record .standby title with gen := 2#4 })

/-- The state with a command in progress and a request held. -/
def holding (q : HeldRequest) (s : State) : State :=
  { s with held := some q, cmd := { s.cmd with ready := false } }

/-- A record with a publication pending at a countdown. -/
def pendingAt (n : Nat) (r : Slot) : Slot := { r with pending := some n }

/-- The table with picture line 0 open and being drawn. -/
def drawing : State :=
  after (exec (.lineBegin 0) (after (exec .fieldStart table)))

/-- The table with the bus granted for the first mask word of line 0. -/
def reading : State :=
  after (exec .busGrant drawing)

/-- An input LOCKED in a standard, in a line of a field of parity first, at a reference of 10000 samples. -/
def lockedCtx (std : Standard) (line : Nat) : LockContext :=
  { LockContext.powerOn with
    lock := .locked, standard := some std, remembered := some std, period := some std.nominal, line := line,
    reference := some 10000, found := true, lastPulse := some 10000 }

/-- Both inputs LOCKED in 625 lines, the timebase in FOLLOW on Feed A. -/
def follow : State :=
  { State.reset with
    now := 10000, feedA := lockedCtx .lines625 100, feedB := lockedCtx .lines625 0
    tb := { Timebase.powerOn with state := .follow, lineStartAt := 10000, linesRun := 100, lineFollows := true } }

/-- A switch of a mode to Feed B scheduled. -/
def scheduled (mode : SwitchMode) : State :=
  { follow with tb := { follow.tb with switch := .scheduled .feedB mode } }

/-- Feed A slewed to, with residuals and a computer line made under them. -/
def slewBy (h v : Int) (lines : Nat) : State :=
  { follow with tb := { follow.tb with state := .slew, h := h, v := v, linesRun := lines } }.lineAt 10000

/-- A transfer of a direction in flight with words still to move. -/
def transferring (toMemory : Bool) (left : Nat) (s : State) : State :=
  { s with
    port := { s.port with transfer := some { toMemory := toMemory, position := 0#24, left := left, moved := 0 } }
    cmd := { s.cmd with ready := false } }

/-- The state with an operation on the bus. -/
def onBus (c : Channel) (s : State) : State :=
  { s with engine := { s.engine with channel := c } }

/-- The state with the access pointer at a word of a slot. -/
def pointing (i : SlotId) (w : Fin 24) (s : State) : State :=
  { s with port := { s.port with pointer := { s.port.pointer with slot := i, word := w } } }

/-- What holds of every element of a list of options holds of each that is present. -/
theorem all_some {α : Type} {p : α → Bool} {o : Option α} (h : o.all p = true) : ∀ a, o = some a → p a = true := by
  intro a ha
  subst ha
  exact h

/-! ### Well-formedness -/

theorem test_illFormed_unknownCommand :
    (Instr.unknownCommand 17#5 false).wf = false ∧ (Instr.unknownCommand 18#5 false).wf = true := by decide

theorem test_illFormed_commandWordUpdate :
    (Instr.commandWordUpdate 0xFF7F#16).wf = false ∧ (Instr.commandWordUpdate 0x0080#16).wf = true := by decide

theorem test_illFormed_lineBegin :
    (Instr.lineBegin 288).wf = false ∧ (Instr.lineBegin 287).wf = true := by decide

theorem test_decodeTableWord_none :
    decodeTableWord 16 0 = none ∧ State.reset.withFetchWord 16 0 = State.reset := by decide

/-! ### The spec's worked numbers -/

/-- Slot 5 at generation 3 has handle 101 (spec/01 section 1.5). -/
theorem test_handle : handleOf 5 3#4 = 101#16 ∧ parseHandle 101#16 = some (5, 3#4) := by decide

/-- The table of R81: coordinates 3, 4, 5, -3, -4 at h 0 and 4 at h -10, in the four rounding modes. -/
theorem test_rounding :
    ([(3, 0), (4, 0), (5, 0), (-3, 0), (-4, 0), (4, -10)] : List (Int × Int)).map (fun a =>
        ([Rounding.nearest, .truncate, .floor, .ceiling]).map (fun m =>
          roundSample m (exact64 { scale := 72, trim := 0, h := a.2, v := 0, standard := .lines625 } a.1))) =
      [[3, 3, 3, 4], [4, 4, 4, 5], [6, 5, 5, 6], [-3, -3, -4, -3], [-4, -4, -5, -4], [-6, -5, -6, -5]] := by
  decide

/-- The mask word of R114's example stands at bank 0, word address 86. -/
theorem test_maskAddress : rowPosition masked 3 + BitVec.ofNat 24 2 = 86#24 := by decide

/-- The lumas of R93's table. -/
theorem test_luma :
    ([(15#4, 15#4, 15#4), (15#4, 15#4, 0#4), (0#4, 0#4, 8#4), (8#4, 8#4, 8#4)]).map (fun c =>
        Pixel.luma { red := c.1, green := c.2.1, blue := c.2.2, index := 0#8 }) = [255, 226, 15, 136] := by
  decide

/-- The two entries of spec/06 section 6.9: a MATTE of grey 16 at mix 32 over a LUMA of threshold 96 at mix 63. -/
def exampleLine : Snapshot :=
  let e : SnapEntry :=
    { slot := 5, mode := .matte, keyValue := 16, holdOff := false, mix := 32, hidden := false, left := 0, right := 719,
      top := 0, bottom := 287, maskOrigin := 0, rowBase := 0, wordsPerLine := 0, described := false, taken := [],
      abandonedFrom := none }
  { line := 200, beganAt := 0, ownAt := none, entries := [e, { e with slot := 2, mode := .luma, keyValue := 96, mix := 63 }],
    follow := true, blanked := false, program := .feedA, noSignal := false, latched := Timebase.powerOn.latched }

/-- The two points of spec/06 section 6.9. -/
theorem test_composition :
    exampleLine.compose { red := 40, green := 80, blue := 200 }
        { red := 15#4, green := 15#4, blue := 0#4, index := 14#8 } 300 = { red := 134, green := 134, blue := 8 } ∧
      exampleLine.compose { red := 40, green := 80, blue := 200 }
        { red := 0#4, green := 0#4, blue := 8#4, index := 3#8 } 300 = { red := 28, green := 48, blue := 107 } := by
  decide

/-- The clipped mask of spec/06 section 6.10: words 1 to 3 are needed, taken at samples 0, 12 and 28. -/
theorem test_neededWords :
    neededWords (-20) 0 90 4 = [1, 2, 3] ∧ [1, 2, 3].map (takingPoint (-20) 0) = [0, 12, 28] := by decide

/-- A pixel of the power-on raster in every eighth place is two samples wide (R90). -/
theorem test_pixelBoundary :
    [0, 7, 8, 640].map (pixelBoundary Timebase.powerOn.latched) = [0, 7, 9, 720] := by decide

/-! ### Steps and laws -/

theorem test_witness_StepRunsTheFrontCommand :
    ({ table with pending := [.fieldStart] } : State).pending = .fieldStart :: [] ∧
      ({ State.reset with now := 864 } : State).due = some .computerLineEnd ∧ State.reset.due = none := by
  decide +kernel

/-- A state with windows on air, a held request and commands that wait. -/
def busy : State :=
  { holding (.push 1 0#4) (WithSlot table 4 (pendingAt 255 (record .faulted title))) with
    feedA := lockedCtx .lines625 100, tb := { Timebase.powerOn with state := .follow }
    guard := { setting := 255, count := 254, expired := false }, pending := [.fieldStart] }

theorem test_witness_StackLaw : StackLaw busy ∧ step busy = .next (after (step busy)) := by
  refine ⟨?_, next_after (by decide +kernel)⟩
  unfold StackLaw
  decide +kernel

theorem test_witness_RecordLaw : RecordLaw busy := by
  intro i
  have h : ∀ i, ((busy.slot i).state = .free → busy.slot i = Slot.blank (busy.slot i).gen) ∧
      ((busy.slot i).active.isSome = (busy.slot i).state.converted) ∧
      (busy.slot i).pending.all (fun n => decide (n ≤ 255)) = true := by decide +kernel
  exact ⟨(h i).1, (h i).2.1, fun n hn => of_decide_eq_true (all_some (h i).2.2 n hn)⟩

/-- `busy` also meets `StackLaw`: `test_witness_StackLaw`. -/
theorem test_witness_CopyLaw : CopyLaw busy := by
  intro i
  have h : ∀ i, ((busy.slot i).pending.isSome → (busy.slot i).staging.legal = true) ∧
      (busy.slot i).active.all (fun c => c.legal) = true ∧ (busy.slot i).counters.mix ≤ 63 := by decide +kernel
  exact ⟨(h i).1, fun c hc => all_some (h i).2.1 c hc, (h i).2.2⟩

theorem test_witness_GeometryLaw : GeometryLaw busy := by
  unfold GeometryLaw Geometry.indefinite Geometry.onRaster
  decide +kernel

theorem test_witness_ReadyLaw : ReadyLaw busy := by
  unfold ReadyLaw
  decide +kernel

theorem test_witness_FollowLaw : FollowLaw busy ∧ busy.tb.state = .follow := by
  unfold FollowLaw
  decide +kernel

theorem test_witness_ContextLaw : ContextLaw busy := by
  have h : ∀ c : LockContext, c = busy.feedA ∨ c = busy.feedB → c.standard.isSome = c.lock.knowsStandard ∧
      (c.standard.isSome → c.remembered = c.standard) ∧ (c.lock = .noSignal ∨ c.lock = .hunt → c.parity = .first) ∧
      (c.lock = .noSignal → c.period = none) ∧ c.period.all (fun p => decide (1 ≤ p ∧ p ≤ 4095)) = true ∧
      c.headSwitch ≤ 255 := by
    rintro c (rfl | rfl) <;> decide +kernel
  intro x
  have k : busy.ctx x = busy.feedA ∨ busy.ctx x = busy.feedB := by cases x <;> simp [State.ctx]
  exact ⟨(h _ k).1, (h _ k).2.1, (h _ k).2.2.1, (h _ k).2.2.2.1,
    fun p hp => of_decide_eq_true (all_some (h _ k).2.2.2.2.1 p hp), (h _ k).2.2.2.2.2⟩

theorem test_witness_EngineLaw :
    EngineLaw reading ∧ reading.engine.channel.isMaskRead = true ∧ TimebaseLaw busy ∧ GuardLaw busy := by
  unfold EngineLaw TimebaseLaw GuardLaw
  decide +kernel

/-- A held SELECT that waits at its 47th field start. -/
def waiting : State :=
  { scheduled .slew with
    tb := { (scheduled .slew).tb with
      switch := .made
      heldSelect := some { input := .feedA, mode := .cut, confirm := false, count := 47 } }
    cmd := { State.reset.cmd with ready := false } }

theorem test_witness_HeldSelectLaw : HeldSelectLaw waiting := by
  intro q hq
  have h : waiting.tb.heldSelect.all (fun q => decide (waiting.tb.switch ≠ .none ∧ q.count < 48)) = true := by
    decide +kernel
  exact of_decide_eq_true (all_some h q hq)

theorem test_witness_ResidualLaw : ResidualLaw (scheduled .cut) := by
  refine ⟨by decide +kernel, by decide +kernel, fun x mode h => ?_⟩
  cases x
  · exact absurd h (by cases mode <;> decide +kernel)
  · decide +kernel

theorem test_witness_GenerationChangesOnlyWhenFreed :
    StackLaw (args 1 0 0 table) ∧
    exec (.retire false) (args 1 0 0 table) = .next (after (exec (.retire false) (args 1 0 0 table))) ∧
      ((after (exec (.retire false) (args 1 0 0 table))).slot 1).gen = 1#4 :=
  ⟨by unfold StackLaw; decide +kernel, next_after (by decide +kernel), by decide +kernel⟩

theorem test_witness_AttentionSetsWindow :
    exec .pushApply (holding (.push 11 2#4) full) = .next (after (exec .pushApply (holding (.push 11 2#4) full))) ∧
      (full.slot 10).attention.newlySet ((after (exec .pushApply (holding (.push 11 2#4) full))).slot 10).attention
        = true ∧
      (after (exec .pushApply (holding (.push 11 2#4) full))).events.window = true :=
  ⟨next_after (by decide +kernel), by decide +kernel⟩

/-! ### Commands -/

theorem test_witness_GeneralChecks :
    Accepts table ∧ ran (exec (.noop true) table) = some (Completed table 0#5 true .ok 0#16 0#16) ∧
      18 ≤ (18#5 : BitVec 5).toNat ∧
      ran (exec (.unknownCommand 18#5 true) table) = some (Completed table 18#5 true .unknownCommand 0#16 0#16) := by
  unfold Accepts
  decide +kernel

theorem test_witness_GeneralChecks_handles :
    NamesHandle true 7#5 (.push true) ∧ NamesHandle false 5#5 (.publish false) ∧
      [512#16, 24#16].map (fun a => ran (exec (.push true) (args a 0 0 table))) =
        [512#16, 24#16].map (fun a => some (Completed (args a 0 0 table) 7#5 true .badArgument 0#16 0#16)) ∧
      (table.slot 5).state = .free ∧ (table.slot 1).gen ≠ 1#4 ∧
      [handleOf 5 0#4, handleOf 1 1#4].map (fun a => ran (exec (.publish false) (args a 255 0 table))) =
        [handleOf 5 0#4, handleOf 1 1#4].map
          (fun a => some (Completed (args a 255 0 table) 5#5 false .staleHandle 0#16 0#16)) :=
  ⟨.push, .publish, by decide +kernel⟩

/-- The table with every slot taken. -/
def crowded : State :=
  { table with slots := Vector.replicate 24 (record .draft title) }

theorem test_witness_OpenAndClone_open :
    ran (exec (.openRecord false) (args 256 0 0 table)) =
        some (Completed (args 256 0 0 table) 1#5 false .badArgument 0#16 0#16) ∧
      (∀ i, (crowded.slot i).state ≠ .free) ∧
      ran (exec (.openRecord false) (args 255 0 0 crowded)) =
        some (Completed (args 255 0 0 crowded) 1#5 false .noSlot 0#16 0#16) ∧
      LowestFree table 5 ∧
      ran (exec (.openRecord false) (args 7 0 0 table)) =
        some (Completed (WithSlot (args 7 0 0 table) 5 (FreshDraft 0#4 title)) 1#5 false .ok 5#16 0#16) := by
  unfold LowestFree
  decide +kernel

theorem test_witness_OpenAndClone_clone :
    Names (args 3 0 0 crowded) 3 ∧
      ran (exec (.clone false) (args 3 0 0 crowded)) =
        some (Completed (args 3 0 0 crowded) 2#5 false .noSlot 0#16 0#16) ∧
      Names (args 2 0 0 table) 2 ∧ LowestFree (args 2 0 0 table) 5 ∧
      ran (exec (.clone false) (args 2 0 0 table)) =
        some (Completed (WithSlot (args 2 0 0 table) 5 (FreshDraft 0#4 masked)) 2#5 false .ok 5#16 0#16) := by
  unfold Names LowestFree
  decide +kernel

theorem test_witness_RetireTaken :
    Names (args 1 0 0 table) 1 ∧ (table.slot 1).state ≠ .onAir ∧ 1 ∉ table.stack ∧
      ran (exec (.retire true) (args 1 0 0 table)) =
        some (Completed (WithSlot (args 1 0 0 table) 1 (Slot.blank 1#4)) 3#5 true .ok 0#16 0#16) ∧
      Names (args 2 0 0 (tableWith 2 (pendingAt 9))) 2 ∧ (table.slot 2).state = .onAir ∧
      ran (exec (.retire true) (args 2 0 0 (tableWith 2 (pendingAt 9)))) =
        some { Taken (args 2 0 0 table) 3#5 true with held := some (.retire 2 0#4) } := by
  unfold Names
  decide +kernel

theorem test_witness_FindSearches :
    ran (exec (.find true) (args 7 24 0 table)) =
        some (Completed (args 7 24 0 table) 4#5 true .badArgument 0#16 0#16) ∧
      (∀ j : SlotId, 1 ≤ j.val → j < 1 → (table.slot j).state = .free) ∧
      ran (exec (.find true) (args 7 1 0 table)) = some (Completed (args 7 1 0 table) 4#5 true .ok 1#16 0#16) ∧
      (∀ j : SlotId, 23 ≤ j.val → (table.slot j).state = .free) ∧
      ran (exec (.find true) (args 255 23 1 table)) =
        some (Completed (args 255 23 1 table) 4#5 true .noneFound 0#16 0#16) := by
  decide +kernel

/-- The DRAFT record's staging word k replaced. -/
def badWord (k : Fin 16) (w : Word) (c : Copy) : State :=
  tableWith 0 (fun r => { r with staging := c.set k.val w })

theorem test_witness_PublishExamines_refused :
    ¬ WordPasses ((badWord 0 256#16 title).slot 0).staging 0 ∧ ¬ WordPasses ((badWord 15 46#16 masked).slot 0).staging 15 ∧
      (∀ j, j < 15 → WordPasses ((badWord 15 46#16 masked).slot 0).staging j) ∧
      ran (exec (.publish true) (args 0 0 0 (badWord 0 256#16 title))) =
        some (Completed (args 0 0 0 (badWord 0 256#16 title)) 5#5 true .badRecord 0#16 0#16) ∧
      ran (exec (.publish true) (args 0 0 0 (badWord 15 46#16 masked))) =
        some (Completed (args 0 0 0 (badWord 15 46#16 masked)) 5#5 true .badRecord 15#16 0#16) := by
  refine ⟨by simp only [WordPasses]; decide +kernel, by simp only [WordPasses]; decide +kernel, ?_, by decide +kernel,
    by decide +kernel⟩
  intro j hj
  match j, hj with
  | 0, _ | 1, _ | 2, _ | 3, _ | 4, _ | 5, _ | 6, _ | 7, _ | 8, _ | 11, _ | 12, _ | 14, _ =>
    simp only [WordPasses]; decide +kernel
  | 9, _ | 10, _ | 13, _ => trivial
  | n + 15, h => omega

theorem test_witness_PublishExamines :
    Names (args 0 255 0 table) 0 ∧ (∀ k, k ≤ 15 → WordPasses (table.slot 0).staging k) ∧
      ran (exec (.publish true) (args 0 255 0 table)) =
        some (Completed (WithSlot (args 0 255 0 table) 0 (pendingAt 255 (table.slot 0))) 5#5 true .ok 0#16 0#16) ∧
      ran (exec (.publish true) (args 0 256 0 table)) =
        some (Completed (args 0 256 0 table) 5#5 true .badArgument 0#16 0#16) ∧
      ran (exec (.publish true) (args 0 0 0 (tableWith 0 (pendingAt 0)))) =
        some (Completed (args 0 0 0 (tableWith 0 (pendingAt 0))) 5#5 true .alreadyPending 0#16 0#16) := by
  refine ⟨by unfold Names; decide +kernel, ?_, by decide +kernel⟩
  intro j hj
  match j, hj with
  | 0, _ | 1, _ | 2, _ | 3, _ | 4, _ | 5, _ | 6, _ | 7, _ | 8, _ | 11, _ | 12, _ | 14, _ | 15, _ =>
    simp only [WordPasses]; decide +kernel
  | 9, _ | 10, _ | 13, _ => trivial
  | n + 16, h => omega

theorem test_witness_WithdrawCancels :
    Names (args 2 0 0 (tableWith 2 (pendingAt 0))) 2 ∧
      ran (exec (.withdraw true) (args 2 0 0 (tableWith 2 (pendingAt 0)))) =
        some (Completed (args 2 0 0 table) 6#5 true .ok 0#16 0#16) ∧
      (table.slot 2).pending = none ∧
      ran (exec (.withdraw true) (args 2 0 0 table)) =
        some (Completed (args 2 0 0 table) 6#5 true .notPending 0#16 0#16) := by
  unfold Names
  decide +kernel

theorem test_witness_StackRequestsAreHeld_push :
    (∀ i ∈ ([0, 1, 2, 4] : List SlotId), Names (args (handleOf i 0#4) 0 0 table) i) ∧
      ([0, 1, 2, 4] : List SlotId).map (fun i => (table.slot i).state) = [.draft, .standby, .onAir, .faulted] ∧
      ([0, 1, 2, 4] : List SlotId).map (fun i => ran (exec (.push true) (args (handleOf i 0#4) 0 0 table))) =
        [some (Completed (args 0 0 0 table) 7#5 true .notReady 0#16 0#16),
         some { Taken (args 1 0 0 table) 7#5 true with held := some (.push 1 0#4) },
         some { Taken (args 2 0 0 table) 7#5 true with held := some (.push 2 0#4) },
         some (Completed (args 4 0 0 table) 7#5 true .faulted 0#16 0#16)] := by
  unfold Names
  decide +kernel

theorem test_witness_StackRequestsAreHeld :
    ran (exec (.clearAir true) table) = some { Taken table 11#5 true with held := some .clearAir } ∧
      [exec (.lift true) (args 2 0 0 table), exec (.raise true) (args 2 0 0 table),
          exec (.lower true) (args 2 0 0 table), exec (.lift true) (args 1 0 0 table)].map ran =
        [some { Taken (args 2 0 0 table) 8#5 true with held := some (.lift 2 0#4) },
         some { Taken (args 2 0 0 table) 9#5 true with held := some (.raise 2 0#4) },
         some { Taken (args 2 0 0 table) 10#5 true with held := some (.lower 2 0#4) },
         some (Completed (args 1 0 0 table) 8#5 true .notOnAir 0#16 0#16)] := by
  decide +kernel

theorem test_witness_GuardAndGeometrySet :
    ran (exec (.guard true) (args 256 0 0 busy)) = some (args 256 0 0 busy).overrun ∧
      Accepts (args 255 0 0 table) ∧
      ran (exec (.guard true) (args 256 0 0 table)) =
        some (Completed (args 256 0 0 table) 12#5 true .badArgument 0#16 0#16) ∧
      ran (exec (.guard true) (args 255 0 0 { table with guard := { setting := 9, count := 9, expired := true } })) =
        some (Completed (args 255 0 0 { table with guard := { setting := 255, count := 0, expired := false } }) 12#5 true
          .ok 9#16 1#16) := by
  unfold Accepts
  decide +kernel

theorem test_witness_GuardAndGeometrySet_geometry :
    [args 63 0 0 table, args 129 0 0 table, args 64 0xFFDF 0 table, args 64 32 0 table].map
        (fun s => ran (exec (.setGeometry true) s)) =
      [args 63 0 0 table, args 129 0 0 table, args 64 0xFFDF 0 table, args 64 32 0 table].map
        (fun s => some (Completed s 13#5 true .badArgument 0#16 0#16)) ∧
      ran (exec (.setGeometry true) (args 128 0xFFE0 0 table)) =
        some (Completed { args 128 0xFFE0 0 table with tb := { table.tb with setScale := 128, setTrim := -32 } } 13#5 true
          .ok 72#16 0#16) := by
  decide +kernel

theorem test_witness_SelectExaminedOrHeld :
    [.feedA, .feedB].map inputWord = [0#16, 1#16] ∧ [.cut, .slew].map modeWord = [0#16, 1#16] ∧
      ran (exec (.select true) (args 0 2 0 follow)) =
        some (Completed (args 0 2 0 follow) 14#5 true .badArgument 0#16 0#16) ∧
      selectVerdict follow .feedB .slew false = (.ok, .scheduled .feedB .slew) ∧
      ran (exec (.select true) (args 1 1 0 follow)) =
        some (Completed { args 1 1 0 follow with tb := { follow.tb with switch := .scheduled .feedB .slew } } 14#5 true
          .ok 0#16 0#16) ∧
      ran (exec (.select true) (args 0 0 1 (scheduled .cut))) =
        some { Taken (args 0 0 1 (scheduled .cut)) 14#5 true with
          tb := { (scheduled .cut).tb with
            heldSelect := some { input := .feedA, mode := .cut, confirm := true, count := 0 } } } := by
  decide +kernel

theorem test_witness_QueryInputReports :
    (follow.ctx .feedB).headSwitch ≤ 255 ∧
      ran (exec (.queryInput true) (args 2 0 0 follow)) =
        some (Completed (args 2 0 0 follow) 15#5 true .badArgument 0#16 0#16) ∧
      ran (exec (.queryInput true) (args 1 1 0 { follow with feedB := { follow.feedB with
          period := some 861, headSwitch := 255, sourceChanged := true, parity := .second } })) =
        some (Completed (args 1 1 0 { follow with feedB := { follow.feedB with period := some 861, parity := .second } })
          15#5 true .ok 0x0073#16 0xFFFD#16) := by
  decide +kernel

theorem test_witness_ImageTransfersStart :
    ran (exec (.imageIn true) (args 256 0 1 table)) =
        some (Completed (args 256 0 1 table) 16#5 true .badArgument 0#16 0#16) ∧
      ran (exec (.imageOut true) (args 0 0 577 table)) =
        some (Completed (args 0 0 577 table) 17#5 true .badArgument 0#16 0#16) ∧
      ran (exec (.imageIn true) (args 255 65535 576 table)) =
        some { Taken (args 255 65535 576 table) 16#5 true with
          port := { table.port with transfer := some (StartedTransfer (args 255 65535 576 table) false) }
          engine := { table.engine with channel := .awaiting } } := by
  decide +kernel

/-! ### Register window accesses -/

theorem test_witness_CommandGroupWrites :
    Accepts table ∧ busy.cmd.ready = false ∧ busy.resetLine = false ∧
      ran (exec (.commandWordUpdate 0xFFBF#16) table) =
        some { table with cmd := { table.cmd with func := 31#5, ie := true } } ∧
      ran (exec (.registerWrite .arg2 0xFFFF#16) table) = some (args 0 0 0xFFFF#16 table) ∧
      ran (exec (.overrunWrite .arg1 0#16) busy) = some busy.overrun ∧
      ran (exec (.overrunWrite .command 0#16) busy) = some busy.overrun ∧
      ran (exec (.registerWrite .arg0 5#16) { table with resetLine := true }) = some { table with resetLine := true } ∧
      ran (exec (.registerWrite .fieldCounter 5#16) table) = some table := by
  unfold Accepts
  decide +kernel

/-- The example of section 11.2: three flags under a mask. -/
def flagged : State :=
  { State.reset with
    cmd := { State.reset.cmd with ie := true }, events := EventBits.ofWord 0x7F#16, mask := EventBits.ofWord 0x07#16 }

theorem test_witness_EventRegisterAndInterruptLine :
    flagged.interruptLine = true ∧
      ran (exec (.eventFlagsWrite 0xFF87#16) flagged) = some { flagged with events := EventBits.ofWord 0x78#16 } ∧
      (after (exec (.eventFlagsWrite 0xFF87#16) flagged)).interruptLine = false ∧
      ran (exec (.eventMaskWrite 0xFFC0#16) flagged) = some { flagged with mask := EventBits.ofWord 0x40#16 } ∧
      (after (exec (.eventMaskWrite 0xFFC0#16) flagged)).interruptLine = true ∧ flagged.events.toWord = 0x7F#16 := by
  decide +kernel

theorem test_witness_EventRegisterAndInterruptLine_reset :
    exec .powerOn flagged = .next (after (exec .powerOn flagged)) ∧
      exec .busReset flagged = .next (after (exec .busReset flagged)) :=
  ⟨next_after (by decide +kernel), next_after (by decide +kernel)⟩

/-- With the computer's reset line asserted the writes are ignored (R167). -/
theorem test_witness_writesUnderReset :
    [Instr.eventFlagsWrite 0x7F#16, .eventMaskWrite 0#16, .accessPointerWrite 1#16, .accessDataWrite 1#16].map (fun c =>
        ran (exec c { flagged with resetLine := true })) =
      List.replicate 4 (some { flagged with resetLine := true }) := by
  decide +kernel

theorem test_witness_RegisterReads :
    (fun s : State => ([0, 8, 9, 12, 13, 14, 15] : List (Fin 16)).map s.readRegister)
        { tableWith 17 (fun r => { r with attention := { r.attention with late := true } }) with
          cmd := { State.reset.cmd with func := 14#5, ie := true, ready := false, completion := .timeout }
          feedB := { lockedCtx .lines525 0 with sourceChanged := true }
          tb := { Timebase.powerOn with state := .coast, switch := .made, program := .feedB, fieldCounter := 7#16 }
          keyer := { cutBlanking := 2, snapshot := none }
          guard := { setting := 1, count := 1, expired := true } } =
      [0x112E#16, 0#16, 2#16, 0x7F#16, 0#16, 0x2B#16, 7#16] := by
  decide +kernel

theorem test_witness_AccessPointerWrites :
    ran (exec (.accessPointerWrite 0xD797#16) table) =
        some { table with port := { table.port with pointer := { slot := 23, word := 23, mode := .hold, wrap := true } } } ∧
      [0x0018#16, 0x1800#16, 0x6000#16].map (fun v => ran (exec (.accessPointerWrite v) table)) =
        [some table.refuseAccess, some table.refuseAccess, some table.refuseAccess] ∧
      ran (exec (.accessPointerWrite 0#16) (transferring false 1 table)) =
        some (transferring false 1 table).refuseAccess := by
  decide +kernel

theorem test_witness_AccessDataReads :
    ([0, 15, 16, 17, 18, 21, 22, 23] : List (Fin 24)).map
        (fun w => (after (exec .accessDataRead (pointing 3 w table))).port.readData) =
      [7#16, 0#16, 0x9003#16, 0#16, 0#16, 239#16, 63#16, 0#16] ∧
      table.stack = [2] ++ 3 :: [] ∧ 3 ∉ ([2] : List SlotId) ∧ (table.slot 3).counters.mix ≤ 63 ∧
      (after (exec .accessDataRead (pointing 5 16 table))).port.readData = 0#16 ∧
      (after (exec .accessDataRead (pointing 1 16 table))).port.readData = 2#16 ∧ 1 ∉ table.stack ∧
      (after (exec .accessDataRead (transferring true 1 table))).events.access = true := by
  decide +kernel

theorem test_witness_AccessDataReads_reset :
    ran (exec .accessDataRead { pointing 3 0 table with resetLine := true }) =
      some { pointing 3 0 table with
        resetLine := true, port := { (pointing 3 0 table).port with readData := 7#16 } } := by
  decide +kernel

theorem test_witness_AccessDataWrites :
    ran (exec (.accessDataWrite 0xBEEF#16) (pointing 3 15 table)) =
        some (pointing 3 16 (tableWith 3 (fun r => { r with staging := r.staging.set 15 0xBEEF#16 }))) ∧
      ran (exec (.accessDataWrite 0xFFFE#16) (pointing 3 17
          (tableWith 3 (fun r => { r with attention := ⟨true, true, true, true, true⟩ })))) =
        some (pointing 3 18 (tableWith 3 (fun r => { r with attention := ⟨true, false, false, false, false⟩ }))) ∧
      [pointing 3 16 table, pointing 3 23 table, pointing 5 0 table, pointing 3 0 (tableWith 3 (pendingAt 0)),
          transferring false 1 table].map (fun s => ran (exec (.accessDataWrite 1#16) s)) =
        [pointing 3 16 table, pointing 3 23 table, pointing 5 0 table, pointing 3 0 (tableWith 3 (pendingAt 0)),
          transferring false 1 table].map (fun s => some s.refuseAccess) := by
  decide +kernel

/-! ### Field starts -/

/-- A title with a mode word, a lifetime and a blink reload. -/
def timed (mode lifetime reload : Word) : Copy :=
  ((title.set 1 mode).set 9 lifetime).set 10 reload

theorem test_witness_FieldStartAdvances :
    (fun t : State => (t.tb.fieldCounter, t.engine.openLine, t.engine.channel, (t.slot 0).state, (t.slot 1).pending,
        (t.slot 0).pending, (t.slot 0).active = some title, (t.slot 2).geometry.right, t.tb.parity))
      (after (exec .fieldStart (WithSlot (tableWith 0 (pendingAt 0)) 1 (pendingAt 255 (table.slot 1))))) =
    (1#16, some 0, .awaiting, .standby, some 254, none, True, 40, .second) := by
  simp only [Prod.mk.injEq, eq_iff_iff, iff_true]
  decide +kernel

/-- In SLEW: a field of at most its slewed length, one that overran it, and one that brings v to 0 (R145). -/
theorem test_witness_FieldStartAdvances_slew :
    ([(5, 309), (5, 310), (4, 309)] : List (Int × Nat)).map (fun a =>
        (fun t : State => (t.tb.v, t.tb.state, t.tb.lastField, t.tb.parity, t.events.timebase))
          (after (exec .fieldStart { slewBy 0 a.1 a.2 with feedA := lockedCtx .lines625 0 }))) =
      [(1, .slew, 309, .first, false), (2, .slew, 310, .first, false), (0, .follow, 309, .first, true)] := by
  decide +kernel

/-- A slew with a held SELECT at a count, near its end. -/
def slewHolding (v : Int) (count : Nat) : State :=
  { slewBy 0 v 309 with
    feedA := lockedCtx .lines625 0
    tb := { (slewBy 0 v 309).tb with
      switch := .made
      heldSelect := some { input := .feedB, mode := .cut, confirm := false, count := count } }
    cmd := { State.reset.cmd with ready := false } }

/-- A held SELECT whose 48th field start brings FOLLOW is examined; else it is counted or times out (R153). -/
theorem test_witness_FieldStartAdvances_heldSelect :
    ([(4, 47), (5, 46), (5, 47)] : List (Int × Nat)).map (fun a =>
        (fun t : State => (t.tb.heldSelect.map (·.count), t.tb.switch, t.cmd.completion, t.cmd.ready, t.events.toWord))
          (after (exec .fieldStart (slewHolding a.1 a.2)))) =
      [(none, .scheduled .feedB .cut, .ok, true, 9#16), (some 47, .made, .ok, false, 0#16),
        (none, .made, .timeout, true, 1#16)] := by
  decide +kernel

/-- A STRICT window that leaves the raster at a field start (R87). -/
theorem test_witness_FieldStartAdvances_convert :
    (fun t : State => ((t.slot 3).attention.convert, (t.slot 3).geometry.offRaster, t.events.window))
        (after (exec .fieldStart { WithSlot table 3 (record .onAir (title.set 1 0x10#16)) with
          tb := { Timebase.powerOn with setTrim := 1 } })) = (true, true, true) := by
  decide +kernel

/-- Slot 3 ON AIR with mode word, fade, lifetime, reload and crawl, and its counters. -/
def counting (mode fade lifetime reload crawl : Word) (n : Counters) : State :=
  WithSlot table 3
    { record .onAir (((((title.set 1 mode).set 8 fade).set 9 lifetime).set 10 reload).set 11 crawl) with counters := n }

theorem test_witness_FieldStartCounts :
    [counting 0x80 0x0F00 0 7 5 ⟨20, 1, false, false⟩, counting 0x80 0x010A 0 0 0xFFFF ⟨5, 1, false, false⟩,
        counting 0 0 0 0 0 ⟨5, 2, false, false⟩, counting 0 0 0 0 0xFFF0 ⟨0, 0, true, true⟩].map (fun s =>
          (fun r : Slot => (r.counters, r.active.map (fun c => (c.left, c.right)), r.gen)) ((after (exec .fieldStart s)).slot 3)) =
      [(⟨5, 7, true, false⟩, some (5, 644), 0#4), (⟨6, 0, true, false⟩, some (-1, 638), 0#4),
        (⟨5, 1, false, false⟩, some (0, 639), 0#4), (⟨0, 0, true, true⟩, some (0, 639), 0#4)] := by
  decide +kernel

/-- Slots 2, 3 and 5 ON AIR, the lifetime of slot 2 at 1, and a RAISE of slot 3 held. -/
def working : State :=
  holding (.raise 3 0#4) (onAir 5 title
    (WithSlot table 2 { table.slot 2 with counters := { (table.slot 2).counters with lifetime := 1 } }))

/-- The RAISE finds its record at the top once the expiry has removed slot 2, and gone where the guard has lifted it. -/
theorem test_witness_FieldStartStackWork :
    StackLaw working ∧
      [working.guard, ⟨2, 1, false⟩].map (fun g => (fun t : State => (t.stack, t.cmd.completion, (t.slot 2).state, t.guard.count,
          t.events.guard)) (after (exec .fieldStart { working with guard := g }))) =
        [([3, 5], .atLimit, .standby, 0, false), ([], .gone, .standby, 2, true)] :=
  ⟨by unfold StackLaw; decide +kernel, by decide +kernel⟩

/-- Field start 501 of spec/03 section 3.9: a push that evicts. -/
theorem test_pushThatEvicts :
    (fun t : State => (t.stack, t.cmd.completion, t.cmd.result0, t.cmd.result1, (t.slot 8).counters.lifetime,
        t.summaryLow, t.events.toWord))
      (after (exec .fieldStart (holding (.push 11 2#4)
        (WithSlot full 8 { full.slot 8 with counters := { (full.slot 8).counters with lifetime := 2 } })))) =
    ([11, 3, 4, 5, 6, 7, 8, 9], .ok, 10#16, 1#16, 1, 0x0400#16, 3#16) := by
  decide +kernel

/-- The same push under GUARD(1) (spec/03 section 3.9). -/
theorem test_pushUnderTheGuard :
    (fun t : State => (t.stack, t.cmd.completion, t.cmd.result0, t.cmd.result1, t.guard.expired, t.events.toWord,
        (t.slot 3).state))
      (after (exec .fieldStart { holding (.push 11 2#4) full with
        guard := { setting := 1, count := 0, expired := false } })) =
    ([11], .ok, 0#16, 0#16, true, 0x11#16, .standby) := by
  decide +kernel

theorem test_witness_AdoptionAdopts :
    ([0, 1, 3, 4] : List SlotId).map (fun i => (table.slot i).state) = [.draft, .standby, .onAir, .faulted] ∧
      ([0, 1, 3, 4] : List SlotId).map (fun i => ran (exec (.adoption i) (tableWith i (pendingAt 0)))) =
        ([(0, .standby), (1, .standby), (3, .onAir), (4, .standby)] : List (SlotId × RecState)).map (fun p =>
          some (tableWith p.1 (fun r => { r with
            state := p.2, active := some title
            counters := { mix := 63, lifetime := 0, hidden := false, halted := false } }))) := by
  decide +kernel

/-- Slot 3 ON AIR with a copy whose lifetime is 1. -/
def lastField (mode reload : Word) : State :=
  WithSlot table 3 (record .onAir (timed mode 1#16 reload))

theorem test_witness_LifetimeAndBlinkRunOut :
    ran (exec (.lifetimeExpiry 3) (lastField 0#16 0#16)) =
        some { WithSlot (lastField 0#16 0#16) 3
            { record .standby (timed 0#16 1#16 0#16) with
              counters := { mix := 63, lifetime := 0, hidden := false, halted := false }
              attention := { Attention.none with expired := true } } with
          stack := [2], events := { EventBits.none with window := true } } ∧
      ran (exec (.expiryAutoRetire 3) (lastField 0x100#16 0#16)) =
        some { WithSlot (lastField 0x100#16 0#16) 3 (Slot.blank 1#4) with
          stack := [2], events := { EventBits.none with window := true } } := by
  decide +kernel

theorem test_witness_LifetimeAndBlinkRunOut_blink :
    ((after (exec (.blinkToggle 3) (lastField 0x80#16 2#16))).slot 3).counters =
        { mix := 63, lifetime := 2, hidden := true, halted := false } ∧
      ((after (exec (.blinkHide 3) (lastField 0x80#16 0#16))).slot 3).counters =
        { mix := 63, lifetime := 0, hidden := true, halted := false } ∧
      ran (exec (.blinkHide 3) (lastField 0x80#16 2#16)) = some (lastField 0x80#16 2#16) := by
  decide +kernel

theorem test_witness_GuardExpiryAndClearAirLift :
    (fun t : State => (t.stack, (t.slot 2).state, (t.slot 3).state, t.guard, t.events))
      (after (exec .guardExpiry { table with guard := { setting := 1, count := 0, expired := false } })) =
    ([], .standby, .standby, { setting := 1, count := 1, expired := true }, { EventBits.none with guard := true }) := by
  decide +kernel

theorem test_witness_PushApplied :
    ([(.push 1 1#4), (.push 5 0#4), (.push 4 0#4)] : List HeldRequest).map (fun q =>
        ran (exec .pushApply (holding q table))) =
      [some (Finished table .gone 0#16 0#16), some (Finished table .gone 0#16 0#16),
        some (Finished table .gone 0#16 0#16)] ∧
      ran (exec .pushApply (holding (.push 3 0#4) table)) =
        some { Finished table .ok 0#16 0#16 with stack := [3, 2] } ∧
      ran (exec .pushApply (holding (.push 1 0#4) table)) =
        some { Finished (WithSlot table 1 { table.slot 1 with state := .onAir }) .ok 0#16 0#16 with stack := [1, 2, 3] } ∧
      full.stack = [3, 4, 5, 6, 7, 8, 9] ++ [10] ∧ full.stack.Nodup ∧ 11 ∉ full.stack := by
  decide +kernel

theorem test_witness_LiftAndRetireApplied :
    table.stack = [2] ++ 3 :: [] ∧
      [.lift 3 0#4, .lift 1 0#4, .lift 3 1#4].map (fun q =>
          (fun t : State => (t.stack, t.cmd.completion, t.cmd.result0)) (after (exec .liftApply (holding q table)))) =
        [([2], .ok, 1#16), ([2, 3], .gone, 0#16), ([2, 3], .gone, 0#16)] ∧
      [.retire 3 0#4, .retire 1 0#4, .retire 4 0#4, .retire 3 1#4].map (fun q =>
          (fun t : State => (t.stack, t.cmd.completion, (t.slot 3).state))
            (after (exec .retireApply (holding q table)))) =
        [([2], .ok, .free), ([2, 3], .ok, .onAir), ([2, 3], .gone, .onAir), ([2, 3], .gone, .onAir)] := by
  decide +kernel

theorem test_witness_RaiseAndLowerApplied :
    [.raise 3 0#4, .raise 2 0#4, .raise 1 0#4].map (fun q =>
          (fun t : State => (t.stack, t.cmd.completion, t.cmd.result0)) (after (exec .raiseApply (holding q table)))) =
        [([3, 2], .ok, 0#16), ([2, 3], .atLimit, 0#16), ([2, 3], .gone, 0#16)] ∧
      [.lower 2 0#4, .lower 3 0#4, .lower 2 1#4].map (fun q =>
          (fun t : State => (t.stack, t.cmd.completion, t.cmd.result0)) (after (exec .lowerApply (holding q table)))) =
        [([3, 2], .ok, 1#16), ([2, 3], .atLimit, 1#16), ([2, 3], .gone, 0#16)] := by
  decide +kernel

theorem test_witness_GuardExpiryAndClearAirLift_clearAir :
    (fun t : State => (t.stack, (t.slot 2).state, (t.slot 3).state, t.cmd.completion, t.cmd.result0, t.events.toWord))
        (after (exec .clearAirApply (holding .clearAir table))) = ([], .standby, .standby, .ok, 2#16, 1#16) ∧
      (after (exec .clearAirApply (holding .clearAir table))).held = none := by
  decide +kernel

theorem test_witness_HeldSelectEnds :
    ran (exec .heldSelectTimeout waiting) =
        some { Finished waiting .timeout 0#16 0#16 with tb := { waiting.tb with heldSelect := none } } ∧
      ran (exec .heldSelectExamine { waiting with tb := { waiting.tb with switch := .none, program := .feedB } }) =
        some { Finished waiting .ok 1#16 0#16 with
          tb := { waiting.tb with program := .feedB, heldSelect := none, switch := .scheduled .feedA .cut } } ∧
      ran (exec .heldSelectExamine waiting) = some waiting := by
  decide +kernel

/-! ### The picture line and the bus -/

theorem test_witness_LineBegins :
    (fun t : State => (t.engine.openLine, t.keyer.snapshot.map (fun n => n.entries.map (·.slot))))
        (after (exec (.lineBegin 0) (after (exec .fieldStart State.reset)))) = (some 1, some []) ∧
      (after (exec .fieldStart State.reset)).engine.descs = [] ∧
      (fun t : State => (t.engine.openLine, t.engine.channel, t.keyer.snapshot.map (fun n =>
          n.entries.map (fun e => (e.slot, e.described))))) drawing =
        (some 0, .awaiting, some [(2, true), (3, false)]) ∧
      (after (exec (.lineBegin 5) drawing)).engine = { drawing.engine with drawn := false } ∧
      drawing.engine.drawn = true ∧ drawing.engine.openLine ≠ some 5 := by
  decide +kernel

/-- Five MASK windows of falling mask origin. -/
def five : State :=
  (([6, 7, 8, 9, 10] : List SlotId).foldl
    (fun s i => onAir i (masked.set 2 (BitVec.ofNat 16 (20 - i.val))) s) State.reset)

/-- A CUT or a coast with the raster in a line of a field, that line begun by the Keyer or not. -/
def midField (line : Nat) (v : Int) (fresh : Bool) : State :=
  { follow with
    feedA := { follow.feedA with line := line }, tb := { follow.tb with v := v, state := .coast }
    keyer := { follow.keyer with snapshot := if fresh then none else some { exampleLine with beganAt := 10000 } } }

theorem test_witness_LineOpens :
    StackLaw five ∧
      (fun t : State => (t.engine.descs.map (fun d => (d.slot, d.toFetch)), (t.slot 6).attention.late, t.events.window))
          (after (exec .fieldStart five)) =
        ([(10, [0, 1]), (9, [0, 1]), (8, [0, 1]), (7, [0, 1])], true, true) ∧
      ([(30, 10, false), (30, 10, true), (30, 0, false), (305, 0, false), (310, 155, false)] :
          List (Nat × Int × Bool)).map (fun a =>
            (after (exec .fieldStart (midField a.1 a.2.1 a.2.2))).engine.openLine) =
        [some 8, some 7, some 8, some 0, none] ∧
      (after (exec .fieldStart { midField 30 10 false with resetLine := true })).engine.openLine = none :=
  ⟨by unfold StackLaw; decide +kernel, by decide +kernel⟩

/-- The timebase's own raster with a latched v, some lines after a field start. -/
def ownRaster (v : Int) (lines now : Nat) : Int × Nat × Nat :=
  ({ State.reset with
    now := now
    tb := { Timebase.powerOn with
      latched := { Timebase.powerOn.latched with v := v }, linesRun := lines, lastField := 313, parity := .second } } :
    State).rasterLine

/-- With v at -10 the five lines after the field start are lines 303 to 307 of the field before, of 313 lines (R95). -/
theorem test_ownRaster :
    [ownRaster 0 5 0, ownRaster (-10) 0 0, ownRaster (-10) 5 0, ownRaster (-10) 300 863, ownRaster 10 305 0] =
      [(0, 5, 312), (0, 303, 313), (0, 308, 313), (0, 290, 312), (0, 3, 313)] := by
  decide +kernel

/-- In COAST without a flywheel, a field start that latches a smaller h finds picture line 7 begun at the h before it:
line 8 is opened; and line 7 where it has not begun (R95, R110, log 34). -/
theorem test_ownLineBegun :
    [some 20000, some (20000 - 864)].map (fun c =>
        (fun t : State => (t.engine.openLine, t.rasterLine.2.1, t.lineFresh)) (after (exec .fieldStart
          { State.reset with
            now := 20000
            tb := { Timebase.powerOn with
              state := .coast, h := 5, v := 30, lineStartAt := 20000, previousLineAt := 20000 - 864, linesRun := 312,
              latched := { Timebase.powerOn.latched with h := 40, v := 30 } }
            keyer := { cutBlanking := 0, snapshot := some { exampleLine with beganAt := 19960, ownAt := c } } }))) =
      [(some 8, 30, false), (some 7, 30, true)] := by
  decide +kernel

/-- A line that the Keyer draws is no line that a field start then opens under the same number (R104, R108). -/
theorem test_openedLineNotDrawn :
    (fun t : State => (t.engine.openLine, t.engine.drawn, t.demand, t.takingDue)) (after (exec .fieldStart drawing)) =
        (some 0, false, none, false) ∧
      (after (exec (.lineBegin 0) (after (exec .fieldStart drawing)))).demand = some (0, 0, 0) := by
  decide +kernel

theorem test_witness_TakingPointTakesOrAbandons :
    drawing.engine.drawn = true ∧ drawing.lineFresh = false ∧ drawing.demand = some (0, 0, 0) ∧
      (drawing.engine.descs.map (·.condition)) = [.opened] ∧
      drawing.engine.silo = [] ∧ drawing.live 2 0#4 = true ∧
      (fun t : State => (t.engine.silo, t.demand)) (after (exec .takingPoint (after (exec (.maskReadAnswer 0xA5A5#16)
        reading)))) = ([], some (16, 0, 1)) ∧
      (fun t : State => ((t.slot 2).attention.late, t.events.window, t.engine.openLine))
        (after (exec .takingPoint drawing)) = (true, true, some 1) := by
  decide +kernel

theorem test_takenAndAbandoned :
    ((after (exec .takingPoint (after (exec (.maskReadAnswer 0xA5A5#16) reading)))).keyer.snapshot.map
        (fun n => n.entries.map (·.taken))) = some [[(0, 0xA5A5#16)], []] ∧
      ((after (exec .takingPoint drawing)).keyer.snapshot.map (fun n => n.entries.map (·.abandonedFrom))) =
        some [some 0, none] := by
  decide +kernel

theorem test_witness_BusGrantPresents :
    drawing.engine.channel = .awaiting ∧ drawing.engine.owed = some (0, 0, 0) ∧
      reading.engine.channel = .maskRead 0 0 0 2 0#4 (255#24 * 65536#24 + 65500#24) true 0 ∧
      (after (exec .busGrant { drawing with engine := { drawing.engine with
          silo := List.replicate 16 { line := 0, place := 0, k := 0, data := 0#16 } } })).engine.channel = .idle ∧
      (after (exec .busGrant (onBus .awaiting (transferring false 1 table)))).engine.channel = .imageRead 0#24 0 ∧
      (after (exec .busGrant (onBus .awaiting (pointing 3 0 (transferring true 1 table))))).engine.channel =
        .imageWrite 0#24 7#16 0 ∧
      ran (exec .busGrant (onBus .awaiting table)) = some table ∧ ran (exec .busGrant table) = some table := by
  decide +kernel

theorem test_witness_MaskReadAnswered :
    (after (exec (.maskReadAnswer 1#16) reading)).engine.silo = [{ line := 0, place := 0, k := 0, data := 1#16 }] ∧
      (after (exec (.maskReadAnswer 1#16) reading)).engine.channel =
        .maskRead 0 0 1 2 0#4 (255#24 * 65536#24 + 65501#24) true 0 ∧
      (fun t : State => (t.engine.descs.map (·.condition), t.engine.silo))
          (after (exec (.maskReadAnswer 1#16) { reading with
            engine := reading.engine.modifyDesc 0 (fun d => { d with condition := .abandoned }) })) =
        ([.abandoned], []) ∧
      (after (exec (.maskReadAnswer 1#16) (after (exec .fieldStart reading)))).engine.silo = [] := by
  decide +kernel

/-- A transfer of two words, or of one, with its read on the bus. -/
def loading (left : Nat) (i : SlotId) (w : Fin 24) : State :=
  onBus (.imageRead 0#24 0) (pointing i w (transferring false left table))

/-- Two MASK windows with three words fetched, and a read of slot 2's second word on the bus. -/
def fetched : State :=
  ([1, 2, 3] : List Nat).foldl (fun s n => after (exec (.maskReadAnswer (BitVec.ofNat 16 n)) s))
    (after (exec .busGrant (after (exec (.lineBegin 0) (after (exec .fieldStart
      (onAir 3 masked (onAir 2 (masked.set 2 8) State.reset))))))))

/-- A fault drops slot 2's descriptor; its word is purged once the word ahead of it is taken (R109, R120), and the
window is abandoned from the sample reached. -/
theorem test_dropAndPurge :
    (fun t : State => (t.engine.descs.map (·.condition), t.engine.silo.map (·.place), t.engine.openLine,
        t.keyer.snapshot.map (fun n => n.entries.map (·.abandonedFrom)))) (after (exec .busTimeout { fetched with now := 135 })) =
        ([.opened, .dropped], [0, 1, 0], some 0, some [some 3, none]) ∧
      (fun t : State => (t.engine.silo.map (·.place), t.demand))
          (after (exec .takingPoint (after (exec .busTimeout { fetched with now := 135 })))) = ([0], some (16, 0, 1)) ∧
      (fun t : State => t.engine.silo.map (fun w => (w.place, w.k)))
          (after (exec (.maskReadAnswer 9) (after (exec .busTimeout { fetched with now := 135 })))) =
        [(0, 0), (1, 0), (0, 1), (0, 2)] := by
  decide +kernel

theorem test_witness_ImageWordsMove :
    [loading 2 3 0, loading 1 3 15, loading 2 3 16, loading 2 5 0].map (fun s =>
        (fun t : State => (t.port.transfer.map (·.position), t.port.pointer.word, t.cmd.completion, t.cmd.result0,
          t.events.access)) (after (exec (.imageInWordAnswer 9#16) s))) =
      [(some 1#24, 1, .ok, 0#16, false), (none, 16, .ok, 1#16, false), (none, 16, .partialDone, 0#16, true),
        (none, 0, .partialDone, 0#16, true)] ∧
      ((after (exec (.imageInWordAnswer 9#16) (loading 2 3 0))).slot 3).staging[0] = 9#16 ∧
      [2, 1].map (fun n =>
          (fun t : State => (t.port.transfer.map (·.left), t.cmd.ready, t.cmd.result0, t.engine.channel))
            (after (exec .imageOutWordAck (onBus (.imageWrite 0#24 7#16 0) (transferring true n table))))) =
        [(some 1, false, 0#16, .imageWrite 1#24 0#16 0), (none, true, 1#16, .idle)] ∧
      (fun t : State => ((t.slot 3).attention.late, (t.slot 3).attention.expired, t.port.pointer.word, t.engine.channel))
          (after (exec (.imageInWordAnswer 2#16)
            { loading 2 3 17 with slots := (loading 2 3 17).slots.set 3 { table.slot 3 with
              attention := { Attention.none with late := true, expired := true } } })) =
        (false, true, 18, .imageRead 1#24 0) := by
  decide +kernel

theorem test_witness_BusTimeoutFaults :
    (fun t : State => ((t.slot 2).state, (t.slot 2).attention.fetchFault, t.stack, t.events.window, t.engine.openLine,
        t.engine.channel)) (after (exec .busTimeout reading)) = (.faulted, true, [3], true, some 1, .idle) ∧
      (reading.slot 2).state = .onAir ∧ reading.stack.Nodup ∧
      (fun t : State => (t.slots = reading.slots, t.stack)) (after (exec .busTimeout
        (onBus (.maskRead 0 0 0 2 1#4 0#24 true 0) reading))) = (True, [2, 3]) ∧
      (fun t : State => (t.port.transfer, t.cmd.ready, t.cmd.completion)) (after (exec .busTimeout (loading 2 3 0))) =
        (none, true, .busFault) := by
  simp only [Prod.mk.injEq, eq_iff_iff, iff_true]
  decide +kernel

/-! ### The inputs -/

/-- Feed B's context replaced. -/
def feedB (f : LockContext → LockContext) : State :=
  { follow with feedB := f follow.feedB }

theorem test_witness_SyncPulseAndLoss :
    State.reset.feedA.lock = .noSignal ∧ State.reset.tb.heldSelect = none ∧
      (fun t : State => (t.feedA.lock, t.feedA.sourceChanged, t.feedA.lastPulse, t.events.lock, t.now))
        (after (exec (.syncPulse .feedA 5) State.reset)) = (.hunt, true, some 5, true, 5) ∧
      follow.feedA.lock = .locked ∧ follow.tb.program = .feedA ∧ follow.tb.state = .follow ∧
      ran (exec (.syncPulse .feedA 10001) follow) =
        some { follow with now := 10001, feedA := { follow.feedA with lastPulse := some 10001 } } ∧
      (fun t : State => (t.feedA.lock, t.feedA.standard, t.tb.state, t.tb.runPeriod, t.events.toWord))
        (after (exec (.lossTimerExpiry .feedA) follow)) = (.noSignal, none, .coast, 864, 12#16) := by
  decide +kernel

/-- Feed B in HUNT with its last line start at sample 10000. -/
def hunting (n : Option Nat) : State :=
  feedB (fun c => { c with lock := .hunt, standard := none, period := none, huntLines := n })

/-- A switch scheduled for Feed B is withdrawn at its loss, and the held SELECT, of Feed A, completes (R149, R152). -/
theorem test_witness_SyncPulseAndLoss_withdrawn :
    EventOf .feedB (.lossTimerExpiry .feedB) ∧
      (fun t : State => (t.feedB.lock, t.tb.switch, t.tb.heldSelect, t.tb.program, t.tb.state, t.events.timebase,
          t.cmd.ready)) (after (exec (.lossTimerExpiry .feedB)
            { scheduled .cut with
              tb := { (scheduled .cut).tb with
                heldSelect := some { input := .feedA, mode := .cut, confirm := false, count := 5 } }
              cmd := { State.reset.cmd with ready := false } })) =
        (.noSignal, .none, none, .feedA, .follow, true, true) :=
  ⟨.lossTimerExpiry, by decide +kernel⟩

theorem test_witness_LineStartsTracked :
    (fun c : LockContext => (c.period, c.reference, c.huntLines))
        (after (exec (.lineStart .feedB 10860) (hunting (some 4)))).feedB = (some 860, some 10860, some 5) ∧
      [10858, 10870].map (fun time => (after (exec (.lineStart .feedB time) (feedB id))).feedB.period) =
        [some 858, some 870] ∧
      (follow.feedB.line + 11 < follow.feedB.expected) ∧
      [10800, 10928, 10799].map (fun time =>
          (fun t : State => (t.feedB.lock, t.feedB.reference, t.feedB.line, t.events.lock))
            (after (exec (.lineStart .feedB time) (feedB id)))) =
        [(.holdover, some 10800, 1, true), (.holdover, some 10928, 1, true), (.locked, some 10000, 0, false)] ∧
      (feedB (fun c => { c with line := 302 })).feedB.expected ≤ 302 + 11 ∧
      (fun c : LockContext => (c.lock, c.headSwitch, c.period, c.reference))
        (after (exec (.lineStart .feedB 10850) (feedB (fun c => { c with line := 302 })))).feedB =
        (.locked, 1, some 864, some 10850) := by
  decide +kernel

theorem test_witness_VerticalSyncFound :
    [261, 262, 311, 312, 260, 263, 310, 313].map (fun n =>
        (fun c : LockContext => (c.lock, c.standard, c.parity, c.huntLines))
          (after (exec (.verticalSyncSequence .feedB 10864 .second) (hunting (some n)))).feedB) =
      [(.verify, some .lines525, .second, none), (.verify, some .lines525, .second, none),
        (.verify, some .lines625, .second, none), (.verify, some .lines625, .second, none),
        (.hunt, none, .first, some 0), (.hunt, none, .first, some 0), (.hunt, none, .first, some 0),
        (.hunt, none, .first, some 0)] ∧
      (fun t : State => (t.feedB.lock, t.feedB.parity, t.feedB.line, t.events.lock))
        (after (exec (.verifyPass .feedB 10864)
          (feedB (fun c => { c with lock := .verify, verified := 3, line := 312 })))) =
        (.locked, .second, 0, true) := by
  decide +kernel

/-- Feed B in VERIFY with some fields passed, in a line of a field of parity first. -/
def verifying (line : Nat) : State :=
  feedB (fun c => { c with lock := .verify, verified := 1, line := line })

theorem test_witness_LineStartsTracked_verify :
    ([(100, 10872), (100, 10873), (303, 10900), (312, 10864)] : List (Nat × Nat)).map (fun a =>
        (fun c : LockContext => (c.lock, c.line, c.period, c.huntAt))
          (after (exec (.lineStart .feedB a.2) (verifying a.1))).feedB) =
      [(.verify, 101, some 872, none), (.hunt, 0, some 873, some 10873), (.verify, 304, some 900, none),
        (.hunt, 0, some 864, some 10864)] ∧
      (after (exec (.lineStart .feedA 5) State.reset)).feedA = State.reset.feedA := by
  decide +kernel

/-- A line start in FOLLOW ends the computer's line, and at the input's boundary its field. -/
theorem test_witness_LineStartsTracked_follow :
    [100, 312].map (fun line =>
        (fun t : State => (t.tb.lineStartAt, t.tb.linesRun, t.tb.fieldCounter, t.tb.parity, t.tb.lastField))
          (after (exec (.lineStart .feedA 10864) { follow with feedA := { follow.feedA with line := line } }))) =
      [(10864, 101, 0#16, .first, 312), (10864, 0, 1#16, .second, 101)] := by
  decide +kernel

/-- A sequence at the moment HUNT is entered does not become the reference; the next one does (R129). -/
theorem test_witness_VerticalSyncFound_hunt :
    [5, 6].map (fun time => (fun c : LockContext => (c.huntLines, c.reference)) (after
        (exec (.verticalSyncSequence .feedA time .first) (after (exec (.syncPulse .feedA 5) State.reset)))).feedA) =
      [(none, some 5), (some 0, some 6)] := by
  decide +kernel

theorem test_witness_VerticalSyncFound_verify :
    ([(312, .second), (312, .first), (100, .second)] : List (Nat × Parity)).map (fun a =>
        (fun c : LockContext => (c.lock, c.line, c.parity, c.verified))
          (after (exec (.verticalSyncSequence .feedB 10864 a.2) (verifying a.1))).feedB) =
      [(.verify, 0, .second, 2), (.hunt, 0, .first, 0), (.hunt, 0, .first, 0)] := by
  decide +kernel

theorem test_witness_VerticalSyncFound_locked :
    ([(312, 10864, .second), (312, 10864, .first), (100, 10870, .second), (100, 10871, .second), (303, 10871, .second),
        (303, 10999, .second)] : List (Nat × Nat × Parity)).map (fun a =>
        (fun c : LockContext => (c.lock, c.line, c.parity, c.period, c.headSwitch))
          (after (exec (.verticalSyncSequence .feedB a.2.1 a.2.2) (feedB (fun c => { c with line := a.1 })))).feedB) =
      [(.locked, 0, .second, some 864, 0), (.holdover, 0, .first, some 864, 0), (.holdover, 0, .second, some 864, 0),
        (.holdover, 0, .second, some 864, 0), (.holdover, 0, .second, some 864, 0), (.locked, 303, .first, some 864, 0)] := by
  decide +kernel

/-- Feed B in HOLDOVER with good line starts and line starts counted. -/
def heldOver (good lines : Nat) : State :=
  feedB (fun c => { c with lock := .holdover, run := good, heldLines := lines })

theorem test_witness_HoldoverEntersAndLeaves_lines :
    [.lineStart .feedB 10870, .lineStart .feedB 10871, .lineStart .feedB 10999,
        .verticalSyncSequence .feedB 10864 .second, .missingLineStart .feedB].map (fun i =>
        (fun c : LockContext => (c.lock, c.run, c.heldLines, c.line, c.parity)) (after (exec i (heldOver 3 9))).feedB) =
      [(.holdover, 4, 10, 1, .first), (.holdover, 0, 10, 1, .first), (.holdover, 3, 9, 0, .first),
        (.holdover, 4, 10, 0, .second), (.holdover, 0, 10, 1, .first)] ∧
      [.lineStart .feedB 10870, .missingLineStart .feedB, .holdoverLimit .feedB].map (fun i =>
        (fun c : LockContext => (c.lock, c.huntAt, c.reference, c.deviation)) (after (exec i (heldOver 3 624))).feedB) =
      [(.hunt, some 10870, none, -128), (.hunt, some 10000, none, -128), (.hunt, some 10000, none, -128)] := by
  decide +kernel

theorem test_witness_HoldoverEntersAndLeaves :
    [0, 1, 2].map (fun n => (fun t : State => (t.feedB.lock, t.feedB.run, t.feedB.reference, t.feedB.line))
        (after (exec (.missingLineStart .feedB) (feedB (fun c => { c with run := n }))))) =
      [(.locked, 1, some 10864, 1), (.locked, 2, some 10864, 1), (.holdover, 0, some 10864, 1)] ∧
      [10858, 10870].map (fun time => (fun t : State => (t.feedB.lock, t.feedB.period, t.events.lock))
          (after (exec (.holdoverRelock .feedB time) (feedB (fun c => { c with lock := .holdover, run := 7 }))))) =
        [(.locked, some 864, true), (.locked, some 864, true)] ∧
      Standard.holdoverLimit .lines625 = 624 + 1 ∧
      (fun t : State => (t.feedB.lock, t.feedB.standard, t.feedB.remembered, t.events.lock))
        (after (exec (.holdoverLimit .feedB) (feedB (fun c => { c with lock := .holdover, heldLines := 624 })))) =
        (.hunt, none, some .lines625, true) := by
  decide +kernel

/-- A jump of the program input takes FOLLOW to COAST, and the eighth good line start takes COAST to FOLLOW, with a made
switch over, where the residuals measure 0, or to SLEW (R146, R152). -/
theorem test_witness_HoldoverEntersAndLeaves_timebase :
    EventOf .feedA (.lineStart .feedA 10874) ∧
      (fun t : State => (t.feedA.lock, t.tb.state, t.tb.runPeriod, t.events.timebase, t.tb.lineFollows))
          (after (exec (.lineStart .feedA 10874) follow)) = (.holdover, .coast, 864, true, false) ∧
      [10864, 10860].map (fun at_ =>
          (fun t : State => (t.feedA.lock, t.tb.state, t.tb.switch, t.tb.h, t.tb.v, t.tb.linesRun))
            (after (exec (.holdoverRelock .feedA 10864)
              { follow with
                feedA := { lockedCtx .lines625 312 with lock := .holdover, run := 7 }
                tb := { follow.tb with
                  state := .coast, switch := .made, lineFollows := false, linesRun := 312, lineStartAt := at_ } }))) =
        [(.locked, .follow, .none, 0, 0, 0), (.locked, .slew, .made, -4, 0, 312)] :=
  ⟨.line _ (.lineStart _), by decide +kernel⟩

/-! ### The timebase -/

/-- The switch of spec/09 section 9.8: 100 lines run, the computer's line start 37 samples after Feed B's. -/
def slewing : State :=
  { scheduled .slew with tb := { (scheduled .slew).tb with linesRun := 99, lineStartAt := 10000 + 37 - 864 } }

theorem test_witness_SwitchesAreMade :
    (fun t : State => (t.tb.program, t.tb.state, t.tb.fieldCounter, t.tb.linesRun, t.keyer.cutBlanking,
        t.events.timebase)) (after (exec .cutSwitch (scheduled .cut))) = (.feedB, .follow, 1#16, 0, 2, true) ∧
      (scheduled .cut).tb.linesRun ≠ 0 ∧ (scheduled .cut).feedB.reference = some 10000 ∧
      (scheduled .cut).feedB.standard = some (scheduled .cut).tb.standard ∧
      (slewing.tb.measureH slewing.feedB, slewing.tb.measureV slewing.feedB) = (37, -100) ∧
      (fun t : State => (t.tb.program, t.tb.state, t.tb.h, t.tb.v, t.tb.latched.h, t.events.timebase))
        (after (exec .slewSwitch slewing)) = (.feedB, .slew, 37, -100, 0, true) := by
  decide +kernel

/-- A state with a held SELECT at a count. -/
def withHeld (s : State) (count : Nat) : State :=
  { s with
    tb := { s.tb with heldSelect := some { input := .feedA, mode := .cut, confirm := false, count := count } }
    cmd := { s.cmd with ready := false } }

/-- What a switch leaves of the timebase. -/
def switched (t : State) : TimebaseState × SwitchItem × Option Nat × Word × Nat × Nat :=
  (t.tb.state, t.tb.switch, t.tb.heldSelect.map (·.count), t.tb.fieldCounter, t.tb.runPeriod,
    t.tb.lineLength)

/-- Switches with a held SELECT, to a LOCKED input and to one in HOLDOVER, and out of FREE RUN to another standard. -/
theorem test_witness_SwitchesAreMade_cut :
    [withHeld (scheduled .cut) 5,
        { withHeld (scheduled .cut) 5 with feedB := { lockedCtx .lines625 0 with lock := .holdover, period := some 866 } },
        { scheduled .cut with
          feedB := lockedCtx .lines525 0, tb := { (scheduled .cut).tb with state := .freeRun } }].map
        (fun s => switched (after (exec .cutSwitch s))) =
      [(.follow, .scheduled .feedA .cut, none, 1#16, 864, 864),
        (.coast, .made, some 6, 1#16, 866, 866), (.follow, .none, none, 1#16, 864, 858)] := by
  decide +kernel

theorem test_witness_SwitchesAreMade_slew :
    [{ withHeld (scheduled .slew) 5 with feedB := { lockedCtx .lines625 0 with lock := .holdover, period := some 866 } },
        { withHeld (scheduled .slew) 5 with tb := { (withHeld (scheduled .slew) 5).tb with linesRun := 0 } },
        { withHeld (scheduled .slew) 5 with tb := { (withHeld (scheduled .slew) 5).tb with linesRun := 313 } }].map
        (fun s => switched (after (exec .slewSwitch s))) =
      [(.coast, .made, some 5, 0#16, 866, 864), (.follow, .scheduled .feedA .cut, none, 0#16, 864, 864),
        (.follow, .scheduled .feedA .cut, none, 0#16, 864, 864)] := by
  decide +kernel

/-- A line made in an earlier slew moves the h measured since where it was made to move h that way (log 39). -/
theorem test_lineMadeBeforeMeasurement :
    [(3, -1), (3, 1), (-3, -1), (-3, 1)].map (fun a : Int × Int =>
        (after (exec .computerLineEnd (let s := slewBy a.1 5 100; { s with tb := { s.tb with lineSlew := a.2 } }))).tb.h) =
      [2, 3, -3, -2] := by
  decide +kernel

/-- A STRICT window just converted at h 5, as a CUT comes at that very field start. -/
def justStarted : State :=
  after (exec .fieldStart { WithSlot table 3 (record .onAir (title.set 1 0x10#16)) with
    feedA := lockedCtx .lines625 0, feedB := lockedCtx .lines625 0
    tb := { Timebase.powerOn with
      state := .coast, h := 5, linesRun := 312, lineStartAt := 10000, switch := .scheduled .feedB .cut } })

/-- One field start carries the CUT's effects, and CONVERT and WINDOW of the conversion it supersedes do not stand
(R87, R150). -/
theorem test_witness_SwitchesAreMade_fieldEnd :
    ((justStarted.slot 3).attention.convert, justStarted.events.window, justStarted.tb.linesRun) = (true, true, 0) ∧
      (fun t : State => ((t.slot 3).attention.convert, (t.slot 3).geometry.offRaster, t.events.window,
          t.tb.fieldCounter, t.tb.latched.h, t.keyer.cutBlanking)) (after (exec .cutSwitch justStarted)) =
        (false, false, false, 1#16, 0, 2) := by
  decide +kernel

/-- FETCH FAULT, set after the field start that the CUT comes with and cleared by software, leaves WINDOW set (R171). -/
theorem test_windowOutlivesFlag :
    (fun t : State => ((t.slot 2).attention.fetchFault, (t.slot 3).attention.convert, t.events.window))
      (after (exec .cutSwitch (after (exec (.accessDataWrite 16#16) (pointing 2 17 (justStarted.raise 2 .fetchFault)))))) =
    (false, false, true) := by
  decide +kernel

/-- Feed B's vertical sync, found by its flywheel, makes the switch scheduled for it; another of its lines does not
(R137, R149). -/
theorem test_witness_SwitchesAreMade_handedOn :
    LineEventOf .feedB (.lineStart .feedB 10864) ∧
      [312, 311].map (fun line =>
          (fun t : State => (t.tb.program, t.tb.switch, t.feedB.line)) (after (exec (.lineStart .feedB 10864)
            { scheduled .cut with feedB := lockedCtx .lines625 line }))) =
        [(.feedB, .none, 0), (.feedA, .scheduled .feedB .cut, 312)] :=
  ⟨.lineStart _, by decide +kernel⟩

/-- A 525 input slewed to by a timebase in 625 lines has its fields made by its own counts (R143, R145). -/
theorem test_slewOfOtherStandard :
    (fun t : State => (t.tb.state, t.tb.standard, (after (exec .fieldStart t)).tb.inputLines))
      (after (exec .slewSwitch { slewing with feedB := lockedCtx .lines525 0 })) = (.slew, .lines625, 263) := by
  decide +kernel

/-- A SLEW switch taken before the computer's line end at the same moment: the line in progress runs on and ends there
(R151). -/
theorem test_slewBeforeLineEnd :
    (fun t : State => (t.tb.h, t.tb.v, t.tb.state, t.tb.linesRun, t.tb.lineFollows,
        (after (exec .computerLineEnd t)).tb.linesRun, (after (exec .computerLineEnd t)).tb.lineStartAt))
      (after (exec (.verticalSyncSequence .feedB 10000 .first)
        { scheduled .slew with
          feedB := { lockedCtx .lines625 311 with reference := some (10000 - 864), parity := .second }
          tb := { (scheduled .slew).tb with linesRun := 5, lineStartAt := 10000 - 864 } })) =
    (0, -6, .slew, 5, false, 6, 10000) := by
  decide +kernel

/-- Field start 3001 of spec/09 section 9.8 comes with v at -96, after a field made 4 lines longer than Feed B's. -/
theorem test_slewedField :
    (fun t : State => (t.fieldLength, (after (exec .fieldStart t)).tb.latched.v,
        (after (exec .fieldStart t)).tb.switch)) (after (exec .slewSwitch slewing)) = (317, -96, .made) := by
  decide +kernel

theorem test_witness_ResidualsMeasured :
    (lockedCtx .lines525 0).reference = some 10000 ∧
      [10000 + 428, 10000 + 429].map (fun at_ =>
          ({ Timebase.powerOn with standard := .lines525, lineStartAt := at_ }.measureH (lockedCtx .lines525 0))) =
        [428, -429] ∧
      [156, 157].map (fun line =>
          ({ Timebase.powerOn with lineStartAt := 10000 }.measureV (lockedCtx .lines625 line))) = [156, -156] := by
  decide +kernel

theorem test_witness_ComputerLineEnds :
    ran (exec .computerLineEnd State.reset) =
        some { State.reset with tb := { Timebase.powerOn with lineStartAt := 864, linesRun := 1 } } ∧
      HeldSelectLaw State.reset ∧
      (fun t : State => (t.tb.lineStartAt, t.tb.linesRun, t.tb.fieldCounter, t.tb.parity)) (after (exec .computerLineEnd
        { State.reset with tb := { Timebase.powerOn with linesRun := 312 } })) = (864, 0, 1#16, .second) ∧
      [1, -1].map (fun h => (fun t : State => (t.tb.h, t.tb.lineStartAt, t.tb.state)) (after (exec .computerLineEnd
          (slewBy h 0 100)))) = [(0, 10863, .follow), (0, 10865, .follow)] ∧
      (fun t : State => (t.tb.h, t.tb.state)) (after (exec .computerLineEnd (slewBy 2 1 100))) = (1, .slew) ∧
      [307, 308].map (fun n => (fun t : State => (t.tb.v, t.tb.linesRun, t.tb.fieldCounter))
          (after (exec .computerLineEnd (slewBy 2 5 n)))) = [(5, 308, 0#16), (1, 0, 1#16)] := by
  refine ⟨by decide +kernel, fun q hq => ?_, by decide +kernel⟩
  cases hq

/-- In SLEW with h at 0 the program input's line starts end the computer's lines, and its field after the slewed length
(R145). -/
theorem test_witness_ComputerLineEnds_followed :
    (slewBy 0 5 307).tb.lineFollows = true ∧
      [307, 308].map (fun n => (fun t : State => (t.tb.v, t.tb.lineStartAt, t.tb.linesRun, t.tb.fieldCounter))
          (after (exec (.lineStart .feedA 10864) (slewBy 0 5 n)))) = [(5, 10864, 308, 0#16), (1, 10864, 0, 1#16)] := by
  decide +kernel

/-- A line start of the program input close to the computer's only moves the computer's line start, and at the input's
boundary the field ends there (log 15). -/
theorem test_witness_ComputerLineEnds_beside :
    LineEventOf .feedA (.lineStart .feedA 10864) ∧
      [100, 312].map (fun line =>
          (fun t : State => (t.tb.lineStartAt, t.tb.previousLineAt, t.tb.linesRun, t.tb.fieldCounter))
            (after (exec (.lineStart .feedA 10864) { follow with
              feedA := { follow.feedA with line := line }, tb := { follow.tb with lineStartAt := 10860 } }))) =
        [(10864, 0, 100, 0#16), (10864, 0, 0, 1#16)] :=
  ⟨.lineStart _, by decide +kernel⟩

/-- A line made in SLEW and still to run when FOLLOW is entered runs out, and ends the field where it ends beside the
boundary that the input has just marked (R142, R143). -/
theorem test_lineOutlivesSlew :
    [0, 5].map (fun line =>
        (fun t : State => (t.tb.lineStartAt, t.tb.linesRun, t.tb.fieldCounter, t.tb.lineFollows))
          (after (exec .computerLineEnd
            { follow with
              feedA := { follow.feedA with line := line, reference := some 10864 }
              tb := { follow.tb with lineFollows := false } }))) =
      [(10864, 0, 1#16, true), (10864, 101, 0#16, true)] := by
  decide +kernel

theorem test_witness_PowerOnValues :
    (fun t : State => (t.resetLine, t.cmd.completion, t.pending)) (after (exec .powerOn busy)) =
        (false, .ok, [.fieldStart]) ∧
      (after (exec .powerOn { busy with resetLine := true })).cmd.completion = .reset ∧
      (fun t : State => ((t.slot 2).state, (t.slot 2).gen, t.stack, t.resetLine, t.tb.state, t.cmd.completion))
        (after (exec .busReset busy)) = (.free, 1#4, [], true, .follow, .reset) ∧
      ran (exec .busResetRelease { busy with resetLine := true }) = some busy := by
  decide +kernel

/-! ### Keying and conversion -/

theorem test_witness_KeyTestsAndMix :
    exampleLine.entries.map (·.mode) = [.matte, .luma] ∧
      [KeyMode.colour, .mask].map (fun m => exampleLine.entries.map (fun e =>
          { e with mode := m, wordsPerLine := 1, taken := [(0, 0x8001#16)] : SnapEntry }.passes
            { Pixel.black with index := 16#8 } 15)) = [[false, true], [true, true]] ∧ mixComponent 255 16 32 = 134 ∧ mixComponent 0 16 32 = 8 ∧
      mixComponent 40 16 63 = 16 ∧ mixComponent 40 16 0 = 40 := by
  decide

theorem test_witness_KeyTestsAndMix_base :
    [true, false].map (fun n => ({ exampleLine with noSignal := n, entries := [] }.keyedOutput (fun _ _ => Pixel.black)
        (fun x => match x with | .feedA => { red := 1, green := 2, blue := 3 } | .feedB => Colour.black) 0)) =
      [{ red := 0, green := 0, blue := 0 }, { red := 1, green := 2, blue := 3 }] ∧
      [-1, 0, 7, 8, 719, 720].map (fun k => (titleLineAt Timebase.powerOn.latched 287).bind (fun t =>
        (pixelAt Timebase.powerOn.latched k).map (fun p => (t, p)))) =
      [none, some (287, 0), some (287, 7), some (287, 7), some (287, 639), none] := by
  decide +kernel

/-- The output pin before, at and after the active samples of a line, and in NO SIGNAL (R95). -/
theorem test_witness_KeyTestsAndMix_output :
    [131, 132, 851, 852].map (fun now =>
        { follow with now := 10000 + now, keyer := { follow.keyer with
            snapshot := some { exampleLine with beganAt := 10000, entries := [] } } }.keyedSignal
          (fun _ _ => Pixel.black) (fun _ => Colour.black)) =
      [.received .feedA, .composed Colour.black, .composed Colour.black, .received .feedA] ∧
      State.reset.keyedSignal (fun _ _ => Pixel.black) (fun _ => Colour.black) = .timebaseBlack := by
  decide +kernel

/-- The codes of the key mode and of the rounding mode (R156). -/
theorem test_modeCodes :
    [0#16, 1#16, 2#16, 3#16].map (fun w => (timed w 0#16 0#16).keyMode) = [.luma, .colour, .mask, .matte] ∧
      [0#16, 4#16, 8#16, 12#16].map (fun w => (timed w 0#16 0#16).rounding) =
        [.nearest, .truncate, .floor, .ceiling] := by
  decide

theorem test_witness_PositionsConverted :
    (fun g : Geometry => (g.left, g.right, g.top, g.bottom)) (derive (timed 0#16 0#16 0#16) Timebase.powerOn.latched) =
        (0, 719, 0, 239) ∧
      (fun g : Geometry => (g.left, g.right, g.maskOrigin, g.offRaster)) (derive (timed 0x10#16 0#16 0#16)
        { Timebase.powerOn.latched with trim := 1 }) = (-32768, -32768, 1, true) ∧
      (fun g : Geometry => (g.left, g.right, g.maskOrigin, g.offRaster)) (derive (timed 0#16 0#16 0#16)
        { Timebase.powerOn.latched with trim := -1 }) = (0, 718, -1, false) ∧
      (derive (timed 0#16 0#16 0#16) { Timebase.powerOn.latched with v := 288 }).offRaster = true := by
  decide

end Sys2Proof.Tests
end

section
/-! The laws of the window records over every command: records agree with their states, generations, and WINDOW. -/

namespace Sys2Proof.Machine

/-! ### What drafting and power-on do to a record -/

@[simp] theorem State.powerOn_slot (s : State) (i : SlotId) : s.powerOn.slot i = Slot.blank 0#4 := by
  simp [State.slot, State.powerOn, State.reset]

@[simp] theorem State.busReset_slot (s : State) (i : SlotId) : s.busReset.slot i = (s.slot i).busReset := by
  simp [State.slot, State.busReset]

/-- Drafting keeps the agreement of every record with its state (R13, R14). -/
theorem Drafts.recordLaw {s t : State} (h : Drafts s t) (hr : RecordLaw s) : RecordLaw t := by
  obtain ⟨i, c, _, _, slots⟩ := h
  intro j
  rw [slots]
  split
  · exact Slot.drafted_record _ c
  · exact hr j

/-- Drafting leaves every generation (R11, R13, R14). -/
theorem Drafts.gen {s t : State} (h : Drafts s t) (j : SlotId) : (t.slot j).gen = (s.slot j).gen := by
  obtain ⟨i, c, _, _, slots⟩ := h
  rw [slots]
  split
  · next e => subst e; rfl
  · rfl

/-! ### Records agree with their states -/

theorem exec_recordLaw {c : Instr} {s t : State} (hs : StackLaw s) (hr : RecordLaw s) (h : exec c s = .next t) :
    RecordLaw t := by
  by_cases hc : c = .powerOn
  · subst hc
    cases h
    intro i
    rw [State.powerOn_slot]
    exact Slot.blank_record _
  · rcases exec_moves (V := fun _ => True) (fun _ => trivial) c s t hc h with moves | drafts
    · exact fun i => ((moves hs).2 i).keeps (P := SlotRecord) (fun _ _ => SlotStep.record) (hr i)
    · exact drafts.recordLaw hr

/-- Settles O5: every command changes each record by changes that keep its law, and neither the queue nor the clock
touches a record. -/
theorem stepKeepsRecordLaw : Obligations.StepKeepsRecordLaw := by
  intro s t hs hr h
  exact step_ind (P := fun s t => StackLaw s → RecordLaw s → RecordLaw t)
    (command := fun _ s _ rest h hs hr => exec_recordLaw (s := { s with pending := rest }) hs hr h)
    (event := fun _ _ _ h hs hr => exec_recordLaw hs hr h)
    (tick := fun _ _ hr => hr) s t h hs hr

/-! ### Generations -/

/-- Settles O14: the listed changes of a record keep its generation or free it, and drafting keeps it. -/
theorem generationChangesOnlyWhenFreed : Obligations.GenerationChangesOnlyWhenFreed := by
  intro c s t i hs hc h
  rcases exec_moves (V := fun _ => True) (fun _ => trivial) c s t hc h with moves | drafts
  · rcases ((moves hs).2 i).sameOrFreed with ⟨same, _⟩ | freed
    · exact .inl same
    · exact .inr freed
  · exact .inl (drafts.gen i)

/-! ### WINDOW -/

theorem State.nextOnBus_announces (s : State) : Announces s s.nextOnBus := .same (by simp) (by simp)

theorem State.answerImage_announces (s : State) (w : Word) : Announces s (s.answerImage w) := by
  have arrived : ∀ t, Announces s (s.wordArrived t w) := by
    intro t
    unfold State.wordArrived
    split
    · next f hf =>
      refine (State.writePointed_announces hf).trans ?_
      unfold State.wordMoved
      split <;> exact .same rfl rfl
    · exact .same rfl rfl
  unfold State.answerImage
  split
  · next t _ _ => exact (arrived t).trans (State.nextOnBus_announces _)
  · exact .refl s

theorem State.imageFault_announces (s : State) : Announces s s.imageFault := by
  unfold State.imageFault
  split
  · exact .same rfl rfl
  · exact .refl s

theorem State.busTimeout_announces (s : State) : Announces s s.busTimeout := by
  unfold State.busTimeout
  split
  · exact (s.maskFault_announces _ _).trans (State.nextOnBus_announces _)
  · exact s.imageFault_announces.trans (State.nextOnBus_announces _)
  · exact s.imageFault_announces.trans (State.nextOnBus_announces _)
  · exact .refl s
  · exact .refl s

/-- Bus reset sets no attention flag (R23). -/
theorem Slot.busReset_newlySet (r : Slot) : r.attention.newlySet r.busReset.attention = false := by
  unfold Slot.busReset
  split
  · exact Attention.newlySet_self _
  · exact Attention.newlySet_none _

/-- Some record's attention flag goes from clear to set only where WINDOW is left set (R171). -/
def WindowTells (s t : State) : Prop :=
  ∀ i, (s.slot i).attention.newlySet (t.slot i).attention = true → t.events.window = true

theorem Announces.tells {s t : State} (h : Announces s t) : WindowTells s t := h.2

/-- Where no record changes, no attention flag is newly set. -/
theorem WindowTells.same {s t : State} (h : t.slots = s.slots) : WindowTells s t := by
  intro i hi
  have e : t.slot i = s.slot i := by simp [State.slot, h]
  simp [e] at hi

theorem exec_windowTells {c : Instr} {s t : State} (h : exec c s = .next t) : WindowTells s t := by
  have timing := State.timing_announced s s (.refl s)
  refine exec_ind (P := WindowTells s) h ?self ?powerOn ?busReset ?release ?overrun ?refuse ?taken ?stored ?flags ?mask
    ?pointer ?read ?readRefused ?written ?field ?adoption ?expiry ?autoRetire ?blink ?guard ?applyHeld ?timeout ?settle
    ?beginLine ?takingPoint ?grant ?answerMask ?answerImage ?acknowledge ?busTimeout ?tracked ?cut ?slew ?lineEnd
  case powerOn => intro _ i hi; simp at hi
  case busReset => intro i hi; simp [Slot.busReset_newlySet] at hi
  case taken =>
    intro code ie _
    have taken : Announces s (s.take code ie) := .same rfl rfl
    exact (taken.trans (commandEffect_announces _ _ _)).tells
  case written => exact fun _ _ _ hw => (State.writePointed_announces hw).tells
  case field => exact (s.fieldStart_announces false).tells
  case adoption => exact fun i _ => (s.modifySlot_announces i _).tells
  case expiry =>
    intro i _
    have marked : Announces s (s.markRaise i .expired) := .same rfl rfl
    exact (marked.trans ((State.modifySlot_announces _ i _).trans (State.leaveStack_announces _ i _))).tells
  case autoRetire =>
    intro i _
    have marked : Announces s (s.markRaise i .expired) := .same rfl rfl
    exact (marked.trans ((State.modifySlot_announces _ i _).trans (State.freeRecord_announces _ i))).tells
  case blink => exact fun i _ => (s.modifySlot_announces i _).tells
  case guard => exact fun _ => s.guardExpire_announces.tells
  case applyHeld => exact s.applyHeld_announces.tells
  case beginLine => exact fun l => (s.beginLine_announces l).tells
  case takingPoint => exact s.takingPointReached_announces.tells
  case answerImage => exact fun w => (s.answerImage_announces w).tells
  case busTimeout => exact s.busTimeout_announces.tells
  case tracked =>
    intro x time t _
    have clocked : Announced s (s.clockAt time) := (Announced.refl s).same rfl rfl rfl
    exact ((State.timing_announced s _ clocked).2.2.2 x t).1
  case cut => exact fun x _ => (timing.1 x).1
  case slew => exact fun x _ => (timing.2.1 x).1
  case lineEnd => exact timing.2.2.1.1
  all_goals intros; exact .same (by simp)

/-- Settles O15: every command leaves WINDOW set where it brings a flag from clear to set. -/
theorem attentionSetsWindow : Obligations.AttentionSetsWindow :=
  fun _ _ _ i h => exec_windowTells h i

end Sys2Proof.Machine
end

section
/-! The commands on window records: the general checks, OPEN, CLONE, RETIRE and FIND, and writes of the data word. -/

namespace Sys2Proof.Machine

/-! ### Searches of the window table -/

/-- A search from slot 0 upward finds the lowest slot that meets the test. -/
theorem find?_finRange_some {n : Nat} {p : Fin n → Bool} {i : Fin n} (hi : p i = true)
    (lower : ∀ j, j < i → p j = false) : (List.finRange n).find? p = some i := by
  rw [List.find?_eq_some_iff_getElem]
  refine ⟨hi, i.val, by simp, by simp, fun j hj => ?_⟩
  have := lower ⟨j, by omega⟩ hj
  simpa using this

theorem State.lowestFree_some {s : State} {i : SlotId} (h : LowestFree s i) : s.lowestFree = some i :=
  find?_finRange_some (by simpa using h.1) fun j hj => by simpa using h.2 j hj

theorem State.lowestFree_none {s : State} (h : ∀ i, (s.slot i).state ≠ .free) : s.lowestFree = none :=
  List.find?_eq_none.2 fun i _ => by simpa using h i

/-- A new DRAFT record sets no attention flag: the slot is written and nothing else changes (R13, R14). -/
theorem State.modifySlot_drafted (s : State) (i : SlotId) (c : Copy) :
    s.modifySlot i (fun r => r.drafted c) = WithSlot s i (FreshDraft (s.slot i).gen c) :=
  s.modifySlot_quiet i _ (Attention.newlySet_none _)

/-! ### The general checks -/

theorem commandEffect_unknown (x : Bool) {code : BitVec 5} (h : 18 ≤ code.toNat) :
    commandEffect x code = unknownEffect := by
  unfold commandEffect
  split <;> first | rfl | omega

/-- What the general checks of a handle refuse (R12): the effect of a command that names one. For PUBLISH the stale
handle is examined after its delay. -/
structure ChecksHandle (effect : State → State) (examined : State → Prop) : Prop where
  bad : ∀ u, 512 ≤ u.cmd.arg0.toNat ∨ 24 ≤ u.cmd.arg0.toNat % 32 → effect u = u.completeZero .badArgument
  stale : ∀ u i g, u.cmd.arg0 = handleOf i g → examined u → (u.slot i).state = .free ∨ (u.slot i).gen ≠ g →
    effect u = u.completeZero .staleHandle

theorem State.withHandle_checks (k : SlotId → Generation → State → State) (examined : State → Prop) :
    ChecksHandle (fun u => u.withHandle k) examined where
  bad u h := u.withHandle_bad k h
  stale u i g ha _ h := u.withHandle_stale i g k ha h

theorem State.live_stale {s : State} {i : SlotId} {g : Generation}
    (h : (s.slot i).state = .free ∨ (s.slot i).gen ≠ g) : s.live i g = false := by
  rcases h with h | h <;> simp [State.live, h]

theorem publishEffect_checks : ChecksHandle publishEffect (fun u => u.cmd.arg1.toNat ≤ 255) where
  bad u h := by simp [publishEffect, parseHandle_bad _ h]
  stale u i g ha hd h := by
    simp [publishEffect, ha, State.live_stale h, Nat.not_lt.2 hd]

/-- Each command that names a handle has an effect that makes the general checks (R12, R159). -/
theorem NamesHandle.effect {ie : Bool} {code : BitVec 5} {c : Instr} (h : NamesHandle ie code c) :
    ∃ effect, (∀ s, exec c s = .next (s.command code ie effect)) ∧
      ChecksHandle effect (fun u => c = .publish ie → u.cmd.arg1.toNat ≤ 255) := by
  cases h with
  | publish =>
    exact ⟨publishEffect, fun _ => rfl, publishEffect_checks.bad,
      fun u i g ha hd hs => publishEffect_checks.stale u i g ha (hd rfl) hs⟩
  | clone => exact ⟨cloneEffect, fun _ => rfl, State.withHandle_checks _ _⟩
  | retire => exact ⟨retireEffect, fun _ => rfl, State.withHandle_checks _ _⟩
  | withdraw => exact ⟨withdrawEffect, fun _ => rfl, State.withHandle_checks _ _⟩
  | push => exact ⟨pushEffect, fun _ => rfl, State.withHandle_checks _ _⟩
  | lift => exact ⟨liftEffect, fun _ => rfl, State.withHandle_checks _ _⟩
  | raise => exact ⟨raiseEffect, fun _ => rfl, State.withHandle_checks _ _⟩
  | lower => exact ⟨lowerEffect, fun _ => rfl, State.withHandle_checks _ _⟩

/-- A command row that is accepted has its effect on the state in which it has been taken (R157). -/
theorem exec_accepted {s : State} {code : BitVec 5} {ie : Bool} {effect : State → State} (c : Instr)
    (runs : ∀ s, exec c s = .next (s.command code ie effect)) (ha : Accepts s) :
    exec c s = .next (effect (Taken s code ie)) := by
  rw [runs, State.command_accepts _ _ _ _ ha, State.take_eq]

/-- Settles O16: each command's effect makes the general checks, through `withHandle` or, for PUBLISH, its own. -/
theorem generalChecks : Obligations.GeneralChecks := by
  refine ⟨fun s ie ha => ⟨?noop, fun code hc => ?unknown⟩, fun s ie code c ha hn => ?handles⟩
  case noop => exact exec_accepted (.noop ie) (fun _ => rfl) ha
  case unknown =>
    have runs : exec (.unknownCommand code ie) s = .next (s.command code ie (commandEffect s.guard.expired code)) := rfl
    rw [runs, State.command_accepts _ _ _ _ ha, commandEffect_unknown _ hc]
    rfl
  case handles =>
    obtain ⟨effect, runs, checks⟩ := hn.effect
    rw [exec_accepted c runs ha]
    exact ⟨fun h => congrArg _ (checks.bad (Taken s code ie) h),
      fun i g hg hd h => congrArg _ (checks.stale (Taken s code ie) i g hg hd h)⟩

/-! ### OPEN and CLONE -/

theorem openEffect_bad {u : State} (ht : 255 < u.cmd.arg0.toNat) : openEffect u = u.completeZero .badArgument :=
  if_pos ht

theorem openEffect_full {u : State} (ht : u.cmd.arg0.toNat ≤ 255) (hf : ∀ i, (u.slot i).state ≠ .free) :
    openEffect u = u.completeZero .noSlot := by
  simp only [openEffect, if_neg (Nat.not_lt.2 ht), State.lowestFree_none hf]

theorem openEffect_free {u : State} {i : SlotId} (ht : u.cmd.arg0.toNat ≤ 255) (hi : LowestFree u i) :
    openEffect u = (WithSlot u i (FreshDraft (u.slot i).gen (Copy.opened u.cmd.arg0))).complete .ok
      (handleOf i (u.slot i).gen) 0#16 := by
  simp only [openEffect, if_neg (Nat.not_lt.2 ht), State.lowestFree_some hi, State.modifySlot_drafted, State.handleAt]

theorem cloneEffect_full {u : State} {src : SlotId} (hn : Names u src) (hf : ∀ i, (u.slot i).state ≠ .free) :
    cloneEffect u = u.completeZero .noSlot := by
  simp only [cloneEffect, State.withHandle_names u src _ hn, State.lowestFree_none hf]

theorem cloneEffect_free {u : State} {src i : SlotId} (hn : Names u src) (hi : LowestFree u i) :
    cloneEffect u = (WithSlot u i (FreshDraft (u.slot i).gen (u.slot src).staging)).complete .ok
      (handleOf i (u.slot i).gen) 0#16 := by
  simp only [cloneEffect, State.withHandle_names u src _ hn, State.lowestFree_some hi, State.modifySlot_drafted,
    State.handleAt]

/-- OPEN with a FREE slot to take (R13). -/
theorem exec_openRecord_free {s : State} (ha : Accepts s) (ie : Bool) {i : SlotId} (ht : s.cmd.arg0.toNat ≤ 255)
    (hi : LowestFree s i) :
    exec (.openRecord ie) s = .next (Completed (WithSlot s i (FreshDraft (s.slot i).gen (Copy.opened s.cmd.arg0)))
      1#5 ie .ok (handleOf i (s.slot i).gen) 0#16) :=
  (exec_accepted (.openRecord ie) (fun _ => rfl) ha).trans
    (congrArg _ (openEffect_free (u := Taken s 1#5 ie) ht hi))

/-- Settles O17: the effects of OPEN and CLONE, case by case, on the state in which the command has been taken. -/
theorem openAndClone : Obligations.OpenAndClone := by
  intro s ie ha
  rw [exec_accepted (.openRecord ie) (fun _ => rfl) ha, exec_accepted (.clone ie) (fun _ => rfl) ha]
  exact ⟨fun ht => congrArg _ (openEffect_bad (u := Taken s 1#5 ie) ht),
    fun ht hf => congrArg _ (openEffect_full (u := Taken s 1#5 ie) ht hf),
    fun i ht hi => congrArg _ (openEffect_free (u := Taken s 1#5 ie) ht hi),
    fun src hn hf => congrArg _ (cloneEffect_full (u := Taken s 2#5 ie) (src := src) hn hf),
    fun src i hn hi => congrArg _ (cloneEffect_free (u := Taken s 2#5 ie) (src := src) hn hi)⟩

/-! ### RETIRE -/

/-- RETIRE of a record off air frees it; the stack stands, as the record is not on it (R15). -/
theorem retireEffect_offAir {u : State} {i : SlotId} (hn : Names u i) (off : (u.slot i).state ≠ .onAir)
    (hk : i ∉ u.stack) :
    retireEffect u = (WithSlot u i (Slot.blank ((u.slot i).gen + 1))).completeZero .ok := by
  simp only [retireEffect, State.withHandle_names u i _ hn, if_neg off, State.freeRecord_eq, List.erase_of_not_mem hk]
  rfl

/-- RETIRE of a record ON AIR cancels its pending publication and is held (R16). -/
theorem retireEffect_onAir {u : State} {i : SlotId} (hn : Names u i) (on : (u.slot i).state = .onAir) :
    retireEffect u = { WithSlot u i { u.slot i with pending := none } with
      held := some (.retire i (u.slot i).gen) } := by
  simp only [retireEffect, State.withHandle_names u i _ hn, if_pos on, State.cancelPending_eq]

/-- Settles O18: the effect of RETIRE off air and on air. -/
theorem retireTaken : Obligations.RetireTaken := by
  intro s ie i ha hn
  rw [exec_accepted (.retire ie) (fun _ => rfl) ha]
  exact ⟨fun off hk => congrArg _ (retireEffect_offAir (u := Taken s 3#5 ie) hn off hk),
    fun on => congrArg _ (retireEffect_onAir (u := Taken s 3#5 ie) hn on)⟩

/-! ### FIND -/

/-- FIND's test of a slot fails: the slot is FREE, or its tag is asked for and is another. -/
theorem find_misses {r : Slot} {tag option : Word} (h : r.state = .free ∨ (option = 0#16 ∧ r.staging[0] ≠ tag)) :
    (decide (r.state ≠ .free) && (decide (option = 1#16) || decide (r.staging[0] = tag))) = false := by
  rcases h with h | ⟨h, hw⟩
  · simp [h]
  · simp [h, hw]

theorem State.findFrom_some {s : State} {tag option : Word} {start : Nat} {i : SlotId} (hs : start ≤ i.val)
    (live : (s.slot i).state ≠ .free) (hit : option = 1#16 ∨ (s.slot i).staging[0] = tag)
    (lower : ∀ j : SlotId, start ≤ j.val → j < i →
      (s.slot j).state = .free ∨ (option = 0#16 ∧ (s.slot j).staging[0] ≠ tag)) :
    s.findFrom tag start (decide (option = 1#16)) = some i := by
  refine find?_finRange_some (by simp [hs, live, hit]) fun j hj => ?_
  rw [Bool.and_assoc]
  by_cases hb : start ≤ j.val
  · rw [find_misses (lower j hb hj), Bool.and_false]
  · simp [hb]

theorem State.findFrom_none {s : State} {tag option : Word} {start : Nat}
    (miss : ∀ j : SlotId, start ≤ j.val → (s.slot j).state = .free ∨ (option = 0#16 ∧ (s.slot j).staging[0] ≠ tag)) :
    s.findFrom tag start (decide (option = 1#16)) = none := by
  refine List.find?_eq_none.2 fun j _ => ?_
  rw [Bool.and_assoc]
  by_cases hb : start ≤ j.val
  · simp only [find_misses (miss j hb), Bool.and_false, Bool.false_eq_true, not_false_eq_true]
  · simp [hb]

theorem findEffect_bad {u : State}
    (h : 255 < u.cmd.arg0.toNat ∨ 23 < u.cmd.arg1.toNat ∨ 1 < u.cmd.arg2.toNat) :
    findEffect u = u.completeZero .badArgument :=
  if_pos h

/-- FIND with its arguments in range stops at the slot that its search finds (R18). -/
theorem findEffect_some {u : State} {i : SlotId} (ht : u.cmd.arg0.toNat ≤ 255) (hs : u.cmd.arg1.toNat ≤ 23)
    (ho : u.cmd.arg2.toNat ≤ 1)
    (hi : u.findFrom u.cmd.arg0 u.cmd.arg1.toNat (decide (u.cmd.arg2 = 1#16)) = some i) :
    findEffect u = u.complete .ok (handleOf i (u.slot i).gen) 0#16 := by
  have inRange : ¬ (255 < u.cmd.arg0.toNat ∨ 23 < u.cmd.arg1.toNat ∨ 1 < u.cmd.arg2.toNat) := by omega
  simp only [findEffect, if_neg inRange, hi, State.handleAt]

/-- FIND with its arguments in range completes with NONE FOUND where its search finds none (R18). -/
theorem findEffect_none {u : State} (ht : u.cmd.arg0.toNat ≤ 255) (hs : u.cmd.arg1.toNat ≤ 23)
    (ho : u.cmd.arg2.toNat ≤ 1)
    (hn : u.findFrom u.cmd.arg0 u.cmd.arg1.toNat (decide (u.cmd.arg2 = 1#16)) = none) :
    findEffect u = u.completeZero .noneFound := by
  have inRange : ¬ (255 < u.cmd.arg0.toNat ∨ 23 < u.cmd.arg1.toNat ∨ 1 < u.cmd.arg2.toNat) := by omega
  simp only [findEffect, if_neg inRange, hn]

/-- Settles O19: FIND answers as its search of the window table does. -/
theorem findSearches : Obligations.FindSearches := by
  intro s ie ha
  rw [exec_accepted (.find ie) (fun _ => rfl) ha]
  refine ⟨fun h => congrArg _ (findEffect_bad (u := Taken s 4#5 ie) h),
    fun ht hs ho => ⟨fun i hi lower => ?_, fun miss => ?_⟩⟩
  · obtain ⟨start, live, hit⟩ := hi
    exact congrArg _ (findEffect_some (u := Taken s 4#5 ie) ht hs ho (State.findFrom_some start live hit lower))
  · exact congrArg _ (findEffect_none (u := Taken s 4#5 ie) ht hs ho (State.findFrom_none miss))

/-! ### Writes of the data word -/

/-- A write of an unlocked staging word is stored (R30, R163). -/
theorem State.writePointed_staging {s : State} (k : Fin 16) (v : Word) (hw : s.port.pointer.word.val = k.val)
    (live : (s.slot s.port.pointer.slot).state ≠ .free) (unlocked : (s.slot s.port.pointer.slot).pending = none) :
    s.writePointed v = some
      { WithSlot s s.port.pointer.slot { s.slot s.port.pointer.slot with
          staging := (s.slot s.port.pointer.slot).staging.set k.val v } with
        port := { s.port with pointer := s.port.pointer.step } } := by
  have low : s.port.pointer.word.val < 16 := by omega
  obtain rfl : k = ⟨s.port.pointer.word.val, low⟩ := Fin.ext hw.symm
  have notLocked : ¬ ((s.slot s.port.pointer.slot).state = .free ∨
      (s.slot s.port.pointer.slot).pending.isSome = true) := by
    simp [live, unlocked]
  have quiet := s.modifySlot_quiet s.port.pointer.slot
    (fun r => { r with staging := r.staging.set s.port.pointer.word.val v }) (Attention.newlySet_self _)
  simp only [State.writePointed, dif_pos low, if_neg notLocked, quiet]
  rfl

/-- A write of live word 17 clears the flags written as one (R20, R163). -/
theorem State.writePointed_attention {s : State} (v : Word) (hw : s.port.pointer.word = 17) :
    s.writePointed v = some
      { WithSlot s s.port.pointer.slot { s.slot s.port.pointer.slot with
          attention := (s.slot s.port.pointer.slot).attention.clear v } with
        port := { s.port with pointer := s.port.pointer.step } } := by
  have flags : s.port.pointer.word.val = 17 := congrArg Fin.val hw
  have high : ¬ s.port.pointer.word.val < 16 := by omega
  simp only [State.writePointed, dif_neg high, if_pos flags]
  rw [State.modifySlot_quiet _ _ _ (Attention.newlySet_clear _ v)]
  rfl

/-- A write of a locked staging word, of a FREE slot's or of another live word is refused (R30, R163). -/
theorem State.writePointed_refused {s : State} (v : Word)
    (h : (s.port.pointer.word.val < 16 ∧ ((s.slot s.port.pointer.slot).state = .free ∨
        (s.slot s.port.pointer.slot).pending.isSome = true)) ∨
      s.port.pointer.word = 16 ∨ 18 ≤ s.port.pointer.word.val) : s.writePointed v = none := by
  unfold State.writePointed
  rcases h with ⟨low, locked⟩ | h
  · simp only [dif_pos low, if_pos locked]
  · have word : s.port.pointer.word.val = 16 ∨ 18 ≤ s.port.pointer.word.val := h.imp (congrArg Fin.val) id
    have high : ¬ s.port.pointer.word.val < 16 := by omega
    have live : ¬ s.port.pointer.word.val = 17 := by omega
    simp only [dif_neg high, if_neg live]

/-- Where no transfer is in flight, a write of the data word is the write of the record word, or is refused (R163). -/
theorem exec_accessDataWrite {s : State} (v : Word) (hr : s.resetLine = false) (ht : s.port.transfer = none) :
    exec (.accessDataWrite v) s = .next ((s.writePointed v).getD s.refuseAccess) := by
  simp [exec, execAccessDataWrite, State.writeData, hr, ht]

/-- Settles O32: the write of a record word through the pointer, case by case. -/
theorem accessDataWrites : Obligations.AccessDataWrites := by
  intro s v i hi
  subst hi
  refine ⟨fun hr => ?_, fun k hr ht hw live unlocked => ?_, fun hr ht hw => ?_, fun hr h => ?_⟩
  · simp [exec, execAccessDataWrite, State.writeData, hr]
  · rw [exec_accessDataWrite v hr ht, State.writePointed_staging k v hw live unlocked]
    rfl
  · rw [exec_accessDataWrite v hr ht, State.writePointed_attention v hw]
    rfl
  · cases ht : s.port.transfer with
    | some tr =>
      simp [exec, execAccessDataWrite, State.writeData, hr, ht, State.refuseAccess]
    | none =>
      have refused := h.resolve_left (by simp [ht])
      rw [exec_accessDataWrite v hr ht, State.writePointed_refused v refused]
      rfl

end Sys2Proof.Machine
end

section
/-! What power-on, bus reset and the release of the computer's reset line leave. -/

namespace Sys2Proof.Machine

/-! ### The summary words -/

/-- With no attention flag set, the summary words read 0 (R21). -/
theorem State.summary_zero {s : State} (h : ∀ i, (s.slot i).attention = Attention.none) :
    s.summaryLow = 0#16 ∧ s.summaryHigh = 0#16 := by
  have unset : ∀ i, (s.slot i).attention.any = false := fun i => by rw [h]; rfl
  have empty : ∀ l : List SlotId, l.filter (fun _ => false) = [] := fun _ =>
    List.filter_eq_nil_iff.2 fun _ _ => Bool.false_ne_true
  constructor
  · simp only [State.summaryLow, unset, Bool.and_false, empty, List.foldl_nil]
  · simp only [State.summaryHigh, unset, Bool.and_false, empty, List.foldl_nil]

/-- With the channel idle the bus request is not asserted (R108). -/
theorem State.busRequest_idle {s : State} (h : s.engine.channel = .idle) : s.busRequest = false := by
  simp [State.busRequest, h]

theorem State.recordWord_free {s : State} {i : SlotId} (h : (s.slot i).state = .free) (w : Fin 24) :
    s.recordWord i w = 0#16 :=
  if_pos h

/-! ### Power-on -/

/-- Where every slot is FREE, slot 0 is the lowest one. -/
theorem LowestFree_zero {s : State} (h : (s.slot 0).state = .free) : LowestFree s 0 :=
  ⟨h, fun j hj => absurd hj (Fin.not_lt_zero j)⟩

/-- The first OPEN where slot 0 is FREE at generation 0 takes it and returns handle 0 (R13, R22). -/
theorem exec_openRecord_first {s : State} (ha : Accepts s) (ie : Bool) (ht : s.cmd.arg0.toNat ≤ 255)
    (h : s.slot 0 = Slot.blank 0#4) :
    ∃ u, exec (.openRecord ie) s = .next u ∧ (u.slot 0).state = .draft ∧ u.cmd.completion = .ok ∧
      u.cmd.result0 = 0#16 := by
  refine ⟨_, exec_openRecord_free ha ie ht (LowestFree_zero (by rw [h]; rfl)), ?_, rfl, ?_⟩
  · show ((WithSlot s 0 _).slot 0).state = _
    simp [FreshDraft]
  · show handleOf 0 (s.slot 0).gen = 0#16
    rw [h]
    rfl

/-- A lock context at power-on (R125). -/
theorem State.powerOn_ctx (s : State) (x : Input) : s.powerOn.ctx x = LockContext.powerOn := by
  cases x <;> rfl

/-- Settles O57: the blocks' values are read off the power-on state; the records, the contexts and the first OPEN go
through their lemmas. -/
theorem powerOnValues : Obligations.PowerOnValues := by
  intro s
  have records : ∀ i, (s.powerOn.slot i).state = .free ∧ (s.powerOn.slot i).gen = 0#4 ∧
      (s.powerOn.slot i).pending = none ∧ (s.powerOn.slot i).active = none ∧ ∀ w, s.powerOn.recordWord i w = 0#16 :=
    fun i => ⟨by simp [Slot.blank], by simp [Slot.blank], by simp [Slot.blank], by simp [Slot.blank],
      State.recordWord_free (by simp [Slot.blank])⟩
  obtain ⟨low, high⟩ := State.summary_zero (s := s.powerOn) fun i => by simp
  refine ⟨s.powerOn, rfl, records, low, high, rfl, rfl, rfl, rfl, rfl, State.busRequest_idle rfl, fun x => ?contexts,
    rfl, rfl, rfl, rfl, rfl, rfl, rfl, rfl, rfl, rfl, rfl, rfl, rfl, rfl, rfl, rfl, rfl, rfl, rfl, rfl, rfl, rfl, rfl,
    rfl, rfl, fun tag ie hr ht => ?firstOpen⟩
  case contexts =>
    rw [State.powerOn_ctx]
    exact ⟨rfl, rfl, rfl, rfl, rfl, rfl, rfl, rfl, rfl, rfl, rfl, rfl, rfl, rfl, rfl⟩
  case firstOpen =>
    exact exec_openRecord_first (s := { s.powerOn with cmd := { s.powerOn.cmd with arg0 := tag } }) ⟨rfl, hr⟩ ie ht
      (s.powerOn_slot 0)

/-! ### Bus reset -/

theorem Slot.busReset_free (r : Slot) (h : r.state = .free) : r.busReset = r := if_pos h

theorem Slot.busReset_live (r : Slot) (h : r.state ≠ .free) : r.busReset = Slot.blank (r.gen + 1) := if_neg h

/-- Bus reset leaves every record FREE (R23). -/
theorem Slot.busReset_state (r : Slot) : r.busReset.state = .free := by
  by_cases h : r.state = .free
  · rw [Slot.busReset_free r h, h]
  · rw [Slot.busReset_live r h]
    rfl

/-- Where the FREE records were blank, bus reset leaves no attention flag (R11, R23). -/
theorem State.busReset_attention {s : State} (hr : RecordLaw s) (i : SlotId) :
    (s.busReset.slot i).attention = Attention.none := by
  rw [State.busReset_slot]
  by_cases h : (s.slot i).state = .free
  · rw [Slot.busReset_free _ h, (hr i).1 h, Slot.blank_attention]
  · rw [Slot.busReset_live _ h, Slot.blank_attention]

/-- Settles O58: the records go through `Slot.busReset`, and what else bus reset writes is read off its definition. -/
theorem busResetValues : Obligations.BusResetValues := by
  intro s
  have records : ∀ i, (s.busReset.slot i).state = .free ∧
      ((s.slot i).state = .free → s.busReset.slot i = s.slot i) ∧
      ((s.slot i).state ≠ .free → s.busReset.slot i = Slot.blank ((s.slot i).gen + 1#4)) := by
    intro i
    rw [State.busReset_slot]
    exact ⟨Slot.busReset_state _, Slot.busReset_free _, Slot.busReset_live _⟩
  have summary : RecordLaw s → s.busReset.summaryLow = 0#16 ∧ s.busReset.summaryHigh = 0#16 :=
    fun hr => State.summary_zero (State.busReset_attention hr)
  refine ⟨⟨s.busReset, rfl, records, summary, rfl, rfl, rfl, rfl, State.busRequest_idle rfl, rfl, rfl, rfl, rfl, rfl,
    rfl, rfl, rfl, rfl, rfl, rfl, rfl, rfl⟩, rfl⟩

end Sys2Proof.Machine
end

section
/-! Publication and adoption: the law of copies over every step, PUBLISH, WITHDRAW and adoption. -/

namespace Sys2Proof.Machine

/-! ### The law of copies -/

/-- Drafting keeps the copies of every record legal: the new record has no active copy and is not pending (R13, R14). -/
theorem Drafts.copyLaw {s t : State} (h : Drafts s t) (hc : CopyLaw s) : CopyLaw t := by
  obtain ⟨i, c, _, _, slots⟩ := h
  intro j
  rw [slots]
  split
  · exact Slot.drafted_copies _ c
  · exact hc j

theorem State.powerOn_copyLaw (s : State) : CopyLaw s.powerOn := by
  intro i
  rw [State.powerOn_slot]
  exact Slot.blank_copies _

/-- Every command keeps the law of copies: power-on blanks every record, and any other command drafts a record or
changes records by changes that each keep it. -/
theorem exec_copyLaw {c : Instr} {s t : State} (hs : StackLaw s) (hc : CopyLaw s) (h : exec c s = .next t) :
    CopyLaw t := by
  by_cases power : c = .powerOn
  · subst power
    cases h
    exact s.powerOn_copyLaw
  · rcases exec_moves (V := fun _ => True) (fun _ => trivial) c s t power h with moves | drafts
    · obtain ⟨_, steps⟩ := moves hs
      exact fun i => (steps i).keeps (P := SlotCopies) (fun _ _ => SlotStep.copies) (hc i)
    · exact drafts.copyLaw hc

/-- Settles O6: every command keeps the law of copies, and neither the queue nor the clock touches a record. -/
theorem stepKeepsCopyLaw : Obligations.StepKeepsCopyLaw := by
  intro s t hs hc h
  exact step_ind (P := fun s t => StackLaw s → CopyLaw s → CopyLaw t)
    (command := fun _ s _ rest h hs hc => exec_copyLaw (s := { s with pending := rest }) hs hc h)
    (event := fun _ _ _ h hs hc => exec_copyLaw hs hc h)
    (tick := fun _ _ hc => hc) s t h hs hc

/-! ### The record checks, word by word -/

/-- A field of a word is 0 where each of its bits is clear. -/
theorem bits_eq_zero (w : Word) (lo len : Nat) : bits w lo len = 0 ↔ ∀ j, j < len → w.getLsbD (lo + j) = false := by
  have digit : ∀ j, j < len → (bits w lo len).testBit j = w.getLsbD (lo + j) := by
    intro j hj
    simp [bits, Nat.testBit_mod_two_pow, Nat.testBit_div_two_pow, hj, BitVec.getLsbD, Nat.add_comm]
  constructor
  · intro h j hj
    rw [← digit j hj, h, Nat.zero_testBit]
  · intro h
    apply Nat.eq_of_testBit_eq
    intro j
    by_cases hj : j < len
    · rw [digit j hj, h j hj, Nat.zero_testBit]
    · rw [Nat.zero_testBit, bits, Nat.testBit_mod_two_pow]
      simp [hj]

/-- The unused bits of the fade word, 6, 7 and 12 to 15, are clear exactly where the word is 0 under their mask (R26). -/
theorem fadeWord_unused (w : Word) : bits w 6 2 = 0 ∧ bits w 12 4 = 0 ↔ w &&& 0xF0C0#16 = 0#16 := by
  have mask : ∀ j, j < 16 → ((0xF0C0#16).getLsbD j = true ↔ (6 ≤ j ∧ j < 8) ∨ 12 ≤ j) := by decide
  rw [bits_eq_zero, bits_eq_zero]
  constructor
  · rintro ⟨low, high⟩
    refine BitVec.eq_of_getLsbD_eq fun j hj => ?_
    rw [BitVec.getLsbD_and, BitVec.getLsbD_zero, Bool.and_comm, Bool.and_eq_false_imp]
    intro unused
    rcases (mask j hj).1 unused with ⟨from6, to7⟩ | from12
    · simpa [Nat.add_sub_cancel' from6] using low (j - 6) (by omega)
    · simpa [Nat.add_sub_cancel' from12] using high (j - 12) (by omega)
  · intro masked
    have clear : ∀ j, j < 16 → (6 ≤ j ∧ j < 8) ∨ 12 ≤ j → w.getLsbD j = false := by
      intro j hj unused
      have := congrArg (fun v : Word => v.getLsbD j) masked
      simpa [(mask j hj).2 unused] using this
    exact ⟨fun j hj => clear _ (by omega) (by omega), fun j hj => clear _ (by omega) (by omega)⟩

/-- The unused bits of the mode word, 9 to 15, are clear exactly where it is below 512 (R26). -/
theorem modeWord_unused (w : Word) : bits w 9 7 = 0 ↔ w.toNat < 512 := by
  have := w.isLt
  unfold bits
  omega

theorem Copy.keyMode_mask (cp : Copy) : cp.keyMode = .mask ↔ cp[1].toNat % 4 = 2 := by
  have e : bits cp[1] 0 2 = cp[1].toNat % 4 := by simp [bits]
  unfold Copy.keyMode
  rw [e]
  split <;> simp_all

theorem Copy.headTests_agree (cp : Copy) : ∀ t ∈ cp.headTests, t.2 = true ↔ WordPasses cp t.1 := by
  simp only [Copy.headTests, List.forall_mem_cons, inTitleRange, Bool.and_eq_true, decide_eq_true_eq]
  exact ⟨Iff.rfl, modeWord_unused _, Iff.rfl, and_assoc, Iff.rfl, Iff.rfl, Iff.rfl, Iff.rfl, fadeWord_unused _, Iff.rfl,
    nofun⟩

theorem Copy.maskTests_agree {cp : Copy} (mask : cp.keyMode = .mask) :
    ∀ t ∈ cp.maskTests, t.2 = true ↔ WordPasses cp t.1 := by
  have mode := (Copy.keyMode_mask cp).1 mask
  simp only [Copy.maskTests, List.forall_mem_cons, Bool.and_eq_true, decide_eq_true_eq]
  have examined : ∀ p : Prop, p ↔ (cp[1].toNat % 4 = 2 → p) := fun p => ⟨fun h _ => h, fun h => h mode⟩
  exact ⟨examined _, examined _, examined _, nofun⟩

/-- Each entry of the record checks is the check of the word at its offset (R26, R27). -/
theorem Copy.tests_agree (cp : Copy) : ∀ t ∈ cp.tests, t.2 = true ↔ WordPasses cp t.1 := by
  unfold Copy.tests
  split
  · next mask => exact List.forall_mem_append.2 ⟨cp.headTests_agree, Copy.maskTests_agree mask⟩
  · exact cp.headTests_agree

/-- The record checks stand in ascending order of their words (R25). -/
theorem Copy.tests_ascending (cp : Copy) : cp.tests.Pairwise (fun a b => a.1 < b.1) := by
  unfold Copy.tests
  split <;> simp [Copy.headTests, Copy.maskTests]

/-- A word that no entry examines passes: words 9, 10 and 13, and outside MASK the mask descriptor (R26, R27). -/
theorem Copy.wordPasses_unexamined {cp : Copy} {k : Nat} (h : ∀ t ∈ cp.tests, t.1 ≠ k) : WordPasses cp k := by
  by_cases mask : cp.keyMode = .mask
  · simp only [Copy.tests, if_pos mask, Copy.headTests, Copy.maskTests, List.cons_append, List.nil_append,
      List.forall_mem_cons] at h
    unfold WordPasses
    split <;> simp_all
  · simp only [Copy.tests, if_neg mask, Copy.headTests, List.forall_mem_cons] at h
    have mode : cp[1].toNat % 4 ≠ 2 := mt (Copy.keyMode_mask cp).2 mask
    unfold WordPasses
    split <;> simp_all

/-- In ascending order, a search for a failed check stops at the one below which every check passed. -/
theorem find?_first_failing {l : List (Nat × Bool)} (ascending : l.Pairwise (fun a b => a.1 < b.1)) {t : Nat × Bool}
    (mem : t ∈ l) (fails : t.2 = false) (below : ∀ a ∈ l, a.1 < t.1 → a.2 = true) :
    l.find? (fun t => !t.2) = some t := by
  obtain ⟨before, after, rfl⟩ := List.append_of_mem mem
  obtain ⟨_, _, precedes⟩ := List.pairwise_append.1 ascending
  rw [List.find?_eq_some_iff_append]
  refine ⟨by simp [fails], before, after, rfl, fun a ha => ?_⟩
  simp [below a (by simp [ha]) (precedes a ha t (by simp))]

/-- The first word that fails its check is the one reported (R25). -/
theorem Copy.failingWord_some {cp : Copy} {k : Nat} (fails : ¬ WordPasses cp k) (below : ∀ j, j < k → WordPasses cp j) :
    cp.failingWord = some k := by
  obtain ⟨t, mem, rfl⟩ : ∃ t ∈ cp.tests, t.1 = k := Classical.byContradiction fun unexamined =>
    fails (Copy.wordPasses_unexamined fun t mem e => unexamined ⟨t, mem, e⟩)
  have failed : t.2 = false := by simpa using mt (cp.tests_agree t mem).1 fails
  have first := find?_first_failing cp.tests_ascending mem failed
    fun a ha lower => (cp.tests_agree a ha).2 (below _ lower)
  simp [Copy.failingWord, first]

theorem Copy.tests_le (cp : Copy) : ∀ t ∈ cp.tests, t.1 ≤ 15 := by
  unfold Copy.tests
  split <;> simp [Copy.headTests, Copy.maskTests]

/-- A copy whose words all pass their checks is legal (R28). -/
theorem Copy.failingWord_none {cp : Copy} (h : ∀ k, k ≤ 15 → WordPasses cp k) : cp.failingWord = none := by
  have legal : cp.legal = true :=
    (Copy.legal_iff cp).2 fun t mem => (cp.tests_agree t mem).2 (h _ (cp.tests_le t mem))
  exact Option.isNone_iff_eq_none.1 legal

/-! ### PUBLISH -/

theorem publishEffect_bad {u : State}
    (h : 512 ≤ u.cmd.arg0.toNat ∨ 24 ≤ u.cmd.arg0.toNat % 32 ∨ 255 < u.cmd.arg1.toNat) :
    publishEffect u = u.completeZero .badArgument := by
  unfold publishEffect
  split
  · rfl
  · next i g parsed =>
    have delay : 255 < u.cmd.arg1.toNat := by
      refine Decidable.byContradiction fun inRange => ?_
      rw [parseHandle_bad _ (by omega)] at parsed
      cases parsed
    exact if_pos delay

theorem publishEffect_pending {u : State} {i : SlotId} (hn : Names u i) (hd : u.cmd.arg1.toNat ≤ 255)
    (hp : (u.slot i).pending.isSome = true) : publishEffect u = u.completeZero .alreadyPending := by
  obtain ⟨live, named⟩ := hn
  simp [publishEffect, named, State.live, live, Nat.not_lt.2 hd, hp]

theorem publishEffect_fails {u : State} {i : SlotId} {k : Nat} (hn : Names u i) (hd : u.cmd.arg1.toNat ≤ 255)
    (hp : (u.slot i).pending = none) (hk : (u.slot i).staging.failingWord = some k) :
    publishEffect u = u.complete .badRecord (BitVec.ofNat 16 k) 0#16 := by
  obtain ⟨live, named⟩ := hn
  simp [publishEffect, named, State.live, live, Nat.not_lt.2 hd, hp, hk]

/-- Setting a record pending sets no attention flag: the slot is written and nothing else changes (R28). -/
theorem publishEffect_passes {u : State} {i : SlotId} (hn : Names u i) (hd : u.cmd.arg1.toNat ≤ 255)
    (hp : (u.slot i).pending = none) (hk : (u.slot i).staging.failingWord = none) :
    publishEffect u = (WithSlot u i { u.slot i with pending := some u.cmd.arg1.toNat }).completeZero .ok := by
  obtain ⟨live, named⟩ := hn
  simp [publishEffect, named, State.live, live, Nat.not_lt.2 hd, hp, hk, State.modifySlot_quiet]

/-- Settles O20: the effect of PUBLISH, check by check, on the state in which the command has been taken. -/
theorem publishExamines : Obligations.PublishExamines := by
  intro s ie ha
  rw [exec_accepted (.publish ie) (fun _ => rfl) ha]
  refine ⟨fun h => congrArg _ (publishEffect_bad (u := Taken s 5#5 ie) h),
    fun i g named hd h => congrArg _ (publishEffect_checks.stale (Taken s 5#5 ie) i g named hd h),
    fun i hn hd => ⟨fun hp => ?pending, fun k hp _ fails below => ?fails, fun hp passes => ?passes⟩⟩
  case pending => exact congrArg _ (publishEffect_pending (u := Taken s 5#5 ie) hn hd hp)
  case fails =>
    exact congrArg _ (publishEffect_fails (u := Taken s 5#5 ie) hn hd hp (Copy.failingWord_some fails below))
  case passes =>
    exact congrArg _ (publishEffect_passes (u := Taken s 5#5 ie) hn hd hp (Copy.failingWord_none passes))

/-! ### WITHDRAW -/

theorem withdrawEffect_pending {u : State} {i : SlotId} (hn : Names u i) (hp : (u.slot i).pending.isSome = true) :
    withdrawEffect u = (WithSlot u i { u.slot i with pending := none }).completeZero .ok := by
  simp only [withdrawEffect, State.withHandle_names u i _ hn, if_pos hp, State.cancelPending_eq]

theorem withdrawEffect_notPending {u : State} {i : SlotId} (hn : Names u i) (hp : (u.slot i).pending = none) :
    withdrawEffect u = u.completeZero .notPending := by
  simp [withdrawEffect, State.withHandle_names u i _ hn, hp]

/-- Settles O21: WITHDRAW makes the general checks of a handle, and its effect turns on the pending indicator. -/
theorem withdrawCancels : Obligations.WithdrawCancels := by
  intro s ie ha
  rw [exec_accepted (.withdraw ie) (fun _ => rfl) ha]
  exact ⟨fun h => congrArg _ (State.withHandle_bad (Taken s 6#5 ie) _ h),
    fun i g named h => congrArg _ (State.withHandle_stale (Taken s 6#5 ie) i g _ named h),
    fun i hn => ⟨fun hp => congrArg _ (withdrawEffect_pending (u := Taken s 6#5 ie) hn hp),
      fun hp => congrArg _ (withdrawEffect_notPending (u := Taken s 6#5 ie) hn hp)⟩⟩

/-! ### Adoption -/

/-- Adoption where it is due writes the adopted record; no attention flag changes (R34, R35). -/
theorem exec_adoption_due {s : State} {i : SlotId} (hd : (s.slot i).adoptionDue = true) :
    exec (.adoption i) s = .next (WithSlot s i (s.slot i).adopt) := by
  have quiet : s.modifySlot i Slot.adopt = WithSlot s i (s.slot i).adopt :=
    s.modifySlot_quiet i Slot.adopt (Attention.newlySet_self _)
  simp only [exec, execAdoption, if_pos hd, quiet]

/-- Settles O34: in each of the four states the record is due, and takes the state that R35 gives. -/
theorem adoptionAdopts : Obligations.AdoptionAdopts := by
  intro s i new pending states
  have state : (s.slot i).state ≠ .free ∧ (s.slot i).state.adopted = new := by
    rcases states with ⟨h, rfl⟩ | ⟨h, rfl⟩ | ⟨h, rfl⟩ | ⟨h, rfl⟩ <;> simp [h, RecState.adopted]
  obtain ⟨live, rfl⟩ := state
  have due : (s.slot i).adoptionDue = true := by simp [Slot.adoptionDue, live, pending]
  exact exec_adoption_due due

end Sys2Proof.Machine
end

section
/-! The laws of the layer stack, the air guard and the held SELECT over every step. -/

namespace Sys2Proof.Machine

/-! ### The law of the stack -/

/-- After power-on the stack is empty and every record is FREE (R22). -/
theorem State.powerOn_stackLaw (s : State) : StackLaw s.powerOn :=
  ⟨List.nodup_nil, Nat.zero_le _, fun i => by
    rw [State.powerOn_slot]
    exact ⟨nofun, nofun⟩⟩

/-- Every command keeps the law of the stack: power-on empties the stack, and any other command drafts a record off the
stack or moves records by changes that keep the law. -/
theorem exec_stackLaw {c : Instr} {s t : State} (hs : StackLaw s) (h : exec c s = .next t) : StackLaw t := by
  by_cases power : c = .powerOn
  · subst power
    cases h
    exact s.powerOn_stackLaw
  · rcases exec_moves (V := fun _ => True) (fun _ => trivial) c s t power h with moves | drafts
    · exact (moves hs).1
    · exact drafts.stackLaw hs

/-- Settles O4: every command keeps the law of the stack, and neither the queue nor the clock touches the stack. -/
theorem stepKeepsStackLaw : Obligations.StepKeepsStackLaw :=
  step_keeps (fun _ _ _ hs h => exec_stackLaw hs h) (fun _ _ hs => hs) (fun _ hs => hs)

/-! ### The ranges of the air guard -/

/-- The events of the inputs and the end of a computer line reach the air guard through field starts alone. -/
theorem State.timing_guardLaw (s : State) (h : GuardLaw s) :
    (∀ x, GuardLaw (s.cutSwitch x)) ∧ (∀ x, GuardLaw (s.slewSwitch x)) ∧ GuardLaw s.computerLineEnd ∧
      (∀ x t, GuardLaw (s.tracked x t)) :=
  State.timing_ind (fun _ _ ⟨⟨_, _, _, _, guard, _⟩, _⟩ hu => GuardLaw_congr hu guard) State.fieldStart_guardLaw
    (fun _ hu => GuardLaw_congr hu (by simp)) (fun _ hu => GuardLaw_congr hu (by simp)) s h

/-- Every command keeps the ranges of the air guard: a command taken resets it, field starts and GUARD EXPIRY count it,
the two resets switch it off, and no other command touches it (R56 to R60). -/
theorem exec_guardLaw {c : Instr} {s t : State} (hs : GuardLaw s) (h : exec c s = .next t) : GuardLaw t := by
  have off : GuardBounds AirGuard.off := ⟨by decide, by decide, by decide⟩
  obtain ⟨cuts, slews, lineEnd, _⟩ := s.timing_guardLaw hs
  refine exec_ind (P := GuardLaw) h ?self ?powerOn ?busReset ?release ?overrun ?refuse ?taken ?stored ?flags ?mask
    ?pointer ?read ?readRefused ?written ?field ?adoption ?expiry ?autoRetire ?blink ?guard ?applyHeld ?timeout ?settle
    ?beginLine ?takingPoint ?grant ?answerMask ?answerImage ?acknowledge ?busTimeout ?tracked ?cut ?slew ?lineEnd
  case powerOn => exact fun _ => off
  case busReset => exact off
  case taken => exact fun code ie _ => commandEffect_guardLaw _ code _ (s.take_guardLaw code ie hs) rfl rfl
  case written => exact fun _ _ _ hw => GuardLaw_congr hs (by simp [State.writePointed_frame hw])
  case field => exact s.fieldStart_guardLaw false hs
  case guard => exact fun _ => s.guardExpire_guardLaw hs
  case tracked =>
    intro x time t _
    obtain ⟨_, _, _, tracks⟩ := State.timing_guardLaw (s.clockAt time) hs
    exact tracks x t
  case cut => exact fun x _ => cuts x
  case slew => exact fun x _ => slews x
  case lineEnd => exact lineEnd
  all_goals intros; exact GuardLaw_congr hs (by simp)

/-! ### The held SELECT -/

/-- The law of the held SELECT reads the held SELECT and the switch item. -/
theorem HeldSelectLaw_congr {s t : State} (h : HeldSelectLaw s) (held : t.tb.heldSelect = s.tb.heldSelect)
    (switch : t.tb.switch = s.tb.switch) : HeldSelectLaw t := by
  unfold HeldSelectLaw
  rw [held, switch]
  exact h

theorem HeldSelectLaw_none {s : State} (h : s.tb.heldSelect = none) : HeldSelectLaw s := by
  intro q hq
  rw [h] at hq
  cases hq

/-- SELECT is held only while a switch is in flight, and a switch is scheduled only while none is held (R149, R153). -/
theorem selectEffect_heldSelectLaw (s : State) (h : HeldSelectLaw s) : HeldSelectLaw (selectEffect s) := by
  unfold selectEffect
  split
  · split
    · exact h
    · split
      · next idle =>
        have free : s.tb.heldSelect = none := Option.eq_none_iff_forall_ne_some.2 fun q hq => (h q hq).1 idle
        exact HeldSelectLaw_none (by simp [free])
      · next flight =>
        intro q hq
        cases hq
        exact ⟨flight, Nat.succ_pos 47⟩
  · exact h

theorem commandEffect_heldSelectLaw (x : Bool) (code : BitVec 5) (s : State) (h : HeldSelectLaw s) :
    HeldSelectLaw (commandEffect x code s) := by
  apply commandEffect_cases (P := fun e => HeldSelectLaw (e s))
  case select => exact selectEffect_heldSelectLaw s h
  case setGeometry =>
    unfold setGeometryEffect
    split <;> exact h
  all_goals intros; exact HeldSelectLaw_congr h (by simp) (by simp)

/-- Every command keeps the law of the held SELECT: SELECT and the field starts make and count it, its examination, its
timeout and the two resets end it, and no other command touches it or the switch in flight (R153). -/
theorem exec_heldSelectLaw {c : Instr} {s t : State} (hs : HeldSelectLaw s) (h : exec c s = .next t) :
    HeldSelectLaw t := by
  have count : HeldSelectCount s := ((HeldSelectLaw_iff s).1 hs).2
  obtain ⟨cuts, slews, lineEnd, _⟩ := s.timing_heldSelect count
  refine exec_ind (P := HeldSelectLaw) h ?self ?powerOn ?busReset ?release ?overrun ?refuse ?taken ?stored ?flags ?mask
    ?pointer ?read ?readRefused ?written ?field ?adoption ?expiry ?autoRetire ?blink ?guard ?applyHeld ?timeout ?settle
    ?beginLine ?takingPoint ?grant ?answerMask ?answerImage ?acknowledge ?busTimeout ?tracked ?cut ?slew ?lineEnd
  case powerOn => exact fun _ => HeldSelectLaw_none rfl
  case busReset => exact HeldSelectLaw_none rfl
  case taken => exact fun code ie _ => commandEffect_heldSelectLaw _ code (s.take code ie) hs
  case written =>
    intro v t _ hw
    have timebase : t.tb = s.tb := by simp [State.writePointed_frame hw]
    exact HeldSelectLaw_congr hs (by rw [timebase]) (by rw [timebase])
  case field => exact s.fieldStart_heldSelect false
  case timeout => exact fun _ => HeldSelectLaw_none rfl
  case settle => exact (HeldSelectLaw_iff _).2 ⟨s.settleHeldSelect_waits, s.settleHeldSelect_count count⟩
  case tracked =>
    intro x time t _
    obtain ⟨_, _, _, tracks⟩ := State.timing_heldSelect (s.clockAt time) count
    exact tracks x t
  case cut => exact fun x _ => cuts x
  case slew => exact fun x _ => slews x
  case lineEnd => exact lineEnd
  all_goals intros; exact HeldSelectLaw_congr hs (by simp) (by simp)

/-- Settles O13: every command keeps both laws, and neither the queue nor the clock touches what they speak of. -/
theorem stepKeepsGuardAndHeldSelectLaws : Obligations.StepKeepsGuardAndHeldSelectLaws := by
  intro s t guard select h
  exact step_keeps (P := fun s => GuardLaw s ∧ HeldSelectLaw s)
    (fun _ _ _ hs h => ⟨exec_guardLaw hs.1 h, exec_heldSelectLaw hs.2 h⟩) (fun _ _ hs => hs) (fun _ hs => hs)
    s t ⟨guard, select⟩ h

end Sys2Proof.Machine
end

section
/-! The commands of the layer stack: the field-aligned requests as they are taken, GUARD and SET GEOMETRY. -/

namespace Sys2Proof.Machine

/-! ### Taking a field-aligned request -/

/-- PUSH of a STANDBY or ON AIR record is held (R45, R46). -/
theorem pushEffect_held {u : State} {i : SlotId} (hn : Names u i)
    (h : (u.slot i).state = .standby ∨ (u.slot i).state = .onAir) :
    pushEffect u = { u with held := some (.push i (u.slot i).gen) } := by
  rcases h with h | h <;> simp only [pushEffect, State.withHandle_names u i _ hn, h]

theorem pushEffect_draft {u : State} {i : SlotId} (hn : Names u i) (h : (u.slot i).state = .draft) :
    pushEffect u = u.completeZero .notReady := by
  simp only [pushEffect, State.withHandle_names u i _ hn, h]

theorem pushEffect_faulted {u : State} {i : SlotId} (hn : Names u i) (h : (u.slot i).state = .faulted) :
    pushEffect u = u.completeZero .faulted := by
  simp only [pushEffect, State.withHandle_names u i _ hn, h]

/-- LIFT, RAISE and LOWER of an ON AIR record are held (R45, R46). -/
theorem holdIfOnAir_held (request : SlotId → Generation → HeldRequest) {u : State} {i : SlotId} (hn : Names u i)
    (h : (u.slot i).state = .onAir) :
    holdIfOnAir request u = { u with held := some (request i (u.slot i).gen) } := by
  simp only [holdIfOnAir, State.withHandle_names u i _ hn, if_pos h]

/-- LIFT, RAISE and LOWER of a record off air are refused (R45). -/
theorem holdIfOnAir_refused (request : SlotId → Generation → HeldRequest) {u : State} {i : SlotId} (hn : Names u i)
    (h : (u.slot i).state ≠ .onAir) : holdIfOnAir request u = u.completeZero .notOnAir := by
  simp only [holdIfOnAir, State.withHandle_names u i _ hn, if_neg h]

/-- Settles O22: each request's effect, by the record's state, on the state in which the command has been taken. -/
theorem stackRequestsAreHeld : Obligations.StackRequestsAreHeld := by
  intro s ie ha
  rw [exec_accepted (.clearAir ie) (fun _ => rfl) ha, exec_accepted (.push ie) (fun _ => rfl) ha,
    exec_accepted (.lift ie) (fun _ => rfl) ha, exec_accepted (.raise ie) (fun _ => rfl) ha,
    exec_accepted (.lower ie) (fun _ => rfl) ha]
  refine ⟨rfl, fun i hn => ⟨fun h => congrArg _ (pushEffect_held (u := Taken s 7#5 ie) hn h),
    fun h => congrArg _ (pushEffect_draft (u := Taken s 7#5 ie) hn h),
    fun h => congrArg _ (pushEffect_faulted (u := Taken s 7#5 ie) hn h), fun on => ⟨?_, ?_, ?_⟩,
    fun off => ⟨?_, ?_, ?_⟩⟩⟩
  · exact congrArg _ (holdIfOnAir_held HeldRequest.lift (u := Taken s 8#5 ie) hn on)
  · exact congrArg _ (holdIfOnAir_held HeldRequest.raise (u := Taken s 9#5 ie) hn on)
  · exact congrArg _ (holdIfOnAir_held HeldRequest.lower (u := Taken s 10#5 ie) hn on)
  · exact congrArg _ (holdIfOnAir_refused HeldRequest.lift (u := Taken s 8#5 ie) hn off)
  · exact congrArg _ (holdIfOnAir_refused HeldRequest.raise (u := Taken s 9#5 ie) hn off)
  · exact congrArg _ (holdIfOnAir_refused HeldRequest.lower (u := Taken s 10#5 ie) hn off)

/-! ### GUARD and SET GEOMETRY -/

theorem flagWord_eq (b : Bool) : BitVec.ofNat 16 (bit b) = flagWord b := by
  cases b <;> rfl

theorem guardEffect_bad (wasExpired : Bool) {u : State} (h : 255 < u.cmd.arg0.toNat) :
    guardEffect wasExpired u = u.completeZero .badArgument :=
  if_pos h

theorem guardEffect_set (wasExpired : Bool) {u : State} (h : u.cmd.arg0.toNat ≤ 255) :
    guardEffect wasExpired u = { u with guard := { u.guard with setting := u.cmd.arg0.toNat } }.complete .ok
      (BitVec.ofNat 16 u.guard.setting) (flagWord wasExpired) := by
  rw [guardEffect, if_neg (Nat.not_lt.2 h), flagWord_eq]

theorem setGeometryEffect_bad {u : State} (h : u.cmd.arg0.toNat < 64 ∨ 128 < u.cmd.arg0.toNat ∨
    u.cmd.arg1.toInt < -32 ∨ 31 < u.cmd.arg1.toInt) : setGeometryEffect u = u.completeZero .badArgument :=
  if_pos h

theorem setGeometryEffect_set {u : State} (scale : 64 ≤ u.cmd.arg0.toNat ∧ u.cmd.arg0.toNat ≤ 128)
    (trim : -32 ≤ u.cmd.arg1.toInt ∧ u.cmd.arg1.toInt ≤ 31) :
    setGeometryEffect u =
      { u with tb := { u.tb with setScale := u.cmd.arg0.toNat, setTrim := u.cmd.arg1.toInt } }.complete .ok
        (BitVec.ofNat 16 u.tb.setScale) (BitVec.ofInt 16 u.tb.setTrim) :=
  if_neg (by omega)

/-- Settles O23: the effects of GUARD and SET GEOMETRY on the state in which the command has been taken; GUARD reports
the guard-expired indicator as it stood before it was taken. -/
theorem guardAndGeometrySet : Obligations.GuardAndGeometrySet := by
  intro s ie ha
  have guard : exec (.guard ie) s = .next (guardEffect s.guard.expired (Taken s 12#5 ie)) := by
    simp only [exec, execGuard, State.command_accepts _ _ _ _ ha, State.take_eq]
  rw [guard, exec_accepted (.setGeometry ie) (fun _ => rfl) ha]
  exact ⟨fun h => congrArg _ (guardEffect_bad _ (u := Taken s 12#5 ie) h),
    fun h => congrArg _ (guardEffect_set _ (u := Taken s 12#5 ie) h),
    fun h => congrArg _ (setGeometryEffect_bad (u := Taken s 13#5 ie) h),
    fun lo hi left right => congrArg _ (setGeometryEffect_set (u := Taken s 13#5 ie) ⟨lo, hi⟩ ⟨left, right⟩)⟩

end Sys2Proof.Machine
end

section
/-! The application of the held requests, and the expiry of the air guard. -/

namespace Sys2Proof.Machine

/-! ### The air guard and CLEAR AIR -/

/-- The expiring guard lifts every window; the guard's own items and GUARD apart, nothing else changes (R48, R57). -/
theorem State.guardExpire_eq (s : State) :
    s.guardExpire =
      { s with
        slots := Vector.ofFn (fun i => if i ∈ s.stack then { s.slot i with state := .standby } else s.slot i)
        stack := []
        guard := { s.guard with count := s.guard.setting, expired := true }
        events := { s.events with guard := true } } := by
  simp only [State.guardExpire, State.liftAll_eq]

theorem State.applyClearAir_eq (s : State) :
    s.applyClearAir =
      { Finished s .ok (BitVec.ofNat 16 s.stack.length) 0#16 with
        held := none
        slots := Vector.ofFn (fun i => if i ∈ s.stack then { s.slot i with state := .standby } else s.slot i)
        stack := [] } := by
  rw [State.applyClearAir, State.liftAll_eq, State.finishHeld_eq]
  simp only [Finished]

/-- Settles O38: both lift every window, by `State.liftAll_eq`. -/
theorem guardExpiryAndClearAirLift : Obligations.GuardExpiryAndClearAirLift := by
  refine ⟨fun s setting running reached => ?guard, fun s held => ?clearAir⟩
  case guard =>
    have due : s.guard.due = true := by simp [AirGuard.due, setting, running, reached]
    simp only [exec, execGuardExpiry, if_pos due, State.guardExpire_eq]
  case clearAir =>
    simp only [exec, execClearAirApply, held, State.applyClearAir_eq]

/-! ### PUSH -/

theorem State.applyPush_gone {s : State} {i : SlotId} {g : Generation}
    (h : (s.slot i).gen ≠ g ∨ (s.slot i).state = .free ∨ (s.slot i).state = .faulted) :
    s.applyPush i g = s.finishHeld .gone 0#16 0#16 := by
  unfold State.applyPush
  rcases h with h | h | h
  · rw [if_pos h]
  · rw [h, ite_self]
  · rw [h, ite_self]

/-- A PUSH of a record that is ON AIR moves its entry to the top (R49). -/
theorem State.applyPush_onAir {s : State} {i : SlotId} (h : (s.slot i).state = .onAir) :
    s.applyPush i (s.slot i).gen = { Finished s .ok 0#16 0#16 with held := none, stack := i :: s.stack.erase i } := by
  have same : WithSlot s i { s.slot i with state := .onAir } = s := by rw [← h, WithSlot_self]
  simp only [State.applyPush, ne_eq, not_true_eq_false, if_false, h, State.enterStack_eq, same, State.finishHeld_eq]
  rfl

/-- A PUSH of a STANDBY record, with room on the stack (R49). -/
theorem State.applyPush_room {s : State} {i : SlotId} (h : (s.slot i).state = .standby) (off : i ∉ s.stack)
    (room : s.stack.length < Config.stackDepth) :
    s.applyPush i (s.slot i).gen =
      { Finished (WithSlot s i { s.slot i with state := .onAir }) .ok 0#16 0#16 with
        held := none, stack := i :: s.stack } := by
  simp only [State.applyPush, ne_eq, not_true_eq_false, if_false, h, if_neg (Nat.not_le.2 room), State.enterStack_eq,
    List.erase_of_not_mem off, State.finishHeld_eq]
  rfl

/-- The attention flag EVICTED is newly set where it was clear (R19). -/
theorem Attention.newlySet_evicted (a : Attention) : a.newlySet (a.set .evicted) = !a.evicted := by
  simp [Attention.newlySet, Attention.set]

/-- The later of two writes of one slot stands. -/
@[simp] theorem WithSlot_twice (s : State) (i : SlotId) (q r : Slot) :
    WithSlot (WithSlot s i q) i r = WithSlot s i r := by
  simp [WithSlot]

/-- An attention flag set in a record: its slot, the marks of the latest field start and WINDOW change (R19, R171). -/
theorem State.raise_eq (s : State) (i : SlotId) (flag : AttentionFlag) :
    s.raise i flag =
      { WithSlot s i { s.slot i with attention := (s.slot i).attention.set flag } with
        marks := (s.raise i flag).marks
        events := { s.events with
          window := s.events.window || (s.slot i).attention.newlySet ((s.slot i).attention.set flag) } } :=
  rfl

/-- Eviction: the entry leaves the stack to STANDBY with EVICTED set, which is announced where it was clear (R50,
R171); the marks of the latest field start may take the flag (log 16). -/
theorem State.evict_eq (s : State) (e : SlotId) :
    s.evict e =
      { WithSlot s e { s.slot e with state := .standby, attention := { (s.slot e).attention with evicted := true } } with
        stack := s.stack.erase e
        marks := (s.evict e).marks
        events := { s.events with window := s.events.window || !(s.slot e).attention.evicted } } := by
  have slot : (s.leaveStack e .standby).slot e = { s.slot e with state := .standby } := by
    rw [State.leaveStack_slot, if_pos rfl]
  have events : (s.leaveStack e .standby).events = s.events := by
    rw [State.leaveStack_eq]
    rfl
  have written : (WithSlot (s.leaveStack e .standby) e
      { s.slot e with state := .standby, attention := (s.slot e).attention.set .evicted }) =
      { WithSlot s e { s.slot e with state := .standby, attention := (s.slot e).attention.set .evicted } with
        stack := s.stack.erase e } := by
    rw [State.leaveStack_eq]
    simp only [WithSlot, Vector.set_set]
  have raised := (s.leaveStack e .standby).raise_eq e .evicted
  rw [slot, Attention.newlySet_evicted, events, written] at raised
  exact raised

/-- Where there are no marks, an eviction makes none (log 16). -/
theorem State.evict_noMarks {s : State} (h : s.marks = none) (e : SlotId) : (s.evict e).marks = none := by
  simp [State.evict, State.raise, State.markRaise, h]

theorem State.evict_slot (s : State) {e j : SlotId} (h : j ≠ e) : (s.evict e).slot j = s.slot j := by
  rw [State.evict_eq]
  exact (WithSlot_slot s e j _).trans (if_neg h)

/-- A PUSH of a STANDBY record onto a full stack evicts the bottom entry (R49, R50). -/
theorem State.applyPush_full {s : State} {i e : SlotId} {above : List SlotId} (h : (s.slot i).state = .standby)
    (stack : s.stack = above ++ [e]) (full : above.length = 7) (distinct : s.stack.Nodup) (off : i ∉ s.stack) :
    s.applyPush i (s.slot i).gen =
      { Finished
          (WithSlot
            (WithSlot s e
              { s.slot e with state := .standby, attention := { (s.slot e).attention with evicted := true } })
            i { s.slot i with state := .onAir })
          .ok (handleOf e (s.slot e).gen) 1#16 with
        held := none
        stack := i :: above
        marks := (s.evict e).marks
        events := { s.events with done := true, window := s.events.window || !(s.slot e).attention.evicted } } := by
  have length : Config.stackDepth ≤ s.stack.length := by simp [stack, full]
  have bottom : s.stack.getLast? = some e := by simp [stack]
  have other : i ≠ e := fun same => off (by simp [stack, same])
  have rest : (s.stack.erase e).erase i = above := by
    have eNotAbove : e ∉ above := by
      rw [stack] at distinct
      exact fun mem => (List.nodup_append.1 distinct).2.2 e mem e (by simp) rfl
    have iNotAbove : i ∉ above := fun mem => off (by simp [stack, mem])
    rw [stack, List.erase_append_right _ eNotAbove, List.erase_cons_head, List.append_nil,
      List.erase_of_not_mem iNotAbove]
  simp only [State.applyPush, ne_eq, not_true_eq_false, if_false, h, if_pos length, bottom, State.enterStack_eq,
    s.evict_slot other, State.evict_stack, rest, State.finishHeld_eq]
  rw [State.evict_eq]
  rfl

/-- Settles O39: the rows of R49's table, by the state of the record that the held PUSH names. -/
theorem pushApplied : Obligations.PushApplied := by
  intro s i g held
  have runs : exec .pushApply s = .next (s.applyPush i g) := by simp only [exec, execPushApply, held]
  rw [runs]
  refine ⟨fun gone => congrArg _ (State.applyPush_gone gone), fun gen onAir => ?onAir,
    fun gen standby off room => ?room, fun above e gen standby stack full distinct off => ?full⟩
  case onAir =>
    subst gen
    exact congrArg _ (State.applyPush_onAir onAir)
  case room =>
    subst gen
    exact congrArg _ (State.applyPush_room standby off room)
  case full =>
    subst gen
    exact ⟨(s.evict e).marks, fun unmarked => State.evict_noMarks unmarked e,
      congrArg _ (State.applyPush_full standby stack full distinct off)⟩

/-! ### LIFT and RETIRE -/

theorem State.stillOnAir_true {s : State} {i : SlotId} (h : (s.slot i).state = .onAir) :
    s.stillOnAir i (s.slot i).gen = true := by
  simp [State.stillOnAir, h]

theorem State.stillOnAir_false {s : State} {i : SlotId} {g : Generation}
    (h : (s.slot i).state ≠ .onAir ∨ (s.slot i).gen ≠ g) : s.stillOnAir i g = false := by
  rcases h with h | h <;> simp [State.stillOnAir, h]

/-- The layer position of an entry is the number of entries above it (R1, R44). -/
theorem idxOf_below {i : SlotId} {above below : List SlotId} (h : i ∉ above) :
    (above ++ i :: below).idxOf i = above.length := by
  rw [List.idxOf_append, if_neg h, List.idxOf_cons_self, Nat.zero_add]

theorem State.applyLift_onAir {s : State} {i : SlotId} {above below : List SlotId} (onAir : (s.slot i).state = .onAir)
    (stack : s.stack = above ++ i :: below) (h : i ∉ above) :
    s.applyLift i (s.slot i).gen =
      { Finished (WithSlot s i { s.slot i with state := .standby }) .ok (BitVec.ofNat 16 above.length) 0#16 with
        held := none, stack := above ++ below } := by
  have rest : s.stack.erase i = above ++ below := by
    rw [stack, List.erase_append_right _ h, List.erase_cons_head]
  rw [State.applyLift, if_pos (State.stillOnAir_true onAir), State.leaveStack_eq, rest, stack, idxOf_below h,
    State.finishHeld_eq]
  rfl

theorem State.applyRetire_freed {s : State} {i : SlotId}
    (h : (s.slot i).state = .onAir ∨ (s.slot i).state = .standby) :
    s.applyRetire i (s.slot i).gen =
      { Finished (WithSlot s i (Slot.blank ((s.slot i).gen + 1#4))) .ok 0#16 0#16 with
        held := none, stack := s.stack.erase i } := by
  rw [State.applyRetire, if_pos ⟨rfl, h⟩, State.freeRecord_eq]
  rfl

theorem State.applyRetire_gone {s : State} {i : SlotId} {g : Generation}
    (h : (s.slot i).state = .free ∨ (s.slot i).state = .faulted ∨ (s.slot i).gen ≠ g) :
    s.applyRetire i g = { Finished s .gone 0#16 0#16 with held := none } := by
  have refused : ¬ ((s.slot i).gen = g ∧ ((s.slot i).state = .onAir ∨ (s.slot i).state = .standby)) := by
    rcases h with h | h | h <;> simp [h]
  exact if_neg refused

/-- Settles O40: the rows of the tables of R51 and R17. -/
theorem liftAndRetireApplied : Obligations.LiftAndRetireApplied := by
  intro s i g
  refine ⟨fun held => ?lift, fun held => ?retire⟩
  case lift =>
    have runs : exec .liftApply s = .next (s.applyLift i g) := by simp only [exec, execLiftApply, held]
    rw [runs]
    refine ⟨fun above below onAir gen stack h => ?_, fun gone => congrArg _ ?_⟩
    · subst gen
      exact congrArg _ (State.applyLift_onAir onAir stack h)
    · rw [State.applyLift, State.stillOnAir_false gone]
      rfl
  case retire =>
    have runs : exec .retireApply s = .next (s.applyRetire i g) := by simp only [exec, execRetireApply, held]
    rw [runs]
    refine ⟨fun state gen => ?_, fun gone => congrArg _ (State.applyRetire_gone gone)⟩
    subst gen
    exact congrArg _ (State.applyRetire_freed state)

/-! ### RAISE and LOWER -/

/-- Two entries that stand next to each other, exchanged at the position of the upper one. -/
theorem exchange_append {α : Type} (above below : List α) (a b : α) :
    exchange above.length (above ++ a :: b :: below) = above ++ b :: a :: below := by
  induction above with
  | nil => rfl
  | cons c above ih => exact congrArg (c :: ·) ih

theorem State.applyRaise_onAir {s : State} {i a : SlotId} {above below : List SlotId}
    (onAir : (s.slot i).state = .onAir) (stack : s.stack = above ++ a :: i :: below) (h : i ∉ above) (other : i ≠ a) :
    s.applyRaise i (s.slot i).gen =
      { Finished s .ok (BitVec.ofNat 16 above.length) 0#16 with
        held := none, stack := above ++ i :: a :: below } := by
  have position : s.stack.idxOf i = above.length + 1 := by
    have split : s.stack = (above ++ [a]) ++ i :: below := by simp [stack]
    rw [split, idxOf_below (by simp [h, other]), List.length_append, List.length_singleton]
  simp only [State.applyRaise, State.stillOnAir_true onAir, if_true, position]
  rw [stack, exchange_append]
  rfl

theorem State.applyRaise_top {s : State} {i : SlotId} {below : List SlotId} (onAir : (s.slot i).state = .onAir)
    (stack : s.stack = i :: below) :
    s.applyRaise i (s.slot i).gen = { Finished s .atLimit 0#16 0#16 with held := none } := by
  have position : s.stack.idxOf i = 0 := by simp [stack]
  simp only [State.applyRaise, State.stillOnAir_true onAir, if_true, position, State.finishHeld_eq]

theorem State.applyLower_onAir {s : State} {i b : SlotId} {above below : List SlotId}
    (onAir : (s.slot i).state = .onAir) (stack : s.stack = above ++ i :: b :: below) (h : i ∉ above) :
    s.applyLower i (s.slot i).gen =
      { Finished s .ok (BitVec.ofNat 16 (above.length + 1)) 0#16 with
        held := none, stack := above ++ b :: i :: below } := by
  have position : s.stack.idxOf i = above.length := by rw [stack, idxOf_below h]
  have room : above.length + 1 < s.stack.length := by
    simp only [stack, List.length_append, List.length_cons]
    omega
  simp only [State.applyLower, State.stillOnAir_true onAir, if_true, position, if_pos room]
  rw [stack, exchange_append]
  rfl

theorem State.applyLower_bottom {s : State} {i : SlotId} {above : List SlotId} (onAir : (s.slot i).state = .onAir)
    (stack : s.stack = above ++ [i]) (h : i ∉ above) :
    s.applyLower i (s.slot i).gen =
      { Finished s .atLimit (BitVec.ofNat 16 above.length) 0#16 with held := none } := by
  have position : s.stack.idxOf i = above.length := by rw [stack, idxOf_below h]
  have limit : ¬ above.length + 1 < s.stack.length := by simp [stack]
  simp only [State.applyLower, State.stillOnAir_true onAir, if_true, position, if_neg limit, State.finishHeld_eq]

/-- Settles O41: the rows of R52's table, by the place of the entry on the stack. -/
theorem raiseAndLowerApplied : Obligations.RaiseAndLowerApplied := by
  intro s i g
  refine ⟨fun held => ?raise, fun held => ?lower⟩
  case raise =>
    have runs : exec .raiseApply s = .next (s.applyRaise i g) := by simp only [exec, execRaiseApply, held]
    rw [runs]
    refine ⟨fun above below a onAir gen stack h other => ?_, fun below onAir gen stack => ?_,
      fun gone => congrArg _ ?_⟩
    · subst gen
      exact congrArg _ (State.applyRaise_onAir onAir stack h other)
    · subst gen
      exact congrArg _ (State.applyRaise_top onAir stack)
    · rw [State.applyRaise, State.stillOnAir_false gone]
      rfl
  case lower =>
    have runs : exec .lowerApply s = .next (s.applyLower i g) := by simp only [exec, execLowerApply, held]
    rw [runs]
    refine ⟨fun above below b onAir gen stack h => ?_, fun above onAir gen stack h => ?_, fun gone => congrArg _ ?_⟩
    · subst gen
      exact congrArg _ (State.applyLower_onAir onAir stack h)
    · subst gen
      exact congrArg _ (State.applyLower_bottom onAir stack h)
    · rw [State.applyLower, State.stillOnAir_false gone]
      rfl

end Sys2Proof.Machine
end

section
/-! The Layer Stack's work at a field start: the expiries, the air guard and the held request, in their order. -/

namespace Sys2Proof.Machine

/-! ### Records that keep their standing -/

/-- A record's generation, state, pending publication and EVICTED flag are the same. -/
structure SameStanding (a b : Slot) : Prop where
  gen : b.gen = a.gen
  state : b.state = a.state
  pending : b.pending = a.pending
  evicted : b.attention.evicted = a.attention.evicted

theorem SameStanding.refl (a : Slot) : SameStanding a a := ⟨rfl, rfl, rfl, rfl⟩

theorem SameStanding.trans {a b c : Slot} (h : SameStanding a b) (k : SameStanding b c) : SameStanding a c :=
  ⟨k.gen.trans h.gen, k.state.trans h.state, k.pending.trans h.pending, k.evicted.trans h.evicted⟩

/-- An attention flag other than EVICTED may be set. -/
theorem SameStanding.set (a : Slot) {flag : AttentionFlag} (h : flag ≠ .evicted) :
    SameStanding a { a with attention := a.attention.set flag } := by
  refine ⟨rfl, rfl, rfl, ?_⟩
  cases flag with
  | evicted => exact absurd rfl h
  | late => rfl
  | convert => rfl
  | expired => rfl
  | fetchFault => rfl

/-- The Window Counters change a record's active copy, its counters and EXPIRED alone (R64 to R67). -/
theorem Slot.count_standing (r : Slot) : SameStanding r r.count := by
  unfold Slot.count
  split
  · exact .refl r
  · split
    · refine ⟨rfl, rfl, rfl, ?_⟩
      dsimp only
      split <;> rfl
    · exact .refl r

/-- Conversion changes a record's derived geometry and CONVERT alone (R78, R87). -/
theorem Slot.convert_standing (r : Slot) (v : Latched) : SameStanding r (r.convert v) := by
  unfold Slot.convert
  split
  · exact .refl r
  · split
    · refine ⟨rfl, rfl, rfl, ?_⟩
      dsimp only
      split <;> rfl
    · exact .refl r

theorem State.raise_standing (s : State) (i j : SlotId) {flag : AttentionFlag} (h : flag ≠ .evicted) :
    SameStanding (s.slot j) ((s.raise i flag).slot j) := by
  rw [State.raise_eq]
  show SameStanding _ ((WithSlot s i _).slot j)
  rw [WithSlot_slot]
  split
  · next e => subst e; exact .set _ h
  · exact .refl _

theorem State.raiseLate_standing (s : State) (l : List SlotId) (j : SlotId) :
    SameStanding (s.slot j) ((s.raiseLate l).slot j) := by
  unfold State.raiseLate
  induction l generalizing s with
  | nil => exact .refl _
  | cons i l ih => exact (s.raise_standing i j (by decide)).trans (ih _)

theorem State.openLine_standing (s : State) (line : Nat) (j : SlotId) :
    SameStanding (s.slot j) ((s.openLine line).slot j) := by
  refine SameStanding.trans ?_ (State.raiseLate_standing _ _ j)
  exact .refl _

/-- The engine's work at a field start sets LATE and changes nothing else of a record (R112, R123). -/
theorem State.engineStep_standing (s : State) (j : SlotId) : SameStanding (s.slot j) (s.engineStep.slot j) := by
  have arbitrate : ∀ u : State, u.arbitrate.slot j = u.slot j := fun u => by simp [State.slot]
  unfold State.engineStep
  dsimp only
  split
  · exact .refl _
  · split
    · rw [arbitrate]
      refine SameStanding.trans ?_ (State.openLine_standing _ _ j)
      exact .refl _
    · rw [arbitrate]
      exact .refl _

/-! ### Event flags that stand -/

/-- Of the event flags, WINDOW alone may differ. -/
def OnlyWindow (s t : State) : Prop :=
  t.events = { s.events with window := t.events.window }

theorem OnlyWindow.trans {s t u : State} (h : OnlyWindow s t) (k : OnlyWindow t u) : OnlyWindow s u := by
  unfold OnlyWindow at *
  rw [k, h]

theorem OnlyWindow.same {s t : State} (h : t.events = s.events) : OnlyWindow s t := by
  unfold OnlyWindow
  rw [h]

theorem OnlyWindow.done {s t : State} (h : OnlyWindow s t) : t.events.done = s.events.done := by
  unfold OnlyWindow at h
  rw [h]

theorem OnlyWindow.guard {s t : State} (h : OnlyWindow s t) : t.events.guard = s.events.guard := by
  unfold OnlyWindow at h
  rw [h]

theorem State.removeExpired_onlyWindow (s : State) (i : SlotId) : OnlyWindow s (s.removeExpired i) := by
  unfold State.removeExpired
  split <;> rfl

theorem State.removeAll_onlyWindow (l : List SlotId) (s : State) : OnlyWindow s (l.foldl State.removeExpired s) := by
  induction l generalizing s with
  | nil => exact .same rfl
  | cons i l ih => exact (s.removeExpired_onlyWindow i).trans (ih _)

theorem State.raiseLate_onlyWindow (s : State) (l : List SlotId) : OnlyWindow s (s.raiseLate l) := by
  unfold State.raiseLate
  induction l generalizing s with
  | nil => exact .same rfl
  | cons i l ih =>
    have raised : OnlyWindow s (s.raise i .late) := rfl
    exact raised.trans (ih _)

theorem State.openLine_onlyWindow (s : State) (line : Nat) : OnlyWindow s (s.openLine line) :=
  State.raiseLate_onlyWindow _ _

theorem State.engineStep_onlyWindow (s : State) : OnlyWindow s s.engineStep := by
  have arbitrate : ∀ u : State, OnlyWindow u u.arbitrate := fun u => .same (by simp)
  unfold State.engineStep
  dsimp only
  split
  · exact .same rfl
  · split
    · refine OnlyWindow.trans ?_ ((State.openLine_onlyWindow _ _).trans (arbitrate _))
      exact .same rfl
    · refine OnlyWindow.trans ?_ (arbitrate _)
      exact .same rfl

/-- The timebase's own work at a field start sets no event flag but TIMEBASE (R146). -/
theorem State.beginField_events (s : State) :
    s.beginField.events.done = s.events.done ∧ s.beginField.events.guard = s.events.guard := by
  show s.slewVertical.events.done = _ ∧ s.slewVertical.events.guard = _
  unfold State.slewVertical State.settleSlew
  split
  · split <;> exact ⟨rfl, rfl⟩
  · exact ⟨rfl, rfl⟩

/-- The application of a held request leaves GUARD as it stands. -/
theorem State.applyHeld_guardFlag (s : State) : s.applyHeld.events.guard = s.events.guard := by
  unfold State.applyHeld
  split
  · rfl
  all_goals
    simp only [State.applyPush, State.applyLift, State.applyRaise, State.applyLower, State.applyClearAir,
      State.applyRetire]
    (repeat' split) <;> rfl

theorem State.judgeSelect_guardFlag (s : State) (x : Input) (mode : SwitchMode) (confirm : Bool) :
    (s.judgeSelect x mode confirm).events.guard = s.events.guard := by
  unfold State.judgeSelect
  (repeat' split) <;> rfl

theorem State.heldSelectStep_guardFlag (s : State) : s.heldSelectStep.events.guard = s.events.guard := by
  unfold State.heldSelectStep
  split
  · rfl
  · split
    · exact State.judgeSelect_guardFlag _ _ _ _
    · split <;> rfl

end Sys2Proof.Machine
end

section
/-! The three steps of R47 at a field start, one by one, and what the rest of the field start leaves of them. -/

namespace Sys2Proof.Machine

/-! ### The expiries -/

/-- Which windows expire at a field start (R65 to R67). -/
theorem Slot.expires_iff (r : Slot) :
    r.expires = true ↔ r.state = .onAir ∧ r.pending ≠ some 0 ∧ r.counters.lifetime = 1 ∧
      ∃ cp, r.active = some cp ∧ cp[1].getLsbD 7 = false := by
  unfold Slot.expires Slot.counted
  split
  · next inactive => simp [inactive]
  · next cp active =>
    simp only [active, Option.some.injEq, exists_eq_left', Copy.blink, Bool.and_eq_true, decide_eq_true_eq,
      Bool.not_eq_true', and_assoc]

theorem State.mem_expiring (s : State) (i : SlotId) : i ∈ s.expiring ↔ (s.slot i).expires = true := by
  simp [State.expiring]

theorem State.expiring_nodup (s : State) : s.expiring.Nodup := (List.nodup_finRange 24).filter _

/-- A record as the removal of its expired window leaves it (R66, R67). -/
def Slot.removed (r : Slot) : Slot :=
  if r.autoRetires then Slot.blank (r.gen + 1) else { r with state := .standby }

theorem State.removeExpired_stack (s : State) (i : SlotId) : (s.removeExpired i).stack = s.stack.erase i := by
  unfold State.removeExpired
  split <;> rfl

theorem State.removeExpired_slot_same (s : State) (i : SlotId) : (s.removeExpired i).slot i = (s.slot i).removed := by
  unfold State.removeExpired Slot.removed Slot.autoRetires
  split
  · rw [State.freeRecord_slot, if_pos rfl]
  · rw [State.leaveStack_slot, if_pos rfl]

/-- The windows removed are taken off the stack, the others keep their order (R48). -/
theorem State.removeAll_stack (l : List SlotId) (s : State) (distinct : s.stack.Nodup) :
    (l.foldl State.removeExpired s).stack = s.stack.filter (fun i => decide (i ∉ l)) := by
  induction l generalizing s with
  | nil => exact (List.filter_eq_self.2 fun i _ => decide_eq_true List.not_mem_nil).symm
  | cons j l ih =>
    have removed : (s.removeExpired j).stack = s.stack.filter (fun i => i != j) := by
      rw [State.removeExpired_stack, distinct.erase_eq_filter]
    rw [List.foldl_cons, ih _ (removed ▸ distinct.filter _), removed, List.filter_filter]
    refine List.filter_congr fun i _ => ?_
    rw [Bool.eq_iff_iff, Bool.and_eq_true, bne_iff_ne, decide_eq_true_eq, decide_eq_true_eq, List.mem_cons, not_or,
      and_comm]

theorem State.removeAll_slot {l : List SlotId} (distinct : l.Nodup) (s : State) (i : SlotId) :
    (l.foldl State.removeExpired s).slot i = if i ∈ l then (s.slot i).removed else s.slot i := by
  induction l generalizing s with
  | nil => rfl
  | cons j l ih =>
    obtain ⟨fresh, rest⟩ := List.nodup_cons.1 distinct
    rw [List.foldl_cons, ih rest]
    by_cases same : i = j
    · subst same
      simp [fresh, State.removeExpired_slot_same]
    · simp [same, State.removeExpired_slot s j i same]

/-! ### The air guard -/

theorem State.guardStep_stack (s : State) : s.guardStep.stack = if s.guard.due then [] else s.stack := by
  unfold State.guardStep
  split
  · rfl
  · split <;> rfl

theorem State.guardExpire_slot (s : State) (i : SlotId) : s.guardExpire.slot i = s.liftAll.slot i := by
  simp only [State.slot, State.guardExpire]

theorem State.guardStep_slot (s : State) (i : SlotId) :
    s.guardStep.slot i = if s.guard.due ∧ i ∈ s.stack then { s.slot i with state := .standby } else s.slot i := by
  unfold State.guardStep
  split
  · next due =>
    simp only [State.guardExpire_slot, State.liftAll_slot, due, true_and]
  · next waits =>
    have stands : ¬ (s.guard.due = true ∧ i ∈ s.stack) := fun lifts => waits lifts.1
    rw [if_neg stands]
    split <;> rfl

theorem State.guardStep_guard (s : State) :
    s.guardStep.guard =
      if s.guard.due then { s.guard with count := s.guard.setting, expired := true }
      else if s.guard.setting ≠ 0 ∧ ¬ s.guard.expired then { s.guard with count := s.guard.count + 1 }
      else s.guard := by
  unfold State.guardStep
  split
  · rfl
  · split <;> rfl

theorem State.guardStep_events (s : State) :
    s.guardStep.events = { s.events with guard := s.events.guard || s.guard.due } := by
  unfold State.guardStep
  split
  · next due => simp only [State.guardExpire_eq, due, Bool.or_true]
  · next waits =>
    simp only [Bool.not_eq_true] at waits
    rw [waits, Bool.or_false]
    split <;> rfl

/-! ### Expiries and guard together -/

/-- The first step of R47: the counters have counted and the windows that expire are off the stack. -/
def State.afterExpiries (s : State) : State := s.expiring.foldl State.removeExpired s.countStep

/-- The state in which a field start finds the held request, after the first two steps of R47. -/
def State.beforeHeld (s : State) : State := s.afterExpiries.guardStep

theorem State.recordStep_eq (s : State) : s.recordStep = s.beforeHeld.applyHeld.publicationStep := rfl

theorem State.afterExpiries_frame (s : State) :
    s.afterExpiries.held = s.held ∧ s.afterExpiries.cmd = s.cmd ∧ s.afterExpiries.tb = s.tb ∧
      s.afterExpiries.guard = s.guard := by
  simp [State.afterExpiries]

theorem State.afterExpiries_onlyWindow (s : State) : OnlyWindow s s.afterExpiries := by
  have counted : OnlyWindow s s.countStep := rfl
  exact counted.trans (State.removeAll_onlyWindow s.expiring s.countStep)

theorem State.afterExpiries_stack {s : State} (distinct : s.stack.Nodup) :
    s.afterExpiries.stack = s.stack.filter (fun i => !(s.slot i).expires) := by
  have counted : s.countStep.stack = s.stack := by simp
  rw [State.afterExpiries, State.removeAll_stack _ _ (by rwa [counted]), counted]
  refine List.filter_congr fun i _ => ?_
  rw [Bool.eq_iff_iff, decide_eq_true_eq, State.mem_expiring, Bool.not_eq_true', Bool.not_eq_true]

theorem State.afterExpiries_slot (s : State) (i : SlotId) :
    s.afterExpiries.slot i = if (s.slot i).expires then (s.slot i).count.removed else (s.slot i).count := by
  have counted : s.countStep.slot i = (s.slot i).count := s.mapSlots_slot _ i
  simp only [State.afterExpiries, State.removeAll_slot s.expiring_nodup, counted, State.mem_expiring]

theorem State.beforeHeld_stack {s : State} (hs : StackLaw s) :
    s.beforeHeld.stack = if s.guard.due then [] else s.stack.filter (fun i => !(s.slot i).expires) := by
  obtain ⟨distinct, _, _⟩ := hs
  obtain ⟨_, _, _, guard⟩ := s.afterExpiries_frame
  rw [State.beforeHeld, State.guardStep_stack, State.afterExpiries_stack distinct, guard]

/-- What the first two steps leave of a record: an expired window's is removed, and of the others an expiring guard
lifts those ON AIR. -/
theorem State.beforeHeld_slot {s : State} (hs : StackLaw s) (i : SlotId) :
    s.beforeHeld.slot i =
      if (s.slot i).expires then (s.slot i).count.removed
      else if s.guard.due ∧ (s.slot i).state = .onAir then { (s.slot i).count with state := .standby }
      else (s.slot i).count := by
  obtain ⟨distinct, _, listed⟩ := hs
  obtain ⟨_, _, _, guard⟩ := s.afterExpiries_frame
  rw [State.beforeHeld, State.guardStep_slot, guard, State.afterExpiries_slot, State.afterExpiries_stack distinct]
  by_cases expires : (s.slot i).expires = true
  · simp [expires]
  · simp [expires, listed i]

theorem State.beforeHeld_frame (s : State) :
    s.beforeHeld.held = s.held ∧ s.beforeHeld.cmd = s.cmd ∧ s.beforeHeld.tb = s.tb := by
  simp [State.beforeHeld, State.afterExpiries_frame]

theorem State.beforeHeld_guard (s : State) : s.beforeHeld.guard = s.guardStep.guard := by
  obtain ⟨_, _, _, guard⟩ := s.afterExpiries_frame
  rw [State.beforeHeld, State.guardStep_guard, State.guardStep_guard, guard]

theorem State.beforeHeld_events (s : State) :
    s.beforeHeld.events.done = s.events.done ∧ s.beforeHeld.events.guard = (s.events.guard || s.guard.due) := by
  obtain ⟨_, _, _, guard⟩ := s.afterExpiries_frame
  rw [State.beforeHeld, State.guardStep_events, guard]
  exact ⟨s.afterExpiries_onlyWindow.done, by rw [s.afterExpiries_onlyWindow.guard]⟩

/-- The first two steps keep the law of the stack. -/
theorem State.beforeHeld_stackLaw {s : State} (hs : StackLaw s) : StackLaw s.beforeHeld := by
  have counted : StackLaw s.countStep := (State.countStep_moves (V := fun _ => True) s hs).1
  have onAir : ∀ i ∈ s.expiring, (s.countStep.slot i).state = .onAir := by
    intro i mem
    have slot : s.countStep.slot i = (s.slot i).count := s.mapSlots_slot _ i
    rw [slot, Slot.count_state]
    exact Slot.expires_onAir ((s.mem_expiring i).1 mem)
  have removed : StackLaw s.afterExpiries :=
    (State.removeAll_moves (V := fun _ => True) s.expiring s.expiring_nodup s.countStep onAir counted).1
  exact (State.guardStep_moves (V := fun _ => True) s.afterExpiries removed).1

/-! ### What the first two steps make of a record -/

theorem Generation.succ_ne (g : Generation) : g + 1 ≠ g := by
  bv_omega

/-- The Window Counters leave the mode word, and with it AUTO-RETIRE (R73). -/
theorem Slot.count_autoRetires (r : Slot) : r.count.autoRetires = r.autoRetires := by
  have crawl : ∀ (c : Copy) halted, (countCrawl c halted).1.autoRetire = c.autoRetire := by
    intro c halted
    unfold countCrawl
    split
    · rfl
    · split
      · simp [Copy.autoRetire, Copy.crawled]
      · rfl
  unfold Slot.count
  split
  · rfl
  · next c active =>
    split
    · simp [Slot.autoRetires, active, crawl]
    · rfl

/-- What a step of the stack's work may make of a record: its generation and its publication stand and it is FREE if it
was; or it is freed. -/
inductive Worked (a b : Slot) : Prop where
  | kept (gen : b.gen = a.gen) (pending : b.pending = a.pending) (free : b.state = .free ↔ a.state = .free)
  | freed (live : a.state ≠ .free) (gen : b.gen = a.gen + 1) (pending : b.pending = none) (free : b.state = .free)

theorem Worked.refl (a : Slot) : Worked a a := .kept rfl rfl Iff.rfl

theorem Worked.trans {a b c : Slot} (h : Worked a b) (k : Worked b c) : Worked a c := by
  cases h with
  | kept gen pending free =>
    cases k with
    | kept gen' pending' free' => exact .kept (gen'.trans gen) (pending'.trans pending) (free'.trans free)
    | freed live gen' pending' free' => exact .freed (mt free.2 live) (by rw [gen', gen]) pending' free'
  | freed live gen pending free =>
    cases k with
    | kept gen' pending' free' => exact .freed live (gen'.trans gen) (pending'.trans pending) (free'.2 free)
    | freed live' => exact absurd free live'

/-- A live record takes another live state. -/
theorem Worked.moved {a : Slot} (live : a.state ≠ .free) {x : RecState} (hx : x ≠ .free) :
    Worked a { a with state := x } :=
  .kept rfl rfl ⟨fun free => absurd free hx, fun free => absurd free live⟩

theorem Worked.blank {a : Slot} (live : a.state ≠ .free) : Worked a (Slot.blank (a.gen + 1)) :=
  .freed live rfl rfl rfl

theorem SameStanding.worked {a b : Slot} (h : SameStanding a b) : Worked a b :=
  .kept h.gen h.pending (by rw [h.state])

section
variable {s : State} {i : SlotId}

/-- A window that expires with AUTO-RETIRE frees its record (R67). -/
theorem State.beforeHeld_autoRetired (hs : StackLaw s) (expires : (s.slot i).expires = true)
    (retires : (s.slot i).autoRetires = true) :
    s.beforeHeld.slot i = Slot.blank ((s.slot i).gen + 1) := by
  rw [State.beforeHeld_slot hs, if_pos expires, Slot.removed, if_pos (by rwa [Slot.count_autoRetires]),
    (s.slot i).count_standing.gen]

/-- A window that expires without AUTO-RETIRE leaves its record STANDBY (R66). -/
theorem State.beforeHeld_expired (hs : StackLaw s) (expires : (s.slot i).expires = true)
    (stays : (s.slot i).autoRetires = false) :
    s.beforeHeld.slot i = { (s.slot i).count with state := .standby } := by
  rw [State.beforeHeld_slot hs, if_pos expires, Slot.removed, if_neg (by simp [Slot.count_autoRetires, stays])]

/-- Every other record stays as it was counted, but that an expiring guard lifts those ON AIR (R48, R57). -/
theorem State.beforeHeld_unexpired (hs : StackLaw s) (stays : (s.slot i).expires = false) :
    s.beforeHeld.slot i =
      { (s.slot i).count with
        state := if s.guard.due ∧ (s.slot i).state = .onAir then .standby else (s.slot i).state } := by
  rw [State.beforeHeld_slot hs, if_neg (by simp [stays])]
  split
  · rfl
  · rw [← (s.slot i).count_standing.state]

/-- The first two steps of R47 keep or free each record. -/
theorem State.beforeHeld_worked (hs : StackLaw s) (i : SlotId) : Worked (s.slot i) (s.beforeHeld.slot i) := by
  have counted := (s.slot i).count_standing
  have onAir : (s.slot i).state = .onAir → (s.slot i).count.state ≠ .free := by
    intro h
    simp [h]
  by_cases expires : (s.slot i).expires = true
  · have live := onAir (Slot.expires_onAir expires)
    cases retires : (s.slot i).autoRetires with
    | true =>
      rw [State.beforeHeld_autoRetired hs expires retires, ← counted.gen]
      exact counted.worked.trans (.blank live)
    | false =>
      rw [State.beforeHeld_expired hs expires retires]
      exact counted.worked.trans (.moved live (by decide))
  · rw [State.beforeHeld_slot hs, if_neg expires]
    split
    · next lifts => exact counted.worked.trans (.moved (onAir lifts.2) (by decide))
    · exact counted.worked

/-- A record that keeps its generation through the first two steps keeps its EVICTED flag. -/
theorem State.beforeHeld_evicted (hs : StackLaw s) (gen : (s.beforeHeld.slot i).gen = (s.slot i).gen) :
    (s.beforeHeld.slot i).attention.evicted = (s.slot i).attention.evicted := by
  have counted := (s.slot i).count_standing
  by_cases expires : (s.slot i).expires = true
  · cases retires : (s.slot i).autoRetires with
    | true =>
      rw [State.beforeHeld_autoRetired hs expires retires] at gen
      exact absurd gen (Generation.succ_ne _)
    | false =>
      rw [State.beforeHeld_expired hs expires retires]
      exact counted.evicted
  · rw [State.beforeHeld_unexpired hs (by simpa using expires)]
    exact counted.evicted

end

/-! ### What the held request makes of a record -/

theorem State.freeRecord_worked {s : State} {i : SlotId} (live : (s.slot i).state ≠ .free) (j : SlotId) :
    Worked (s.slot j) ((s.freeRecord i).slot j) := by
  rw [State.freeRecord_slot]
  split
  · next same => subst same; exact .blank live
  · exact .refl _

theorem State.leaveStack_worked {s : State} {i : SlotId} (live : (s.slot i).state ≠ .free) (j : SlotId) :
    Worked (s.slot j) ((s.leaveStack i .standby).slot j) := by
  rw [State.leaveStack_slot]
  split
  · next same => subst same; exact .moved live (by decide)
  · exact .refl _

theorem State.enterStack_worked {s : State} {i : SlotId} (live : (s.slot i).state ≠ .free) (j : SlotId) :
    Worked (s.slot j) ((s.enterStack i).slot j) := by
  rw [State.enterStack_slot]
  split
  · next same => subst same; exact .moved live (by decide)
  · exact .refl _

theorem State.evict_worked {s : State} {i : SlotId} (live : (s.slot i).state ≠ .free) (j : SlotId) :
    Worked (s.slot j) ((s.evict i).slot j) := by
  rw [State.evict_eq]
  show Worked _ ((WithSlot s i _).slot j)
  rw [WithSlot_slot]
  split
  · next same =>
    subst same
    exact .kept rfl rfl ⟨nofun, fun free => absurd free live⟩
  · exact .refl _

theorem State.applyPush_worked {s : State} (hs : StackLaw s) (i : SlotId) (g : Generation) (j : SlotId) :
    Worked (s.slot j) ((s.applyPush i g).slot j) := by
  obtain ⟨_, _, listed⟩ := hs
  unfold State.applyPush
  split
  · exact .refl _
  · split
    · next onAir => exact State.enterStack_worked (by simp [onAir]) j
    · next standby =>
      split
      · split
        · next e bottom =>
          have onAir : (s.slot e).state = .onAir := (listed e).1 (List.mem_of_getLast? bottom)
          have other : i ≠ e := by
            rintro rfl
            rw [onAir] at standby
            cases standby
          exact (State.evict_worked (by simp [onAir]) j).trans
            (State.enterStack_worked (by simp [s.evict_slot other, standby]) j)
        · exact State.enterStack_worked (by simp [standby]) j
      · exact State.enterStack_worked (by simp [standby]) j
    · exact .refl _

/-- The held request applied keeps each record or, a RETIRE, frees its own (R17, R49 to R53). -/
theorem State.applyHeld_worked {s : State} (hs : StackLaw s) (j : SlotId) :
    Worked (s.slot j) (s.applyHeld.slot j) := by
  have ⟨_, _, listed⟩ := hs
  have lifts : ∀ {i g}, s.stillOnAir i g = true → (s.slot i).state ≠ .free := by
    intro i g still
    simp [State.stillOnAir_onAir still]
  unfold State.applyHeld
  split
  case h_1 => exact .refl _
  case h_2 i g _ => exact s.applyPush_worked hs i g j
  case h_3 i g _ =>
    unfold State.applyLift
    split
    · next still => exact State.leaveStack_worked (lifts still) j
    · exact .refl _
  case h_4 i g _ =>
    have same : (s.applyRaise i g).slot j = s.slot j := by simp [State.slot]
    rw [same]
    exact .refl _
  case h_5 i g _ =>
    have same : (s.applyLower i g).slot j = s.slot j := by simp [State.slot]
    rw [same]
    exact .refl _
  case h_6 =>
    rw [State.applyClearAir, State.finishHeld_slot, State.liftAll_slot]
    split
    · next mem => exact .moved (by simp [(listed j).1 mem]) (by decide)
    · exact .refl _
  case h_7 i g _ =>
    unfold State.applyRetire
    split
    · next state =>
      obtain ⟨_, state⟩ := state
      exact State.freeRecord_worked (by rcases state with h | h <;> simp [h]) j
    · exact .refl _

/-! ### The rest of the field start -/

/-- A field start's records and stack as the Layer Stack's three steps leave them. -/
def State.stackWorked (s : State) : State := s.beginField.beforeHeld.applyHeld

theorem Slot.publicationTick_gen (r : Slot) : r.publicationTick.gen = r.gen := by
  unfold Slot.publicationTick
  split <;> rfl

theorem Slot.publicationTick_evicted (r : Slot) : r.publicationTick.attention.evicted = r.attention.evicted := by
  unfold Slot.publicationTick
  split <;> rfl

theorem Slot.publicationTick_state_due {r : Slot} (live : r.state ≠ .free) (due : r.pending = some 0) :
    r.publicationTick.state = if r.state = .onAir then .onAir else .standby := by
  have adopted : r.adoptionDue = true := by simp [Slot.adoptionDue, live, due]
  rw [Slot.publicationTick, if_pos adopted, Slot.adopt]
  cases state : r.state <;> simp_all [RecState.adopted]

theorem Slot.publicationTick_state_waits {r : Slot} (waits : r.pending ≠ some 0) :
    r.publicationTick.state = r.state := by
  have stays : ¬ r.adoptionDue = true := by simp [Slot.adoptionDue, waits]
  rw [Slot.publicationTick, if_neg stays]

/-- After the stack's work the publication tick is the last that a field start does to a record's standing. -/
theorem State.fieldStart_standing (s : State) (cut : Bool) (i : SlotId) :
    SameStanding (s.stackWorked.slot i).publicationTick ((s.fieldStart cut).slot i) := by
  have last : (s.fieldStart cut).slot i =
      (s.beginField.recordStep.convertStep.blankingStep cut).engineStep.slot i := by
    simp [State.slot, State.fieldStart]
  have converted : (s.beginField.recordStep.convertStep.blankingStep cut).slot i =
      (s.stackWorked.slot i).publicationTick.convert s.beginField.recordStep.tb.latched := by
    rw [State.blankingStep_slot, State.convertStep, State.mapSlots_slot, State.recordStep_eq, State.publicationStep,
      State.mapSlots_slot, State.stackWorked]
  rw [last]
  refine SameStanding.trans ?_ (State.engineStep_standing _ i)
  rw [converted]
  exact Slot.convert_standing _ _

/-- What stands of the stack's work at the end of a field start. -/
theorem State.fieldStart_stackFrame (s : State) (cut : Bool) :
    (s.fieldStart cut).stack = s.stackWorked.stack ∧ (s.fieldStart cut).held = s.stackWorked.held ∧
      (s.fieldStart cut).guard = s.stackWorked.guard := by
  simp [State.fieldStart, State.recordStep_eq, State.stackWorked]

theorem State.fieldStart_guardFlag (s : State) (cut : Bool) :
    (s.fieldStart cut).events.guard = s.stackWorked.events.guard := by
  have ticked : OnlyWindow s.stackWorked (s.beginField.recordStep.convertStep.blankingStep cut) := rfl
  rw [State.fieldStart, State.heldSelectStep_guardFlag, State.markFrom_events]
  exact (ticked.trans (State.engineStep_onlyWindow _)).guard

/-- With no SELECT held, a field start leaves the Command Unit and DONE as the stack's work leaves them. -/
theorem State.fieldStart_command {s : State} (free : s.tb.heldSelect = none) (cut : Bool) :
    (s.fieldStart cut).cmd = s.stackWorked.cmd ∧ (s.fieldStart cut).events.done = s.stackWorked.events.done := by
  have ticked : OnlyWindow s.stackWorked (s.beginField.recordStep.convertStep.blankingStep cut) := rfl
  have stands : s.fieldStart cut =
      ((s.beginField.recordStep.convertStep.blankingStep cut).engineStep).markFrom s.beginField.recordStep := by
    rw [State.fieldStart, State.heldSelectStep]
    split
    · rfl
    · next q held => simp [free] at held
  rw [stands]
  refine ⟨by simp [State.recordStep_eq, State.stackWorked], ?_⟩
  rw [State.markFrom_events]
  exact (ticked.trans (State.engineStep_onlyWindow _)).done

/-! ### The field start as a whole -/

theorem State.beginField_slot (s : State) (i : SlotId) : s.beginField.slot i = s.slot i := by
  simp [State.slot]

theorem State.beginField_stackLaw {s : State} (hs : StackLaw s) : StackLaw s.beginField :=
  StackLaw_congr hs (by simp) fun i => by rw [State.beginField_slot]

/-- The row that applies a held request applies it as a field start does (R47). -/
theorem AppliesHeld.runs {q : HeldRequest} {c : Instr} (h : AppliesHeld q c) {s : State} (held : s.held = some q) :
    exec c s = .next s.applyHeld := by
  cases h with
  | push => simp only [exec, execPushApply, State.applyHeld, held]
  | lift => simp only [exec, execLiftApply, State.applyHeld, held]
  | raise => simp only [exec, execRaiseApply, State.applyHeld, held]
  | lower => simp only [exec, execLowerApply, State.applyHeld, held]
  | clearAir => simp only [exec, execClearAirApply, State.applyHeld, held]
  | retire => simp only [exec, execRetireApply, State.applyHeld, held]

theorem State.applyHeld_none {s : State} (h : s.held = none) : s.applyHeld = s := by
  simp only [State.applyHeld, h]

theorem State.applyHeld_held (s : State) : s.applyHeld.held = none := by
  by_cases h : s.held = none
  · rw [State.applyHeld_none h, h]
  · exact (s.applyHeld_completes h).2

theorem AirGuard.due_iff (g : AirGuard) :
    g.due = true ↔ g.setting ≠ 0 ∧ g.expired = false ∧ g.setting ≤ g.count + 1 := by
  simp [AirGuard.due, and_assoc]

/-- What the first two steps leave of each record, in the terms of R48, R57, R66 and R67. -/
theorem State.beforeHeld_records {s : State} (hs : StackLaw s) (i : SlotId) :
    (∀ cp, (s.slot i).expires = true → (s.slot i).active = some cp → cp[1].getLsbD 8 = true →
      (s.beforeHeld.slot i).state = .free ∧ (s.beforeHeld.slot i).gen = (s.slot i).gen + 1#4) ∧
    (∀ cp, (s.slot i).expires = true → (s.slot i).active = some cp → cp[1].getLsbD 8 = false →
      (s.beforeHeld.slot i).state = .standby ∧ (s.beforeHeld.slot i).gen = (s.slot i).gen) ∧
    ((s.slot i).expires = false → (s.beforeHeld.slot i).gen = (s.slot i).gen ∧
      (s.beforeHeld.slot i).state =
        if s.guard.due = true ∧ (s.slot i).state = .onAir then .standby else (s.slot i).state) ∧
    ((s.beforeHeld.slot i).gen = (s.slot i).gen →
      (s.beforeHeld.slot i).attention.evicted = (s.slot i).attention.evicted) := by
  have retires : ∀ cp, (s.slot i).active = some cp → (s.slot i).autoRetires = cp[1].getLsbD 8 := by
    intro cp active
    simp [Slot.autoRetires, active, Copy.autoRetire]
  have counted : (s.slot i).count.gen = (s.slot i).gen := (s.slot i).count_standing.gen
  refine ⟨fun cp expires active flag => ?_, fun cp expires active flag => ?_, fun stays => ?_,
    State.beforeHeld_evicted hs⟩
  · rw [State.beforeHeld_autoRetired hs expires (by rw [retires cp active, flag])]
    exact ⟨rfl, rfl⟩
  · rw [State.beforeHeld_expired hs expires (by rw [retires cp active, flag])]
    exact ⟨rfl, counted⟩
  · rw [State.beforeHeld_unexpired hs stays]
    exact ⟨counted, rfl⟩

/-- Adoption alone changes a record's state after the stack's work (R35). -/
theorem State.fieldStart_records {s : State} (hs : StackLaw s) (cut : Bool) (i : SlotId) :
    ((s.fieldStart cut).slot i).gen = (s.stackWorked.slot i).gen ∧
    ((s.fieldStart cut).slot i).attention.evicted = (s.stackWorked.slot i).attention.evicted ∧
    ((s.slot i).pending ≠ some 0 → ((s.fieldStart cut).slot i).state = (s.stackWorked.slot i).state) ∧
    ((s.slot i).pending = some 0 → (s.slot i).state ≠ .free →
      ((s.fieldStart cut).slot i).gen = (s.slot i).gen →
      ((s.fieldStart cut).slot i).state = if (s.stackWorked.slot i).state = .onAir then .onAir else .standby) := by
  have hb := State.beginField_stackLaw hs
  have rest := s.fieldStart_standing cut i
  have gen : ((s.fieldStart cut).slot i).gen = (s.stackWorked.slot i).gen := by
    rw [rest.gen, Slot.publicationTick_gen]
  have worked : Worked (s.slot i) (s.stackWorked.slot i) := by
    have before := State.beforeHeld_worked hb i
    rw [State.beginField_slot] at before
    exact before.trans (State.applyHeld_worked (State.beforeHeld_stackLaw hb) i)
  refine ⟨gen, by rw [rest.evicted, Slot.publicationTick_evicted], fun waits => ?_, fun due live same => ?_⟩
  · have stays : (s.stackWorked.slot i).pending ≠ some 0 := by
      cases worked with
      | kept _ pending _ => rwa [pending]
      | freed _ _ pending _ => simp [pending]
    rw [rest.state, Slot.publicationTick_state_waits stays]
  · rw [gen] at same
    cases worked with
    | kept _ pending free =>
      rw [rest.state, Slot.publicationTick_state_due (mt free.1 live) (pending.trans due)]
    | freed _ next _ _ => exact absurd (next.symm.trans same) (Generation.succ_ne _)

/-- Settles O37: the state before the held request, the state after it, and the end of the field start, each by the
lemmas about its step. -/
theorem fieldStartStackWork : Obligations.FieldStartStackWork := by
  intro s expires lifts hs expiresIff liftsIff
  obtain rfl : expires = fun i => (s.slot i).expires :=
    funext fun i => Bool.eq_iff_iff.2 ((expiresIff i).trans (s.slot i).expires_iff.symm)
  obtain rfl : lifts = s.guard.due := Bool.eq_iff_iff.2 (liftsIff.trans s.guard.due_iff.symm)
  have hb := State.beginField_stackLaw hs
  have guard : s.beginField.guard = s.guard := by simp
  have stack : s.beginField.stack = s.stack := by simp
  have held : s.beginField.beforeHeld.held = s.held := by simp [State.beforeHeld_frame]
  obtain ⟨done, flag⟩ := s.beginField.beforeHeld_events
  obtain ⟨beginDone, beginFlag⟩ := s.beginField_events
  obtain ⟨lastStack, lastHeld, lastGuard⟩ := s.fieldStart_stackFrame false
  have counts : (s.fieldStart false).guard = s.guardStep.guard := by
    have applied : s.stackWorked.guard = s.beginField.beforeHeld.guard := by simp [State.stackWorked]
    rw [lastGuard, applied, State.beforeHeld_guard, State.guardStep_guard, State.guardStep_guard, guard]
  rw [State.guardStep_guard] at counts
  refine ⟨s.beginField.beforeHeld, s.stackWorked, s.fieldStart false, rfl, held, by simp [State.beforeHeld_frame],
    done.trans beginDone, ?stack, fun i => ?records, fun empty => ?noRequest, fun q c asked applies => ?request,
    ?released, lastStack, State.fieldStart_records hs false, fun free => State.fieldStart_command free false, ?flag,
    fun due => ?expired, fun waits set running => ?counted, fun off => ?stands⟩
  case stack =>
    rw [State.beforeHeld_stack hb, guard, stack]
    simp only [State.beginField_slot]
  case records =>
    have records := State.beforeHeld_records hb i
    rwa [State.beginField_slot, guard] at records
  case noRequest => exact State.applyHeld_none (held.trans empty)
  case request => exact applies.runs (held.trans asked)
  case released => rw [lastHeld, State.stackWorked, State.applyHeld_held]
  case flag => rw [State.fieldStart_guardFlag, State.stackWorked, State.applyHeld_guardFlag, flag, beginFlag, guard]
  case expired => rw [counts, if_pos due]
  case counted => rw [counts, if_neg (by simp [waits]), if_pos ⟨set, by simp [running]⟩]
  case stands =>
    have waits : ¬ s.guard.due = true := by
      rw [AirGuard.due_iff]
      rcases off with h | h <;> simp [h]
    have stopped : ¬ (s.guard.setting ≠ 0 ∧ ¬ s.guard.expired = true) := by
      rcases off with h | h <;> simp [h]
    rw [counts, if_neg waits, if_neg stopped]

end Sys2Proof.Machine
end

section
/-! The lifetime rows sent alone, and what the Window Counters make of a record. -/

namespace Sys2Proof.Machine

/-! ### The remaining lifetime -/

/-- An unlimited lifetime stays unlimited (R65). -/
theorem countLifetime_unlimited {c : Copy} {n : Counters} (h : n.lifetime = 0) : countLifetime c n = n :=
  if_pos h

/-- A lifetime of 2 or more counts down and touches nothing else (R65). -/
theorem countLifetime_counts {c : Copy} {n : Counters} (h : 2 ≤ n.lifetime) :
    countLifetime c n = { n with lifetime := n.lifetime - 1 } := by
  rw [countLifetime, if_neg (by omega), if_neg (by omega)]

/-- The last count of a ONCE window (R66, R67). -/
theorem countLifetime_once {c : Copy} {n : Counters} (last : n.lifetime = 1) (once : c.blink = false) :
    countLifetime c n = { n with lifetime := 0 } := by
  simp [countLifetime, last, once]

/-- The last count of a BLINK window with a reload (R69). -/
theorem countLifetime_toggles {c : Copy} {n : Counters} (last : n.lifetime = 1) (blink : c.blink = true)
    (reload : c.blinkReload ≠ 0) :
    countLifetime c n = { n with lifetime := c.blinkReload, hidden := !n.hidden } := by
  simp [countLifetime, last, blink, reload]

/-- The last count of a BLINK window without a reload (R70). -/
theorem countLifetime_hides {c : Copy} {n : Counters} (last : n.lifetime = 1) (blink : c.blink = true)
    (reload : c.blinkReload = 0) : countLifetime c n = { n with lifetime := 0, hidden := true } := by
  simp [countLifetime, last, blink, reload]

theorem Copy.blinkReload_eq_zero (cp : Copy) : cp.blinkReload = 0 ↔ cp[10] = 0#16 :=
  BitVec.toNat_inj (y := 0#16)

/-! ### One record's lifetime count alone -/

/-- Which windows come to the end of an interval at a field start (R69, R70). -/
theorem Slot.blinks_iff (r : Slot) :
    r.blinks = true ↔ r.state = .onAir ∧ r.pending ≠ some 0 ∧ r.counters.lifetime = 1 ∧
      ∃ cp, r.active = some cp ∧ cp[1].getLsbD 7 = true := by
  unfold Slot.blinks Slot.counted
  split
  · next inactive => simp [inactive]
  · next cp active =>
    simp only [active, Option.some.injEq, exists_eq_left', Copy.blink, Bool.and_eq_true, decide_eq_true_eq, and_assoc]

/-- A window whose lifetime runs out either expires or blinks. -/
theorem Slot.blinks_not_expires {r : Slot} (h : r.blinks = true) : r.expires = false := by
  obtain ⟨_, _, _, cp, active, blink⟩ := r.blinks_iff.1 h
  simp [Slot.expires, active, Copy.blink, blink]

/-- A ONCE window that expires: the lifetime is 0 and EXPIRED is set (R66, R67). -/
theorem Slot.countLifetimeOnly_expires {r : Slot} (h : r.expires = true) :
    r.countLifetimeOnly =
      { r with
        counters := { r.counters with lifetime := 0 }
        attention := { r.attention with expired := true } } := by
  obtain ⟨_, _, last, cp, active, once⟩ := r.expires_iff.1 h
  simp only [Slot.countLifetimeOnly, active, countLifetime_once last once, if_pos h, Attention.set]

/-- A BLINK window's count touches its counters alone (R69, R70). -/
theorem Slot.countLifetimeOnly_blinks {r : Slot} {cp : Copy} (h : r.blinks = true) (active : r.active = some cp) :
    r.countLifetimeOnly = { r with counters := countLifetime cp r.counters } := by
  simp [Slot.countLifetimeOnly, active, Slot.blinks_not_expires h]

/-! ### The rows sent alone -/

/-- The attention flag EXPIRED is newly set where it was clear (R68). -/
theorem Attention.newlySet_expired (a : Attention) : a.newlySet { a with expired := true } = !a.expired := by
  simp [Attention.newlySet]

/-- Where there are no marks of a field start, none take a flag (log 16). -/
theorem State.markRaise_noMarks {s : State} (h : s.marks = none) (i : SlotId) (flag : AttentionFlag) :
    (s.markRaise i flag).marks = none := by
  simp [State.markRaise, h]

/-- The lifetime of a ONCE window runs out: its record, the marks and WINDOW change (R66 to R68). -/
theorem State.runOut_eq {s : State} {i : SlotId} (h : (s.slot i).expires = true) :
    (s.markRaise i .expired).modifySlot i Slot.countLifetimeOnly =
      { WithSlot s i
          { s.slot i with
            counters := { (s.slot i).counters with lifetime := 0 }
            attention := { (s.slot i).attention with expired := true } } with
        marks := (s.markRaise i .expired).marks
        events := { s.events with window := s.events.window || !(s.slot i).attention.expired } } := by
  have marked : (s.markRaise i .expired).slot i = s.slot i := s.markRaise_slot i _ i
  simp only [State.modifySlot, marked, Slot.countLifetimeOnly_expires h, Attention.newlySet_expired]
  rfl

/-- R66 sent alone. -/
theorem exec_lifetimeExpiry_due {s : State} {i : SlotId} (expires : (s.slot i).expires = true)
    (keeps : (s.slot i).autoRetires = false) :
    exec (.lifetimeExpiry i) s = .next
      { WithSlot s i
          { s.slot i with
            state := .standby
            counters := { (s.slot i).counters with lifetime := 0 }
            attention := { (s.slot i).attention with expired := true } } with
        stack := s.stack.erase i
        marks := (s.markRaise i .expired).marks
        events := { s.events with window := s.events.window || !(s.slot i).attention.expired } } := by
  simp only [exec, execLifetimeExpiry, expires, keeps, State.runOut_eq expires, State.leaveStack_eq]
  simp [WithSlot, State.slot]

/-- R67 sent alone. -/
theorem exec_expiryAutoRetire_due {s : State} {i : SlotId} (expires : (s.slot i).expires = true)
    (retires : (s.slot i).autoRetires = true) :
    exec (.expiryAutoRetire i) s = .next
      { WithSlot s i (Slot.blank ((s.slot i).gen + 1#4)) with
        stack := s.stack.erase i
        marks := (s.markRaise i .expired).marks
        events := { s.events with window := s.events.window || !(s.slot i).attention.expired } } := by
  simp only [exec, execExpiryAutoRetire, expires, retires, State.runOut_eq expires, State.freeRecord_eq]
  simp [WithSlot, State.slot]

/-- A BLINK window's count sets no attention flag: the slot is written and nothing else changes (R69, R70). -/
theorem State.modifySlot_blinks {s : State} {i : SlotId} {cp : Copy} (h : (s.slot i).blinks = true)
    (active : (s.slot i).active = some cp) :
    s.modifySlot i Slot.countLifetimeOnly =
      WithSlot s i { s.slot i with counters := countLifetime cp (s.slot i).counters } := by
  have only := Slot.countLifetimeOnly_blinks h active
  rw [State.modifySlot_quiet, only]
  rw [only]
  exact Attention.newlySet_self _

/-- R69 sent alone. -/
theorem exec_blinkToggle_due {s : State} {i : SlotId} {cp : Copy} (blinks : (s.slot i).blinks = true)
    (active : (s.slot i).active = some cp) (reload : cp.blinkReload ≠ 0) :
    exec (.blinkToggle i) s =
      .next (WithSlot s i { s.slot i with counters := countLifetime cp (s.slot i).counters }) := by
  have due : (s.slot i).blinks = true ∧ (s.slot i).blinkReload ≠ 0 := ⟨blinks, by simpa [Slot.blinkReload, active]⟩
  simp only [exec, execBlinkToggle, if_pos due, State.modifySlot_blinks blinks active]

/-- R70 sent alone. -/
theorem exec_blinkHide_due {s : State} {i : SlotId} {cp : Copy} (blinks : (s.slot i).blinks = true)
    (active : (s.slot i).active = some cp) (reload : cp.blinkReload = 0) :
    exec (.blinkHide i) s =
      .next (WithSlot s i { s.slot i with counters := countLifetime cp (s.slot i).counters }) := by
  have due : (s.slot i).blinks = true ∧ (s.slot i).blinkReload = 0 := ⟨blinks, by simpa [Slot.blinkReload, active]⟩
  simp only [exec, execBlinkHide, if_pos due, State.modifySlot_blinks blinks active]

/-- Settles O35: the rows by the window's lifetime mode, AUTO-RETIRE and blink reload. -/
theorem lifetimeAndBlinkRunOut : Obligations.LifetimeAndBlinkRunOut := by
  intro s i cp onAir waits active last
  have expires (once : cp[1].getLsbD 7 = false) : (s.slot i).expires = true :=
    (Slot.expires_iff _).2 ⟨onAir, waits, last, cp, active, once⟩
  have blinks (blink : cp[1].getLsbD 7 = true) : (s.slot i).blinks = true :=
    (Slot.blinks_iff _).2 ⟨onAir, waits, last, cp, active, blink⟩
  have retires : (s.slot i).autoRetires = cp[1].getLsbD 8 := by
    simp [Slot.autoRetires, active, Copy.autoRetire]
  have unmarked (h : s.marks = none) := State.markRaise_noMarks h i .expired
  refine ⟨fun once keeps => ?expiry, fun once flag => ?autoRetire, fun blink reload => ?toggle,
    fun blink reload => ?hide⟩
  case expiry => exact ⟨_, unmarked, exec_lifetimeExpiry_due (expires once) (retires.trans keeps)⟩
  case autoRetire => exact ⟨_, unmarked, exec_expiryAutoRetire_due (expires once) (retires.trans flag)⟩
  case toggle =>
    have positive : cp.blinkReload ≠ 0 := mt cp.blinkReload_eq_zero.1 reload
    rw [exec_blinkToggle_due (blinks blink) active positive, countLifetime_toggles last blink positive]
    rfl
  case hide =>
    have zero : cp.blinkReload = 0 := cp.blinkReload_eq_zero.2 reload
    rw [exec_blinkHide_due (blinks blink) active zero, countLifetime_hides last blink zero]

end Sys2Proof.Machine
end

section
/-! The Window Counters at a field start: what they make of a record, and that the rest of the field start keeps it. -/

namespace Sys2Proof.Machine

/-! ### Fade and crawl -/

theorem Copy.fadeTarget_eq (cp : Copy) : cp.fadeTarget = cp[8].toNat % 64 := by
  simp [Copy.fadeTarget, bits]

theorem Copy.fadeStep_eq (cp : Copy) : cp.fadeStep = cp[8].toNat / 256 % 16 := by
  simp [Copy.fadeStep, bits]

/-- A fade up, or one that has reached its target (R72). -/
theorem fadeStep_up {m t : Nat} (k : Nat) (h : m ≤ t) : fadeStep m t k = min (m + k) t := by
  unfold fadeStep
  split
  · omega
  · split
    · omega
    · rw [if_pos (by omega)]

/-- A fade down, or one that has reached its target (R72). -/
theorem fadeStep_down {m t : Nat} (k : Nat) (h : t ≤ m) : fadeStep m t k = max (m - k) t := by
  unfold fadeStep
  split
  · omega
  · split
    · omega
    · rw [if_neg (by omega)]

/-- No crawl, or a halted one (R73, R74). -/
theorem countCrawl_stands {c : Copy} {halted : Bool} (h : c.crawlStep = 0 ∨ halted = true) :
    countCrawl c halted = (c, halted) :=
  if_pos h

/-- An advance that keeps both edges in the title range (R73). -/
theorem countCrawl_advances {c : Copy} (step : c.crawlStep ≠ 0) (fits : crawlFits c = true) :
    countCrawl c false = (c.crawled, false) := by
  simp [countCrawl, step, fits]

/-- An advance that would carry an edge outside the title range halts the crawl (R73, R74). -/
theorem countCrawl_halts {c : Copy} (step : c.crawlStep ≠ 0) (leaves : crawlFits c = false) :
    countCrawl c false = (c, true) := by
  simp [countCrawl, step, leaves]

theorem crawlFits_iff (c : Copy) :
    crawlFits c = true ↔ (-1024 ≤ c.left + c.crawlStep ∧ c.left + c.crawlStep ≤ 1023) ∧
      (-1024 ≤ c.right + c.crawlStep ∧ c.right + c.crawlStep ≤ 1023) := by
  simp [crawlFits]

/-! ### One record's count -/

theorem Slot.counted_iff (r : Slot) : r.counted = true ↔ r.state = .onAir ∧ r.pending ≠ some 0 := by
  simp [Slot.counted]

/-- Lifetime, fade and crawl act together, each on its own values (R64). -/
theorem Slot.count_counted {r : Slot} {cp : Copy} (counted : r.counted = true) (active : r.active = some cp) :
    r.count =
      { r with
        active := some (countCrawl cp r.counters.halted).1
        counters :=
          { mix := fadeStep r.counters.mix cp.fadeTarget cp.fadeStep
            lifetime := (countLifetime cp r.counters).lifetime
            hidden := (countLifetime cp r.counters).hidden
            halted := (countCrawl cp r.counters.halted).2 }
        attention := if r.expires then r.attention.set .expired else r.attention } := by
  simp only [Slot.count, active, if_pos counted]

/-- A record that is not counted stands as it is (R63). -/
theorem Slot.count_uncounted {r : Slot} (h : r.counted = false) : r.count = r := by
  unfold Slot.count
  split
  · rfl
  · rw [if_neg (by simp [h])]

theorem Slot.count_expired {r : Slot} {cp : Copy} (counted : r.counted = true) (active : r.active = some cp) :
    r.count.attention.expired =
      (r.attention.expired || (decide (r.counters.lifetime = 1) && !cp[1].getLsbD 7)) := by
  have expires : r.expires = (decide (r.counters.lifetime = 1) && !cp[1].getLsbD 7) := by
    simp [Slot.expires, active, counted, Copy.blink]
  rw [Slot.count_counted counted active, ← expires]
  cases r.expires <;> simp [Attention.set]

/-! ### Records that keep what the counters made -/

/-- A record's generation, counter values, active copy and EXPIRED flag are the same. -/
structure SameCounts (a b : Slot) : Prop where
  gen : b.gen = a.gen
  counters : b.counters = a.counters
  active : b.active = a.active
  expired : b.attention.expired = a.attention.expired

theorem SameCounts.refl (a : Slot) : SameCounts a a := ⟨rfl, rfl, rfl, rfl⟩

theorem SameCounts.trans {a b c : Slot} (h : SameCounts a b) (k : SameCounts b c) : SameCounts a c :=
  ⟨k.gen.trans h.gen, k.counters.trans h.counters, k.active.trans h.active, k.expired.trans h.expired⟩

/-- Conversion changes a record's derived geometry and CONVERT alone (R78, R87). -/
theorem Slot.convert_counts (r : Slot) (v : Latched) : SameCounts r (r.convert v) := by
  unfold Slot.convert
  split
  · exact .refl r
  · split
    · refine ⟨rfl, rfl, rfl, ?_⟩
      dsimp only
      split <;> rfl
    · exact .refl r

/-- A record that is not adopted keeps its counts through the publication tick (R32). -/
theorem Slot.publicationTick_counts {r : Slot} (waits : r.pending ≠ some 0) : SameCounts r r.publicationTick := by
  have stays : ¬ r.adoptionDue = true := by simp [Slot.adoptionDue, waits]
  rw [Slot.publicationTick, if_neg stays]
  exact ⟨rfl, rfl, rfl, rfl⟩

/-- What the setting of LATE keeps of a record, the engine's work at a field start keeps (R112, R123). -/
theorem State.engineStep_slot_keeps {P : Slot → Prop} (j : SlotId)
    (late : ∀ r, P r → P { r with attention := r.attention.set .late }) (s : State) (h : P (s.slot j)) :
    P (s.engineStep.slot j) := by
  have raise (i : SlotId) (u : State) (hu : P (u.slot j)) : P ((u.raise i .late).slot j) := by
    rw [State.raise, State.modifySlot_slot, State.markRaise_slot, State.markRaise_slot]
    split
    · next same => subst same; exact late _ hu
    · exact hu
  have raiseLate (l : List SlotId) (u : State) (hu : P (u.slot j)) : P ((u.raiseLate l).slot j) := by
    unfold State.raiseLate
    induction l generalizing u with
    | nil => exact hu
    | cons i l ih => exact ih _ (raise i u hu)
  have arbitrate (u : State) : u.arbitrate.slot j = u.slot j := by simp [State.slot]
  unfold State.engineStep
  dsimp only
  split
  · exact h
  · split
    · rw [arbitrate]
      exact raiseLate _ _ h
    · rw [arbitrate]
      exact h

/-! ### The stack's three steps -/

/-- A record's state and its EVICTED flag alone may differ. -/
def Restacked (a b : Slot) : Prop :=
  ∃ x e, b = { a with state := x, attention := { a.attention with evicted := e } }

theorem Restacked.refl (a : Slot) : Restacked a a := ⟨_, _, rfl⟩

theorem Restacked.state (a : Slot) (x : RecState) : Restacked a { a with state := x } := ⟨x, _, rfl⟩

theorem Restacked.trans {a b c : Slot} (h : Restacked a b) (k : Restacked b c) : Restacked a c := by
  obtain ⟨_, _, rfl⟩ := h
  obtain ⟨x, e, rfl⟩ := k
  exact ⟨x, e, rfl⟩

theorem Restacked.counts {a b : Slot} (h : Restacked a b) : SameCounts a b := by
  obtain ⟨_, _, rfl⟩ := h
  exact ⟨rfl, rfl, rfl, rfl⟩

theorem Restacked.pending {a b : Slot} (h : Restacked a b) : b.pending = a.pending := by
  obtain ⟨_, _, rfl⟩ := h
  rfl

theorem State.leaveStack_restacks (s : State) (i j : SlotId) (x : RecState) :
    Restacked (s.slot j) ((s.leaveStack i x).slot j) := by
  rw [State.leaveStack_slot]
  split
  · next same => subst same; exact .state _ x
  · exact .refl _

theorem State.enterStack_restacks (s : State) (i j : SlotId) : Restacked (s.slot j) ((s.enterStack i).slot j) := by
  rw [State.enterStack_slot]
  split
  · next same => subst same; exact .state _ .onAir
  · exact .refl _

theorem State.liftAll_restacks (s : State) (j : SlotId) : Restacked (s.slot j) (s.liftAll.slot j) := by
  rw [State.liftAll_slot]
  split
  · exact .state _ .standby
  · exact .refl _

theorem State.guardStep_restacks (s : State) (j : SlotId) : Restacked (s.slot j) (s.guardStep.slot j) := by
  rw [State.guardStep_slot]
  split
  · exact .state _ .standby
  · exact .refl _

theorem State.evict_restacks (s : State) (i j : SlotId) : Restacked (s.slot j) ((s.evict i).slot j) := by
  rw [State.evict_eq]
  show Restacked _ ((WithSlot s i _).slot j)
  rw [WithSlot_slot]
  split
  · next same => subst same; exact ⟨.standby, true, rfl⟩
  · exact .refl _

theorem State.applyPush_restacks (s : State) (i j : SlotId) (g : Generation) :
    Restacked (s.slot j) ((s.applyPush i g).slot j) := by
  have enters (u : State) := u.enterStack_restacks i j
  unfold State.applyPush
  split
  · exact .refl _
  · split
    · exact enters s
    · split
      · split
        · next e _ => exact (s.evict_restacks e j).trans (enters _)
        · exact enters s
      · exact enters s
    · exact .refl _

/-- The held request applied writes a record's state and EVICTED, or frees it to the next generation (R17, R49 to
R53). -/
theorem State.applyHeld_restacks (s : State) (j : SlotId) :
    Restacked (s.slot j) (s.applyHeld.slot j) ∨ (s.applyHeld.slot j).gen = (s.slot j).gen + 1 := by
  unfold State.applyHeld
  split
  case h_1 => exact .inl (.refl _)
  case h_2 i g _ => exact .inl (s.applyPush_restacks i j g)
  case h_3 i g _ =>
    unfold State.applyLift
    split
    · exact .inl (s.leaveStack_restacks i j .standby)
    · exact .inl (.refl _)
  case h_4 i g _ =>
    have same : (s.applyRaise i g).slot j = s.slot j := by simp [State.slot]
    exact .inl (same ▸ .refl _)
  case h_5 i g _ =>
    have same : (s.applyLower i g).slot j = s.slot j := by simp [State.slot]
    exact .inl (same ▸ .refl _)
  case h_6 =>
    rw [State.applyClearAir, State.finishHeld_slot]
    exact .inl (s.liftAll_restacks j)
  case h_7 i g _ =>
    unfold State.applyRetire
    split
    · show Restacked _ ((s.freeRecord i).slot j) ∨ ((s.freeRecord i).slot j).gen = _
      rw [State.freeRecord_slot]
      split
      · next same => subst same; exact .inr rfl
      · exact .inl (.refl _)
    · exact .inl (.refl _)

/-- The expiries leave a record as it was counted but for its state, or free it to the next generation (R66, R67). -/
theorem State.afterExpiries_restacks (s : State) (i : SlotId) :
    Restacked (s.slot i).count (s.afterExpiries.slot i) ∨ (s.afterExpiries.slot i).gen = (s.slot i).gen + 1 := by
  have gen : (s.slot i).count.gen = (s.slot i).gen := (s.slot i).count_standing.gen
  rw [State.afterExpiries_slot]
  split
  · unfold Slot.removed
    split
    · exact .inr (congrArg (· + 1) gen)
    · exact .inl (.state _ .standby)
  · exact .inl (.refl _)

/-- A field start frees a record at most twice, so one that keeps its generation is not freed: the stack's work leaves
it as it was counted but for its state and EVICTED. -/
theorem State.stackWorked_restacks {s : State} {i : SlotId} (gen : (s.stackWorked.slot i).gen = (s.slot i).gen) :
    Restacked (s.slot i).count (s.stackWorked.slot i) := by
  have counted : (s.slot i).count.gen = (s.slot i).gen := (s.slot i).count_standing.gen
  have expiries := s.beginField.afterExpiries_restacks i
  have guard := s.beginField.afterExpiries.guardStep_restacks i
  have request := s.beginField.beforeHeld.applyHeld_restacks i
  rw [State.beginField_slot] at expiries
  rw [State.stackWorked] at gen ⊢
  rcases expiries with kept | freed
  · have before := kept.trans guard
    rcases request with applied | retired
    · exact before.trans applied
    · rw [retired, State.beforeHeld, before.counts.gen, counted] at gen
      exact absurd gen (Generation.succ_ne _)
  · rcases request with applied | retired
    · rw [applied.counts.gen, State.beforeHeld, guard.counts.gen, freed] at gen
      exact absurd gen (Generation.succ_ne _)
    · rw [retired, State.beforeHeld, guard.counts.gen, freed] at gen
      bv_omega

/-! ### The field start as a whole -/

/-- After the stack's work a field start ticks the record's publication and converts it, and the engine may set LATE:
what these leave, the field start leaves. -/
theorem State.fieldStart_slot_keeps {P : Slot → Prop}
    (late : ∀ r, P r → P { r with attention := r.attention.set .late }) (s : State) (cut : Bool) (i : SlotId) (h : ∀ v, P ((s.stackWorked.slot i).publicationTick.convert v)) :
    P ((s.fieldStart cut).slot i) := by
  have last : (s.fieldStart cut).slot i =
      (s.beginField.recordStep.convertStep.blankingStep cut).engineStep.slot i := by
    simp [State.slot, State.fieldStart]
  rw [last]
  refine State.engineStep_slot_keeps i late _ ?_
  rw [State.blankingStep_slot, State.convertStep, State.mapSlots_slot, State.recordStep_eq, State.publicationStep,
    State.mapSlots_slot]
  exact h _

/-- A record that a field start neither adopts nor frees keeps the counts that the Window Counters give it. -/
theorem State.fieldStart_counts {s : State} {cut : Bool} {i : SlotId} (waits : (s.slot i).pending ≠ some 0)
    (gen : ((s.fieldStart cut).slot i).gen = (s.slot i).gen) :
    SameCounts (s.slot i).count ((s.fieldStart cut).slot i) := by
  have worked : (s.stackWorked.slot i).gen = (s.slot i).gen := by
    rw [← gen, (s.fieldStart_standing cut i).gen, Slot.publicationTick_gen]
  have restacked := State.stackWorked_restacks worked
  have stays : (s.stackWorked.slot i).pending ≠ some 0 := by
    rwa [restacked.pending, (s.slot i).count_standing.pending]
  have late (r : Slot) (h : SameCounts (s.slot i).count r) :
      SameCounts (s.slot i).count { r with attention := r.attention.set .late } := h.trans ⟨rfl, rfl, rfl, rfl⟩
  refine State.fieldStart_slot_keeps late s cut i fun v => ?_
  exact restacked.counts.trans ((Slot.publicationTick_counts stays).trans (Slot.convert_counts _ v))

/-- Settles O36: the record stands at the end of the field start as the Window Counters leave it, and these act by the
cases of the lifetime, the fade and the crawl. -/
theorem fieldStartCounts : Obligations.FieldStartCounts := by
  intro s i
  refine ⟨s.fieldStart false, rfl, fun cp old new onAir waits active hold hnew gen => ?counted,
    fun off waits gen => ?uncounted⟩
  case counted =>
    have counted : (s.slot i).counted = true := (Slot.counted_iff _).2 ⟨onAir, waits⟩
    have same := State.fieldStart_counts waits gen
    have count := Slot.count_counted counted active
    have expired := same.expired.trans (Slot.count_expired counted active)
    have copy : ((s.fieldStart false).slot i).active = some (countCrawl cp old.halted).1 := by
      rw [same.active, count, hold]
    have values := hnew.trans same.counters
    rw [count, ← hold] at values
    rw [← hold] at expired
    subst values
    refine ⟨fun none => ?unlimited, fun more => ?counts, fun last once => ?once,
      fun last blink => ⟨fun reload => ?toggles, fun reload => ?hides⟩, expired, fun target step ht hk => ?fade,
      fun left right step hl hr hs => ?crawl⟩
    case unlimited =>
      rw [countLifetime_unlimited none]
      exact ⟨none, rfl⟩
    case counts =>
      rw [countLifetime_counts more]
      exact ⟨rfl, rfl⟩
    case once =>
      rw [countLifetime_once last once]
      exact ⟨rfl, rfl⟩
    case toggles =>
      rw [countLifetime_toggles last blink (mt cp.blinkReload_eq_zero.1 reload)]
      exact ⟨rfl, rfl⟩
    case hides =>
      rw [countLifetime_hides last blink (cp.blinkReload_eq_zero.2 reload)]
      exact ⟨rfl, rfl⟩
    case fade =>
      rw [cp.fadeTarget_eq, cp.fadeStep_eq, ← ht, ← hk]
      exact ⟨fadeStep_up step, fadeStep_down step⟩
    case crawl =>
      obtain rfl : left = cp.left := hl
      obtain rfl : right = cp.right := hr
      obtain rfl : step = cp.crawlStep := hs
      rw [copy]
      refine ⟨fun stands => ?_, fun moves running => ⟨fun l l' r r' => ?_, fun leaves => ?_⟩⟩
      · rw [countCrawl_stands stands]
        exact ⟨rfl, rfl⟩
      · rw [running, countCrawl_advances moves ((crawlFits_iff cp).2 ⟨⟨l, l'⟩, r, r'⟩)]
        exact ⟨rfl, rfl⟩
      · have stops : crawlFits cp = false := Bool.eq_false_iff.2 (mt (crawlFits_iff cp).1 (by omega))
        rw [running, countCrawl_halts moves stops]
        exact ⟨rfl, rfl⟩
  case uncounted =>
    have uncounted : (s.slot i).counted = false := by simp [Slot.counted, off]
    have same := State.fieldStart_counts waits gen
    rw [Slot.count_uncounted uncounted] at same
    exact ⟨same.counters, same.active⟩

end Sys2Proof.Machine
end

section
/-! Position conversion: the law of derived words over every step, and what rounding, the range policies and the
computer's pixels come to. -/

namespace Sys2Proof.Machine

/-! ### The law of derived words -/

/-- No command by its function code touches the latched values: SET GEOMETRY replaces the set values (R89) and SELECT
the switch, and the latching is a field start's. -/
theorem commandEffect_latched (x : Bool) (code : BitVec 5) (s : State) :
    (commandEffect x code s).tb.latched = s.tb.latched := by
  apply commandEffect_cases (P := fun e => (e s).tb.latched = s.tb.latched)
  case select =>
    unfold selectEffect
    repeat' split
    all_goals simp
  case setGeometry =>
    unfold setGeometryEffect
    split <;> simp
  all_goals intros; simp

/-- A command taken drafts a record, or changes records without converting any: each keeps the laws of the windows. -/
theorem commandEffect_sound (x : Bool) (code : BitVec 5) (s : State) (h : WindowsSound s) :
    WindowsSound (commandEffect x code s) := by
  have standard : (commandEffect x code s).tb.latched.standard = s.tb.latched.standard := by
    rw [commandEffect_latched]
  rcases commandEffect_moves x code s with moves | drafts
  · exact moves.sound standard h
  · exact drafts.sound standard h

/-- After power-on every record is FREE and blank (R22). -/
theorem State.powerOn_sound (s : State) : WindowsSound s.powerOn :=
  ⟨s.powerOn_stackLaw, fun i => by
    rw [State.powerOn_slot]
    exact Slot.blank_sound _ _⟩

/-- Bus reset frees every record, and the timebase's standard stands (R23). -/
theorem State.busReset_sound (s : State) (h : WindowsSound s) : WindowsSound s.busReset := by
  refine ⟨exec_stackLaw (c := .busReset) h.1 rfl, fun i => ?_⟩
  rw [State.busReset_slot]
  by_cases free : (s.slot i).state = .free
  · rw [Slot.busReset_free _ free]
    exact h.2 i
  · rw [Slot.busReset_live _ free]
    exact Slot.blank_sound _ _

/-- The events of the inputs and the end of a computer line keep the laws of the windows: only their field starts
convert, and each converts every record under the values that it latches (R78, R79). -/
theorem State.timing_sound (s : State) (h : WindowsSound s) :
    (∀ x, WindowsSound (s.cutSwitch x)) ∧ (∀ x, WindowsSound (s.slewSwitch x)) ∧ WindowsSound s.computerLineEnd ∧
      (∀ x t, WindowsSound (s.tracked x t)) :=
  State.timing_ind (fun _ _ retimed => retimed.sound) State.fieldStart_sound State.recutFieldStart_sound
    (fun _ hu => Moves.sound (.same (by simp) (by simp)) (by simp) hu) s h

/-- Every command keeps the laws of the windows. -/
theorem exec_windowsSound {c : Instr} {s t : State} (hs : WindowsSound s) (h : exec c s = .next t) :
    WindowsSound t := by
  have keeps {u : State} (moves : Moves (fun _ => False) s u) (latched : u.tb.latched = s.tb.latched) :
      WindowsSound u := moves.sound (by rw [latched]) hs
  obtain ⟨cuts, slews, lineEnd, _⟩ := s.timing_sound hs
  refine exec_ind (P := WindowsSound) h ?self ?powerOn ?busReset ?release ?overrun ?refuse ?taken ?stored ?flags ?mask
    ?pointer ?read ?readRefused ?written ?field ?adoption ?expiry ?autoRetire ?blink ?guard ?applyHeld ?timeout ?settle
    ?beginLine ?takingPoint ?grant ?answerMask ?answerImage ?acknowledge ?busTimeout ?tracked ?cut ?slew ?lineEnd
  case powerOn => exact fun _ => s.powerOn_sound
  case busReset => exact s.busReset_sound hs
  case taken => exact fun code ie _ => commandEffect_sound _ code _ (keeps (.same rfl rfl) rfl)
  case written => exact fun _ _ _ hw => keeps (State.writePointed_moves hw) (by simp [State.writePointed_frame hw])
  case field => exact s.fieldStart_sound false hs
  case adoption => exact fun i due => keeps (s.modifySlot_moves i _ (.adopted _ due) (Slot.adopt_onAir _)) (by simp)
  case expiry =>
    intro i expires
    have onAir := Slot.expires_onAir expires
    refine keeps ((s.modifySlot_moves i _ (.lifetime _ onAir) (by simp)).trans ?_) (by simp)
    exact State.leaveStack_moves _ i _ (by simpa using onAir) (.inl rfl)
  case autoRetire =>
    intro i expires
    have onAir := Slot.expires_onAir expires
    refine keeps ((s.modifySlot_moves i _ (.lifetime _ onAir) (by simp)).trans ?_) (by simp)
    exact State.freeRecord_moves _ i (by simp [onAir])
  case blink =>
    exact fun i blinks => keeps (s.modifySlot_moves i _ (.lifetime _ (Slot.blinks_onAir blinks)) (by simp)) (by simp)
  case guard => exact fun _ => keeps s.guardExpire_moves (by simp)
  case applyHeld => exact keeps s.applyHeld_moves (by simp)
  case beginLine => exact fun l => keeps (s.beginLine_moves l) (by simp)
  case takingPoint => exact keeps s.takingPointReached_moves (by simp)
  case answerImage => exact fun w => keeps (s.answerImage_moves w) (by simp)
  case busTimeout => exact keeps s.busTimeout_moves (by simp)
  case tracked =>
    intro x time t _
    obtain ⟨_, _, _, tracks⟩ := State.timing_sound (s.clockAt time) (keeps (.same rfl rfl) rfl)
    exact tracks x t
  case cut => exact fun x _ => cuts x
  case slew => exact fun x _ => slews x
  case lineEnd => exact lineEnd
  all_goals intros; exact keeps (.same (by simp) (by simp)) (by simp)

/-- Settles O7: the four laws of the windows together are kept by every command, and neither the queue nor the clock
touches a record, the stack or the latched standard. -/
theorem stepKeepsGeometryLaw : Obligations.StepKeepsGeometryLaw := by
  intro s t stack record copy geometry h
  have sound : WindowsSound t :=
    step_keeps (P := WindowsSound) (fun _ _ _ hs h => exec_windowsSound hs h) (fun _ _ hs => hs) (fun _ hs => hs) s t
      ((WindowsSound_iff s).2 ⟨stack, record, copy, geometry⟩) h
  obtain ⟨_, _, _, kept⟩ := (WindowsSound_iff t).1 sound
  exact kept

/-! ### The rounding modes -/

/-- FLOOR takes the whole sample at or below the value (R81). -/
theorem roundSample_floor (x : Int) :
    64 * roundSample .floor x ≤ x ∧ x < 64 * roundSample .floor x + 64 := by
  simp only [roundSample]
  omega

/-- CEILING takes the whole sample at or above the value (R81). -/
theorem roundSample_ceiling (x : Int) :
    x ≤ 64 * roundSample .ceiling x ∧ 64 * roundSample .ceiling x < x + 64 := by
  simp only [roundSample]
  split <;> omega

/-- TRUNCATE goes toward zero: down from the values at or above it (R81). -/
theorem roundSample_truncate_of_nonneg {x : Int} (h : 0 ≤ x) : roundSample .truncate x = roundSample .floor x :=
  if_neg (by omega)

/-- TRUNCATE goes toward zero: up from the values at or below it (R81). -/
theorem roundSample_truncate_of_nonpos {x : Int} (h : x ≤ 0) : roundSample .truncate x = roundSample .ceiling x := by
  simp only [roundSample]
  by_cases whole : x % 64 = 0
  · rw [if_neg (by omega), if_pos whole]
  · rw [if_pos (by omega), if_neg whole]

/-- NEAREST is at most half a sample away, and at half a sample it is even (R81). -/
theorem roundSample_nearest (x : Int) :
    2 * (x - 64 * roundSample .nearest x).natAbs ≤ 64 ∧
      (2 * (x - 64 * roundSample .nearest x).natAbs = 64 → roundSample .nearest x % 2 = 0) := by
  simp only [roundSample]
  split
  · omega
  · split
    · omega
    · split <;> omega

/-! ### The range policies -/

/-- What a window off the raster derives: no position, and the history set (R84 to R86). -/
theorem derive_offRaster {cp : Copy} {v : Latched}
    (h : offRaster cp.strict (roundedEdge cp v cp.left) (roundedEdge cp v cp.right) (cp.top + v.v) (cp.bottom + v.v)
      (v.standard.pictureLines - 1) = true) : (derive cp v).indefinite ∧ (derive cp v).offRaster = true := by
  rw [derive, if_pos h]
  exact ⟨⟨rfl, rfl, rfl, rfl⟩, rfl⟩

/-- What a window on the raster derives: its edges limited to the raster, and the history clear (R84 to R86). -/
theorem derive_drawn {cp : Copy} {v : Latched}
    (h : offRaster cp.strict (roundedEdge cp v cp.left) (roundedEdge cp v cp.right) (cp.top + v.v) (cp.bottom + v.v)
      (v.standard.pictureLines - 1) = false) :
    derive cp v =
      { left := clampTo 0 719 (roundedEdge cp v cp.left), right := clampTo 0 719 (roundedEdge cp v cp.right),
        top := clampTo 0 (v.standard.pictureLines - 1) (cp.top + v.v),
        bottom := clampTo 0 (v.standard.pictureLines - 1) (cp.bottom + v.v),
        maskOrigin := roundedEdge cp v cp.left, rowBase := cp.top + v.v, offRaster := false } :=
  if_neg (by simp [h])

/-- The mask origin is the rounded left, and the row base the shifted top, before any range policy (R83). -/
theorem derive_origin (cp : Copy) (v : Latched) :
    (derive cp v).maskOrigin = roundedEdge cp v cp.left ∧ (derive cp v).rowBase = cp.top + v.v := by
  unfold derive
  dsimp only
  split <;> exact ⟨rfl, rfl⟩

theorem partly_iff {l r t b last : Int} :
    partly l r t b last = true ↔ l < 0 ∨ 719 < r ∨ t < 0 ∨ last < b := by
  simp [partly, Config.lastSample, or_assoc]

theorem wholly_iff {l r t b last : Int} :
    wholly l r t b last = true ↔ r < 0 ∨ 719 < l ∨ b < 0 ∨ last < t := by
  simp [wholly, Config.lastSample, or_assoc]

/-- A value within the range stands. -/
theorem clampTo_within {lo hi x : Int} (hl : lo ≤ x) (hh : x ≤ hi) : clampTo lo hi x = x := by
  rw [clampTo, if_neg (by omega), if_neg (by omega)]

/-- A value that does not pass the upper end is limited at the lower end alone. -/
theorem clampTo_le {lo hi x : Int} (h : x ≤ hi) : clampTo lo hi x = max lo x := by
  unfold clampTo
  split
  · omega
  · rw [if_neg (by omega)]
    omega

/-- A value that does not pass the lower end is limited at the upper end alone. -/
theorem clampTo_ge {lo hi x : Int} (h : lo ≤ x) : clampTo lo hi x = min hi x := by
  unfold clampTo
  rw [if_neg (by omega)]
  split <;> omega

/-! ### The computer's pixels -/

/-- A pixel boundary is FLOOR of its scaled place, shifted by trim and residual (R90). -/
theorem pixelBoundary_floor (v : Latched) (p : Nat) :
    64 * (pixelBoundary v p - v.trim - v.h) ≤ p * v.scale ∧
      (p * v.scale : Int) < 64 * (pixelBoundary v p - v.trim - v.h) + 64 := by
  rw [← Int.natCast_mul, pixelBoundary]
  omega

/-- The pixel boundaries stand in order (R90). -/
theorem pixelBoundary_mono (v : Latched) {p q : Nat} (h : p ≤ q) : pixelBoundary v p ≤ pixelBoundary v q := by
  have scaled : p * v.scale / 64 ≤ q * v.scale / 64 := Nat.div_le_div_right (Nat.mul_le_mul_right _ h)
  unfold pixelBoundary
  omega

/-- A sample between the first boundary and a later one lies in the span of some pixel between them. -/
theorem exists_pixel_span (v : Latched) {sample : Int} (first : pixelBoundary v 0 ≤ sample) (n : Nat)
    (last : sample < pixelBoundary v n) :
    ∃ p, p < n ∧ pixelBoundary v p ≤ sample ∧ sample < pixelBoundary v (p + 1) := by
  induction n with
  | zero => omega
  | succ n ih =>
    by_cases below : sample < pixelBoundary v n
    · obtain ⟨p, hp, span⟩ := ih below
      exact ⟨p, by omega, span⟩
    · exact ⟨n, by omega, by omega, last⟩

/-- The pixel found at a sample is one of the line's 640, and its span holds the sample (R90, R94). -/
theorem pixelAt_some {v : Latched} {sample : Int} {p : Nat} (h : pixelAt v sample = some p) :
    p ≤ 639 ∧ pixelBoundary v p ≤ sample ∧ sample < pixelBoundary v (p + 1) := by
  have span := List.find?_some h
  have listed := List.mem_range.1 (List.mem_of_find?_eq_some h)
  simp only [Bool.and_eq_true, decide_eq_true_eq] at span
  exact ⟨by omega, span⟩

/-- No pixel is found exactly at the samples before the first boundary and from the last one on (R90, R94). -/
theorem pixelAt_none (v : Latched) (sample : Int) :
    pixelAt v sample = none ↔ sample < pixelBoundary v 0 ∨ pixelBoundary v 640 ≤ sample := by
  have search : pixelAt v sample = none ↔
      ∀ p < 640, pixelBoundary v p ≤ sample → pixelBoundary v (p + 1) ≤ sample := by
    simp [pixelAt]
  rw [search]
  constructor
  · intro none
    by_cases before : sample < pixelBoundary v 0
    · exact .inl before
    · refine .inr (Int.not_lt.1 fun last => ?_)
      obtain ⟨p, hp, starts, ends⟩ := exists_pixel_span v (Int.not_lt.1 before) 640 last
      exact Int.not_lt.2 (none p hp starts) ends
  · rintro (before | after) p hp starts
    · have := pixelBoundary_mono v (Nat.zero_le p)
      omega
    · exact Int.le_trans (pixelBoundary_mono v hp) after

/-- Settles O60: the rounding modes go by the fraction, the range policies by their tests, and the spans of the pixels
join at the boundaries. -/
theorem positionsConverted : Obligations.PositionsConverted := by
  refine ⟨fun x => ?modes, fun mode x y h => roundSample_mono mode h,
    fun cp v mode l r t b last hmode hl hr ht hb hlast => ?policies, pixelBoundary_floor,
    fun v sample => ⟨fun p h => pixelAt_some h, pixelAt_none v sample⟩⟩
  case modes =>
    exact ⟨roundSample_floor x, roundSample_ceiling x, roundSample_truncate_of_nonneg, roundSample_truncate_of_nonpos,
      roundSample_nearest x⟩
  case policies =>
    obtain rfl : mode = cp.rounding := hmode
    obtain rfl : l = roundedEdge cp v cp.left := hl
    obtain rfl : r = roundedEdge cp v cp.right := hr
    obtain rfl : t = cp.top + v.v := ht
    obtain rfl : b = cp.bottom + v.v := hb
    subst hlast
    obtain ⟨origin, base⟩ := derive_origin cp v
    refine ⟨origin, base, fun strict => ⟨fun off => ?strictOff, fun l0 r1 t0 b1 lr tb => ?strictOn⟩,
      fun clip => ⟨fun off => ?clipOff, fun r0 l1 b0 t1 _ _ => ?clipOn⟩⟩
    case strictOff =>
      replace strict : cp.strict = true := strict
      exact derive_offRaster (by rw [strict]; exact partly_iff.2 off)
    case strictOn =>
      replace strict : cp.strict = true := strict
      rw [derive_drawn (by rw [strict]; exact Bool.eq_false_iff.2 (mt partly_iff.1 (by omega)))]
      exact ⟨clampTo_within l0 (by omega), clampTo_within (by omega) r1, clampTo_within t0 (by omega),
        clampTo_within (by omega) b1, rfl⟩
    case clipOff =>
      replace clip : cp.strict = false := clip
      exact derive_offRaster (by rw [clip]; exact wholly_iff.2 off)
    case clipOn =>
      replace clip : cp.strict = false := clip
      rw [derive_drawn (by rw [clip]; exact Bool.eq_false_iff.2 (mt wholly_iff.1 (by omega)))]
      exact ⟨clampTo_le l1, clampTo_ge r0, clampTo_le t1, clampTo_ge b0, rfl⟩

end Sys2Proof.Machine
end

section
/-! The engine's take order, arbiter and finished line, by what the statements say of them. -/

namespace Sys2Proof.Machine

/-! ### Take order (R113) -/

/-- The first word of a descriptor's list, where the descriptor is open: its taking point, the place and the word. -/
def Descriptor.headAt (words : Descriptor → List Nat) (place : Nat) (d : Descriptor) : Option (Int × Nat × Nat) :=
  if d.condition = .opened then (words d).head?.map (fun k => (takingPoint d.origin d.left k, place, k)) else none

theorem heads_cons (words : Descriptor → List Nat) (n : Nat) (d : Descriptor) (rest : List Descriptor) :
    heads words n (d :: rest) = (d.headAt words n).toList ++ heads words (n + 1) rest := by
  by_cases opened : d.condition = .opened
  · cases w : words d <;> simp [heads, Descriptor.headAt, opened, w]
  · simp [heads, Descriptor.headAt, opened]

theorem Descriptor.headAt_eq_some {words : Descriptor → List Nat} {n : Nat} {d : Descriptor} {sample : Int}
    {place k : Nat} : d.headAt words n = some (sample, place, k) ↔
      d.condition = .opened ∧ (words d).head? = some k ∧ sample = takingPoint d.origin d.left k ∧ place = n := by
  unfold Descriptor.headAt
  by_cases opened : d.condition = .opened
  · rw [if_pos opened, Option.map_eq_some_iff]
    constructor
    · rintro ⟨j, head, e⟩
      cases e
      exact ⟨opened, head, rfl, rfl⟩
    · rintro ⟨-, head, rfl, rfl⟩
      exact ⟨k, head, rfl⟩
  · simp [opened]

/-- The heads are the first words of the open descriptors, each with its taking point and its place. -/
theorem mem_heads {words : Descriptor → List Nat} {descs : List Descriptor} {n : Nat} {sample : Int} {place k : Nat} :
    (sample, place, k) ∈ heads words n descs ↔
      ∃ q d, descs[q]? = some d ∧ d.condition = .opened ∧ (words d).head? = some k ∧
        sample = takingPoint d.origin d.left k ∧ place = n + q := by
  induction descs generalizing n with
  | nil => simp [heads]
  | cons d rest ih =>
    rw [heads_cons, List.mem_append, Option.mem_toList, Descriptor.headAt_eq_some, ih]
    constructor
    · rintro (⟨opened, head, point, rfl⟩ | ⟨q, x, placed, opened, head, point, rfl⟩)
      · exact ⟨0, d, rfl, opened, head, point, rfl⟩
      · exact ⟨q + 1, x, placed, opened, head, point, by omega⟩
    · rintro ⟨_ | q, x, placed, opened, head, point, rfl⟩
      · cases placed
        exact .inl ⟨opened, head, point, rfl⟩
      · exact .inr ⟨q, x, placed, opened, head, point, by omega⟩

/-- The heads stand in the order of their places. -/
theorem heads_pairwise (words : Descriptor → List Nat) (n : Nat) (descs : List Descriptor) :
    (heads words n descs).Pairwise (fun a b => a.2.1 < b.2.1) := by
  induction descs generalizing n with
  | nil => exact .nil
  | cons d rest ih =>
    rw [heads_cons, List.pairwise_append]
    refine ⟨?_, ih _, ?_⟩
    · cases d.headAt words n <;> simp
    · rintro ⟨_, p, _⟩ first ⟨_, r, _⟩ later
      obtain ⟨-, -, -, rfl⟩ := Descriptor.headAt_eq_some.1 (Option.mem_toList.1 first)
      obtain ⟨q, -, -, -, -, -, rfl⟩ := mem_heads.1 later
      show p < p + 1 + q
      omega

/-- There is no head exactly where no open descriptor has a word. -/
theorem heads_eq_nil {words : Descriptor → List Nat} {n : Nat} {descs : List Descriptor} :
    heads words n descs = [] ↔ ∀ d, d ∈ descs → d.condition = .opened → words d = [] := by
  induction descs generalizing n with
  | nil => simp [heads]
  | cons d rest ih =>
    have head : d.headAt words n = none ↔ (d.condition = .opened → words d = []) := by
      simp [Descriptor.headAt]
    rw [heads_cons, List.append_eq_nil_iff, ih, List.forall_mem_cons, Option.toList_eq_nil_iff, head]

/-- One head comes before another, or is it: by taking point, then by place. -/
def TakenBefore (a b : Int × Nat × Nat) : Prop :=
  a.1 < b.1 ∨ (a.1 = b.1 ∧ a.2.1 ≤ b.2.1)

theorem earliest_eq_none {l : List (Int × Nat × Nat)} : earliest l = none ↔ l = [] := by
  cases l with
  | nil => simp [earliest]
  | cons a rest =>
    cases e : earliest rest with
    | none => simp [earliest, e]
    | some b => by_cases before : a.1 ≤ b.1 <;> simp [earliest, e, before]

/-- What `earliest` finds is one of the heads, and none comes before it. -/
theorem earliest_first {l : List (Int × Nat × Nat)} {a : Int × Nat × Nat}
    (places : l.Pairwise (fun a b => a.2.1 < b.2.1)) (h : earliest l = some a) :
    a ∈ l ∧ ∀ b, b ∈ l → TakenBefore a b := by
  induction l generalizing a with
  | nil => cases h
  | cons x rest ih =>
    obtain ⟨first, places⟩ := List.pairwise_cons.1 places
    cases e : earliest rest with
    | none =>
      obtain rfl : rest = [] := earliest_eq_none.1 e
      obtain rfl : x = a := by simpa [earliest] using h
      simp [TakenBefore]
    | some b =>
      obtain ⟨listed, least⟩ := ih places e
      have xb := first b listed
      by_cases before : x.1 ≤ b.1
      · obtain rfl : x = a := by simpa [earliest, e, before] using h
        refine ⟨List.mem_cons_self, List.forall_mem_cons.2 ⟨.inr ⟨rfl, Nat.le_refl _⟩, fun c hc => ?_⟩⟩
        have xc := first c hc
        have bc := least c hc
        unfold TakenBefore at *
        omega
      · obtain rfl : b = a := by simpa [earliest, e, before] using h
        exact ⟨List.mem_cons_of_mem _ listed, List.forall_mem_cons.2 ⟨.inl (Int.not_le.1 before), least⟩⟩

/-- The first in take order is one word. -/
theorem FirstInTakeOrder.unique {descs : List Descriptor} {words : Descriptor → List Nat} {a b : Int}
    {place k q j : Nat} (h : FirstInTakeOrder descs words a place k) (h' : FirstInTakeOrder descs words b q j) :
    (a, place, k) = (b, q, j) := by
  obtain ⟨d, placed, opened, head, rfl, least⟩ := h
  obtain ⟨x, placed', opened', head', rfl, least'⟩ := h'
  have before := least q j x placed' opened' head'
  have after := least' place k d placed opened head
  obtain rfl : place = q := by omega
  obtain rfl : d = x := Option.some.inj (placed.symm.trans placed')
  obtain rfl : k = j := Option.some.inj (head.symm.trans head')
  rfl

/-- What `earliest` finds of the heads is the first word in take order (R113). -/
theorem earliest_heads {words : Descriptor → List Nat} {descs : List Descriptor} {sample : Int} {place k : Nat} :
    earliest (heads words 0 descs) = some (sample, place, k) ↔ FirstInTakeOrder descs words sample place k := by
  have first {sample : Int} {place k : Nat} (h : earliest (heads words 0 descs) = some (sample, place, k)) :
      FirstInTakeOrder descs words sample place k := by
    obtain ⟨listed, least⟩ := earliest_first (heads_pairwise words 0 descs) h
    obtain ⟨q, d, placed, opened, head, point, rfl⟩ := mem_heads.1 listed
    rw [Nat.zero_add] at least ⊢
    refine ⟨d, placed, opened, head, point, fun r j x placedr openedr headr => ?_⟩
    have before := least _ (mem_heads.2 ⟨r, x, placedr, openedr, headr, rfl, rfl⟩)
    rwa [Nat.zero_add] at before
  refine ⟨first, fun h => ?_⟩
  cases e : earliest (heads words 0 descs) with
  | none =>
    obtain ⟨d, placed, opened, head, -⟩ := h
    have noWord := heads_eq_nil.1 (earliest_eq_none.1 e) d (List.mem_of_getElem? placed) opened
    simp [noWord] at head
  | some a => exact congrArg some ((first e).unique h)

/-- No word is first in take order exactly where no open descriptor has one. -/
theorem earliest_heads_none {words : Descriptor → List Nat} {descs : List Descriptor} :
    earliest (heads words 0 descs) = none ↔ ∀ d, d ∈ descs → d.condition = .opened → words d = [] :=
  earliest_eq_none.trans heads_eq_nil

/-! ### The arbiter and the channel (R115, R121) -/

/-- With a line open, no word is owed exactly where no open descriptor has one to present (R113). -/
theorem Engine.owed_eq_none {e : Engine} (line : e.openLine.isSome = true) :
    e.owed = none ↔ ∀ d, d ∈ e.descs → d.condition = .opened → d.toFetch = [] := by
  rw [Engine.owed, if_pos line, earliest_heads_none]

/-- With a line open, the arbiter has a choice exactly where an operation is ready (R115, R121). -/
theorem State.nextOperation_isSome {s : State} (line : s.engine.openLine.isSome = true) :
    s.nextOperation.isSome = true ↔ OperationReady s := by
  have none_owed := Engine.owed_eq_none line
  unfold State.nextOperation OperationReady
  split
  · next place k owed =>
    have word : ¬ ∀ d, d ∈ s.engine.descs → d.condition = .opened → d.toFetch = [] := by simp [← none_owed, owed]
    have some_word : ∃ d, d ∈ s.engine.descs ∧ d.condition = .opened ∧ d.toFetch ≠ [] := by simpa using word
    have room : s.engine.silo.length + 1 ≤ Config.siloDepth ↔ s.engine.silo.length ≤ 15 := Nat.succ_le_succ_iff
    rw [iff_true_intro some_word, iff_false_intro word, true_and, false_and, or_false, ← room, Option.isSome_ite]
  · next owed =>
    have word := none_owed.1 owed
    have no_word : ¬ ∃ d, d ∈ s.engine.descs ∧ d.condition = .opened ∧ d.toFetch ≠ [] := by simpa using word
    rw [iff_true_intro word, iff_false_intro no_word]
    cases s.port.transfer with
    | none => simp
    | some tr => by_cases last : tr.left = 0 <;> simp [last]

/-- Of the engine, the arbiter changes the channel alone. -/
theorem State.arbitrate_engine (s : State) :
    s.arbitrate.engine = { s.engine with channel := s.arbitrate.engine.channel } := by
  unfold State.arbitrate
  split
  · split <;> rfl
  · split <;> rfl
  · rfl

/-- What is ready is read from the descriptors, the silo and the transfer alone. -/
theorem OperationReady.congr {s t : State} (descs : t.engine.descs = s.engine.descs)
    (silo : t.engine.silo = s.engine.silo) (port : t.port = s.port) : OperationReady t ↔ OperationReady s := by
  unfold OperationReady
  rw [descs, silo, port]

/-- A channel without an operation in flight awaits the bus where the arbiter has a choice, and is idle elsewhere. -/
theorem State.arbitrate_free {s : State} (free : s.engine.channel = .idle ∨ s.engine.channel = .awaiting) :
    s.arbitrate.engine.channel = if s.nextOperation.isSome then .awaiting else .idle := by
  unfold State.arbitrate
  rcases free with free | free <;> cases s.nextOperation.isSome <;> simp [free]

/-- An operation in flight goes on. -/
theorem State.arbitrate_inFlight {s : State} (idle : s.engine.channel ≠ .idle)
    (awaiting : s.engine.channel ≠ .awaiting) : s.arbitrate = s := by
  unfold State.arbitrate
  split
  · exact absurd ‹_› idle
  · exact absurd ‹_› awaiting
  · rfl

/-- With a line open, the channel goes by what is ready (R115, R121). -/
theorem State.arbitrate_arbitrated {s : State} (line : s.engine.openLine.isSome = true) :
    Arbitrated s.engine.channel s.arbitrate := by
  have ready : OperationReady s.arbitrate ↔ s.nextOperation.isSome = true :=
    (OperationReady.congr (by rw [State.arbitrate_engine]) (by rw [State.arbitrate_engine]) (by simp)).trans
      (State.nextOperation_isSome line).symm
  refine ⟨fun free => ?_, fun idle awaiting => by rw [State.arbitrate_inFlight idle awaiting]⟩
  rw [ready, State.busRequest, State.arbitrate_free free]
  exact ⟨fun some => by simp [some], fun none => by simp [none]⟩

/-! ### The finished line (R110) -/

/-- A read for an open descriptor of the open line is in flight. -/
theorem Engine.readPending_eq_false {e : Engine} : e.readPending = false ↔
    ∀ line place k i g a since, e.channel = .maskRead line place k i g a true since →
      ∀ d, e.descs[place]? = some d → d.condition ≠ .opened := by
  unfold Engine.readPending
  constructor
  · intro h line place k i g a since channel d placed
    simpa [channel, placed] using h
  · intro h
    split
    · next place _ _ _ _ channel =>
      split
      · next d placed => simpa using h _ _ _ _ _ _ _ channel d placed
      · rfl
    · rfl

/-- With a line open, the engine has finished it exactly where it is done (R110). -/
theorem Engine.finished_iff {e : Engine} (line : e.openLine.isSome = true) : e.finished = true ↔ LineDone e := by
  rw [LineDone, ← Engine.owed_eq_none line, ← Engine.readPending_eq_false]
  simp [Engine.finished, and_assoc]

/-! ### Dead words (R109, R120) -/

theorem Engine.dead_iff {e : Engine} {w : SiloWord} : e.dead w = true ↔ DeadWord e.descs w := by
  unfold Engine.dead DeadWord
  cases e.descs[w.place]? <;> simp

/-- The purge takes the dead words from the silo's head. -/
theorem State.purge_purgedHead (s : State) : PurgedHead s.engine.descs s.engine.silo s.purge.engine.silo := by
  refine ⟨s.engine.silo.findIdx (fun w => !s.engine.dead w), List.dropWhile_eq_drop_findIdx_not, fun w hw => ?_,
    fun w hw => ?_⟩
  · rw [← List.takeWhile_eq_take_findIdx_not] at hw
    exact Engine.dead_iff.1 (List.all_eq_true.1 List.all_takeWhile w hw)
  · have living := List.head?_dropWhile_not s.engine.dead s.engine.silo
    replace hw : (s.engine.silo.dropWhile s.engine.dead).head? = some w := hw
    rw [hw] at living
    exact mt Engine.dead_iff.2 (Bool.eq_false_iff.1 living)

/-- A change of a descriptor that leaves its condition leaves which words are dead. -/
theorem DeadWord.modify {descs : List Descriptor} {place : Nat} {f : Descriptor → Descriptor} {w : SiloWord}
    (keeps : ∀ d, (f d).condition = d.condition) : DeadWord (descs.modify place f) w ↔ DeadWord descs w := by
  unfold DeadWord
  rw [List.getElem?_modify]
  cases descs[w.place]? with
  | none => simp
  | some d => by_cases e : place = w.place <;> simp [e, keeps]

end Sys2Proof.Machine
end

section
/-! The opening of a line: need order, descriptors, and LATE on the windows beyond the fourth. -/

namespace Sys2Proof.Machine

/-! ### Need order (R111) -/

/-- One window stands before another in need order: by mask origin, then by stack position. -/
def NeededBefore (s : State) (i j : SlotId) : Prop :=
  (s.slot i).geometry.maskOrigin < (s.slot j).geometry.maskOrigin ∨
    ((s.slot i).geometry.maskOrigin = (s.slot j).geometry.maskOrigin ∧ s.stack.idxOf i ≤ s.stack.idxOf j)

/-- A window inserted by mask origin, ahead of windows that all stand lower on the stack, keeps the need order. -/
theorem insertByOrigin_pairwise {s : State} {i : SlotId} {l : List SlotId}
    (higher : ∀ j, j ∈ l → s.stack.idxOf i ≤ s.stack.idxOf j) (sorted : l.Pairwise (NeededBefore s)) :
    (insertByOrigin (fun i => (s.slot i).geometry.maskOrigin) i l).Pairwise (NeededBefore s) := by
  induction l with
  | nil => exact List.pairwise_singleton _ _
  | cons j rest ih =>
    obtain ⟨first, sorted⟩ := List.pairwise_cons.1 sorted
    obtain ⟨higherj, higher⟩ := List.forall_mem_cons.1 higher
    unfold insertByOrigin
    split
    · next origin =>
      refine .cons (List.forall_mem_cons.2 ⟨?_, fun m hm => ?_⟩) (.cons first sorted)
      · unfold NeededBefore
        omega
      · have mj := first m hm
        have im := higher m hm
        unfold NeededBefore at *
        omega
    · next origin =>
      refine .cons (fun m hm => ?_) (ih higher sorted)
      rcases List.mem_cons.1 ((insertByOrigin_perm _ i rest).mem_iff.1 hm) with rfl | hm
      · exact .inl (Int.not_le.1 origin)
      · exact first m hm

/-- A stack without repetitions lists its entries in the order of their positions. -/
theorem pairwise_idxOf {l : List SlotId} (distinct : l.Nodup) :
    l.Pairwise (fun i j => l.idxOf i ≤ l.idxOf j) := by
  rw [List.pairwise_iff_getElem]
  intro m n hm hn lt
  rw [distinct.idxOf_getElem, distinct.idxOf_getElem]
  exact Nat.le_of_lt lt

/-- Windows in stack order, inserted by mask origin from the last to the first, stand in need order. -/
theorem insertAll_pairwise {s : State} {l : List SlotId}
    (positions : l.Pairwise (fun i j => s.stack.idxOf i ≤ s.stack.idxOf j)) :
    (l.foldr (insertByOrigin (fun i => (s.slot i).geometry.maskOrigin)) []).Perm l ∧
      (l.foldr (insertByOrigin (fun i => (s.slot i).geometry.maskOrigin)) []).Pairwise (NeededBefore s) := by
  induction l with
  | nil => exact ⟨.refl _, .nil⟩
  | cons i rest ih =>
    obtain ⟨first, positions⟩ := List.pairwise_cons.1 positions
    obtain ⟨perm, sorted⟩ := ih positions
    exact ⟨(insertByOrigin_perm _ i _).trans (perm.cons i),
      insertByOrigin_pairwise (fun j hj => first j (perm.mem_iff.1 hj)) sorted⟩

/-- The need order is ordered by mask origin, then by stack position (R111). -/
theorem State.needOrder_pairwise {s : State} (distinct : s.stack.Nodup) (line : Nat) :
    (s.needOrder line).Pairwise (NeededBefore s) :=
  (insertAll_pairwise ((pairwise_idxOf distinct).filter _)).2

/-- The mask windows drawn on a line are those that R111 names. -/
theorem State.drawnMask_iff (s : State) (line : Nat) (i : SlotId) :
    s.drawnMask line i = true ↔ MaskDrawn s line i := by
  unfold State.drawnMask MaskDrawn
  dsimp only
  cases active : (s.slot i).active with
  | none => simp
  | some cp => simp [Copy.keyMode_mask, Copy.holdOff, Config.indefinite, and_assoc]

/-! ### Descriptors (R103, R111, R114) -/

theorem mem_neededWords {origin left right : Int} {w k : Nat} : k ∈ neededWords origin left right w ↔
    k < w ∧ 16 * (k : Int) ≤ right - origin ∧ left - origin ≤ 16 * (k : Int) + 15 := by
  simp [neededWords]

theorem neededWords_pairwise (origin left right : Int) (w : Nat) :
    (neededWords origin left right w).Pairwise (· < ·) :=
  List.pairwise_lt_range.filter _

theorem Slot.descriptor_describes {s : State} {i : SlotId} {cp : Copy} (active : (s.slot i).active = some cp)
    (line : Nat) : DescribesLine s line ((s.slot i).descriptor i line cp) :=
  ⟨cp, active, rfl, rfl, rfl, rfl, rfl, rfl, rfl, rfl, neededWords_pairwise _ _ _ _, fun _ => mem_neededWords⟩

/-- The descriptors are those of the windows given, in their order. -/
theorem descriptors_slots {s : State} {line : Nat} {l : List SlotId} (drawn : ∀ i, i ∈ l → s.drawnMask line i = true) :
    (l.filterMap (fun i => (s.slot i).active.map ((s.slot i).descriptor i line))).map (·.slot) = l := by
  induction l with
  | nil => rfl
  | cons i rest ih =>
    obtain ⟨drawni, drawn⟩ := List.forall_mem_cons.1 drawn
    obtain ⟨cp, active, -⟩ := (s.drawnMask_iff line i).1 drawni
    rw [List.filterMap_cons_some (by rw [active]; rfl), List.map_cons, ih drawn]
    rfl

/-- The descriptors built for a line are those of R111, and the windows beyond the fourth are the rest of the need
order. -/
theorem State.buildDescs_lineDescriptors {s : State} (distinct : s.stack.Nodup) (line : Nat) :
    LineDescriptors s line (s.buildDescs line) ((s.needOrder line).drop 4) := by
  have perm := s.needOrder_perm line
  refine ⟨s.needOrder line, perm.nodup_iff.2 (distinct.filter _), fun i => ?_, State.needOrder_pairwise distinct line,
    descriptors_slots fun i hi => (State.needOrder_mem (List.mem_of_mem_take hi)).2, rfl, fun d hd => ?_⟩
  · rw [perm.mem_iff, List.mem_filter, State.drawnMask_iff]
  · obtain ⟨i, -, hd⟩ := List.mem_filterMap.1 hd
    obtain ⟨cp, active, rfl⟩ := Option.map_eq_some_iff.1 hd
    exact Slot.descriptor_describes active line

/-! ### LATE (R112, R117, R171) -/

theorem Attention.newlySet_late (a : Attention) : a.newlySet (a.set .late) = !a.late := by
  simp [Attention.newlySet, Attention.set]

theorem MarksLate.none {s t : State} {p : SlotId → Prop} (slots : ∀ i, t.slot i = s.slot i)
    (events : t.events = s.events) (h : ∀ i, ¬ p i) : MarksLate s t p := by
  refine ⟨fun i => ⟨fun hi => absurd hi (h i), fun _ => slots i⟩, by rw [events], ?_⟩
  rw [events]
  exact ⟨.inl, fun | .inl set => set | .inr ⟨i, hi, _⟩ => absurd hi (h i)⟩

/-- LATE set on a record (R19, R171). -/
theorem State.raise_marksLate (s : State) (i : SlotId) : MarksLate s (s.raise i .late) (· = i) := by
  have slot (j : SlotId) : (s.raise i .late).slot j =
      if j = i then { s.slot i with attention := (s.slot i).attention.set .late } else s.slot j := by
    rw [State.raise_eq]
    exact WithSlot_slot s i j _
  refine ⟨fun j => ⟨?_, fun hj => by rw [slot, if_neg hj]⟩, rfl, ?_⟩
  · rintro rfl
    rw [slot, if_pos rfl]
    rfl
  · rw [State.raise_eq, Attention.newlySet_late]
    simp

theorem MarksLate.trans {s t u : State} {p q : SlotId → Prop} (h : MarksLate s t p) (h' : MarksLate t u q) :
    MarksLate s u (fun i => p i ∨ q i) := by
  obtain ⟨slots, events, window⟩ := h
  obtain ⟨slots', events', window'⟩ := h'
  have late (i : SlotId) : (t.slot i).attention.late = false ↔ ¬ p i ∧ (s.slot i).attention.late = false := by
    by_cases hp : p i
    · simp [(slots i).1 hp, hp]
    · simp [(slots i).2 hp, hp]
  refine ⟨fun i => ⟨fun either => ?_, fun neither => ?_⟩, by rw [events', events], ?_⟩
  · by_cases hq : q i
    · rw [(slots' i).1 hq]
      by_cases hp : p i
      · rw [(slots i).1 hp]
      · rw [(slots i).2 hp]
    · rw [(slots' i).2 hq, (slots i).1 (either.resolve_right hq)]
  · obtain ⟨hp, hq⟩ := not_or.1 neither
    rw [(slots' i).2 hq, (slots i).2 hp]
  · rw [window', window]
    constructor
    · rintro ((set | ⟨i, hp, clear⟩) | ⟨i, hq, clear⟩)
      · exact .inl set
      · exact .inr ⟨i, .inl hp, clear⟩
      · exact .inr ⟨i, .inr hq, ((late i).1 clear).2⟩
    · rintro (set | ⟨i, either, clear⟩)
      · exact .inl (.inl set)
      · by_cases hp : p i
        · exact .inl (.inr ⟨i, hp, clear⟩)
        · exact .inr ⟨i, either.resolve_left hp, (late i).2 ⟨hp, clear⟩⟩

theorem MarksLate.congr {s t : State} {p q : SlotId → Prop} (h : MarksLate s t p) (e : ∀ i, p i ↔ q i) :
    MarksLate s t q :=
  (funext fun i => propext (e i) : p = q) ▸ h

/-- Where LATE alone is set, the records are the same but for their attention flags. -/
theorem MarksLate.sameWindows {s t : State} {p : SlotId → Prop} (h : MarksLate s t p) (stack : t.stack = s.stack) :
    SameWindows s t := by
  refine ⟨stack, fun i => ?_⟩
  by_cases hi : p i
  · rw [(h.1 i).1 hi]
  · rw [(h.1 i).2 hi]

theorem State.raiseLate_marksLate (s : State) (l : List SlotId) : MarksLate s (s.raiseLate l) (· ∈ l) := by
  unfold State.raiseLate
  induction l generalizing s with
  | nil => exact .none (fun _ => rfl) rfl fun _ => List.not_mem_nil
  | cons i rest ih => exact ((s.raise_marksLate i).trans (ih _)).congr fun j => List.mem_cons.symm

/-! ### The line opened (R110 to R112) -/

/-- The channel with its line closed is what `ReadClosed` says (R116). -/
theorem ReadClosed.eq_closeLine {c d : Channel} (h : ReadClosed c d) : d = c.closeLine := by
  cases h with
  | maskRead => rfl
  | other _ h =>
    cases c with
    | maskRead => cases h
    | _ => rfl

/-- A line that is opened sets LATE on the windows beyond the fourth in need order (R112). -/
theorem State.openLine_marksLate (s : State) (line : Nat) :
    MarksLate s (s.openLine line) (· ∈ (s.needOrder line).drop 4) :=
  State.raiseLate_marksLate _ _

/-- A line is opened and the channel goes by what is ready: the engine then (R110, R111, R115, R121). -/
theorem State.openLine_arbitrate_engine (s : State) (line : Nat) :
    (s.openLine line).arbitrate.engine =
      { s.engine with
        openLine := some line, drawn := false, descs := s.buildDescs line
        channel := (s.openLine line).arbitrate.engine.channel } := by
  rw [State.arbitrate_engine, State.openLine_engine]

theorem State.openLine_arbitrated (s : State) (line : Nat) {channel : Channel}
    (closed : ReadClosed s.engine.channel channel) : Arbitrated channel (s.openLine line).arbitrate := by
  have arbitrated := State.arbitrate_arbitrated (s := s.openLine line) (by rw [State.openLine_engine]; rfl)
  rw [closed.eq_closeLine]
  rwa [State.openLine_engine] at arbitrated

/-- The arbiter touches no record and no event flag. -/
theorem MarksLate.arbitrate {s t : State} {p : SlotId → Prop} (h : MarksLate s t p) : MarksLate s t.arbitrate p :=
  (h.trans (.none (p := fun _ => False) (fun i => by simp [State.slot]) (by simp) fun _ => id)).congr
    fun _ => Iff.of_eq (or_false _)

/-- Need order and descriptors go by the windows, the timebase's state and the cut blanking: attention flags do not
matter. -/
theorem State.drawnMask_congr {s t : State} (windows : SameWindows s t) (tb : t.tb = s.tb)
    (blanking : t.keyer.cutBlanking = s.keyer.cutBlanking) (line : Nat) : t.drawnMask line = s.drawnMask line := by
  funext i
  unfold State.drawnMask
  rw [windows.2 i, tb, blanking]

theorem State.needOrder_congr {s t : State} (windows : SameWindows s t) (tb : t.tb = s.tb)
    (blanking : t.keyer.cutBlanking = s.keyer.cutBlanking) (line : Nat) : t.needOrder line = s.needOrder line := by
  have origin : (fun i => (t.slot i).geometry.maskOrigin) = fun i => (s.slot i).geometry.maskOrigin :=
    funext fun i => by rw [windows.2 i]
  rw [State.needOrder, State.drawnMask_congr windows tb blanking, windows.1, origin, State.needOrder]

theorem State.buildDescs_congr {s t : State} (windows : SameWindows s t) (tb : t.tb = s.tb)
    (blanking : t.keyer.cutBlanking = s.keyer.cutBlanking) (line : Nat) : t.buildDescs line = s.buildDescs line := by
  have descriptor : (fun i => (t.slot i).active.map ((t.slot i).descriptor i line)) =
      fun i => (s.slot i).active.map ((s.slot i).descriptor i line) :=
    funext fun i => by rw [windows.2 i]; rfl
  rw [State.buildDescs, State.needOrder_congr windows tb blanking, descriptor, State.buildDescs]

end Sys2Proof.Machine
end

section
/-! The beginning of a picture line (chapter 6): the Keyer's snapshot, and the engine's line. -/

namespace Sys2Proof.Machine

/-! ### The snapshot (R96) -/

theorem LockContext.flywheels_iff (c : LockContext) :
    c.flywheels = true ↔ c.lock = .locked ∨ c.lock = .holdover := by
  simp [LockContext.flywheels]

/-- Without the flywheel the raster's line begins with the line of the timebase's own structure (R95). -/
theorem State.rasterLine_own {s : State} (own : s.programCtx.flywheels = false) : s.rasterLine.1 = s.ownLine.1 := by
  simp [State.rasterLine, own]

theorem State.takeSnapshot_ownAt_flywheel {s : State} (line : Nat) (lock : s.programCtx.flywheels = true) :
    (s.takeSnapshot line).ownAt = none :=
  if_pos lock

theorem State.takeSnapshot_ownAt_own {s : State} (line : Nat) (own : s.programCtx.flywheels = false) :
    (s.takeSnapshot line).ownAt = some (s.rasterLine.1 + s.tb.latched.h) := by
  simp [State.takeSnapshot, own, State.rasterLine_own]

/-- The entries of the snapshot are the stack's windows that have an active copy, top first. -/
theorem State.takeSnapshot_slots (s : State) (line : Nat) :
    (s.takeSnapshot line).entries.map (·.slot) = s.stack.filter (fun i => (s.slot i).active.isSome) := by
  show (s.stack.filterMap _).map _ = _
  induction s.stack with
  | nil => rfl
  | cons i rest ih =>
    cases active : (s.slot i).active with
    | none => simpa [active] using ih
    | some cp => simpa [active, State.snapEntry] using ih

/-- Every entry is the one made of its window's record and active copy. -/
theorem State.mem_takeSnapshot {s : State} {line : Nat} {e : SnapEntry} (h : e ∈ (s.takeSnapshot line).entries) :
    ∃ i cp, (s.slot i).active = some cp ∧ e = s.snapEntry line i cp := by
  obtain ⟨i, -, entry⟩ := List.mem_filterMap.1 h
  obtain ⟨cp, active, rfl⟩ := Option.map_eq_some_iff.1 entry
  exact ⟨i, cp, active, rfl⟩

theorem Copy.keyMode_eq (cp : Copy) :
    cp.keyMode = (match cp[1].toNat % 4 with | 0 => .luma | 1 => .colour | 2 => .mask | _ => .matte) := by
  have mode : bits cp[1] 0 2 = cp[1].toNat % 4 := by simp [bits]
  rw [Copy.keyMode, mode] <;> rfl

/-- A window is described in the snapshot where the engine holds an open descriptor for it on that line. -/
theorem State.snapEntry_described {s : State} {line : Nat} {i : SlotId} {cp : Copy} :
    (s.snapEntry line i cp).described = true ↔
      s.engine.openLine = some line ∧ ∃ d, d ∈ s.engine.descs ∧ d.slot = i ∧ d.condition = .opened := by
  simp [State.snapEntry]

/-! ### The engine's line (R108, R110) -/

/-- The Keyer begins a picture line: the snapshot, and whether the engine's open line is now drawn. -/
def State.draw (s : State) (line : Nat) : State :=
  { s with
    keyer := { s.keyer with snapshot := some (s.takeSnapshot line) }
    engine := { s.engine with drawn := decide (s.engine.openLine = some line) } }

/-- No open descriptor has a needed word left. -/
theorem noWordLeft_iff (descs : List Descriptor) :
    descs.all (fun d => d.toTake.isEmpty || decide (d.condition ≠ .opened)) = true ↔
      ∀ d, d ∈ descs → d.condition = .opened → d.toTake = [] := by
  simp only [List.all_eq_true, Bool.or_eq_true, List.isEmpty_iff, decide_eq_true_eq]
  constructor
  · intro h d listed opened
    exact (h d listed).resolve_right fun other => other opened
  · intro h d listed
    by_cases opened : d.condition = .opened
    · exact .inl (h d listed opened)
    · exact .inr opened

theorem State.beginLine_opens {s : State} {line : Nat} (isOpen : s.engine.openLine = some line)
    (next : line + 1 < s.tb.latched.standard.pictureLines)
    (empty : ∀ d, d ∈ s.engine.descs → d.condition = .opened → d.toTake = []) :
    s.beginLine line = ((s.draw line).openLine (line + 1)).arbitrate :=
  if_pos ⟨isOpen, next, (noWordLeft_iff _).2 empty⟩

theorem State.beginLine_goesOn {s : State} {line : Nat}
    (h : s.engine.openLine ≠ some line ∨ s.tb.latched.standard.pictureLines ≤ line + 1 ∨
      ∃ d, d ∈ s.engine.descs ∧ d.condition = .opened ∧ d.toTake ≠ []) : s.beginLine line = s.draw line := by
  refine if_neg ?_
  rintro ⟨isOpen, next, empty⟩
  rcases h with other | last | ⟨d, listed, opened, word⟩
  · exact other isOpen
  · omega
  · exact word ((noWordLeft_iff _).1 empty d listed opened)

theorem State.beginLine_cases (s : State) (line : Nat) :
    s.beginLine line = ((s.draw line).openLine (line + 1)).arbitrate ∨ s.beginLine line = s.draw line := by
  unfold State.beginLine
  dsimp only
  split
  · exact .inl rfl
  · exact .inr rfl

/-- Beginning a line leaves the windows as they are but for LATE. -/
theorem State.beginLine_sameWindows (s : State) (line : Nat) : SameWindows s (s.beginLine line) := by
  have drawn : MarksLate s (s.draw line) (fun _ => False) := .none (fun _ => rfl) rfl fun _ => id
  rcases s.beginLine_cases line with e | e
  · rw [e]
    exact (drawn.trans (State.openLine_marksLate _ _)).arbitrate.sameWindows (by simp [State.draw])
  · rw [e]
    exact drawn.sameWindows rfl

theorem State.beginLine_keyer (s : State) (line : Nat) :
    (s.beginLine line).keyer = { s.keyer with snapshot := some (s.takeSnapshot line) } := by
  rcases s.beginLine_cases line with e | e <;> simp [e, State.draw]

/-- Settles O43: the snapshot is read off the state entry by entry; the engine opens the next line or goes on, by the
two equations of `State.beginLine`. -/
theorem lineBegins : Obligations.LineBegins := by
  intro s line
  refine ⟨s.beginLine line, s.takeSnapshot line, rfl, s.beginLine_keyer line, rfl, rfl,
    fun lock => State.takeSnapshot_ownAt_flywheel line ((LockContext.flywheels_iff _).2 lock),
    fun locked holdover => State.takeSnapshot_ownAt_own line ?own,
    rfl, rfl, rfl, rfl, rfl, s.takeSnapshot_slots line, fun e he => ?entry,
    fun isOpen next empty => ?opens, fun stays => ?goesOn, ?hostSide, s.beginLine_sameWindows line, ?_⟩
  case own => exact Bool.eq_false_iff.2 (mt (LockContext.flywheels_iff _).1 (not_or.2 ⟨locked, holdover⟩))
  case entry =>
    obtain ⟨i, cp, active, rfl⟩ := State.mem_takeSnapshot he
    exact ⟨cp, active, cp.keyMode_eq, rfl, rfl, rfl, rfl, rfl, rfl, rfl, rfl, rfl, rfl, rfl, rfl, rfl,
      State.snapEntry_described⟩
  case opens =>
    rw [State.beginLine_opens isOpen next empty, State.openLine_arbitrate_engine]
    exact ⟨rfl, rfl, fun channel closed => State.openLine_arbitrated (s.draw line) _ closed⟩
  case goesOn =>
    rw [State.beginLine_goesOn stays]
    exact ⟨fun isOpen => by simp [State.draw, isOpen], fun other => by simp [State.draw, other], rfl, rfl⟩
  case hostSide => simp [SameHostSide]
  simp

end Sys2Proof.Machine
end

section
/-! The taking points of a line (section 6.7, chapter 7): demand, taking, abandonment, and the line after. -/

namespace Sys2Proof.Machine

/-! ### The Keyer's demand (R104) -/

theorem State.demand_drawing {s : State} {line : Nat} (isOpen : s.engine.openLine = some line)
    (drawn : s.engine.drawn = true) (current : s.lineFresh = false) :
    s.demand = earliest (heads Descriptor.toTake 0 s.engine.descs) := by
  simp [State.demand, State.drawing, isOpen, drawn, current]

theorem State.demand_notDrawing {s : State} (h : s.engine.drawn = false ∨ s.lineFresh = true) : s.demand = none := by
  rcases h with h | h <;> simp [State.demand, State.drawing, h]

theorem State.demand_closed {s : State} (closed : s.engine.openLine = none) : s.demand = none := by
  simp [State.demand, closed]

/-! ### A word taken, a window abandoned (R104, R109, R117) -/

/-- The words taken and the words to take change no descriptor's condition. -/
theorem State.takeWord_engine {s : State} {place : Nat} {d : Descriptor} (placed : s.engine.descs[place]? = some d)
    (k : Nat) (w : SiloWord) (rest : List SiloWord) :
    (s.takeWord place k w rest).engine =
      { s.engine with
        descs := s.engine.descs.modify place (fun d => { d with toTake := d.toTake.tail })
        silo := (s.takeWord place k w rest).engine.silo } := by
  simp only [State.takeWord, placed]
  rfl

theorem State.takeWord_keyer {s : State} {place : Nat} {d : Descriptor} (placed : s.engine.descs[place]? = some d)
    (k : Nat) (w : SiloWord) (rest : List SiloWord) :
    (s.takeWord place k w rest).keyer = { s.keyer with snapshot := s.keyer.snapshot.map (fun snap =>
      { snap with entries := snap.entries.map (fun e =>
        if e.slot = d.slot then { e with taken := e.taken ++ [(k, w.data)] } else e) }) } := by
  simp only [State.takeWord, placed]
  rfl

/-- A change of a descriptor that leaves its condition leaves which words a purge takes. -/
theorem PurgedHead.modify {descs : List Descriptor} {place : Nat} {f : Descriptor → Descriptor}
    {before after : List SiloWord} (keeps : ∀ d, (f d).condition = d.condition) :
    PurgedHead (descs.modify place f) before after ↔ PurgedHead descs before after := by
  simp only [PurgedHead, DeadWord.modify keeps]

/-- The dead words behind the word taken are purged (R109). -/
theorem State.takeWord_silo {s : State} {place : Nat} {d : Descriptor} (placed : s.engine.descs[place]? = some d)
    (k : Nat) (w : SiloWord) (rest : List SiloWord) :
    PurgedHead s.engine.descs rest (s.takeWord place k w rest).engine.silo := by
  simp only [State.takeWord, placed]
  exact (PurgedHead.modify (f := fun d => { d with toTake := d.toTake.tail }) fun _ => rfl).1 (State.purge_purgedHead _)

theorem State.abandonWindow_engine {s : State} {place : Nat} {d : Descriptor} (placed : s.engine.descs[place]? = some d)
    (sample : Int) : (s.abandonWindow place sample).engine =
      { s.engine with descs := s.engine.descs.modify place (fun d => { d with condition := .abandoned }) } := by
  simp [State.abandonWindow, placed, Engine.modifyDesc]

theorem State.abandonWindow_keyer {s : State} {place : Nat} {d : Descriptor} (placed : s.engine.descs[place]? = some d)
    (sample : Int) : (s.abandonWindow place sample).keyer = EntryAbandoned s.keyer d.slot sample := by
  simp only [State.abandonWindow, placed, State.raiseLateOf_frame]
  rfl

/-- LATE is set on the record of the window abandoned, where it is still the descriptor's (R117). -/
theorem State.raiseLateOf_marksLate (s : State) (d : Descriptor) :
    MarksLate s (s.raiseLateOf d) (fun i => i = d.slot ∧ (s.slot i).state ≠ .free ∧ (s.slot i).gen = d.gen) := by
  unfold State.raiseLateOf
  by_cases live : s.live d.slot d.gen = true
  · rw [if_pos live]
    simp only [State.live, Bool.and_eq_true, decide_eq_true_eq] at live
    exact (s.raise_marksLate d.slot).congr fun i => ⟨by rintro rfl; exact ⟨rfl, live⟩, And.left⟩
  · rw [if_neg live]
    simp only [State.live, Bool.and_eq_true, decide_eq_true_eq] at live
    exact .none (fun _ => rfl) rfl (by rintro i ⟨rfl, h⟩; exact live h)

theorem State.abandonWindow_marksLate {s : State} {place : Nat} {d : Descriptor}
    (placed : s.engine.descs[place]? = some d) (sample : Int) :
    MarksLate s (s.abandonWindow place sample)
      (fun i => i = d.slot ∧ (s.slot i).state ≠ .free ∧ (s.slot i).gen = d.gen) := by
  simp only [State.abandonWindow, placed]
  exact State.raiseLateOf_marksLate (State.abandonEntry { s with
    engine := s.engine.modifyDesc place (fun d => { d with condition := .abandoned }) } d.slot sample) d

/-! ### The line after (R110) -/

theorem State.advanceLine_done {s : State} {line : Nat} (isOpen : s.engine.openLine = some line)
    (done : LineDone s.engine) (next : line + 1 < s.tb.latched.standard.pictureLines) :
    s.advanceLine = s.openLine (line + 1) := by
  have finished := (Engine.finished_iff (by rw [isOpen]; rfl)).2 done
  simp [State.advanceLine, State.lineAfter, isOpen, next, finished]

theorem State.advanceLine_stays {s : State} {line : Nat} (isOpen : s.engine.openLine = some line)
    (h : ¬ LineDone s.engine ∨ s.tb.latched.standard.pictureLines ≤ line + 1) : s.advanceLine = s := by
  have stays : ¬ (line + 1 < s.tb.latched.standard.pictureLines ∧ s.engine.finished = true) := by
    rw [Engine.finished_iff (by rw [isOpen]; rfl)]
    rintro ⟨next, done⟩
    rcases h with h | h
    · exact h done
    · omega
  simp only [State.advanceLine, State.lineAfter, isOpen, if_neg stays]

/-- Neither the line after nor the arbiter touches the silo. -/
theorem State.advanceLine_silo (s : State) : s.advanceLine.arbitrate.engine.silo = s.engine.silo := by
  rw [State.arbitrate_engine]
  unfold State.advanceLine
  split
  · rw [State.openLine_engine]
  · rfl

/-- A state in which a taking point has done its own work, LATE set on the records of some slots, and the line after is
still to be settled. -/
structure WorkedTakingPoint (s u : State) (late : SlotId → Prop) : Prop where
  marks : MarksLate s u late
  stack : u.stack = s.stack
  tb : u.tb = s.tb
  blanking : u.keyer.cutBlanking = s.keyer.cutBlanking
  openLine : u.engine.openLine = s.engine.openLine
  drawn : u.engine.drawn = s.engine.drawn
  channel : u.engine.channel = s.engine.channel

theorem State.takeWord_worked {s : State} {place : Nat} {d : Descriptor} (placed : s.engine.descs[place]? = some d)
    (k : Nat) (w : SiloWord) (rest : List SiloWord) {late : SlotId → Prop} (noLate : ∀ i, ¬ late i) :
    WorkedTakingPoint s (s.takeWord place k w rest) late where
  marks := .none (fun i => by simp [State.slot]) (by simp) noLate
  stack := by simp
  tb := by simp
  blanking := by rw [State.takeWord_keyer placed]
  openLine := by rw [State.takeWord_engine placed]
  drawn := by rw [State.takeWord_engine placed]
  channel := by rw [State.takeWord_engine placed]

theorem State.abandonWindow_worked {s : State} {place : Nat} {d : Descriptor} (placed : s.engine.descs[place]? = some d)
    (sample : Int) {late : SlotId → Prop}
    (isLate : ∀ i, late i ↔ i = d.slot ∧ (s.slot i).state ≠ .free ∧ (s.slot i).gen = d.gen) :
    WorkedTakingPoint s (s.abandonWindow place sample) late where
  marks := (State.abandonWindow_marksLate placed sample).congr fun i => (isLate i).symm
  stack := by simp
  tb := by simp
  blanking := by
    rw [State.abandonWindow_keyer placed]
    rfl
  openLine := by rw [State.abandonWindow_engine placed]
  drawn := by rw [State.abandonWindow_engine placed]
  channel := by rw [State.abandonWindow_engine placed]

section
variable {s u : State} {late : SlotId → Prop} {line : Nat}

/-- Only LATE may differ in the records once the line after is settled. -/
theorem WorkedTakingPoint.sameWindows (h : WorkedTakingPoint s u late) : SameWindows s u.advanceLine.arbitrate := by
  have stack : u.advanceLine.arbitrate.stack = s.stack := by simp [h.stack]
  revert stack
  unfold State.advanceLine
  split
  · exact (h.marks.trans (State.openLine_marksLate _ _)).arbitrate.sameWindows
  · exact h.marks.arbitrate.sameWindows

/-- Where the line is done and is not the last, the next is opened (R110 to R112). -/
theorem WorkedTakingPoint.opensNext (h : WorkedTakingPoint s u late) (law : StackLaw s)
    (isOpen : s.engine.openLine = some line) (done : LineDone u.engine)
    (next : line + 1 < s.tb.latched.standard.pictureLines) :
    ∃ more, u.advanceLine.arbitrate.engine.openLine = some (line + 1) ∧ u.advanceLine.arbitrate.engine.drawn = false ∧
      (∀ channel, ReadClosed s.engine.channel channel → Arbitrated channel u.advanceLine.arbitrate) ∧
      LineDescriptors s (line + 1) u.advanceLine.arbitrate.engine.descs more ∧
      MarksLate s u.advanceLine.arbitrate (fun i => late i ∨ i ∈ more) := by
  have windows := h.marks.sameWindows h.stack
  rw [State.advanceLine_done (h.openLine.trans isOpen) done (by rwa [h.tb]), State.openLine_arbitrate_engine]
  refine ⟨(s.needOrder (line + 1)).drop 4, rfl, rfl,
    fun channel closed => State.openLine_arbitrated u _ (by rwa [h.channel]), ?descriptors, ?marks⟩
  case descriptors =>
    show LineDescriptors s (line + 1) (u.buildDescs (line + 1)) _
    rw [State.buildDescs_congr windows h.tb h.blanking]
    exact State.buildDescs_lineDescriptors law.1 _
  case marks =>
    rw [← State.needOrder_congr windows h.tb h.blanking]
    exact (h.marks.trans (State.openLine_marksLate u _)).arbitrate

/-- Else the engine goes on with its line (R110, R115, R121). -/
theorem WorkedTakingPoint.staysOnLine (h : WorkedTakingPoint s u late) (isOpen : s.engine.openLine = some line)
    (stays : ¬ LineDone u.engine ∨ s.tb.latched.standard.pictureLines ≤ line + 1) :
    u.advanceLine.arbitrate.engine.openLine = some line ∧
      u.advanceLine.arbitrate.engine.drawn = s.engine.drawn ∧
      u.advanceLine.arbitrate.engine.descs = u.engine.descs ∧
      Arbitrated s.engine.channel u.advanceLine.arbitrate ∧ MarksLate s u.advanceLine.arbitrate late := by
  have isOpen' := h.openLine.trans isOpen
  rw [State.advanceLine_stays isOpen' (by rwa [h.tb]), ← h.channel, State.arbitrate_engine]
  exact ⟨isOpen', h.drawn, rfl, State.arbitrate_arbitrated (by rw [isOpen']; rfl), h.marks.arbitrate⟩

end

/-! ### The taking point (R104) -/

theorem State.takingPointReached_none {s : State} (demand : s.demand = none) : s.takingPointReached = s := by
  simp only [State.takingPointReached, demand]

theorem State.takingPointReached_takes {s : State} {sample : Int} {place k : Nat} {w : SiloWord} {rest : List SiloWord}
    (demand : s.demand = some (sample, place, k)) (silo : s.engine.silo = w :: rest) :
    s.takingPointReached = (s.takeWord place k w rest).advanceLine.arbitrate := by
  simp only [State.takingPointReached, demand, silo]

theorem State.takingPointReached_abandons {s : State} {sample : Int} {place k : Nat}
    (demand : s.demand = some (sample, place, k)) (silo : s.engine.silo = []) :
    s.takingPointReached = (s.abandonWindow place sample).advanceLine.arbitrate := by
  simp only [State.takingPointReached, demand, silo]

/-- Settles O45: the demand is the first in take order; the taking point's own work is a word taken or a window
abandoned, and the line after follows from either alike. -/
theorem takingPointTakesOrAbandons : Obligations.TakingPointTakesOrAbandons := by
  refine ⟨fun s l isOpen => ⟨fun drawn current sample place k => ?demand, State.demand_notDrawing⟩,
    fun s => State.demand_closed, fun s none => ?nothing, fun s sample place k l d law demand placed isOpen => ?lines,
    fun s sample place k d demand placed => ⟨fun w rest silo => ?takes, fun silo => ?abandons⟩⟩
  case demand =>
    rw [State.demand_drawing isOpen drawn current]
    exact earliest_heads
  case nothing => exact congrArg _ (State.takingPointReached_none none)
  case lines =>
    cases silo : s.engine.silo with
    | nil =>
      refine ⟨_, congrArg Host.Outcome.next (State.takingPointReached_abandons demand silo), by simp [SameHostSide],
        (State.abandonWindow_worked placed sample fun _ => Iff.rfl).sameWindows, by simp, by simp, by simp,
        fun late e work => ?_⟩
      obtain ⟨-, rfl, isLate⟩ := work.resolve_left (by simp)
      rw [← State.abandonWindow_engine placed sample]
      have worked := State.abandonWindow_worked placed sample isLate
      exact ⟨worked.opensNext law isOpen, worked.staysOnLine isOpen⟩
    | cons w rest =>
      refine ⟨_, congrArg Host.Outcome.next (State.takingPointReached_takes demand silo), by simp [SameHostSide],
        (State.takeWord_worked placed k w rest (late := fun _ => False) fun _ => id).sameWindows, by simp, by simp,
        by simp, fun late e work => ?_⟩
      obtain ⟨v, others, -, -, rfl, noLate⟩ := work.resolve_right (by simp)
      rw [State.advanceLine_silo, ← State.takeWord_engine placed k w rest]
      have worked := State.takeWord_worked placed k w rest noLate
      exact ⟨worked.opensNext law isOpen, worked.staysOnLine isOpen⟩
  case takes =>
    refine ⟨_, congrArg Host.Outcome.next (State.takingPointReached_takes demand silo), ?_, ?_⟩
    · rw [State.advanceLine_silo]
      exact State.takeWord_silo placed k w rest
    · simp [State.takeWord_keyer placed]
  case abandons =>
    refine ⟨_, congrArg Host.Outcome.next (State.takingPointReached_abandons demand silo), ?_, ?_⟩
    · rw [State.advanceLine_silo, State.abandonWindow_engine placed]
      exact silo
    · simp [State.abandonWindow_keyer placed]

end Sys2Proof.Machine
end

section
/-! Keying and composition (chapter 6): key tests, mask bits, the mix, the order of composition and the output. -/

namespace Sys2Proof.Machine

/-! ### Pixels and key tests (R93, R99 to R101, R103) -/

theorem Pixel.luma_le (p : Pixel) : p.luma ≤ 255 := by
  have red := p.red.isLt
  have green := p.green.isLt
  have blue := p.blue.isLt
  unfold Pixel.luma
  omega

/-- Only white has the greatest luma. -/
theorem Pixel.luma_white (p : Pixel) : 255 ≤ p.luma ↔ p.red = 15#4 ∧ p.green = 15#4 ∧ p.blue = 15#4 := by
  have red := p.red.isLt
  have green := p.green.isLt
  have blue := p.blue.isLt
  simp only [Pixel.luma, ← BitVec.toNat_inj, BitVec.toNat_ofNat]
  omega

theorem SnapEntry.key_luma {e : SnapEntry} (mode : e.mode = .luma) (p : Pixel) (sample : Int) :
    (e.passes p sample = true ↔ e.keyValue ≤ p.luma) ∧ e.source p = p.source := by
  simp [SnapEntry.passes, SnapEntry.source, mode]

theorem SnapEntry.key_colour {e : SnapEntry} (mode : e.mode = .colour) (p : Pixel) (sample : Int) :
    (e.passes p sample = true ↔ p.index.toNat ≠ e.keyValue) ∧ e.source p = p.source := by
  simp [SnapEntry.passes, SnapEntry.source, mode]

theorem SnapEntry.key_matte {e : SnapEntry} (mode : e.mode = .matte) (p : Pixel) (sample : Int) :
    e.passes p sample = true ∧ e.source p = { red := e.keyValue, green := e.keyValue, blue := e.keyValue } := by
  simp [SnapEntry.passes, SnapEntry.source, mode]

theorem SnapEntry.key_mask {e : SnapEntry} (mode : e.mode = .mask) (p : Pixel) (sample : Int) :
    (e.passes p sample = true ↔ e.maskBit sample = true) ∧ e.source p = p.source := by
  simp [SnapEntry.passes, SnapEntry.source, mode]

/-! ### Mask bits (R103) -/

/-- Bit n of word k, counted from the top, lies at sample 16 k + n from the mask origin; beyond the words of the line it
reads 0. -/
theorem SnapEntry.maskBit_at (e : SnapEntry) (k : Nat) {n : Nat} (hn : n ≤ 15) :
    e.maskBit (e.maskOrigin + (16 * k + n : Nat)) =
      if e.wordsPerLine ≤ k then false
      else ((e.taken.find? (fun t => decide (t.1 = k))).map (fun t => t.2.getLsbD (15 - n))).getD false := by
  have offset : e.maskOrigin + ((16 * k + n : Nat) : Int) - e.maskOrigin = (16 * k + n : Nat) := by omega
  have word : ((16 * k + n : Nat) : Int) / 16 = k := by omega
  have place : (((16 * k + n : Nat) : Int) % 16).toNat = n := by omega
  have beyond : (((16 * k + n : Nat) : Int) < 0 ∨ 16 * (e.wordsPerLine : Int) ≤ (16 * k + n : Nat)) ↔
      e.wordsPerLine ≤ k := by omega
  simp only [SnapEntry.maskBit, offset, word, place, beyond, Int.natCast_inj]
  split
  · rfl
  · cases e.taken.find? (fun t => decide (t.1 = k)) <;> rfl

/-- Left of the mask origin every bit reads 0. -/
theorem SnapEntry.maskBit_before {e : SnapEntry} {sample : Int} (before : sample < e.maskOrigin) :
    e.maskBit sample = false :=
  if_pos (.inl (by omega))

/-- The first of the words taken under a number is the one its bits are read from. -/
theorem find?_taken {taken before after : List (Nat × Word)} {k : Nat} {w : Word}
    (split : taken = before ++ (k, w) :: after) (first : ∀ b, b ∈ before → b.1 ≠ k) :
    taken.find? (fun t => decide (t.1 = k)) = some (k, w) := by
  have none : before.find? (fun t => decide (t.1 = k)) = none :=
    List.find?_eq_none.2 fun b hb => by simpa using first b hb
  simp [split, none]

/-! ### The mix and the order of composition (R97, R98, R102) -/

theorem mixComponent_up {x c : Int} (m : Nat) (h : x ≤ c) : mixComponent x c m = x + (c - x) * m / 63 := by
  rw [mixComponent, Int.tdiv_eq_ediv_of_nonneg (Int.mul_nonneg (by omega) (by omega))]

theorem mixComponent_down {x c : Int} (m : Nat) (h : c ≤ x) : mixComponent x c m = x - (x - c) * m / 63 := by
  have nonneg : 0 ≤ (x - c) * m := Int.mul_nonneg (by omega) (by omega)
  have neg : (c - x) * m = -((x - c) * m) := by rw [← Int.neg_mul, Int.neg_sub]
  rw [mixComponent, neg, Int.neg_tdiv, Int.tdiv_eq_ediv_of_nonneg nonneg, ← Int.sub_eq_add_neg]

/-- The part of a difference that a mix level takes lies between none and all of it. -/
theorem mixShare_within {d : Int} {m : Nat} (hd : 0 ≤ d) (hm : m ≤ 63) : 0 ≤ d * m / 63 ∧ d * m / 63 ≤ d := by
  have nonneg : 0 ≤ d * m := Int.mul_nonneg hd (by omega)
  have whole : d * m ≤ d * 63 := Int.mul_le_mul_of_nonneg_left (by omega) hd
  omega

theorem mixComponent_full (x c : Int) : mixComponent x c 63 = c := by
  have whole : ((c - x) * (63 : Nat)).tdiv 63 = c - x := Int.mul_tdiv_cancel _ (by decide)
  rw [mixComponent, whole]
  omega

theorem mixComponent_zero (x c : Int) : mixComponent x c 0 = x := by
  simp [mixComponent]

/-- The top entry of a snapshot is laid over what those below it compose to (R98). -/
theorem Snapshot.compose_cons (snap : Snapshot) (base : Colour) (p : Pixel) (sample : Int) (e : SnapEntry)
    (below : List SnapEntry) :
    { snap with entries := e :: below }.compose base p sample =
      (if snap.contributes e sample = true ∧ e.passes p sample = true then
        ({ snap with entries := below }.compose base p sample).mix (e.source p) e.mix
      else { snap with entries := below }.compose base p sample) := by
  show Snapshot.lay _ p sample e _ = _
  simp only [Snapshot.lay, Bool.and_eq_true]
  rfl

theorem Snapshot.contributes_iff (snap : Snapshot) (e : SnapEntry) (sample : Int) :
    snap.contributes e sample = true ↔
      e.left ≠ -32768 ∧ e.top ≤ snap.line ∧ (snap.line : Int) ≤ e.bottom ∧ e.left ≤ sample ∧ sample ≤ e.right ∧
        e.hidden = false ∧ (e.holdOff = false ∨ snap.follow = true) ∧
        (∀ a, e.abandonedFrom = some a → sample < a) ∧ snap.blanked = false ∧
        (e.mode = .mask → e.described = true) := by
  have described : (decide (e.mode ≠ .mask) || e.described) = true ↔ (e.mode = .mask → e.described = true) := by
    by_cases mode : e.mode = .mask
    · simp only [mode, ne_eq, not_true_eq_false, decide_false, Bool.false_or, true_implies]
    · simp only [mode, ne_eq, not_false_eq_true, decide_true, Bool.true_or, false_implies]
  unfold Snapshot.contributes
  cases abandoned : e.abandonedFrom <;>
    simp only [Bool.and_eq_true, described, decide_eq_true_eq, Bool.not_eq_true', Bool.or_eq_true, and_assoc, ne_eq,
      Config.indefinite, Option.some.injEq, forall_eq', reduceCtorEq, false_implies, implies_true, true_and]

/-! ### The pixel and the base of a point (R94, R95) -/

theorem Snapshot.pixel_some {snap : Snapshot} {frame : Nat → Nat → Pixel} {sample : Int} {title p : Nat}
    (line : (title : Int) = snap.line - snap.latched.v) (inPicture : title ≤ 287)
    (pixel : pixelAt snap.latched sample = some p) : snap.pixel frame sample = frame title p := by
  have titleLine : titleLineAt snap.latched snap.line = some title := by
    rw [titleLineAt, if_pos (by omega), ← line, Int.toNat_natCast]
  simp only [Snapshot.pixel, titleLine, pixel]

theorem Snapshot.pixel_none {snap : Snapshot} {frame : Nat → Nat → Pixel} {sample : Int}
    (h : (snap.line : Int) < snap.latched.v ∨ 287 < (snap.line : Int) - snap.latched.v ∨
      pixelAt snap.latched sample = none) : snap.pixel frame sample = Pixel.black := by
  unfold Snapshot.pixel
  split
  · next title p line pixel =>
    rcases h with above | below | none
    · rw [titleLineAt, if_neg (by omega)] at line
      cases line
    · rw [titleLineAt, if_neg (by omega)] at line
      cases line
    · rw [none] at pixel
      cases pixel
  · rfl

/-! ### The output (R95) -/

theorem State.activePoint_eq_some {s : State} {snap : Snapshot} {sample : Int} :
    s.activePoint = some (snap, sample) ↔ s.keyer.snapshot = some snap ∧ s.lineFresh = false ∧
      sample = (s.now : Int) - snap.beganAt - snap.latched.standard.activeStart ∧
      snap.line < snap.latched.standard.pictureLines ∧ 0 ≤ sample ∧ sample ≤ 719 := by
  unfold State.activePoint
  cases s.keyer.snapshot with
  | none => simp
  | some began =>
    dsimp only [Snapshot.samplePosition, Config.lastSample]
    rw [Option.ite_none_right_eq_some, Option.some.injEq, Option.some.injEq, Prod.mk.injEq]
    constructor
    · rintro ⟨active, rfl, rfl⟩
      exact ⟨rfl, active.1, rfl, active.2⟩
    · rintro ⟨rfl, begun, rfl, active⟩
      exact ⟨⟨begun, active⟩, rfl, rfl⟩

theorem State.keyedSignal_active {s : State} {snap : Snapshot} {sample : Int}
    (active : s.activePoint = some (snap, sample)) (frame : Nat → Nat → Pixel) (picture : Input → Colour) :
    s.keyedSignal frame picture = .composed (snap.keyedOutput frame picture sample) := by
  simp only [State.keyedSignal, active]

theorem State.keyedSignal_inactive {s : State} (none : s.activePoint = none) (frame : Nat → Nat → Pixel)
    (picture : Input → Colour) : s.keyedSignal frame picture =
      if (s.ctx s.tb.program).lock = .noSignal then .timebaseBlack else .received s.tb.program := by
  simp only [State.keyedSignal, none]
  rfl

/-- Settles O59: each clause is the lemma that says what its part of the Keyer computes. -/
theorem keyTestsAndMix : Obligations.KeyTestsAndMix := by
  refine ⟨fun p => ⟨rfl, p.luma_le, rfl⟩, fun e p sample => ⟨fun mode => ?luma, fun mode => ?colour, fun mode => ?matte,
    fun mode => SnapEntry.key_mask mode p sample⟩, fun x c m hm => ?mix, fun snap base p sample e below => ?compose,
    Snapshot.contributes_iff, fun e k n hn => ?maskBits, fun snap frame picture sample => ?point,
    fun s frame picture active isActive => ?output⟩
  case luma =>
    obtain ⟨passes, source⟩ := SnapEntry.key_luma mode p sample
    exact ⟨passes, source, fun least => passes.2 (by omega), fun greatest => by rw [passes, greatest, p.luma_white]⟩
  case colour => exact SnapEntry.key_colour mode p sample
  case matte => exact SnapEntry.key_matte mode p sample
  case mix =>
    refine ⟨mixComponent_full x c, mixComponent_zero x c, fun up => ?_, fun down => ?_⟩
    · have share := mixShare_within (Int.sub_nonneg_of_le up) hm
      rw [mixComponent_up m up]
      omega
    · have share := mixShare_within (Int.sub_nonneg_of_le down) hm
      rw [mixComponent_down m down]
      omega
  case compose => exact ⟨rfl, snap.compose_cons base p sample e below⟩
  case maskBits =>
    rw [SnapEntry.maskBit_at e k hn]
    refine ⟨fun before after w split first within => ?_, fun untaken => ?_, fun beyond => if_pos beyond,
      fun sample => SnapEntry.maskBit_before⟩
    · rw [if_neg (Nat.not_le.2 within), find?_taken split first]
      rfl
    · have none : e.taken.find? (fun t => decide (t.1 = k)) = none :=
        List.find?_eq_none.2 fun b hb => by simpa using untaken b hb
      rw [none]
      exact ite_self _
  case point =>
    exact ⟨fun title p => Snapshot.pixel_some, Snapshot.pixel_none,
      fun noSignal => by simp only [Snapshot.keyedOutput, Snapshot.base, if_pos noSignal, Colour.black],
      fun signal => by simp only [Snapshot.keyedOutput, Snapshot.base, signal, Bool.false_eq_true, if_false]⟩
  case output =>
    have point (snap : Snapshot) (sample : Int) : active snap sample ↔ s.activePoint = some (snap, sample) := by
      rw [isActive, State.activePoint_eq_some]
      cases snap.latched.standard <;> rfl
    refine ⟨fun snap sample h => State.keyedSignal_active ((point snap sample).1 h) frame picture, fun inactive => ?_⟩
    have none : s.activePoint = none :=
      Option.eq_none_iff_forall_ne_some.2 fun a h => inactive a.1 a.2 ((point a.1 a.2).2 h)
    rw [State.keyedSignal_inactive none]
    exact ⟨fun noSignal => if_pos noSignal, fun signal => if_neg signal⟩

end Sys2Proof.Machine
end

section
/-! The silo over every step (section 7.1): its bound, and first in, first out. -/

namespace Sys2Proof.Machine

/-- From a state within the engine's bounds: the next is within them too, and the silo's words keep their order, some
taken from the head and at most one put at the tail (R109). -/
def Queues (s t : State) : Prop :=
  EngineLaw s → EngineLaw t ∧
    ∃ (n : Nat) (l : List SiloWord), l.length ≤ 1 ∧ t.engine.silo = (s.engine.silo ++ l).drop n

theorem Drains.queues {s t : State} (h : Drains s t) : Queues s t := fun law => by
  obtain ⟨bounds, n, silo⟩ := h law
  exact ⟨bounds, n, [], Nat.zero_le 1, by rw [silo, List.append_nil]⟩

/-- A stopped engine is within its bounds, and every word has left its silo (R124). -/
theorem Drains.stopped {s t : State} (h : t.engine = Engine.stopped) : Drains s t := fun _ => by
  rw [h]
  exact ⟨⟨by decide, by decide, by decide⟩, s.engine.silo.length, List.drop_length.symm⟩

theorem State.answerImage_drains (s : State) (word : Word) : Drains s (s.answerImage word) := by
  unfold State.answerImage
  split
  · next t _ _ => exact Drains.trans (.same (by simp)) (State.nextOnBus_drains (s.wordArrived t word))
  · exact .refl s

theorem State.acknowledgeImage_drains (s : State) : Drains s s.acknowledgeImage := by
  unfold State.acknowledgeImage
  split
  · next t _ _ => exact Drains.trans (.same (by simp)) (State.nextOnBus_drains (s.stepPointer.wordMoved t))
  · exact .refl s

/-- The events of the inputs and the end of a computer line reach the engine through field starts alone. -/
theorem State.timing_drains {s u : State} (h : Drains s u) :
    (∀ x, Drains s (u.cutSwitch x)) ∧ (∀ x, Drains s (u.slewSwitch x)) ∧ Drains s u.computerLineEnd ∧
      (∀ x t, Drains s (u.tracked x t)) :=
  State.timing_ind (P := Drains s) (fun _ _ ⟨⟨_, _, _, _, _, _, engine, _⟩, _⟩ hu => hu.trans (.same engine))
    (fun v cut hv => hv.trans (v.fieldStart_drains cut)) (fun v hv => hv.trans v.recutFieldStart_drains)
    (fun _ hv => hv.trans (.same (by simp))) u h

/-- Every command keeps the silo a queue within its bounds: an answered mask read puts a word at its tail, and every
other command at most takes words from its head (R109). -/
theorem exec_queues {c : Instr} {s t : State} (h : exec c s = .next t) : Queues s t := by
  obtain ⟨cuts, slews, lineEnd, _⟩ := State.timing_drains (.refl s)
  refine exec_ind (P := Queues s) h ?self ?powerOn ?busReset ?release ?overrun ?refuse ?taken ?stored ?flags ?mask
    ?pointer ?read ?readRefused ?written ?field ?adoption ?expiry ?autoRetire ?blink ?guard ?applyHeld ?timeout ?settle
    ?beginLine ?takingPoint ?grant ?answerMask ?answerImage ?acknowledge ?busTimeout ?tracked ?cut ?slew ?lineEnd
  case answerMask => exact fun w law => s.answerMask_silo w law
  case powerOn => exact fun _ => Drains.queues (.stopped rfl)
  case busReset => exact Drains.queues (.stopped rfl)
  case taken =>
    intro code ie _
    have take : Drains s (s.take code ie) := .same rfl
    exact (take.trans (commandEffect_drains _ code _)).queues
  case written => exact fun _ _ _ hw => Drains.queues (.same (by simp [State.writePointed_frame hw]))
  case field => exact (s.fieldStart_drains false).queues
  case beginLine => exact fun l => (s.beginLine_drains l).queues
  case takingPoint => exact s.takingPointReached_drains.queues
  case grant => exact fun _ => s.nextOnBus_drains.queues
  case answerImage => exact fun w => (s.answerImage_drains w).queues
  case acknowledge => exact s.acknowledgeImage_drains.queues
  case busTimeout => exact s.busTimeout_drains.queues
  case tracked =>
    intro x time t _
    have clock : Drains s (s.clockAt time) := .same rfl
    obtain ⟨_, _, _, tracks⟩ := State.timing_drains clock
    exact (tracks x t).queues
  case cut => exact fun x _ => (cuts x).queues
  case slew => exact fun x _ => (slews x).queues
  case lineEnd => exact lineEnd.queues
  all_goals intros; exact Drains.queues (.same (by simp))

/-- Settles O11: every command keeps the silo a queue within its bounds, and neither the queue of commands nor the clock
touches the engine. -/
theorem stepKeepsEngineLaw : Obligations.StepKeepsEngineLaw := fun s t law h =>
  step_ind (P := Queues) (fun _ u _ rest ran => exec_queues (s := { u with pending := rest }) ran)
    (fun _ _ _ ran => exec_queues ran) (fun u => Drains.queues (s := u) (.same rfl)) s t h law

end Sys2Proof.Machine
end

section
/-! The channel on the bus (sections 7.4 and 7.6): what is presented at the grant, and the answer of a mask read. -/

namespace Sys2Proof.Machine

/-! ### The first owed word (R113) -/

theorem Engine.owed_closed {e : Engine} (closed : e.openLine = none) : e.owed = none := by
  simp [Engine.owed, closed]

theorem Engine.owed_eq_some {e : Engine} {line : Nat} (isOpen : e.openLine = some line) {sample : Int} {place k : Nat} :
    e.owed = some (sample, place, k) ↔ FirstInTakeOrder e.descs Descriptor.toFetch sample place k := by
  simp [Engine.owed, isOpen, earliest_heads]

/-! ### The next operation on the bus (R115, R121) -/

section
variable {s : State}

/-- A mask word owed, with room for it, is presented (R113, R121). -/
theorem State.nextOnBus_maskWord {sample : Int} {place k line : Nat} {d : Descriptor}
    (owed : s.engine.owed = some (sample, place, k)) (room : s.engine.silo.length ≤ 15)
    (placed : s.engine.descs[place]? = some d) (isOpen : s.engine.openLine = some line) :
    s.nextOnBus = { s with engine := { s.engine with
      descs := s.engine.descs.modify place (fun d => { d with toFetch := d.toFetch.tail })
      channel := .maskRead line place k d.slot d.gen (d.rowAddress + BitVec.ofNat 24 k) true s.now } } := by
  have choice : s.nextOperation = some (.maskWord place k) := by
    simp only [State.nextOperation, owed]
    exact if_pos (Nat.succ_le_succ room)
  simp only [State.nextOnBus, choice, State.present, Engine.modifyDesc, Descriptor.address, placed, isOpen]

/-- With no operation chosen the bus is released (R115). -/
theorem State.nextOnBus_idle (nothing : s.nextOperation = none) :
    s.nextOnBus = { s with engine := { s.engine with channel := .idle } } := by
  simp only [State.nextOnBus, nothing]

/-- A full silo holds the owed words back, and image words with them (R121). -/
theorem State.nextOperation_full (owed : s.engine.owed ≠ none) (full : 16 ≤ s.engine.silo.length) :
    s.nextOperation = none := by
  obtain ⟨⟨sample, place, k⟩, owed⟩ := Option.ne_none_iff_exists'.1 owed
  simp only [State.nextOperation, owed]
  exact if_neg (Nat.not_le.2 (Nat.lt_succ_of_le full))

theorem State.nextOperation_nothing (owed : s.engine.owed = none) (free : s.port.transfer = none) :
    s.nextOperation = none := by
  simp only [State.nextOperation, owed, free]

/-- With no mask word owed, the next image word is presented (R121, R164, R165). -/
theorem State.nextOnBus_imageWord {tr : Transfer} (owed : s.engine.owed = none) (transfer : s.port.transfer = some tr)
    (left : tr.left ≠ 0) : s.nextOnBus = { s with engine := { s.engine with
      channel := if tr.toMemory then .imageWrite tr.position (s.recordWord s.port.pointer.slot s.port.pointer.word) s.now
        else .imageRead tr.position s.now } } := by
  have choice : s.nextOperation = some (.imageWord tr) := by
    simp only [State.nextOperation, owed, transfer, if_neg left]
  simp only [State.nextOnBus, choice, State.present]
  rfl

end

theorem exec_busGrant_awaiting {s : State} (awaiting : s.engine.channel = .awaiting) :
    exec .busGrant s = .next s.nextOnBus := by
  simp only [exec, execBusGrant, awaiting]

theorem exec_busGrant_other {s : State} (other : s.engine.channel ≠ .awaiting) : exec .busGrant s = .next s := by
  simp only [exec, execBusGrant]

/-- Settles O46: the first owed word is the first in take order, and the grant presents the arbiter's choice, case by
case. -/
theorem busGrantPresents : Obligations.BusGrantPresents := by
  refine ⟨fun s => ⟨Engine.owed_closed, fun l isOpen _ _ _ => Engine.owed_eq_some isOpen⟩,
    fun s => ⟨fun awaiting => ?awaiting, exec_busGrant_other⟩⟩
  rw [exec_busGrant_awaiting awaiting]
  refine ⟨fun p place k line d owed room placed isOpen => ?maskWord, fun owed full => ?full,
    fun tr owed transfer left => ?imageWord, fun owed free => ?nothing⟩
  case maskWord => rw [State.nextOnBus_maskWord owed room placed isOpen]
  case full => rw [State.nextOnBus_idle (State.nextOperation_full owed full)]
  case imageWord =>
    rw [State.nextOnBus_imageWord owed transfer left]
    exact ⟨fun read => by simp [read], fun write => by simp [write]⟩
  case nothing => rw [State.nextOnBus_idle (State.nextOperation_nothing owed free)]

/-! ### The bus held (R115) -/

/-- What comes next on the bus goes by the engine's words and the transfer, not by the operation that has ended: an
engine that holds the bus does what it does at a grant. -/
theorem State.nextOnBus_channel (s : State) (c : Channel) :
    State.nextOnBus { s with engine := { s.engine with channel := c } } = s.nextOnBus := by
  have choice : State.nextOperation { s with engine := { s.engine with channel := c } } = s.nextOperation := rfl
  unfold State.nextOnBus
  rw [choice]
  cases s.nextOperation with
  | none => rfl
  | some op =>
    cases op with
    | imageWord t => rfl
    | maskWord place k => simp only [State.present, Engine.modifyDesc]

theorem exec_busGrant_held (s : State) :
    exec .busGrant { s with engine := { s.engine with channel := .awaiting } } = .next s.nextOnBus := by
  rw [exec_busGrant_awaiting rfl, State.nextOnBus_channel]

/-- The next operation touches neither the silo nor the open line. -/
theorem State.nextOnBus_line (s : State) :
    s.nextOnBus.engine.silo = s.engine.silo ∧ s.nextOnBus.engine.openLine = s.engine.openLine := by
  unfold State.nextOnBus
  split
  · next op _ =>
    cases op with
    | imageWord t => exact ⟨rfl, rfl⟩
    | maskWord place k =>
      unfold State.present
      dsimp only
      split <;> exact ⟨rfl, rfl⟩
  · exact ⟨rfl, rfl⟩

/-! ### The answer of a mask read (R116) -/

section
variable {s : State} {place : Nat}

theorem State.storeWord_kept {d : Descriptor} (placed : s.engine.descs[place]? = some d) (opened : d.condition = .opened)
    (line k : Nat) (data : Word) : s.storeWord line place k true data = { s with engine := { s.engine with
      silo := s.engine.silo ++ [{ line := line, place := place, k := k, data := data }] } } := by
  simp only [State.storeWord, placed, opened, and_self, if_true]

theorem State.storeWord_discarded {current : Bool}
    (closed : current = false ∨ ∀ d, s.engine.descs[place]? = some d → d.condition ≠ .opened) (line k : Nat)
    (data : Word) : s.storeWord line place k current data = s := by
  unfold State.storeWord
  split
  · rfl
  · next d placed =>
    refine if_neg ?_
    rintro ⟨isCurrent, opened⟩
    rcases closed with closed | closed
    · simp [closed] at isCurrent
    · exact closed d placed opened

end

/-- Storing a word and purging change the silo alone. -/
theorem State.storeWord_purge_eq (s : State) (line place k : Nat) (current : Bool) (data : Word) :
    ∃ silo, (s.storeWord line place k current data).purge = { s with engine := { s.engine with silo := silo } } := by
  unfold State.storeWord
  split
  · exact ⟨_, rfl⟩
  · split <;> exact ⟨_, rfl⟩

/-- Settles O47: the word is stored or discarded, the silo's head is purged, and the engine goes on as at a grant. -/
theorem maskReadAnswered : Obligations.MaskReadAnswered := by
  intro s word line place k i g a current since channel
  have answer : s.answerMask word = (s.storeWord line place k current word).purge.nextOnBus := by
    simp only [State.answerMask, channel]
  have silo : (s.answerMask word).engine.silo = (s.storeWord line place k current word).purge.engine.silo := by
    rw [answer, (State.nextOnBus_line _).1]
  obtain ⟨words, purged⟩ := s.storeWord_purge_eq line place k current word
  refine ⟨s.answerMask word, rfl, fun isCurrent ⟨d, placed, opened⟩ => ?kept, fun closed => ?discarded, ?granted, ?line,
    by simp, by simp, by simp [SameTable], by simp [SameHostSide], by simp, by simp, by simp⟩
  case kept =>
    rw [silo, isCurrent, State.storeWord_kept placed opened]
    exact State.purge_purgedHead _
  case discarded =>
    rw [silo, State.storeWord_discarded closed]
    exact State.purge_purgedHead s
  case granted =>
    rw [silo, answer, purged]
    exact exec_busGrant_held { s with engine := { s.engine with silo := words } }
  case line => rw [answer, (State.nextOnBus_line _).2, purged]

end Sys2Proof.Machine
end

section
/-! Bus faults (section 7.5): the fetch fault of a window, the line after it, and the fault of an image word. -/

namespace Sys2Proof.Machine

/-! ### What a line's descriptors are read from (R111) -/

/-- The stack, the records but for their states and attention flags, the timebase's state and the cut blanking are the
same: all that the descriptors of a line are built from. -/
structure SameDrawing (s t : State) : Prop where
  stack : t.stack = s.stack
  active (i : SlotId) : (t.slot i).active = (s.slot i).active
  gen (i : SlotId) : (t.slot i).gen = (s.slot i).gen
  counters (i : SlotId) : (t.slot i).counters = (s.slot i).counters
  geometry (i : SlotId) : (t.slot i).geometry = (s.slot i).geometry
  state : t.tb.state = s.tb.state
  blanking : t.keyer.cutBlanking = s.keyer.cutBlanking

/-- Records that differ in their attention flags alone are drawn alike. -/
theorem SameWindows.drawing {s t : State} (windows : SameWindows s t) (state : t.tb.state = s.tb.state)
    (blanking : t.keyer.cutBlanking = s.keyer.cutBlanking) : SameDrawing s t where
  stack := windows.1
  active i := by rw [windows.2 i]
  gen i := by rw [windows.2 i]
  counters i := by rw [windows.2 i]
  geometry i := by rw [windows.2 i]
  state := state
  blanking := blanking

theorem LineDescriptors.congr {s t : State} (h : SameDrawing s t) {line : Nat} {descs : List Descriptor}
    {late : List SlotId} : LineDescriptors t line descs late ↔ LineDescriptors s line descs late := by
  simp only [LineDescriptors, MaskDrawn, DescribesLine, h.stack, h.active, h.gen, h.counters, h.geometry, h.state,
    h.blanking]

/-! ### The fetch fault of a window (R54, R105, R119, R120) -/

/-- The state that a fetch fault of a window leaves, the bus still held and the line after not yet settled. -/
def State.faulted (s : State) (i : SlotId) : State :=
  { s with engine := { s.engine with channel := .idle } }.fetchFault i

/-- A record as a fetch fault leaves it (R54, R119). -/
def Slot.faulted (r : Slot) : Slot :=
  { r with state := .faulted, attention := { r.attention with fetchFault := true } }

section
variable (s : State) (i : SlotId)

theorem State.faulted_slot (j : SlotId) :
    (s.faulted i).slot j = if j = i then (s.slot i).faulted else s.slot j := by
  show ((s.raise i .fetchFault).leaveStack i .faulted).slot j = _
  have raised (j : SlotId) : (s.raise i .fetchFault).slot j =
      if j = i then { s.slot i with attention := (s.slot i).attention.set .fetchFault } else s.slot j := by
    rw [State.raise_eq]
    exact WithSlot_slot s i j _
  rw [State.leaveStack_slot, raised, raised, if_pos rfl]
  split <;> rfl

theorem State.faulted_stack : (s.faulted i).stack = s.stack.erase i := rfl

theorem State.faulted_keyer : (s.faulted i).keyer = EntryAbandoned s.keyer i s.samplePosition := rfl

theorem State.faulted_engine : (s.faulted i).engine =
    { s.engine with
      descs := droppedFor i s.engine.descs, silo := (s.faulted i).engine.silo, channel := .idle } := rfl

/-- The dead words at the silo's head, those of the window among them, are purged (R109, R120). -/
theorem State.faulted_silo : PurgedHead (droppedFor i s.engine.descs) s.engine.silo (s.faulted i).engine.silo :=
  State.purge_purgedHead _

@[simp] theorem State.faulted_tb : (s.faulted i).tb = s.tb := by simp [State.faulted]

/-- The line after a fault is drawn from the windows left on the stack. -/
theorem State.faulted_drawing : SameDrawing { s with stack := s.stack.erase i } (s.faulted i) := by
  have slot (j : SlotId) : (State.slot { s with stack := s.stack.erase i } j) = s.slot j := rfl
  constructor
  case stack => rfl
  case state => exact congrArg (·.state) (s.faulted_tb i)
  case blanking => rfl
  all_goals
    intro j
    rw [State.faulted_slot, slot]
    split
    · next same =>
      rw [same]
      rfl
    · rfl

end

/-! ### The line after a fault (R110) -/

section
variable {s : State} {i : SlotId} {g : Generation}

theorem State.maskFault_other (other : (s.slot i).state ≠ .onAir ∨ (s.slot i).gen ≠ g) : s.maskFault i g = s := by
  refine if_neg ?_
  rintro ⟨onAir, gen⟩
  exact other.elim (· onAir) (· gen)

variable (onAir : (s.slot i).state = .onAir) (gen : (s.slot i).gen = g)
include onAir gen

theorem State.maskFault_eq : s.maskFault i g =
    if s.engine.finished then s.faulted i else (s.faulted i).advanceLine :=
  if_pos ⟨onAir, gen⟩

/-- A fault that finishes the open line, with its purge, opens the next (R110, log 29). -/
theorem State.maskFault_opens {l : Nat} (isOpen : s.engine.openLine = some l) (running : ¬ LineDone s.engine)
    (done : LineDone (s.faulted i).engine) (next : l + 1 < s.tb.latched.standard.pictureLines) :
    s.maskFault i g = (s.faulted i).openLine (l + 1) := by
  have unfinished : ¬ s.engine.finished = true := mt (Engine.finished_iff (by rw [isOpen]; rfl)).1 running
  rw [State.maskFault_eq onAir gen, if_neg unfinished]
  exact State.advanceLine_done isOpen done (by rwa [State.faulted_tb])

/-- A fault that finishes no line opens none (R110, log 29). -/
theorem State.maskFault_stays {l : Nat} (isOpen : s.engine.openLine = some l)
    (stays : LineDone s.engine ∨ ¬ LineDone (s.faulted i).engine ∨ s.tb.latched.standard.pictureLines ≤ l + 1) :
    s.maskFault i g = s.faulted i := by
  have finished := Engine.finished_iff (e := s.engine) (by rw [isOpen]; rfl)
  rw [State.maskFault_eq onAir gen]
  split
  · rfl
  · next unfinished =>
    have running := stays.resolve_left (mt finished.2 unfinished)
    exact State.advanceLine_stays isOpen (by rwa [State.faulted_tb])

theorem State.maskFault_closed (closed : s.engine.openLine = none) : s.maskFault i g = s.faulted i := by
  have stays : (s.faulted i).advanceLine = s.faulted i := by
    have none : (s.faulted i).engine.openLine = none := closed
    simp only [State.advanceLine, State.lineAfter, none]
  rw [State.maskFault_eq onAir gen, stays, ite_self]

end

/-- A state in which a fetch fault has done its work and the line after is settled, LATE set on the windows fifth and
later on the line it opened. -/
structure FaultSettled (s : State) (i : SlotId) (v : State) (late : List SlotId) : Prop where
  marks : MarksLate (s.faulted i) v (· ∈ late)
  listed (j : SlotId) : j ∈ late → j ∈ s.stack.erase i
  stack : v.stack = s.stack.erase i
  keyer : v.keyer = EntryAbandoned s.keyer i s.samplePosition
  silo : v.engine.silo = (s.faulted i).engine.silo

theorem State.faulted_settled (s : State) (i : SlotId) : FaultSettled s i (s.faulted i) [] where
  marks := .none (fun _ => rfl) rfl fun _ => List.not_mem_nil
  listed := nofun
  stack := rfl
  keyer := rfl
  silo := rfl

theorem State.faulted_openLine_settled (s : State) (i : SlotId) (line : Nat) :
    FaultSettled s i ((s.faulted i).openLine line) (((s.faulted i).needOrder line).drop 4) where
  marks := State.openLine_marksLate _ _
  listed _ listed := (State.needOrder_mem (List.mem_of_mem_drop listed)).1
  stack := by simp [State.faulted_stack]
  keyer := by simp [State.faulted_keyer]
  silo := by rw [State.openLine_engine]

/-- The windows that a fault leaves on the stack keep their records but for LATE (R119). -/
theorem FaultSettled.slot {s v : State} {i : SlotId} {late : List SlotId} (h : FaultSettled s i v late) {j : SlotId}
    (other : j ≠ i) :
    (j ∈ late → v.slot j = { s.slot j with attention := { (s.slot j).attention with late := true } }) ∧
      (j ∉ late → v.slot j = s.slot j) := by
  have marks := h.marks.1 j
  rwa [State.faulted_slot, if_neg other] at marks

/-- The window that the fault takes off the stack is drawn on no line after, and LATE is not set on it (R112, R119). -/
theorem FaultSettled.slot_faulted {s v : State} {i : SlotId} {late : List SlotId} (h : FaultSettled s i v late)
    (distinct : s.stack.Nodup) : v.slot i = (s.slot i).faulted := by
  have marks := (h.marks.1 i).2 fun listed => distinct.not_mem_erase (h.listed i listed)
  rwa [State.faulted_slot, if_pos rfl] at marks

/-- What a fetch fault leaves, by what becomes of the open line (R110, R119, R120, log 29). -/
theorem State.maskFault_settled {s : State} {i : SlotId} {g : Generation} (onAir : (s.slot i).state = .onAir)
    (gen : (s.slot i).gen = g) (distinct : s.stack.Nodup) : ∃ late, FaultSettled s i (s.maskFault i g) late ∧
      (∀ l, s.engine.openLine = some l → ¬ LineDone s.engine → LineDone (s.faulted i).engine →
        l + 1 < s.tb.latched.standard.pictureLines → (s.maskFault i g).engine.openLine = some (l + 1) ∧
          LineDescriptors { s with stack := s.stack.erase i } (l + 1) (s.maskFault i g).engine.descs late) ∧
      (∀ l, s.engine.openLine = some l →
        LineDone s.engine ∨ ¬ LineDone (s.faulted i).engine ∨ s.tb.latched.standard.pictureLines ≤ l + 1 →
        (s.maskFault i g).engine.openLine = some l ∧
          (s.maskFault i g).engine.descs = droppedFor i s.engine.descs ∧ late = []) ∧
      (s.engine.openLine = none → (s.maskFault i g).engine.openLine = none ∧
        (s.maskFault i g).engine.descs = droppedFor i s.engine.descs ∧ late = []) := by
  cases isOpen : s.engine.openLine with
  | none =>
    rw [State.maskFault_closed onAir gen isOpen]
    exact ⟨[], s.faulted_settled i, nofun, nofun, fun _ => ⟨isOpen, rfl, rfl⟩⟩
  | some l =>
    by_cases stays : LineDone s.engine ∨ ¬ LineDone (s.faulted i).engine ∨ s.tb.latched.standard.pictureLines ≤ l + 1
    · rw [State.maskFault_stays onAir gen isOpen stays]
      refine ⟨[], s.faulted_settled i, ?_, ?_, nofun⟩
      · rintro _ ⟨⟩ running done next
        exact absurd stays (by simp [running, done, next])
      · rintro _ ⟨⟩ -
        exact ⟨isOpen, rfl, rfl⟩
    · have opens := stays
      simp only [not_or, Classical.not_not, Nat.not_le] at opens
      obtain ⟨running, done, next⟩ := opens
      rw [State.maskFault_opens onAir gen isOpen running done next]
      refine ⟨_, s.faulted_openLine_settled i (l + 1), ?_, ?_, nofun⟩
      · rintro _ ⟨⟩ - - -
        rw [State.openLine_engine]
        exact ⟨rfl, (LineDescriptors.congr (s.faulted_drawing i)).1
          (State.buildDescs_lineDescriptors (distinct.erase i) _)⟩
      · rintro _ ⟨⟩ h
        exact absurd h stays

/-! ### The bus fault (R118, R122) -/

theorem State.imageFault_finished {s : State} {tr : Transfer} (transfer : s.port.transfer = some tr) :
    s.imageFault =
      { Finished s .busFault (BitVec.ofNat 16 tr.moved) 0#16 with port := { s.port with transfer := none } } := by
  simp only [State.imageFault, transfer]
  rfl

/-- Settles O49: the mask read's fault by its record, the fetch fault's work and the line after; the image word's by the
end of its transfer; and either goes on as at a grant. -/
theorem busTimeoutFaults : Obligations.BusTimeoutFaults := by
  intro s
  refine ⟨fun line place k i g a current since channel => ?maskRead, fun tr transfer flight => ?imageWord⟩
  case maskRead =>
    have timeout : s.busTimeout = (s.maskFault i g).nextOnBus := by simp only [State.busTimeout, channel]
    have slot (j : SlotId) : s.busTimeout.slot j = (s.maskFault i g).slot j := by simp [State.slot, timeout]
    refine ⟨fun onAir gen distinct => ?fault, fun other => ?other⟩
    case fault =>
      obtain ⟨late, settled, opens, stays, closed⟩ := State.maskFault_settled onAir gen distinct
      have faulted : s.busTimeout.slot i = (s.slot i).faulted := by rw [slot, settled.slot_faulted distinct]
      refine ⟨{ s.maskFault i g with engine := { (s.maskFault i g).engine with channel := .awaiting } }, s.busTimeout,
        late, rfl, ?granted, rfl, ?silo, faulted, ?stack, fun j other => ?slots, fun clear => ?window, ?keyer, ?purged,
        fun e l he isOpen => ?lines, closed, ?hostSide, by simp, by simp, by simp⟩
      case granted => rw [exec_busGrant_held, timeout]
      case silo => rw [timeout, (State.nextOnBus_line _).1]
      case stack => simp [timeout, settled.stack]
      case slots =>
        rw [slot]
        exact settled.slot other
      case window =>
        refine attentionSetsWindow .busTimeout s s.busTimeout i rfl ?_
        simp [faulted, Slot.faulted, Attention.newlySet, clear]
      case keyer => simp [timeout, settled.keyer]
      case purged =>
        show PurgedHead _ _ (s.maskFault i g).engine.silo
        rw [settled.silo]
        exact s.faulted_silo i
      case lines =>
        have same : e = (s.faulted i).engine := by
          rw [he, State.faulted_engine, ← settled.silo]
        subst same
        exact ⟨opens l isOpen, stays l isOpen⟩
      case hostSide => simp [SameHostSide, timeout]
    case other =>
      rw [State.maskFault_other other] at timeout
      exact ⟨s.busTimeout, rfl, by rw [exec_busGrant_held, timeout], by simp [SameTable, timeout],
        by simp [SameHostSide, timeout], by simp [timeout], by simp [timeout], by simp, by simp, by simp⟩
  case imageWord =>
    have timeout : s.busTimeout = s.imageFault.nextOnBus := by
      rcases flight with ⟨a, since, channel⟩ | ⟨a, d, since, channel⟩ <;> simp only [State.busTimeout, channel]
    have fault := State.imageFault_finished transfer
    refine ⟨s.busTimeout, rfl, ?granted, by simp [SameTable, timeout], ?port, ?cmd, ?events, by simp [timeout], by simp,
      by simp, by simp⟩
    case granted =>
      rw [timeout, fault]
      exact exec_busGrant_held
        { Finished s .busFault (BitVec.ofNat 16 tr.moved) 0#16 with port := { s.port with transfer := none } }
    case port => simp [timeout, fault]
    case cmd => simp [timeout, fault, Finished]
    case events => simp [timeout, fault, Finished]

end Sys2Proof.Machine
end

section
/-! How the engine opens a line (section 7.2): at a field start, and at the beginning of a line with no needed word. -/

namespace Sys2Proof.Machine

/-! ### The raster line in progress (R95) -/

/-- All that the raster line in progress is read from is the same. -/
structure SameRaster (s t : State) : Prop where
  now : t.now = s.now
  snapshot : t.keyer.snapshot = s.keyer.snapshot
  input : t.programCtx = s.programCtx
  standard : t.tb.standard = s.tb.standard
  latched : t.tb.latched = s.tb.latched
  parity : t.tb.parity = s.tb.parity
  linesRun : t.tb.linesRun = s.tb.linesRun
  lastField : t.tb.lastField = s.tb.lastField
  lineStartAt : t.tb.lineStartAt = s.tb.lineStartAt
  previousLineAt : t.tb.previousLineAt = s.tb.previousLineAt
  lineLength : t.tb.lineLength = s.tb.lineLength

section
variable {s t : State}

theorem State.ownLine_congr (h : SameRaster s t) : t.ownLine = s.ownLine := by
  have begun : t.keyer.begunOwn = s.keyer.begunOwn := by
    unfold Keyer.begunOwn
    rw [h.snapshot]
  simp only [State.ownLine, begun, h.now, h.latched, h.linesRun, h.lineStartAt, h.previousLineAt, h.lineLength]

theorem State.rasterLine_congr (h : SameRaster s t) : t.rasterLine = s.rasterLine := by
  simp only [State.rasterLine, Timebase.ownNumber, State.ownLine_congr h, h.now, h.input, h.standard, h.parity,
    h.linesRun, h.lastField]

theorem State.lineFresh_congr (h : SameRaster s t) : t.lineFresh = s.lineFresh := by
  simp only [State.lineFresh, State.ownLine_congr h, State.rasterLine_congr h, h.snapshot, h.input, h.latched]

/-- The flywheel gives the raster line in LOCKED and HOLDOVER (R95). -/
theorem State.rasterLine_flywheel (flywheel : s.programCtx.flywheels = true) {r : Nat}
    (reference : s.programCtx.reference = some r) :
    s.rasterLine = ((r : Int), s.programCtx.line, s.programCtx.expected) := by
  simp [State.rasterLine, flywheel, reference]

theorem Keyer.begunOwn_eq_false {y : Keyer} {start : Int}
    (h : ∀ snap c, y.snapshot = some snap → snap.ownAt = some c → c < start) : y.begunOwn start = false := by
  unfold Keyer.begunOwn
  split
  · rfl
  · next snap taken =>
    split
    · rfl
    · next c own => simpa using h snap c taken own

/-- In the middle of a computer line the own structure's line is the one that starts h samples before it (R95). -/
theorem State.ownLine_running (started : s.tb.lineStartAt - s.tb.latched.h ≤ s.now)
    (runs : (s.now : Int) < s.tb.lineStartAt - s.tb.latched.h + s.tb.lineLength)
    (next : s.keyer.begunOwn (s.tb.lineStartAt + s.tb.lineLength) = false) :
    s.ownLine = (s.tb.lineStartAt - s.tb.latched.h, s.tb.linesRun + s.tb.latched.v) := by
  unfold State.ownLine
  dsimp only
  rw [if_neg (by simp [next, runs]), if_pos (.inl started)]

theorem State.rasterLine_ownNumber (own : s.programCtx.flywheels = false) {began place : Int}
    (line : s.ownLine = (began, place)) :
    s.rasterLine = (began, (s.tb.ownNumber place).1.toNat, (s.tb.ownNumber place).2) := by
  simp [State.rasterLine, own, line]

/-- Where v is negative the first lines after a field start belong to the field before (R95, log 26). -/
theorem Timebase.ownNumber_before {b : Timebase} {place : Int} (h : place < 0) :
    b.ownNumber place = (place + b.lastField, b.lastField) := by
  simp only [Timebase.ownNumber, if_pos h]

theorem Timebase.ownNumber_within {b : Timebase} {place : Int} (h : 0 ≤ place)
    (h' : place < (max (b.standard.fieldLines b.parity) (b.linesRun + 1) : Nat)) :
    b.ownNumber place = (place, max (b.standard.fieldLines b.parity) (b.linesRun + 1)) := by
  simp only [Timebase.ownNumber, if_neg (Int.not_lt.2 h), if_neg (Int.not_le.2 h')]

/-- Where v is positive the last lines before a field start belong to the field after (R95, log 26). -/
theorem Timebase.ownNumber_after {b : Timebase} {place : Int}
    (h : (max (b.standard.fieldLines b.parity) (b.linesRun + 1) : Nat) ≤ place) :
    b.ownNumber place = (place - (max (b.standard.fieldLines b.parity) (b.linesRun + 1) : Nat),
      b.standard.fieldLines b.parity.other) := by
  have started : ¬ place < 0 := by omega
  simp only [Timebase.ownNumber, if_neg started, if_pos h]

/-! ### Whether the Keyer has begun the raster line (R96) -/

theorem State.lineFresh_none (h : s.keyer.snapshot = none) : s.lineFresh = true := by
  simp only [State.lineFresh, h]

/-- Lines of the own structure are told apart by the computer lines beside them (log 34). -/
theorem State.lineFresh_own {snap : Snapshot} {c : Int} (taken : s.keyer.snapshot = some snap)
    (own : s.programCtx.flywheels = false) (ownAt : snap.ownAt = some c) :
    s.lineFresh = true ↔ c < s.ownLine.1 + s.tb.latched.h := by
  simp only [State.lineFresh, taken, own, ownAt, decide_eq_true_eq]

/-- Other lines are told apart by when they began (log 32). -/
theorem State.lineFresh_began {snap : Snapshot} (taken : s.keyer.snapshot = some snap)
    (h : s.programCtx.flywheels = true ∨ snap.ownAt = none) : s.lineFresh = true ↔ snap.beganAt < s.rasterLine.1 := by
  unfold State.lineFresh
  rw [taken]
  dsimp only
  split
  · next own ownAt => simp [own, ownAt] at h
  · exact decide_eq_true_iff

/-! ### The first line opened at a field start (R110) -/

theorem State.firstLineOpened_congr (h : SameRaster s t) : t.firstLineOpened = s.firstLineOpened := by
  unfold State.firstLineOpened State.rasterFieldBegun
  rw [State.rasterLine_congr h, State.lineFresh_congr h, h.latched]

/-- Where the raster line in progress belongs to the field before, the field's line 0 has not begun. -/
theorem State.firstLineOpened_top {began : Int} {number count : Nat} (raster : s.rasterLine = (began, number, count))
    (before : (count : Int) < 2 * (number - s.tb.latched.v)) : s.firstLineOpened = some 0 := by
  have lines : 0 < s.tb.latched.standard.pictureLines := by cases s.tb.latched.standard <;> decide
  have ahead : s.rasterFieldBegun = false := by simpa [State.rasterFieldBegun, raster] using before
  simp [State.firstLineOpened, ahead, lines]

/-- Where it belongs to the field that begins, the first line not yet begun is opened, if the picture has one. -/
theorem State.firstLineOpened_running {began : Int} {number count l : Nat}
    (raster : s.rasterLine = (began, number, count)) (begun : 2 * ((number : Int) - s.tb.latched.v) ≤ count)
    (hl : l = number + (if s.lineFresh then 0 else 1) - s.tb.latched.standard.firstPictureLine) :
    s.firstLineOpened = if l < s.tb.latched.standard.pictureLines then some l else none := by
  have running : s.rasterFieldBegun = true := by simpa [State.rasterFieldBegun, raster] using begun
  simp only [State.firstLineOpened, running, raster, if_true, ← hl]

end
end Sys2Proof.Machine
end

section
/-! The engine's work at a field start (sections 7.2 and 7.7): the line closed, the line opened, and LATE. -/

namespace Sys2Proof.Machine

/-! ### The line closed and the line opened (R110, R123) -/

/-- The engine has closed the line it held open and discarded its work (R123). -/
def State.lineClosed (s : State) : State :=
  { s with engine :=
    { openLine := none, drawn := false, descs := [], silo := [], channel := s.engine.channel.closeLine } }

/-- The state before the channel is arbitrated: the line held open is closed, and the first line of the new field not
yet begun is opened (R110, R123). -/
def State.lineTurned (s : State) : State :=
  match s.firstLineOpened with
  | some line => s.lineClosed.openLine line
  | none => s.lineClosed

section
variable {s : State}

theorem State.engineStep_reset (reset : s.resetLine = true) : s.engineStep = s.lineClosed :=
  if_pos reset

theorem State.engineStep_running (running : s.resetLine = false) : s.engineStep = s.lineTurned.arbitrate := by
  have released : ¬ s.resetLine = true := by simp [running]
  unfold State.engineStep State.lineTurned
  dsimp only
  rw [if_neg released]
  cases s.firstLineOpened <;> rfl

/-- The engine once its line is turned: the line opened with its descriptors, or no line and none. -/
theorem State.lineTurned_engine (s : State) : s.lineTurned.engine =
    { openLine := s.firstLineOpened, drawn := false, descs := (s.firstLineOpened.map s.lineClosed.buildDescs).getD []
      silo := [], channel := s.engine.channel.closeLine } := by
  unfold State.lineTurned
  cases s.firstLineOpened with
  | none => rfl
  | some line =>
    have closed (c : Channel) : c.closeLine.closeLine = c.closeLine := by cases c <;> rfl
    show (s.lineClosed.openLine line).engine = _
    rw [State.openLine_engine]
    simp [State.lineClosed, closed]

/-- A field start leaves the silo empty, no line drawn, and descriptors for an open line alone (R123). -/
theorem State.engineStep_discards (s : State) : s.engineStep.engine.silo = [] ∧ s.engineStep.engine.drawn = false ∧
    (s.engineStep.engine.openLine = none → s.engineStep.engine.descs = []) := by
  cases reset : s.resetLine with
  | true =>
    rw [State.engineStep_reset reset]
    exact ⟨rfl, rfl, fun _ => rfl⟩
  | false =>
    rw [State.engineStep_running reset, State.arbitrate_engine, State.lineTurned_engine]
    refine ⟨rfl, rfl, fun closed => ?_⟩
    replace closed : s.firstLineOpened = none := closed
    simp [closed]

/-- With the reset line released the first line of the new field not yet begun is open (R110). -/
theorem State.engineStep_openLine (running : s.resetLine = false) :
    s.engineStep.engine.openLine = s.firstLineOpened := by
  rw [State.engineStep_running running, State.arbitrate_engine, State.lineTurned_engine]

/-- The line opened has the descriptors of R111, and LATE is set on the rest of the need order (R112). -/
theorem State.engineStep_line {line : Nat} (distinct : s.stack.Nodup)
    (isOpen : s.engineStep.engine.openLine = some line) :
    ∃ late, LineDescriptors s line s.engineStep.engine.descs late ∧ MarksLate s s.engineStep (· ∈ late) := by
  cases reset : s.resetLine with
  | true =>
    rw [State.engineStep_reset reset] at isOpen
    cases isOpen
  | false =>
    have first : s.firstLineOpened = some line := (State.engineStep_openLine reset).symm.trans isOpen
    have turned : s.lineTurned = s.lineClosed.openLine line := by simp only [State.lineTurned, first]
    have closed : SameDrawing s s.lineClosed :=
      ⟨rfl, fun _ => rfl, fun _ => rfl, fun _ => rfl, fun _ => rfl, rfl, rfl⟩
    rw [State.engineStep_running reset, turned, State.openLine_arbitrate_engine]
    exact ⟨(s.lineClosed.needOrder line).drop 4,
      (LineDescriptors.congr closed).1 (State.buildDescs_lineDescriptors distinct line),
      (State.openLine_marksLate s.lineClosed line).arbitrate⟩

/-- But for LATE the engine's work changes no record. -/
theorem State.engineStep_sameWindows (s : State) : SameWindows s s.engineStep :=
  ⟨by simp, fun i => State.engineStep_slot_keeps (P := fun r => r = { s.slot i with attention := r.attention }) i
    (fun r same => congrArg (fun x : Slot => { x with attention := r.attention.set .late }) same) s rfl⟩

/-! ### The channel at a field start (R115, R121, R123) -/

/-- An operation in flight goes on, a mask read for no open line any more (R123). -/
theorem State.engineStep_inFlight (idle : s.engine.channel ≠ .idle) (awaiting : s.engine.channel ≠ .awaiting) :
    s.engineStep.engine.channel = s.engine.channel.closeLine := by
  cases reset : s.resetLine with
  | true =>
    rw [State.engineStep_reset reset]
    rfl
  | false =>
    have channel : s.lineTurned.engine.channel = s.engine.channel.closeLine := by rw [State.lineTurned_engine]
    have idle' : s.lineTurned.engine.channel ≠ .idle := by
      rw [channel]
      cases c : s.engine.channel <;> simp_all [Channel.closeLine]
    have awaiting' : s.lineTurned.engine.channel ≠ .awaiting := by
      rw [channel]
      cases c : s.engine.channel <;> simp_all [Channel.closeLine]
    rw [State.engineStep_running reset, State.arbitrate_inFlight idle' awaiting', channel]

/-- With no line open no descriptor stands, and the arbiter goes by the transfer alone. -/
theorem State.nextOperation_isSome_closed (closed : s.engine.openLine = none) (none : s.engine.descs = []) :
    s.nextOperation.isSome = true ↔ OperationReady s := by
  have ready : OperationReady s ↔ ∃ tr, s.port.transfer = some tr ∧ tr.left ≠ 0 := by simp [OperationReady, none]
  rw [ready, State.nextOperation, Engine.owed_closed closed]
  cases s.port.transfer with
  | none => simp
  | some tr => by_cases last : tr.left = 0 <;> simp [last]

/-- With an empty silo and every descriptor open, what is ready is a word to fetch or a word of the transfer. -/
theorem OperationReady.of_emptySilo (silo : s.engine.silo = [])
    (opened : ∀ d, d ∈ s.engine.descs → d.condition = .opened) : OperationReady s ↔
      (∃ d, d ∈ s.engine.descs ∧ d.toFetch ≠ []) ∨ ∃ tr, s.port.transfer = some tr ∧ tr.left ≠ 0 := by
  have word : (∃ d, d ∈ s.engine.descs ∧ d.condition = .opened ∧ d.toFetch ≠ []) ↔
      ∃ d, d ∈ s.engine.descs ∧ d.toFetch ≠ [] :=
    exists_congr fun d => and_congr_right fun listed => and_iff_right (opened d listed)
  have no_word : (∀ d, d ∈ s.engine.descs → d.condition = .opened → d.toFetch = []) ↔
      ¬ ∃ d, d ∈ s.engine.descs ∧ d.toFetch ≠ [] := by
    rw [← word]
    simp
  have room : s.engine.silo.length ≤ 15 := by simp [silo]
  rw [OperationReady, word, no_word, and_iff_left room]
  by_cases owed : ∃ d, d ∈ s.engine.descs ∧ d.toFetch ≠ [] <;> simp [owed]

/-- The descriptors that a field start builds are all open. -/
theorem State.lineTurned_opened {d : Descriptor} (listed : d ∈ s.lineTurned.engine.descs) : d.condition = .opened := by
  rw [State.lineTurned_engine] at listed
  cases first : s.firstLineOpened with
  | none => simp [first] at listed
  | some line =>
    simp only [first, Option.map_some, Option.getD_some, State.buildDescs] at listed
    obtain ⟨i, -, built⟩ := List.mem_filterMap.1 listed
    obtain ⟨cp, -, rfl⟩ := Option.map_eq_some_iff.1 built
    rfl

/-- A channel without an operation in flight awaits the bus exactly where a word is to be moved (R115, R121, log 18). -/
theorem State.engineStep_free (running : s.resetLine = false)
    (free : s.engine.channel = .idle ∨ s.engine.channel = .awaiting) :
    (s.engineStep.engine.channel = .idle ∨ s.engineStep.engine.channel = .awaiting) ∧
      (s.engineStep.engine.channel = .awaiting ↔
        (∃ d, d ∈ s.engineStep.engine.descs ∧ d.toFetch ≠ []) ∨ ∃ tr, s.port.transfer = some tr ∧ tr.left ≠ 0) := by
  have turned := s.lineTurned_engine
  have free' : s.lineTurned.engine.channel = .idle ∨ s.lineTurned.engine.channel = .awaiting := by
    rw [turned]
    rcases free with free | free <;> simp [free, Channel.closeLine]
  have silo : s.lineTurned.engine.silo = [] := by rw [turned]
  have port : s.lineTurned.port = s.port := by
    unfold State.lineTurned
    split <;> simp [State.lineClosed]
  have choice : s.lineTurned.nextOperation.isSome = true ↔ OperationReady s.lineTurned := by
    cases first : s.firstLineOpened with
    | none => exact State.nextOperation_isSome_closed (by simp [turned, first]) (by simp [turned, first])
    | some line => exact State.nextOperation_isSome (by simp [turned, first])
  have descs : s.lineTurned.arbitrate.engine.descs = s.lineTurned.engine.descs := by rw [State.arbitrate_engine]
  rw [State.engineStep_running running, descs, State.arbitrate_free free', ← port,
    ← OperationReady.of_emptySilo silo fun _ => State.lineTurned_opened, ← choice]
  cases s.lineTurned.nextOperation.isSome <;> simp

end

/-! ### LATE before the engine's work (R19, R112) -/

theorem Slot.count_late (r : Slot) : r.count.attention.late = r.attention.late := by
  unfold Slot.count
  split
  · rfl
  · split
    · dsimp only
      split <;> rfl
    · rfl

theorem Slot.publicationTick_late (r : Slot) : r.publicationTick.attention.late = r.attention.late := by
  unfold Slot.publicationTick
  split <;> rfl

theorem Slot.convert_late (r : Slot) (v : Latched) : (r.convert v).attention.late = r.attention.late := by
  unfold Slot.convert
  split
  · rfl
  · split
    · dsimp only
      split <;> rfl
    · rfl

theorem Restacked.late {a b : Slot} (h : Restacked a b) : b.attention.late = a.attention.late := by
  obtain ⟨_, _, rfl⟩ := h
  rfl

/-! ### The field start as a whole (R142) -/

/-- The state in which a field start's work on the engine finds the part. -/
def State.beforeEngine (s : State) (cut : Bool) : State :=
  s.beginField.recordStep.convertStep.blankingStep cut

theorem State.beforeEngine_slot (s : State) (cut : Bool) (i : SlotId) : (s.beforeEngine cut).slot i =
    (s.stackWorked.slot i).publicationTick.convert s.beginField.recordStep.tb.latched := by
  rw [State.beforeEngine, State.blankingStep_slot, State.convertStep, State.mapSlots_slot, State.recordStep_eq,
    State.publicationStep, State.mapSlots_slot, State.stackWorked]

/-- A record that keeps its generation keeps LATE until the engine's work. -/
theorem State.beforeEngine_late {s : State} {cut : Bool} {i : SlotId}
    (gen : ((s.beforeEngine cut).slot i).gen = (s.slot i).gen) :
    ((s.beforeEngine cut).slot i).attention.late = (s.slot i).attention.late := by
  rw [State.beforeEngine_slot, (Slot.convert_counts _ _).gen, Slot.publicationTick_gen] at gen
  rw [State.beforeEngine_slot, Slot.convert_late, Slot.publicationTick_late, (State.stackWorked_restacks gen).late,
    Slot.count_late]

section
variable (s : State) (cut : Bool)

theorem State.beforeEngine_frame : (s.beforeEngine cut).engine = s.engine ∧ (s.beforeEngine cut).port = s.port ∧
    (s.beforeEngine cut).resetLine = s.resetLine := by
  simp [State.beforeEngine]

/-- After the engine's work a field start changes neither the engine nor a record. -/
theorem State.fieldStart_engine : (s.fieldStart cut).engine = (s.beforeEngine cut).engineStep.engine := by
  simp [State.fieldStart, State.beforeEngine]

theorem State.fieldStart_slot (i : SlotId) : (s.fieldStart cut).slot i = (s.beforeEngine cut).engineStep.slot i := by
  simp [State.slot, State.fieldStart, State.beforeEngine]

/-- From the engine's work on, the windows are drawn alike. -/
theorem State.fieldStart_drawing : SameDrawing (s.beforeEngine cut) (s.fieldStart cut) := by
  have windows : SameWindows (s.beforeEngine cut) (s.fieldStart cut) := by
    refine ⟨by simp [State.fieldStart, State.beforeEngine], fun i => ?_⟩
    rw [State.fieldStart_slot]
    exact (s.beforeEngine cut).engineStep_sameWindows.2 i
  exact windows.drawing (by simp [State.fieldStart, State.beforeEngine]) (by simp [State.fieldStart, State.beforeEngine])

/-- From the engine's work on, the raster line in progress is the same. -/
theorem State.fieldStart_raster : SameRaster (s.beforeEngine cut) (s.fieldStart cut) := by
  constructor <;> simp [State.fieldStart, State.beforeEngine, State.programCtx, State.ctx]

/-- A field start latches the timebase's standard (R147). -/
theorem State.fieldStart_standard : (s.fieldStart cut).tb.latched.standard = s.tb.standard := by
  have latched : s.beginField.tb.latched.standard = s.beginField.tb.standard := rfl
  rw [(s.fieldStart_raster cut).latched]
  simp [State.beforeEngine, latched]

end

section
variable {s : State} {cut : Bool}

/-- The line that a field start opens is judged by the raster as the field start leaves it (R110). -/
theorem State.fieldStart_openLine (released : s.resetLine = false) :
    (s.fieldStart cut).engine.openLine = (s.fieldStart cut).firstLineOpened := by
  obtain ⟨-, -, reset⟩ := s.beforeEngine_frame cut
  rw [State.fieldStart_engine, State.engineStep_openLine (reset.trans released),
    State.firstLineOpened_congr (s.fieldStart_raster cut)]

theorem State.fieldStart_inFlight (idle : s.engine.channel ≠ .idle) (awaiting : s.engine.channel ≠ .awaiting) :
    (s.fieldStart cut).engine.channel = s.engine.channel.closeLine := by
  obtain ⟨engine, -, -⟩ := s.beforeEngine_frame cut
  rw [← engine] at idle awaiting ⊢
  rw [State.fieldStart_engine, State.engineStep_inFlight idle awaiting]

/-- The descriptors and LATE as a field start leaves them: a record that keeps its generation has LATE where it had it
before, or where its window is fifth or later in need order (R111, R112). -/
theorem State.fieldStart_line {line : Nat} (isOpen : (s.fieldStart cut).engine.openLine = some line)
    (distinct : (s.fieldStart cut).stack.Nodup) :
    ∃ late, LineDescriptors (s.fieldStart cut) line (s.fieldStart cut).engine.descs late ∧
      ∀ i, ((s.fieldStart cut).slot i).gen = (s.slot i).gen →
        (((s.fieldStart cut).slot i).attention.late = true ↔ (s.slot i).attention.late = true ∨ i ∈ late) := by
  have drawing := s.fieldStart_drawing cut
  rw [State.fieldStart_engine] at isOpen ⊢
  rw [drawing.stack] at distinct
  obtain ⟨late, descriptors, marks, -⟩ := State.engineStep_line distinct isOpen
  refine ⟨late, (LineDescriptors.congr drawing).2 descriptors, fun i gen => ?_⟩
  rw [drawing.gen] at gen
  rw [State.fieldStart_slot, ← State.beforeEngine_late gen]
  by_cases listed : i ∈ late
  · simp [(marks i).1 listed, listed]
  · simp [(marks i).2 listed, listed]

end

/-- Settles O44: at a field start the engine's work, and what the rest of the field start leaves of it; at the beginning
of a line the line opened; and the raster by whether the flywheel or the timebase's own structure gives it. -/
theorem lineOpens : Obligations.LineOpens := by
  refine ⟨fun s law => ?fieldStart, fun s line law isOpen next empty => ?lineBegin,
    fun s lock r reference => State.rasterLine_flywheel ((LockContext.flywheels_iff _).2 lock) reference,
    fun s began place regular locked holdover hBegan hPlace started runs next hRegular => ?own,
    fun s => ⟨State.lineFresh_none, fun snap taken either => ?fresh⟩⟩
  case fieldStart =>
    obtain ⟨engine, port, reset⟩ := s.beforeEngine_frame false
    have discards := (s.beforeEngine false).engineStep_discards
    rw [← State.fieldStart_engine] at discards
    obtain ⟨silo, drawn, noDescs⟩ := discards
    obtain ⟨distinct, -, -⟩ := exec_stackLaw (c := .fieldStart) law rfl
    refine ⟨s.fieldStart false, rfl, silo, drawn, noDescs, fun asserted => ?asserted, fun released =>
      ⟨fun began number count raster => ?raster, fun free => ?free⟩, fun l isOpen => State.fieldStart_line isOpen distinct,
      fun line place k i g a current since flight => ?maskRead, fun flight => ?image⟩
    case asserted =>
      rw [State.fieldStart_engine, State.engineStep_reset (reset.trans asserted)]
      rfl
    case raster =>
      rw [State.fieldStart_openLine released, ← s.fieldStart_standard false]
      exact ⟨State.firstLineOpened_top raster, fun l => State.firstLineOpened_running raster⟩
    case free =>
      rw [← engine] at free
      rw [← port, State.fieldStart_engine]
      exact State.engineStep_free (reset.trans released) free
    case maskRead =>
      rw [State.fieldStart_inFlight (by simp [flight]) (by simp [flight]), flight]
      rfl
    case image =>
      rcases flight with ⟨a, since, flight⟩ | ⟨a, d, since, flight⟩
      · rw [State.fieldStart_inFlight (by simp [flight]) (by simp [flight]), flight]
        rfl
      · rw [State.fieldStart_inFlight (by simp [flight]) (by simp [flight]), flight]
        rfl
  case lineBegin =>
    have ran : exec (.lineBegin line) s = .next ((s.draw line).openLine (line + 1)).arbitrate :=
      congrArg Host.Outcome.next (State.beginLine_opens isOpen next empty)
    have drawing : SameDrawing s (s.draw line) :=
      ⟨rfl, fun _ => rfl, fun _ => rfl, fun _ => rfl, fun _ => rfl, rfl, rfl⟩
    obtain ⟨distinct, -, -⟩ := law
    refine ⟨_, ((s.draw line).needOrder (line + 1)).drop 4, ran, ?_⟩
    rw [State.openLine_arbitrate_engine]
    exact ⟨rfl, (LineDescriptors.congr drawing).1 (State.buildDescs_lineDescriptors distinct _),
      (State.openLine_marksLate (s.draw line) _).arbitrate, rfl, rfl,
      fun channel closed => State.openLine_arbitrated (s.draw line) _ closed⟩
  case own =>
    subst hBegan hPlace hRegular
    have own : s.programCtx.flywheels = false :=
      Bool.eq_false_iff.2 (mt (LockContext.flywheels_iff _).1 (not_or.2 ⟨locked, holdover⟩))
    have line := State.ownLine_running started runs (Keyer.begunOwn_eq_false next)
    rw [State.rasterLine_ownNumber own line]
    refine ⟨fun top bottom => ?within, fun before => ?before, fun after => ?after, fun snap c taken ownAt => ?begun⟩
    case within => rw [Timebase.ownNumber_within top bottom]
    case before => rw [Timebase.ownNumber_before before]
    case after => rw [Timebase.ownNumber_after after]
    case begun => rw [State.lineFresh_own taken own ownAt, line, Int.sub_add_cancel]
  case fresh =>
    refine State.lineFresh_began taken ?_
    rw [LockContext.flywheels_iff, or_assoc]
    exact either

end Sys2Proof.Machine
end

section
/-! The lock contexts over every step: the law of contexts (R125, R127, R129, R131). -/

namespace Sys2Proof.Machine

/-- The law of contexts is each context's own law. -/
theorem ContextLaw_iff (s : State) : ContextLaw s ↔ ∀ x, ContextSound (s.ctx x) := Iff.rfl

/-- The law of contexts reads the two contexts. -/
theorem ContextLaw_congr {s t : State} (h : ContextLaw s) (feedA : t.feedA = s.feedA) (feedB : t.feedB = s.feedB) :
    ContextLaw t := by
  intro x
  have same : t.ctx x = s.ctx x := by cases x <;> simp [State.ctx, feedA, feedB]
  rw [same]
  exact h x

theorem LockContext.powerOn_sound : ContextSound LockContext.powerOn :=
  ⟨rfl, nofun, fun _ => rfl, fun _ => rfl, nofun, Nat.zero_le _⟩

/-- What QUERY INPUT with reset leaves of a context (R140). -/
def LockContext.acknowledged (c : LockContext) : LockContext :=
  { c with sourceChanged := false, headSwitch := 0 }

theorem LockContext.acknowledged_sound {c : LockContext} (h : ContextSound c) : ContextSound c.acknowledged :=
  h.progress rfl rfl rfl (.inl rfl) rfl (Nat.zero_le _)

/-- A context replaced by one that is sound. -/
theorem State.setCtx_contextLaw {s : State} (hs : ContextLaw s) (x : Input) {c : LockContext} (h : ContextSound c) :
    ContextLaw (s.setCtx x c) := by
  intro y
  rw [State.setCtx_ctx]
  split
  · exact h
  · exact hs y

theorem State.tracked_contextLaw {s : State} (hs : ContextLaw s) (x : Input) {t : Tracked} (h : ContextSound t.ctx) :
    ContextLaw (s.tracked x t) := by
  intro y
  rw [State.tracked_ctx]
  split
  · exact h
  · exact hs y

/-- QUERY INPUT changes a context where it has the reset option, and then clears two items of it (R140). -/
theorem queryInputEffect_contextLaw {s : State} (hs : ContextLaw s) : ContextLaw (queryInputEffect s) := by
  unfold queryInputEffect
  split
  · exact hs
  · next x _ =>
    split
    · exact hs
    · refine State.setCtx_contextLaw hs x ?_
      split
      · exact LockContext.acknowledged_sound (hs x)
      · exact hs x

/-- Of the commands, QUERY INPUT alone touches a context. -/
theorem commandEffect_contextLaw (x : Bool) (code : BitVec 5) {s : State} (hs : ContextLaw s) :
    ContextLaw (commandEffect x code s) := by
  apply commandEffect_cases (P := fun e => ContextLaw (e s))
  case queryInput => exact queryInputEffect_contextLaw hs
  all_goals intros; exact ContextLaw_congr hs (by simp) (by simp)

/-- Every command keeps the law of contexts: the events of an input make its context by `Tracks`, power-on and QUERY
INPUT write what is sound, and no other command touches a context (R125). -/
theorem exec_contextLaw {c : Instr} {s t : State} (hs : ContextLaw s) (h : exec c s = .next t) : ContextLaw t := by
  refine exec_ind (P := ContextLaw) h ?self ?powerOn ?busReset ?release ?overrun ?refuse ?taken ?stored ?flags ?mask
    ?pointer ?read ?readRefused ?written ?field ?adoption ?expiry ?autoRetire ?blink ?guard ?applyHeld ?timeout ?settle
    ?beginLine ?takingPoint ?grant ?answerMask ?answerImage ?acknowledge ?busTimeout ?tracked ?cut ?slew ?lineEnd
  case powerOn =>
    intro _ x
    cases x <;> exact LockContext.powerOn_sound
  case busReset => exact hs
  case taken => exact fun code ie _ => commandEffect_contextLaw _ code (s := s.take code ie) hs
  case written =>
    intro _ _ _ hw
    exact ContextLaw_congr hs (by simp [State.writePointed_frame hw]) (by simp [State.writePointed_frame hw])
  case tracked => exact fun x time t tracks => State.tracked_contextLaw (s := s.clockAt time) hs x (tracks.sound (hs x))
  all_goals intros; exact ContextLaw_congr hs (by simp) (by simp)

/-- Settles O10: every command keeps the law of contexts, and neither the queue nor the clock touches a context. -/
theorem stepKeepsContextLaw : Obligations.StepKeepsContextLaw :=
  step_keeps (fun _ _ _ hs h => exec_contextLaw hs h) (fun _ _ hs => hs) (fun _ hs => hs)

end Sys2Proof.Machine
end

section
/-! QUERY INPUT (section 8.8): the words it reports, and what its reset option clears. -/

namespace Sys2Proof.Machine

/-! ### The reported words (R140, R155) -/

/-- The items of RESULT0 lie side by side below bit 7, so the word holds their sum. -/
theorem LockContext.query0_toNat (c : LockContext) :
    c.query0.toNat = c.lock.code + 8 * standardCode c.standard + 32 * bit c.sourceChanged + 64 * c.parity.code := by
  have lock : c.lock.code ≤ 4 := by cases c.lock <;> decide
  have standard : standardCode c.standard ≤ 2 := by rcases c.standard with _ | _ | _ <;> decide
  have changed : bit c.sourceChanged ≤ 1 := by cases c.sourceChanged <;> decide
  have parity : c.parity.code ≤ 1 := by cases c.parity <;> decide
  rw [LockContext.query0, BitVec.toNat_ofNat, Nat.mod_eq_of_lt (by omega)]

theorem LockContext.deviation_range (c : LockContext) : -128 ≤ c.deviation ∧ c.deviation ≤ 127 := by
  unfold LockContext.deviation
  split <;> omega

/-- RESULT1 as a number: the deviation's eight bits below the head-switch count. -/
theorem LockContext.query1_toNat {c : LockContext} (count : c.headSwitch ≤ 255) :
    c.query1.toNat = (c.deviation % 256).toNat + 256 * c.headSwitch := by
  rw [LockContext.query1, BitVec.toNat_ofNat, Nat.mod_eq_of_lt (a := c.headSwitch) (by omega),
    Nat.mod_eq_of_lt (by omega)]

theorem LockContext.query1_count {c : LockContext} (count : c.headSwitch ≤ 255) :
    c.query1.toNat / 256 = c.headSwitch := by
  rw [LockContext.query1_toNat count]
  omega

/-- The low byte of RESULT1 is the deviation in two's complement. -/
theorem LockContext.query1_deviation {c : LockContext} (count : c.headSwitch ≤ 255) :
    (c.query1.setWidth 8).toInt = c.deviation := by
  have range := c.deviation_range
  rw [BitVec.toInt_eq_toNat_bmod, BitVec.toNat_setWidth, LockContext.query1_toNat count, Int.bmod_def]
  omega

/-! ### The effect (R140) -/

theorem inputOf_bad {w : Word} (h : 1 < w.toNat) : inputOf w = none := by
  unfold inputOf
  split
  · omega
  · omega
  · rfl

theorem inputOf_inputWord (x : Input) : inputOf (inputWord x) = some x := by
  cases x <;> rfl

theorem queryInputEffect_bad {u : State} (h : 1 < u.cmd.arg0.toNat ∨ 1 < u.cmd.arg1.toNat) :
    queryInputEffect u = u.completeZero .badArgument := by
  unfold queryInputEffect
  rcases h with h | h
  · rw [inputOf_bad h]
  · split
    · rfl
    · rw [if_pos h]

/-- An accepted QUERY INPUT reports the context as it stands, and with the reset option clears two items of it. -/
theorem queryInputEffect_reports {u : State} {x : Input} {clear : Bool} (input : u.cmd.arg0 = inputWord x)
    (option : u.cmd.arg1 = flagWord clear) :
    queryInputEffect u = (if clear then u.setCtx x (u.ctx x).acknowledged else u).complete .ok (u.ctx x).query0
      (u.ctx x).query1 := by
  have self : u.setCtx x (u.ctx x) = u := by cases x <;> rfl
  unfold queryInputEffect
  rw [input, inputOf_inputWord, option]
  cases clear
  · simp [flagWord, self]
  · rfl

/-- Settles O25: the effect of QUERY INPUT on the state in which it has been taken, and the words it reports. -/
theorem queryInputReports : Obligations.QueryInputReports := by
  intro s ie ha
  rw [exec_accepted (.queryInput ie) (fun _ => rfl) ha]
  refine ⟨fun h => congrArg _ (queryInputEffect_bad (u := Taken s 15#5 ie) h), fun x clear input option count =>
    ⟨(s.ctx x).query0, (s.ctx x).query1, ?effect, ?word0, LockContext.query1_count count, ?deviation⟩⟩
  case effect =>
    rw [queryInputEffect_reports (u := Taken s 15#5 ie) input option]
    cases clear <;> cases x <;> rfl
  case word0 =>
    rw [LockContext.query0_toNat]
    rcases s.ctx x with ⟨lock, standard, _, _, parity⟩
    cases lock <;> rcases standard with _ | _ | _ <;> cases parity <;> rfl
  case deviation =>
    rw [LockContext.query1_deviation count]
    rcases s.ctx x with ⟨_, _, _, period⟩
    cases period <;> rfl

end Sys2Proof.Machine
end

section
/-! One lock context under the events of its input (chapter 8): what each event leaves of it, state by state. -/

namespace Sys2Proof.Machine

/-! ### Measurements, predictions and lines -/

theorem Parity.eq_other_iff (p q : Parity) : p = q.other ↔ p ≠ q := by
  cases p <;> cases q <;> decide

/-- A measured line period as R129 gives it: the time since the previous line start, in 1..4095 samples, or the period
as it stands where there is none. -/
structure LockContext.Measures (c : LockContext) (time : Nat) (measured : Option Nat) : Prop where
  since : ∀ r, c.reference = some r → measured = some (max 1 (min 4095 (time - r)))
  absent : c.reference = none → measured = c.period

/-- The line number and the parity after one more line start (R132): the next line of the field, or line 0 of a field of
the other parity where the line number comes to the expected count. -/
structure LockContext.Advances (c : LockContext) (line : Nat) (parity : Parity) : Prop where
  within : c.line + 1 ≠ c.expected → line = c.line + 1 ∧ parity = c.parity
  boundary : c.line + 1 = c.expected → line = 0 ∧ parity ≠ c.parity

section
variable {c : LockContext} {time line : Nat} {measured : Option Nat} {parity : Parity}

theorem LockContext.measurePeriod_eq (h : c.Measures time measured) :
    c.measurePeriod time = { c with period := measured, reference := some time, found := true } := by
  unfold LockContext.measurePeriod
  cases hr : c.reference with
  | none => rw [h.absent hr]
  | some r => rw [h.since r hr]; rfl

/-- The next line is that of any context with the same field and line. -/
theorem LockContext.Advances.nextLine {d : LockContext} (h : c.Advances line parity)
    (same : d.line = c.line ∧ d.parity = c.parity ∧ d.standard = c.standard) :
    d.nextLine = ({ d with line := line, parity := parity }, decide (c.line + 1 = c.expected)) := by
  obtain ⟨sameLine, sameParity, sameStandard⟩ := same
  have sameCount : d.expected = c.expected := by
    simp only [LockContext.expected, LockContext.lineStandard, sameParity, sameStandard]
  unfold LockContext.nextLine
  rw [sameLine, sameCount, sameParity]
  split
  · next last =>
    obtain ⟨rfl, other⟩ := h.boundary last
    rw [(Parity.eq_other_iff _ _).2 other, decide_eq_true last]
  · next more =>
    obtain ⟨rfl, rfl⟩ := h.within more
    rw [decide_eq_false more]

theorem LockContext.predicted_eq {r p : Nat} (reference : c.reference = some r) (period : c.period = some p) :
    c.predicted = some (r + p) := by
  simp [LockContext.predicted, reference, period]

theorem LockContext.distance_eq {r p : Nat} {d : Int} (reference : c.reference = some r) (period : c.period = some p)
    (hd : d = (time : Int) - (r + p)) : c.distance time = d.natAbs := by
  subst hd
  simp [LockContext.distance, LockContext.predicted_eq reference period]

end

/-! ### Line starts by the lock state -/

section
variable {c : LockContext} (time : Nat) (seq : Option Parity)

theorem LockContext.lineEvent_noSignal (h : c.lock = .noSignal) :
    c.lineEvent time seq = { ctx := c, vsync := false } := by
  simp [LockContext.lineEvent, h]

theorem LockContext.lineEvent_hunt (h : c.lock = .hunt) : c.lineEvent time seq = c.huntLine time seq := by
  simp [LockContext.lineEvent, h]

theorem LockContext.lineEvent_verify (h : c.lock = .verify) : c.lineEvent time seq = c.verifyLine time seq := by
  simp [LockContext.lineEvent, h]

theorem LockContext.lineEvent_locked (h : c.lock = .locked) : c.lineEvent time seq = c.lockedLine time seq := by
  simp [LockContext.lineEvent, h]

theorem LockContext.lineEvent_holdover (h : c.lock = .holdover) : c.lineEvent time seq = c.holdoverLine time seq := by
  simp [LockContext.lineEvent, h]

end

/-! ### HUNT (R129) -/

section
variable {c : LockContext} {time : Nat}

/-- A line start that brings no sequence, or one at the moment of entry to HUNT, is measured and counted. -/
theorem LockContext.huntLine_counts {seq : Option Parity} (h : c.huntAt = some time ∨ seq = none) :
    c.huntLine time seq =
      { ctx := { c.measurePeriod time with huntLines := c.huntLines.map (· + 1) }, vsync := false } := by
  have ignored : (if c.huntAt = some time then none else seq) = none := by
    rcases h with h | h <;> simp [h]
  unfold LockContext.huntLine
  rw [ignored]

/-- The first sequence after entry becomes the HUNT reference, and so does one a wrong number of lines after it. -/
theorem LockContext.huntLine_reference {p : Parity} (later : c.huntAt ≠ some time)
    (h : c.huntLines = none ∨ ∃ n, c.huntLines = some n ∧ n ≠ 261 ∧ n ≠ 262 ∧ n ≠ 311 ∧ n ≠ 312) :
    c.huntLine time (some p) = { ctx := { c.measurePeriod time with huntLines := some 0 }, vsync := false } := by
  unfold LockContext.huntLine
  rw [if_neg later]
  rcases h with none | ⟨n, counted, h⟩
  · rw [none]
  · rw [counted]
    dsimp only
    rw [if_neg (by omega), if_neg (by omega)]

/-- A sequence a field's lines after the HUNT reference enters VERIFY with the standard of that field. -/
theorem LockContext.huntLine_verify {p : Parity} {n : Nat} {std : Standard} (later : c.huntAt ≠ some time)
    (counted : c.huntLines = some n)
    (h : ((n = 261 ∨ n = 262) ∧ std = .lines525) ∨ ((n = 311 ∨ n = 312) ∧ std = .lines625)) :
    c.huntLine time (some p) = { ctx := (c.measurePeriod time).enterVerify std p, vsync := true } := by
  unfold LockContext.huntLine
  rw [if_neg later, counted]
  dsimp only
  rcases h with ⟨h, rfl⟩ | ⟨h, rfl⟩
  · rw [if_pos (by omega)]
  · rw [if_neg (by omega), if_pos (by omega)]

end

/-! ### VERIFY (R130) -/

section
variable {c : LockContext} {time r : Nat} {std : Standard}

theorem LockContext.periodFails_iff (reference : c.reference = some r) (standard : c.standard = some std) :
    c.periodFails time = true ↔ 8 < ((time : Int) - r - std.nominal).natAbs ∧ c.line + 10 < c.expected := by
  simp [LockContext.periodFails, LockContext.lineStandard, reference, standard]

/-- A field fails by a wrong period, by its count reached with no sequence, or by a sequence that does not end it. -/
theorem LockContext.verifyLine_fails {seq : Option Parity}
    (h : c.periodFails time = true ∨ (seq = none ∧ c.expected ≤ c.line + 1) ∨
      ∃ p, seq = some p ∧ (c.line + 1 ≠ c.expected ∨ p = c.parity)) :
    c.verifyLine time seq = { ctx := (c.measurePeriod time).failVerify time, vsync := false } := by
  unfold LockContext.verifyLine
  dsimp only
  split
  · rfl
  · next good =>
    rcases h with bad | ⟨rfl, full⟩ | ⟨p, rfl, other⟩
    · exact absurd bad good
    · exact if_neg (Nat.not_lt.2 full)
    · exact if_pos other

theorem LockContext.verifyLine_advances (good : ¬ c.periodFails time = true) (more : c.line + 1 < c.expected) :
    c.verifyLine time none = { ctx := { c.measurePeriod time with line := c.line + 1 }, vsync := false } := by
  unfold LockContext.verifyLine
  dsimp only
  rw [if_neg good, if_pos more]

/-- A sequence of the other parity at the field's count passes it: the fourth to LOCKED. A line that ends there lies in
the head-switch zone, where the period test is excused. -/
theorem LockContext.verifyLine_passes {p : Parity} (reference : c.reference = some r)
    (standard : c.standard = some std) (last : c.line + 1 = c.expected) (other : p ≠ c.parity) :
    c.verifyLine time (some p) =
      { ctx :=
          if c.verified < 3 then
            { c.measurePeriod time with line := 0, parity := p, verified := c.verified + 1 }
          else { c.measurePeriod time with line := 0, parity := p, verified := c.verified + 1 }.enterLocked
        vsync := true } := by
  have good : ¬ c.periodFails time = true := by
    rw [LockContext.periodFails_iff reference standard]
    omega
  have ends : ¬ (c.line + 1 ≠ c.expected ∨ p = c.parity) := by
    rintro (h | h)
    · exact h last
    · exact other h
  unfold LockContext.verifyLine
  dsimp only
  rw [if_neg good, if_neg ends]
  by_cases few : c.verified < 3
  · rw [if_pos few, if_pos (Nat.succ_lt_succ few)]
  · rw [if_neg few, if_neg (fun h => few (Nat.lt_of_succ_lt_succ h))]

end

/-! ### LOCKED (R132, R133) -/

section
variable {c : LockContext} {time : Nat}

theorem LockContext.lockedLine_outside {seq : Option Parity} (far : 64 < c.distance time) :
    c.lockedLine time seq = { ctx := c, vsync := false } :=
  if_pos far

theorem LockContext.lockedLine_within (near : c.distance time ≤ 64) :
    c.lockedLine time none =
      { ctx := (c.lockedFound time).nextLine.1, vsync := (c.lockedFound time).nextLine.2 } :=
  if_neg (Nat.not_lt.2 near)

theorem LockContext.lockedFound_accepted {measured : Option Nat} (measure : c.Measures time measured)
    (close : c.distance time ≤ 6) :
    c.lockedFound time =
      { c with
        reference := some time, found := true, run := 0, period := if c.found then measured else c.period } := by
  unfold LockContext.lockedFound
  rw [if_pos close, LockContext.measurePeriod_eq measure]
  cases c.found <;> rfl

theorem LockContext.lockedFound_zone (jump : 6 < c.distance time) (zone : c.expected ≤ c.line + 11) :
    c.lockedFound time =
      { c with reference := some time, found := true, run := 0, headSwitch := min 255 (c.headSwitch + 1) } := by
  unfold LockContext.lockedFound
  rw [if_neg (Nat.not_le.2 jump), if_pos (show c.expected ≤ c.line + 1 + Config.zoneLines from zone)]

theorem LockContext.lockedFound_jump (jump : 6 < c.distance time) (outside : c.line + 11 < c.expected) :
    c.lockedFound time = { c with reference := some time, found := true }.enterHoldover := by
  unfold LockContext.lockedFound
  rw [if_neg (Nat.not_le.2 jump), if_neg (show ¬ c.expected ≤ c.line + 1 + Config.zoneLines from Nat.not_le.2 outside)]

/-- Whatever a line start found in LOCKED does, the line number and the expected count stand until it is counted. -/
theorem LockContext.lockedFound_line (c : LockContext) (time : Nat) :
    (c.lockedFound time).line = c.line ∧ (c.lockedFound time).expected = c.expected := by
  unfold LockContext.lockedFound
  split
  · cases c.found <;> exact ⟨rfl, rfl⟩
  · split <;> exact ⟨rfl, rfl⟩

theorem LockContext.confirmedBy_iff (p : Parity) :
    c.confirmedBy p = true ↔ c.line + 1 = c.expected ∧ p ≠ c.parity := by
  simp [LockContext.confirmedBy, Parity.eq_other_iff]

/-- A sequence that confirms the field boundary leaves what the line start alone leaves. -/
theorem LockContext.lockedLine_confirmed {p : Parity} (last : c.line + 1 = c.expected) (other : p ≠ c.parity) :
    c.lockedLine time (some p) = c.lockedLine time none := by
  obtain ⟨line, expected⟩ := c.lockedFound_line time
  have marked : (c.lockedFound time).nextLine.2 = true := by
    unfold LockContext.nextLine
    rw [if_pos (by rw [line, expected, last])]
  unfold LockContext.lockedLine
  dsimp only
  rw [if_pos ((LockContext.confirmedBy_iff p).2 ⟨last, other⟩), marked]

theorem LockContext.lockedLine_verticalJump {p : Parity} (near : c.distance time ≤ 64)
    (jump : c.line + 1 ≠ c.expected ∨ p = c.parity) :
    c.lockedLine time (some p) = { ctx := c.verticalJump time p, vsync := true } := by
  have unconfirmed : ¬ c.confirmedBy p = true := by
    rw [LockContext.confirmedBy_iff]
    rintro ⟨last, other⟩
    rcases jump with more | same
    · exact more last
    · exact other same
  unfold LockContext.lockedLine
  dsimp only
  rw [if_neg (Nat.not_lt.2 near), if_neg unconfirmed]

/-- A line start within 6 samples of its prediction, with all that it leaves (R132). -/
theorem LockContext.lockedLine_accepted {measured : Option Nat} {line : Nat} {parity : Parity}
    (measure : c.Measures time measured) (next : c.Advances line parity) (close : c.distance time ≤ 6) :
    c.lockedLine time none =
      { ctx := { c with
          reference := some time, found := true, run := 0, line := line, parity := parity,
          period := if c.found then measured else c.period }
        vsync := decide (c.line + 1 = c.expected) } := by
  rw [LockContext.lockedLine_within (by omega), LockContext.lockedFound_accepted measure close,
    next.nextLine]
  exact ⟨rfl, rfl, rfl⟩

end

/-! ### HOLDOVER, and missing line starts (R134 to R136) -/

section
variable {c : LockContext} {line : Nat} {parity : Parity} {std : Standard}

theorem LockContext.holdoverEnd_runsOn {v : Bool} {moment : Nat} (standard : c.standard = some std)
    (short : c.heldLines < std.holdoverLimit) : c.holdoverEnd v moment = { ctx := c, vsync := v } := by
  refine if_neg ?_
  simpa [LockContext.lineStandard, standard] using short

theorem LockContext.holdoverEnd_limit {v : Bool} {moment : Nat} (standard : c.standard = some std)
    (limit : std.holdoverLimit ≤ c.heldLines) :
    c.holdoverEnd v moment = { ctx := c.enterHunt moment, vsync := false } := by
  refine if_pos ?_
  simpa [LockContext.lineStandard, standard] using limit

theorem LockContext.holdoverLine_outside {time : Nat} {seq : Option Parity} (far : 64 < c.distance time) :
    c.holdoverLine time seq = { ctx := c, vsync := false } :=
  if_pos far

/-- A line start within the window in HOLDOVER: counted, with its good line starts in a row, and re-phased by the
sequence it begins; then the re-lock, or the limit, is judged (R135, R136). -/
theorem LockContext.holdoverLine_within {time good line' : Nat} {seq : Option Parity} {parity' : Parity}
    (next : c.Advances line parity) (near : c.distance time ≤ 64)
    (count : good = if c.distance time ≤ 6 then c.run + 1 else 0) (plain : seq = none → line' = line ∧ parity' = parity)
    (phased : ∀ q, seq = some q → line' = 0 ∧ parity' = q) :
    ∃ v, c.holdoverLine time seq =
        (if 8 ≤ good then
          { ctx := { c with
              reference := some time, found := true, run := good, heldLines := c.heldLines + 1, line := line',
              parity := parity' }.enterLocked
            vsync := v }
        else
          { c with
            reference := some time, found := true, run := good, heldLines := c.heldLines + 1, line := line',
            parity := parity' }.holdoverEnd v time) := by
  have counted (n : Nat) : LockContext.nextLine
      { c with reference := some time, found := true, run := n, heldLines := c.heldLines + 1 } =
      ({ c with
        reference := some time, found := true, run := n, heldLines := c.heldLines + 1, line := line,
        parity := parity }, decide (c.line + 1 = c.expected)) :=
    next.nextLine ⟨rfl, rfl, rfl⟩
  unfold LockContext.holdoverLine
  rw [if_neg (Nat.not_lt.2 near)]
  dsimp only
  rw [← show good = (if c.distance time ≤ Config.jumpTolerance then c.run + 1 else 0) from count, counted good]
  cases seq with
  | none =>
    obtain ⟨rfl, rfl⟩ := plain rfl
    exact ⟨_, rfl⟩
  | some q =>
    obtain ⟨rfl, rfl⟩ := phased q rfl
    exact ⟨true, rfl⟩

/-- A line start missing in LOCKED, the third in a row entering HOLDOVER (R134). -/
theorem LockContext.missingLine_locked {moment r p : Nat} (locked : c.lock = .locked) (reference : c.reference = some r)
    (period : c.period = some p) (next : c.Advances line parity) :
    c.missingLine moment =
      { ctx :=
          if c.run < 2 then
            { c with reference := some (r + p), found := false, run := c.run + 1, line := line, parity := parity }
          else
            { c with
              lock := .holdover, reference := some (r + p), found := false, run := 0, heldLines := 0, line := line,
              parity := parity }
        vsync := decide (c.line + 1 = c.expected) } := by
  unfold LockContext.missingLine
  rw [LockContext.predicted_eq reference period, locked]
  dsimp only
  rw [next.nextLine]
  · by_cases few : c.run < 2
    · rw [if_pos few, if_neg (show ¬ 3 ≤ c.run + 1 by omega)]
    · rw [if_neg few, if_pos (show 3 ≤ c.run + 1 by omega)]
      rfl
  · exact ⟨rfl, rfl, rfl⟩

/-- A line start missing in HOLDOVER is counted, and is not good (R135, R136). -/
theorem LockContext.missingLine_holdover {moment r p : Nat} (held : c.lock = .holdover)
    (reference : c.reference = some r) (period : c.period = some p) (next : c.Advances line parity) :
    c.missingLine moment =
      { c with
        reference := some (r + p), found := false, run := 0, heldLines := c.heldLines + 1, line := line,
        parity := parity }.holdoverEnd (decide (c.line + 1 = c.expected)) moment := by
  unfold LockContext.missingLine
  rw [LockContext.predicted_eq reference period, held]
  dsimp only
  rw [next.nextLine]
  exact ⟨rfl, rfl, rfl⟩

end

/-! ### Entry to LOCKED (R130, R135) -/

section
variable {c : LockContext}

/-- The boundary of a field is marked exactly where the line number comes to 0. -/
theorem LockContext.nextLine_marks (c : LockContext) : c.nextLine.2 = decide (c.nextLine.1.line = 0) := by
  unfold LockContext.nextLine
  split <;> simp

theorem LockContext.huntLine_unlocked (time : Nat) (seq : Option Parity) (h : c.lock = .hunt) :
    (c.huntLine time seq).ctx.lock ≠ .locked := by
  have hunts : (c.measurePeriod time).lock ≠ .locked := by
    rw [show (c.measurePeriod time).lock = .hunt from h]
    decide
  unfold LockContext.huntLine
  dsimp only
  split
  · exact hunts
  · exact hunts
  · split
    · exact nofun
    · split
      · exact nofun
      · exact hunts

theorem LockContext.holdoverEnd_unlocked (v : Bool) (moment : Nat) (h : c.lock ≠ .locked) :
    (c.holdoverEnd v moment).ctx.lock ≠ .locked := by
  unfold LockContext.holdoverEnd
  split
  · exact nofun
  · exact h

/-- VERIFY is left for LOCKED at the sequence that ends its fourth field, line 0 of the next. -/
theorem LockContext.verifyLine_entersLocked {time : Nat} {seq : Option Parity} (h : c.lock = .verify)
    (entered : (c.verifyLine time seq).ctx.lock = .locked) :
    (c.verifyLine time seq).vsync = decide ((c.verifyLine time seq).ctx.line = 0) := by
  have verifies : (c.measurePeriod time).lock ≠ .locked := by
    rw [show (c.measurePeriod time).lock = .verify from h]
    decide
  revert entered
  unfold LockContext.verifyLine
  dsimp only
  split
  · exact nofun
  · split
    · split
      · exact fun entered => absurd entered verifies
      · exact nofun
    · split
      · exact nofun
      · split
        · exact fun _ => rfl
        · exact fun _ => rfl

/-- HOLDOVER is left for LOCKED at a line start that is line 0 where it marks a boundary or begins a sequence. -/
theorem LockContext.holdoverLine_entersLocked {time : Nat} {seq : Option Parity} (h : c.lock = .holdover)
    (entered : (c.holdoverLine time seq).ctx.lock = .locked) :
    (c.holdoverLine time seq).vsync = decide ((c.holdoverLine time seq).ctx.line = 0) := by
  revert entered
  unfold LockContext.holdoverLine
  dsimp only
  split
  · exact fun entered => absurd (h.symm.trans entered) (by decide)
  · generalize (if c.distance time ≤ Config.jumpTolerance then c.run + 1 else 0) = good
    generalize hd : ({ c with reference := some time, found := true, run := good, heldLines := c.heldLines + 1 } :
      LockContext) = d
    have unlocked : d.nextLine.1.lock ≠ .locked := by
      rw [LockContext.nextLine_lock, ← hd, show _ = LockState.holdover from h]
      decide
    cases seq with
    | none =>
      dsimp only
      split
      · exact fun _ => d.nextLine_marks
      · exact fun entered => absurd entered (LockContext.holdoverEnd_unlocked _ _ unlocked)
    | some p =>
      dsimp only
      split
      · exact fun _ => rfl
      · exact fun entered => absurd entered (LockContext.holdoverEnd_unlocked _ _ unlocked)

/-- A missing line start enters LOCKED from no other state. -/
theorem LockContext.missingLine_unlocked (moment : Nat) (before : c.lock ≠ .locked) :
    (c.missingLine moment).ctx.lock ≠ .locked := by
  unfold LockContext.missingLine
  split
  · exact before
  · split
    · next h => exact absurd h before
    · next h =>
      refine LockContext.holdoverEnd_unlocked _ _ ?_
      rw [LockContext.nextLine_lock]
      exact before
    all_goals exact before

/-- LOCKED is entered at a line start that hands on a Feed vertical sync exactly where it is line 0 of its field: the
sequence that ends VERIFY, or the eighth good line start of HOLDOVER. -/
theorem Tracks.entersLocked {t : Tracked} (h : Tracks c t) (before : c.lock ≠ .locked)
    (after : t.ctx.lock = .locked) : t.vsync = decide (t.ctx.line = 0) := by
  cases h with
  | pulse time =>
    refine absurd after ?_
    unfold LockContext.pulse
    split
    · exact nofun
    · exact before
  | line time seq =>
    cases lock : c.lock with
    | noSignal =>
      rw [LockContext.lineEvent_noSignal time seq lock] at after
      exact absurd after before
    | hunt =>
      rw [LockContext.lineEvent_hunt time seq lock] at after
      exact absurd after (LockContext.huntLine_unlocked time seq lock)
    | verify =>
      rw [LockContext.lineEvent_verify time seq lock] at after ⊢
      exact LockContext.verifyLine_entersLocked lock after
    | locked => exact absurd lock before
    | holdover =>
      rw [LockContext.lineEvent_holdover time seq lock] at after ⊢
      exact LockContext.holdoverLine_entersLocked lock after
  | missing moment => exact absurd after (LockContext.missingLine_unlocked moment before)
  | limit _ _ => cases after
  | loss _ => cases after

end

end Sys2Proof.Machine
end

section
/-! LOCK over the events of the inputs (R138): it is set where a lock state changes, and nothing else of an event
touches it. -/

namespace Sys2Proof.Machine

/-! ### The timebase and the switches leave LOCK -/

section
variable (s : State)

@[simp] theorem State.setTimebaseState_lockFlag (x : TimebaseState) :
    (s.setTimebaseState x).events.lock = s.events.lock := rfl

@[simp] theorem State.enterFollow_lockFlag : s.enterFollow.events.lock = s.events.lock := rfl

@[simp] theorem State.enterCoast_lockFlag : s.enterCoast.events.lock = s.events.lock := rfl

@[simp] theorem State.slewOrFollow_lockFlag : s.slewOrFollow.events.lock = s.events.lock := by
  unfold State.slewOrFollow
  split <;> rfl

@[simp] theorem State.relock_lockFlag : s.relock.events.lock = s.events.lock := by
  simp [State.relock]

@[simp] theorem State.programLockChanged_lockFlag (old : LockState) :
    (s.programLockChanged old).events.lock = s.events.lock := by
  unfold State.programLockChanged
  (repeat' split) <;> simp

@[simp] theorem State.withdrawSwitch_lockFlag (x : Input) : (s.withdrawSwitch x).events.lock = s.events.lock := by
  unfold State.withdrawSwitch
  split
  · split <;> rfl
  · rfl
  · rfl

@[simp] theorem State.judgeSelect_lockFlag (x : Input) (mode : SwitchMode) (confirm : Bool) :
    (s.judgeSelect x mode confirm).events.lock = s.events.lock := by
  unfold State.judgeSelect
  (repeat' split) <;> rfl

@[simp] theorem State.settleHeldSelect_lockFlag : s.settleHeldSelect.events.lock = s.events.lock := by
  unfold State.settleHeldSelect State.examineHeld
  split
  · rfl
  · split <;> simp

@[simp] theorem State.heldSelectStep_lockFlag : s.heldSelectStep.events.lock = s.events.lock := by
  unfold State.heldSelectStep State.examineHeld
  split
  · rfl
  · split
    · simp
    · split <;> rfl

@[simp] theorem State.cutTo_lockFlag (x : Input) : (s.cutTo x).events.lock = s.events.lock := by
  unfold State.cutTo
  dsimp only
  split <;> rfl

@[simp] theorem State.slewTo_lockFlag (x : Input) : (s.slewTo x).events.lock = s.events.lock := by
  unfold State.slewTo
  dsimp only
  split <;> simp

@[simp] theorem State.unmark_lockFlag : s.unmark.events.lock = s.events.lock := by
  unfold State.unmark
  split <;> rfl

end

/-! ### Field starts leave LOCK -/

theorem OnlyWindow.lock {s t : State} (h : OnlyWindow s t) : t.events.lock = s.events.lock := by
  unfold OnlyWindow at h
  rw [h]

section
variable (s : State)

@[simp] theorem State.engineStep_lockFlag : s.engineStep.events.lock = s.events.lock :=
  s.engineStep_onlyWindow.lock

@[simp] theorem State.convertStep_lockFlag : s.convertStep.events.lock = s.events.lock := rfl

@[simp] theorem State.beginField_lockFlag : s.beginField.events.lock = s.events.lock := by
  show s.slewVertical.events.lock = _
  unfold State.slewVertical State.settleSlew
  split
  · split <;> rfl
  · rfl

theorem State.guardStep_lockFlag : s.guardStep.events.lock = s.events.lock := by
  unfold State.guardStep
  split
  · rfl
  · split <;> rfl

theorem State.applyHeld_lockFlag : s.applyHeld.events.lock = s.events.lock := by
  unfold State.applyHeld
  split
  · rfl
  all_goals
    simp only [State.applyPush, State.applyLift, State.applyRaise, State.applyLower, State.applyClearAir,
      State.applyRetire]
    (repeat' split) <;> rfl

@[simp] theorem State.recordStep_lockFlag : s.recordStep.events.lock = s.events.lock := by
  have published (u : State) : u.publicationStep.events.lock = u.events.lock := rfl
  have counted : s.countStep.events.lock = s.events.lock := rfl
  rw [State.recordStep, published, State.stackStep, State.applyHeld_lockFlag, State.guardStep_lockFlag,
    (State.removeAll_onlyWindow _ _).lock, counted]

@[simp] theorem State.fieldStart_lockFlag (cut : Bool) : (s.fieldStart cut).events.lock = s.events.lock := by
  simp [State.fieldStart]

@[simp] theorem State.cutSwitch_lockFlag (x : Input) : (s.cutSwitch x).events.lock = s.events.lock := by
  have recut (u : State) : u.recutFieldStart.events.lock = u.events.lock := by
    simp [State.recutFieldStart]
  unfold State.cutSwitch
  dsimp only
  split
  · simp [recut]
  · simp

@[simp] theorem State.slewSwitch_lockFlag (x : Input) : (s.slewSwitch x).events.lock = s.events.lock := by
  simp [State.slewSwitch]

/-! ### What an event hands on leaves LOCK -/

@[simp] theorem State.followLine_lockFlag (x : Input) (old : Option Nat) :
    (s.followLine x old).events.lock = s.events.lock := by
  simp only [State.followLine]
  (repeat' split) <;> simp

@[simp] theorem State.handOn_lockFlag (x : Input) : (s.handOn x).events.lock = s.events.lock := by
  unfold State.handOn State.makeSwitch
  (repeat' split) <;> simp

/-- A change of lock state sets LOCK, and no other event of an input does (R138). -/
theorem State.lockChanged_lockFlag (x : Input) (old : LockState) :
    (s.lockChanged x old).events.lock = (s.events.lock || decide ((s.ctx x).lock ≠ old)) := by
  unfold State.lockChanged
  dsimp only
  split
  · next same => simp [same]
  · next changed => split <;> split <;> simp [changed, State.signalLock]

theorem State.tracked_lockFlag (x : Input) (t : Tracked) :
    (s.tracked x t).events.lock = (s.events.lock || decide (t.ctx.lock ≠ (s.ctx x).lock)) := by
  have changed : (((s.setCtx x t.ctx).lockChanged x (s.ctx x).lock).followLine x (s.ctx x).reference).events.lock =
      (s.events.lock || decide (t.ctx.lock ≠ (s.ctx x).lock)) := by
    simp [State.lockChanged_lockFlag]
  unfold State.tracked
  dsimp only
  split
  · simpa using changed
  · simpa using changed

end

section
variable {s : State} {x : Input} {t : Tracked}

theorem State.tracked_keepsLock (h : t.ctx.lock = (s.ctx x).lock) : (s.tracked x t).events.lock = s.events.lock := by
  simp [State.tracked_lockFlag, h]

theorem State.tracked_changesLock (h : t.ctx.lock ≠ (s.ctx x).lock) : (s.tracked x t).events.lock = true := by
  simp [State.tracked_lockFlag, h]

end

end Sys2Proof.Machine
end

section
/-! What an event of an input does to the part beside its context: the switch withdrawn, the timebase, and the held
SELECT (R137, R143, R146, R149, R152). -/

namespace Sys2Proof.Machine

/-! ### The rows of the table -/

theorem State.clockAt_zero (s : State) : s.clockAt 0 = s := by
  simp [State.clockAt]

/-- An event of an input does nothing, or what its context makes of it, at its time. -/
theorem EventOf.tracks {x : Input} {e : Instr} {s t : State} (h : EventOf x e) (ran : exec e s = .next t) :
    t = s ∨ ∃ time T, Tracks (s.ctx x) T ∧ t = (s.clockAt time).tracked x T := by
  have now {T : Tracked} (tracks : Tracks (s.ctx x) T) (h : t = s.tracked x T) :
      ∃ time T, Tracks (s.ctx x) T ∧ t = (s.clockAt time).tracked x T :=
    ⟨0, T, tracks, by rw [State.clockAt_zero, h]⟩
  have next {u : State} (stands : exec e s = .next u) : t = u := by
    rw [stands] at ran
    exact (Host.Outcome.next.inj ran).symm
  cases h with
  | syncPulse time => exact .inr ⟨time, _, .pulse time, next rfl⟩
  | line e h =>
    cases h with
    | lineStart time => exact .inr ⟨time, _, .line time none, next rfl⟩
    | verticalSyncSequence time parity => exact .inr ⟨time, _, .line time (some parity), next rfl⟩
    | verifyPass time =>
      by_cases due : (s.ctx x).passDue = true
      · exact .inr ⟨time, _, .line time _, next (if_pos due)⟩
      · exact .inl (next (if_neg due))
    | missingLineStart => exact .inr (now (.missing s.now) (next rfl))
    | holdoverRelock time =>
      by_cases due : (s.ctx x).relockDue time = true
      · exact .inr ⟨time, _, .line time none, next (if_pos due)⟩
      · exact .inl (next (if_neg due))
  | holdoverLimit =>
    by_cases due : (s.ctx x).limitDue = true
    · have held : (s.ctx x).lock = .holdover := by
        simp only [LockContext.limitDue, Bool.and_eq_true, decide_eq_true_eq] at due
        exact due.1
      exact .inr (now (.limit s.now held) (next (if_pos due)))
    · exact .inl (next (if_neg due))
  | lossTimerExpiry =>
    by_cases stopped : (s.ctx x).lock = .noSignal
    · exact .inl (next (if_pos stopped))
    · exact .inr (now (.loss stopped) (next (if_neg stopped)))

/-! ### What is handed on, part by part -/

section
variable {s : State} {x : Input} {old : Option Nat}

/-- A held SELECT that waits on a switch in flight goes on waiting (R153). -/
theorem State.settleHeldSelect_waiting (h : HeldSelectWaits s) : s.settleHeldSelect = s := by
  unfold State.settleHeldSelect
  split
  · rfl
  · next q held => exact if_neg (h q held)

/-- The computer's line starts stand where the event brings no new line start of the program input, and where the line
in progress does not follow it (R143). -/
theorem State.followLine_stands
    (h : (∀ r, (s.ctx x).reference = some r → old = some r) ∨ x ≠ s.tb.program ∨ s.tb.lineFollows = false) :
    s.followLine x old = s := by
  unfold State.followLine
  split
  · rfl
  · next r reference =>
    refine if_pos ?_
    rcases h with same | other | own
    · exact .inr (same r reference)
    · exact .inl fun both => other both.1
    · exact .inl fun both => Bool.false_ne_true (own.symm.trans both.2)

/-- In FOLLOW a new line start of the program input, more than half a line after the computer's, ends the computer's
line (R143). -/
theorem State.followLine_endsLine {r : Nat} (program : x = s.tb.program) (following : s.tb.state = .follow)
    (follows : s.tb.lineFollows = true) (reference : (s.ctx x).reference = some r) (new : old ≠ some r)
    (started : s.tb.lineStartAt ≤ r) (late : s.tb.standard.nominal < 2 * (r - s.tb.lineStartAt)) :
    s.followLine x old = s.endLine.startLine r := by
  have apart : s.beside x s.tb.lineStartAt = false := by
    simp only [State.beside, reference, Option.getD_some, decide_eq_false_iff_not]
    omega
  simp [State.followLine, reference, program.symm, follows, new, apart, following]

/-- A Feed vertical sync of an input for which no switch is scheduled ends the computer's field, or does nothing
(R142, R143). -/
theorem State.handOn_unscheduled (free : ∀ mode, s.tb.switch ≠ .scheduled x mode) :
    s.handOn x = if x = s.tb.program ∧ s.endsAtBoundary x then s.fieldStart false else s := by
  unfold State.handOn
  split
  · next y mode scheduled => exact if_neg fun same : y = x => free mode (same ▸ scheduled)
  · rfl

theorem State.withdrawSwitch_unscheduled (free : ∀ mode, s.tb.switch ≠ .scheduled x mode) : s.withdrawSwitch x = s := by
  unfold State.withdrawSwitch
  split
  · next y mode scheduled => exact if_neg fun same : y = x => free mode (same ▸ scheduled)
  · rfl
  · rfl

theorem State.withdrawSwitch_scheduled {mode : SwitchMode} (scheduled : s.tb.switch = .scheduled x mode) :
    s.withdrawSwitch x = { s with tb := { s.tb with switch := .none } }.signalTimebase := by
  simp [State.withdrawSwitch, scheduled]

end

/-! ### Events as a whole -/

/-- The part with LOCK set, the scheduled switch withdrawn and TIMEBASE set for it (R138, R149). -/
def State.switchWithdrawn (s : State) : State :=
  { s with
    events := { s.events with lock := true, timebase := true }
    tb := { s.tb with switch := .none } }

/-- The part with LOCK set and the timebase gone to COAST, at a running line period or its own (R138, R146). -/
def State.thrownToCoast (s : State) (period : Option Nat) : State :=
  { s with
    events := { s.events with lock := true, timebase := true }
    tb := { s.tb with state := .coast, runPeriod := period.getD s.tb.runPeriod, lineFollows := false } }

/-- The timebase with its residuals measured against a context, under a standard that it takes (R144, R146). -/
def State.measuredUnder (s : State) (c : LockContext) (std : Standard) : Timebase :=
  Timebase.measure { s.tb with standard := std } c

@[simp] theorem State.measuredUnder_state (s : State) (c : LockContext) (std : Standard) :
    (s.measuredUnder c std).state = s.tb.state := rfl

@[simp] theorem State.measuredUnder_switch (s : State) (c : LockContext) (std : Standard) :
    (s.measuredUnder c std).switch = s.tb.switch := rfl

/-- The part with LOCK set and the timebase gone to SLEW, or to FOLLOW with a made switch over where both residuals
measure 0 (R138, R146, R152). -/
def State.relockedTo (s : State) (c : LockContext) (std : Standard) : State :=
  let zero := decide ((s.measuredUnder c std).h = 0) && decide ((s.measuredUnder c std).v = 0)
  { s with
    events := { s.events with lock := true, timebase := true }
    tb := { s.measuredUnder c std with
      state := if zero then .follow else .slew
      switch := if zero ∧ s.tb.switch = .made then .none else s.tb.switch } }

section
variable {s : State} {x : Input} {T : Tracked}

theorem State.setCtx_same (s : State) (x : Input) (c : LockContext) : (s.setCtx x c).ctx x = c := by
  simp

theorem State.tracked_same (s : State) (x : Input) (T : Tracked) : (s.tracked x T).ctx x = T.ctx := by
  simp [State.tracked_ctx]

theorem State.tracked_other {y : Input} (other : y ≠ x) : (s.tracked x T).ctx y = s.ctx y := by
  simp [State.tracked_ctx, other]

/-- An event that changes no lock state hands on its line start, and its Feed vertical sync if it has one. -/
theorem State.tracked_unchanged (h : T.ctx.lock = (s.ctx x).lock) :
    s.tracked x T =
      (if T.vsync then ((s.setCtx x T.ctx).followLine x (s.ctx x).reference).handOn x
        else (s.setCtx x T.ctx).followLine x (s.ctx x).reference).settleHeldSelect := by
  have stands : (s.setCtx x T.ctx).lockChanged x (s.ctx x).lock = s.setCtx x T.ctx :=
    if_pos (by rw [State.setCtx_same, h])
  unfold State.tracked
  rw [stands]

/-- An event that brings neither a change of lock state nor a line start changes the context alone. -/
theorem State.tracked_quiet (waits : HeldSelectWaits s) (lock : T.ctx.lock = (s.ctx x).lock)
    (reference : T.ctx.reference = (s.ctx x).reference) (vsync : T.vsync = false) :
    s.tracked x T = s.setCtx x T.ctx := by
  have stands : (s.setCtx x T.ctx).followLine x (s.ctx x).reference = s.setCtx x T.ctx := by
    refine State.followLine_stands (.inl fun r h => ?_)
    rw [← reference, ← h, State.setCtx_same]
  rw [State.tracked_unchanged lock, vsync, stands]
  refine State.settleHeldSelect_waiting ?_
  cases x <;> exact waits

/-- The records and the stack under an event that leaves its context no line start, and hands on no Feed vertical sync:
an entry to NO SIGNAL, or to HUNT from there or from HOLDOVER. -/
theorem State.tracked_sameTable (reference : T.ctx.reference = none) (vsync : T.vsync = false) :
    SameTable s (s.tracked x T) := by
  have stands : ((s.setCtx x T.ctx).lockChanged x (s.ctx x).lock).followLine x (s.ctx x).reference =
      (s.setCtx x T.ctx).lockChanged x (s.ctx x).lock := by
    refine State.followLine_stands (.inl fun r h => absurd h ?_)
    have same : ((s.setCtx x T.ctx).lockChanged x (s.ctx x).lock).ctx x = T.ctx := by
      cases x <;> simp [State.ctx, State.setCtx]
    rw [same, reference]
    exact nofun
  unfold State.tracked
  rw [stands, vsync]
  exact ⟨by simp, by simp⟩

/-- What an event hands on where no computer line follows its line start and no switch is scheduled for its input: at a
Feed vertical sync of the program input, the end of the computer's field. -/
theorem State.tracked_unfollowed {u : State} (changed : (s.setCtx x T.ctx).lockChanged x (s.ctx x).lock = u)
    (own : x ≠ u.tb.program ∨ u.tb.lineFollows = false) (free : ∀ mode, u.tb.switch ≠ .scheduled x mode) :
    s.tracked x T =
      (if T.vsync = true ∧ x = u.tb.program ∧ u.endsAtBoundary x = true then u.fieldStart false
        else u).settleHeldSelect := by
  unfold State.tracked
  dsimp only
  rw [changed, State.followLine_stands (.inr own), State.handOn_unscheduled free]
  by_cases vsync : T.vsync = true <;> simp [vsync]

/-- An event that takes the input of a scheduled switch to HUNT or NO SIGNAL withdraws the switch, and a held SELECT is
then examined (R149, R152). -/
theorem State.tracked_withdraws {mode : SwitchMode} (other : x ≠ s.tb.program)
    (scheduled : s.tb.switch = .scheduled x mode) (changed : T.ctx.lock ≠ (s.ctx x).lock)
    (lost : T.ctx.lock = .hunt ∨ T.ctx.lock = .noSignal) :
    s.tracked x T = (s.setCtx x T.ctx).switchWithdrawn.settleHeldSelect := by
  have elsewhere : x ≠ (s.setCtx x T.ctx).tb.program := by simpa using other
  have withdrawn : (s.setCtx x T.ctx).lockChanged x (s.ctx x).lock = (s.setCtx x T.ctx).switchWithdrawn := by
    unfold State.lockChanged
    dsimp only
    rw [State.setCtx_same, if_neg changed, if_pos lost, if_neg elsewhere,
      State.withdrawSwitch_scheduled (mode := mode) (by simpa [State.signalLock] using scheduled)]
    rfl
  rw [State.tracked_unfollowed withdrawn (.inl elsewhere) nofun, if_neg fun h => elsewhere h.2.1]

/-- The program input's context after an event of it. -/
theorem State.signalLock_programCtx (program : x = s.tb.program) :
    (s.setCtx x T.ctx).signalLock.programCtx = T.ctx := by
  have same : (s.setCtx x T.ctx).signalLock.tb.program = x := by simp [State.signalLock, program]
  rw [State.programCtx, same]
  exact s.setCtx_same x T.ctx

/-- A change of the program input's lock state, where no switch is scheduled for it (R138, R146). -/
theorem State.lockChanged_program (program : x = s.tb.program) (free : ∀ mode, s.tb.switch ≠ .scheduled x mode)
    (changed : T.ctx.lock ≠ (s.ctx x).lock) :
    (s.setCtx x T.ctx).lockChanged x (s.ctx x).lock =
      (s.setCtx x T.ctx).signalLock.programLockChanged (s.ctx x).lock := by
  unfold State.lockChanged
  dsimp only
  rw [State.setCtx_same, if_neg changed, if_pos (by simpa using program),
    State.withdrawSwitch_unscheduled (by simpa [State.signalLock] using free), ite_self]

/-- An event that takes the program input out of LOCKED takes FOLLOW and SLEW to COAST, and ends neither a line nor a
field (R146). -/
theorem State.tracked_leavesLocked (waits : HeldSelectWaits s) (program : x = s.tb.program)
    (free : ∀ mode, s.tb.switch ≠ .scheduled x mode) (locked : (s.ctx x).lock = .locked)
    (left : T.ctx.lock ≠ .locked) (following : s.tb.state = .follow ∨ s.tb.state = .slew) :
    s.tracked x T = (s.setCtx x T.ctx).thrownToCoast T.ctx.period := by
  have running : s.tb.state ≠ .coast := by
    rcases following with h | h <;> simp [h]
  have coasts : (s.setCtx x T.ctx).lockChanged x (s.ctx x).lock = (s.setCtx x T.ctx).thrownToCoast T.ctx.period := by
    rw [State.lockChanged_program program free (by rwa [locked]), State.programLockChanged, if_pos locked,
      if_pos (by simpa [State.signalLock] using following), State.enterCoast,
      State.signalLock_programCtx program]
    simp [State.setTimebaseState, State.signalLock, State.thrownToCoast, running]
  rw [State.tracked_unfollowed coasts (.inr rfl) (by cases x <;> exact free), if_neg ?running]
  case running => exact fun h => by simp [State.endsAtBoundary, State.thrownToCoast] at h
  exact State.settleHeldSelect_waiting (by cases x <;> exact waits)

/-- FREE RUN and COAST go to SLEW or FOLLOW as the residuals measure (R146). -/
theorem State.relock_eq {std : Standard} (program : x = s.tb.program) (standard : T.ctx.standard = some std)
    (running : s.tb.state = .freeRun ∨ s.tb.state = .coast) :
    (s.setCtx x T.ctx).signalLock.relock = (s.setCtx x T.ctx).relockedTo T.ctx std := by
  have leaves (y : TimebaseState) (h : y = .follow ∨ y = .slew) : s.tb.state ≠ y := by
    rcases running with e | e <;> rcases h with rfl | rfl <;> simp [e]
  have follow := leaves .follow (.inl rfl)
  have slew := leaves .slew (.inr rfl)
  have measured : (Timebase.measure { (s.setCtx x T.ctx).signalLock.tb with
      standard := T.ctx.standard.getD (s.setCtx x T.ctx).signalLock.tb.standard } T.ctx) =
      (s.setCtx x T.ctx).measuredUnder T.ctx std := by
    rw [standard]
    rfl
  unfold State.relock
  dsimp only
  rw [State.signalLock_programCtx program, measured]
  unfold State.slewOrFollow State.relockedTo
  dsimp only
  split
  · next zero =>
    obtain ⟨h, v⟩ := zero
    simp [h, v, State.enterFollow, State.setTimebaseState, State.signalLock, follow]
  · next moves =>
    have apart : ¬ (decide (((s.setCtx x T.ctx).measuredUnder T.ctx std).h = 0) &&
        decide (((s.setCtx x T.ctx).measuredUnder T.ctx std).v = 0)) = true := by simpa using moves
    simp [apart, State.setTimebaseState, State.signalLock, slew]

/-- An event that takes the program input to LOCKED brings FREE RUN and COAST back to SLEW or FOLLOW; a boundary marked
at that line start ends the computer's field where its line stands beside it (R143, R146, R152). -/
theorem State.tracked_entersLocked (tracks : Tracks (s.ctx x) T) (program : x = s.tb.program)
    (free : ∀ mode, s.tb.switch ≠ .scheduled x mode) (unlocked : (s.ctx x).lock ≠ .locked)
    (entered : T.ctx.lock = .locked) {std : Standard} (standard : T.ctx.standard = some std)
    (running : s.tb.state = .freeRun ∨ s.tb.state = .coast) (own : s.tb.lineFollows = false) :
    s.tracked x T =
      (if T.ctx.line = 0 ∧ ((s.setCtx x T.ctx).relockedTo T.ctx std).endsAtBoundary x then
        ((s.setCtx x T.ctx).relockedTo T.ctx std).fieldStart false
      else (s.setCtx x T.ctx).relockedTo T.ctx std).settleHeldSelect := by
  have relocked : (s.setCtx x T.ctx).lockChanged x (s.ctx x).lock = (s.setCtx x T.ctx).relockedTo T.ctx std := by
    have context := (congrArg LockContext.lock (State.signalLock_programCtx (T := T) program)).trans entered
    rw [State.lockChanged_program program free (by rw [entered]; exact Ne.symm unlocked), State.programLockChanged,
      if_neg unlocked, if_pos context, if_pos (by simpa [State.signalLock] using running),
      State.relock_eq program standard running]
  have unscheduled (mode : SwitchMode) :
      ((s.setCtx x T.ctx).relockedTo T.ctx std).tb.switch ≠ .scheduled x mode := by
    unfold State.relockedTo
    dsimp only
    split
    · exact nofun
    · simpa using free mode
  have follows : ((s.setCtx x T.ctx).relockedTo T.ctx std).tb.lineFollows = false := by
    cases x <;> exact own
  have program' : x = ((s.setCtx x T.ctx).relockedTo T.ctx std).tb.program := by
    refine program.trans ?_
    cases x <;> rfl
  rw [State.tracked_unfollowed relocked (.inr follows) unscheduled, tracks.entersLocked unlocked entered]
  simp [← program']

end

end Sys2Proof.Machine
end

section
/-! Sync pulses, the loss timer, and the withdrawal of a scheduled switch (sections 8.2, 8.3 and 9.6). -/

namespace Sys2Proof.Machine

/-! ### The held SELECT examined (R149, R153) -/

theorem inputCode_programWord (s : State) : BitVec.ofNat 16 (inputCode s.tb.program) = programWord s := by
  unfold programWord
  cases s.tb.program <;> rfl

/-- A SELECT completes by the table of R149, which also gives the switch item. -/
theorem State.judgeSelect_verdict (s : State) (x : Input) (mode : SwitchMode) (confirm : Bool) :
    s.judgeSelect x mode confirm =
      { s with tb := { s.tb with switch := (selectVerdict s x mode confirm).2 } }.completeSelect
        (selectVerdict s x mode confirm).1 := by
  unfold State.judgeSelect selectVerdict
  simp only [Bool.not_eq_true]
  split
  · rfl
  · split
    · rfl
    · split
      · rfl
      · split <;> rfl

/-- Where SWITCHING is clear the held SELECT is examined against the state as it stands (R152, R153). -/
theorem State.settleHeldSelect_examines {w : State} {q : HeldSelect} (idle : w.tb.switch = .none)
    (held : w.tb.heldSelect = some q) : HeldSelectAfter w .none q w.settleHeldSelect := by
  have settled : w.settleHeldSelect = w.examineHeld q := by
    simp [State.settleHeldSelect, held, idle]
  rw [settled, State.examineHeld, State.judgeSelect_verdict]
  exact ⟨fun _ => ⟨rfl, rfl, rfl, rfl, inputCode_programWord w, rfl, rfl⟩, fun h => absurd rfl h, fun h => absurd rfl h⟩

theorem State.settleHeldSelect_none {w : State} (h : w.tb.heldSelect = none) : w.settleHeldSelect = w := by
  simp [State.settleHeldSelect, h]

theorem State.settleHeldSelect_timebaseFlag (w : State) : w.settleHeldSelect.events.timebase = w.events.timebase := by
  unfold State.settleHeldSelect State.examineHeld
  split
  · rfl
  · split
    · rw [State.judgeSelect_verdict]
      rfl
    · rfl

/-! ### One context -/

theorem LockContext.pulse_noSignal {c : LockContext} (time : Nat) (h : c.lock = .noSignal) :
    c.pulse time = { c.enterHunt time with sourceChanged := true, lastPulse := some time } :=
  if_pos h

theorem LockContext.pulse_running {c : LockContext} (time : Nat) (h : c.lock ≠ .noSignal) :
    c.pulse time = { c with lastPulse := some time } :=
  if_neg h

/-! ### The events -/

theorem HeldSelectLaw.waits {s : State} (h : HeldSelectLaw s) : HeldSelectWaits s :=
  ((HeldSelectLaw_iff s).1 h).1

/-- A sync pulse while sync is present restarts the loss timer and does nothing else (R126, R127). -/
theorem execSyncPulse_running {s : State} {x : Input} (time : Nat) (waits : HeldSelectWaits s)
    (running : (s.ctx x).lock ≠ .noSignal) :
    exec (.syncPulse x time) s =
      .next ((s.clockAt time).setCtx x { s.ctx x with lastPulse := some time }) := by
  have quiet : (s.clockAt time).tracked x { ctx := (s.ctx x).pulse time, vsync := false } =
      (s.clockAt time).setCtx x ((s.ctx x).pulse time) := by
    rw [LockContext.pulse_running time running]
    exact State.tracked_quiet waits (by simp) (by simp) rfl
  rw [← LockContext.pulse_running time running, ← quiet]
  rfl

/-- The loss timer's expiry takes the timebase of a program input that was LOCKED to COAST, its residuals kept, whatever
becomes of a switch scheduled for it (R127, R146). -/
theorem State.tracked_lost {s : State} {x : Input} {T : Tracked} (program : x = s.tb.program)
    (locked : (s.ctx x).lock = .locked) (lost : T.ctx.lock = .noSignal) (vsync : T.vsync = false)
    (following : s.tb.state = .follow ∨ s.tb.state = .slew) :
    (s.tracked x T).tb.state = .coast ∧ (s.tracked x T).events.timebase = true ∧ (s.tracked x T).tb.h = s.tb.h ∧
      (s.tracked x T).tb.v = s.tb.v := by
  have left : ((s.setCtx x T.ctx).signalLock.withdrawSwitch x).tb.state = s.tb.state := by simp [State.signalLock]
  have coasts : (s.setCtx x T.ctx).lockChanged x (s.ctx x).lock =
      ((s.setCtx x T.ctx).signalLock.withdrawSwitch x).enterCoast := by
    unfold State.lockChanged
    dsimp only
    rw [State.setCtx_same, if_neg (by simp [locked, lost]), if_pos (by simpa using program),
      if_pos (.inr lost), State.programLockChanged, if_pos locked, if_pos (by rwa [left])]
  have running : s.tb.state ≠ .coast := by
    rcases following with h | h <;> simp [h]
  have set : ((s.setCtx x T.ctx).signalLock.withdrawSwitch x).enterCoast.events.timebase = true := by
    simp [State.enterCoast, State.setTimebaseState, running]
  unfold State.tracked
  dsimp only
  rw [coasts, vsync, State.followLine_stands (.inr (.inr rfl))]
  refine ⟨by simp, (State.settleHeldSelect_timebaseFlag _).trans set, ?_, ?_⟩
  · simp [State.signalLock]
  · simp [State.signalLock]

/-- Settles O50: an entry to HUNT or NO SIGNAL leaves no line start to hand on, a pulse in any other state changes the
loss timer alone, and a scheduled switch is withdrawn with its input's lock. -/
theorem syncPulseAndLoss : Obligations.SyncPulseAndLoss := by
  intro s x law
  refine ⟨fun time stopped => ?starts, fun time running => ?restarts, fun running => ?loss,
    fun e t w mode event ran other scheduled changed lost hw => ?withdrawn⟩
  case starts =>
    refine ⟨_, rfl, ?_, ?_, fun y other => ?_, ?_⟩
    · rw [State.tracked_same]
      exact LockContext.pulse_noSignal time stopped
    · refine State.tracked_changesLock ?_
      simp [LockContext.pulse_noSignal time stopped, LockContext.enterHunt, stopped]
    · rw [State.tracked_other other, State.clockAt_ctx]
    · exact State.tracked_sameTable (s := s.clockAt time)
        (by simp [LockContext.pulse_noSignal time stopped, LockContext.enterHunt]) rfl
  case restarts =>
    refine ⟨_, execSyncPulse_running time law.waits running, State.setCtx_same _ _ _, fun y other => ?_, ?_⟩
    · simp [other]
    · cases x <;> exact ⟨⟨rfl, rfl⟩, ⟨rfl, rfl, rfl, rfl, rfl, rfl⟩, rfl, rfl, rfl, rfl, rfl⟩
  case loss =>
    refine ⟨_, if_neg running, State.tracked_same _ _ _, State.tracked_changesLock (Ne.symm running), fun y other =>
      State.tracked_other other, State.tracked_sameTable rfl rfl, fun locked program following => ?_⟩
    exact State.tracked_lost program.symm locked rfl rfl following
  case withdrawn =>
    obtain rfl | ⟨time, T, -, rfl⟩ := event.tracks ran
    · exact absurd rfl changed
    · rw [State.tracked_same] at changed lost hw
      have withdraws : (s.clockAt time).tracked x T = w.settleHeldSelect := by
        rw [State.tracked_withdraws (s := s.clockAt time) other scheduled (by simpa using changed) lost, hw,
          (State.tracked_frame _ _ _).1]
        cases x <;> rfl
      have idle : w.tb.switch = .none := by rw [hw]
      have held : w.tb.heldSelect = s.tb.heldSelect := by rw [hw]
      rw [withdraws]
      exact ⟨rfl, fun free => State.settleHeldSelect_none (held.trans free), fun q waits =>
        State.settleHeldSelect_examines idle (held.trans waits)⟩

end Sys2Proof.Machine
end

section
/-! Line starts that begin no vertical sync sequence, and the computer's lines and fields in FOLLOW (sections 8.3 to 8.5
and 9.2). -/

namespace Sys2Proof.Machine

/-! ### The events of line starts -/

section
variable {s : State} {x : Input} {time : Nat} {seq : Option Parity}

theorem State.lineEvent_same (s : State) (x : Input) (time : Nat) (seq : Option Parity) :
    (s.lineEvent x time seq).ctx x = ((s.ctx x).lineEvent time seq).ctx :=
  State.tracked_same _ _ _

theorem State.lineEvent_other {y : Input} (other : y ≠ x) : (s.lineEvent x time seq).ctx y = s.ctx y :=
  (State.tracked_other other).trans (State.clockAt_ctx _ _ _)

/-- LOCK stands where the lock state does, and is set where that changes (R138). -/
theorem State.lineEvent_lockFlag :
    (((s.lineEvent x time seq).ctx x).lock = (s.ctx x).lock →
      (s.lineEvent x time seq).events.lock = s.events.lock) ∧
    (((s.lineEvent x time seq).ctx x).lock ≠ (s.ctx x).lock → (s.lineEvent x time seq).events.lock = true) := by
  rw [State.lineEvent_same]
  exact ⟨fun h => State.tracked_keepsLock (by simpa using h), fun h => State.tracked_changesLock (by simpa using h)⟩

end

/-! ### FOLLOW (R142, R143) -/

section
variable {s : State}

/-- A field start in FOLLOW: the timebase stays there with its residuals, and a new field begins (R142, R147). -/
theorem State.fieldStart_follow (following : s.tb.state = .follow) (cut : Bool) :
    (s.fieldStart cut).tb.state = .follow ∧ (s.fieldStart cut).tb.v = s.tb.v ∧
      (s.fieldStart cut).tb.linesRun = 0 ∧ (s.fieldStart cut).tb.lastField = s.tb.linesRun ∧
      (s.fieldStart cut).tb.fieldCounter = s.tb.fieldCounter + 1#16 ∧
      (s.fieldStart cut).tb.parity = followedParity s.programCtx s.tb.v := by
  have still : s.slewVertical = s := if_neg (by simp [following])
  have begun : s.beginField.tb.state = .follow ∧ s.beginField.tb.v = s.tb.v ∧ s.beginField.tb.linesRun = 0 ∧
      s.beginField.tb.lastField = s.tb.linesRun ∧ s.beginField.tb.fieldCounter = s.tb.fieldCounter + 1#16 ∧
      s.beginField.tb.parity = followedParity s.programCtx s.tb.v := by
    simp [State.beginField, still, State.latch, State.nextParity, following]
  simpa [State.fieldStart] using begun

/-- The computer's line that a line start of the program input ends in FOLLOW, and the one that begins there. -/
def State.followedBy (s : State) (x : Input) (c : LockContext) (time : Nat) : State :=
  (s.setCtx x c).endLine.startLine time

variable {x : Input} {c : LockContext} {time : Nat}

theorem State.followedBy_frame (following : s.tb.state = .follow) :
    (s.followedBy x c time).tb.lineStartAt = time ∧ (s.followedBy x c time).tb.previousLineAt = s.tb.lineStartAt ∧
      (s.followedBy x c time).tb.lineFollows = true ∧ (s.followedBy x c time).tb.state = .follow ∧
      (s.followedBy x c time).tb.h = s.tb.h ∧ (s.followedBy x c time).tb.v = s.tb.v ∧
      (s.followedBy x c time).tb.linesRun = s.tb.linesRun + 1 ∧
      (s.followedBy x c time).tb.fieldCounter = s.tb.fieldCounter ∧
      (s.followedBy x c time).tb.latched = s.tb.latched ∧ (s.followedBy x c time).tb.switch = s.tb.switch ∧
      (s.followedBy x c time).tb.program = s.tb.program := by
  cases x <;> simp [State.followedBy, State.startLine, State.lineAt, State.endLine, State.newLineFollows, following,
    State.setCtx]

/-- In FOLLOW the computer's line in progress ends at the program input's line start at a sample, which lies more than
half a line after the computer's; and no switch is scheduled for that input (R143). -/
structure State.EndsLineAt (s : State) (x : Input) (time : Nat) : Prop where
  program : x = s.tb.program
  following : s.tb.state = .follow
  follows : s.tb.lineFollows = true
  started : s.tb.lineStartAt ≤ time
  late : s.tb.standard.nominal < 2 * (time - s.tb.lineStartAt)
  free : ∀ mode, s.tb.switch ≠ .scheduled x mode

/-- A new line start of the program input in FOLLOW ends the computer's line, and where it is the input's boundary also
the computer's field (R142, R143). -/
theorem State.tracked_follows {T : Tracked} (h : s.EndsLineAt x time) (lock : T.ctx.lock = (s.ctx x).lock)
    (reference : T.ctx.reference = some time) (new : (s.ctx x).reference ≠ some time) :
    s.tracked x T =
      (if T.vsync then (s.followedBy x T.ctx time).fieldStart false
        else s.followedBy x T.ctx time).settleHeldSelect := by
  obtain ⟨startsAt, -, -, state, -, -, run, -, -, switch, stays⟩ :=
    State.followedBy_frame (x := x) (c := T.ctx) (time := time) h.following
  have ended : (s.setCtx x T.ctx).followLine x (s.ctx x).reference = s.followedBy x T.ctx time :=
    State.followLine_endsLine (by simpa using h.program) (by simpa using h.following) (by simpa using h.follows)
      (by rw [State.setCtx_same, reference]) new (by simpa using h.started) (by simpa using h.late)
  have context : (s.followedBy x T.ctx time).ctx x = T.ctx := by
    cases x <;> rfl
  have boundary : (s.followedBy x T.ctx time).endsAtBoundary x = true := by
    simp [State.endsAtBoundary, State.beside, state, run, startsAt, context, reference]
  have handed : (s.followedBy x T.ctx time).handOn x = (s.followedBy x T.ctx time).fieldStart false := by
    rw [State.handOn_unscheduled (by rw [switch]; exact h.free), if_pos ⟨h.program.trans stays.symm, boundary⟩]
  rw [State.tracked_unchanged lock, ended, handed]

/-- What a line start accepted in FOLLOW leaves of the computer's lines and fields. -/
theorem State.lineEvent_follows {r : Nat} {d : LockContext} {last : Bool} (h : s.EndsLineAt x time)
    (event : (s.ctx x).lineEvent time none = { ctx := d, vsync := last }) (lock : d.lock = (s.ctx x).lock)
    (found : d.reference = some time) (reference : (s.ctx x).reference = some r) (new : r < time) :
    ∃ t, s.lineEvent x time none = t ∧ t.tb.lineStartAt = time ∧ t.tb.previousLineAt = s.tb.lineStartAt ∧
      t.tb.lineFollows = true ∧ t.tb.state = .follow ∧ t.tb.h = s.tb.h ∧ t.tb.v = s.tb.v ∧
      (last = false → t.tb.linesRun = s.tb.linesRun + 1 ∧ t.tb.fieldCounter = s.tb.fieldCounter ∧
        t.tb.latched = s.tb.latched ∧ SameTable s t ∧ t.keyer = s.keyer ∧ t.engine = s.engine) ∧
      (last = true → t.tb.linesRun = 0 ∧ t.tb.lastField = s.tb.linesRun + 1 ∧
        t.tb.fieldCounter = s.tb.fieldCounter + 1#16 ∧ (s.tb.v = 0 → d.line = 0 → t.tb.parity = d.parity)) := by
  obtain ⟨startsAt, previous, followed, state, h', v, run, counter, latched, -, stays⟩ :=
    State.followedBy_frame (s := s.clockAt time) (x := x) (c := d) (time := time) h.following
  have clocked : (s.clockAt time).EndsLineAt x time := ⟨h.program, h.following, h.follows, h.started, h.late, h.free⟩
  refine ⟨_, by rw [State.lineEvent, event, State.tracked_follows clocked (by simpa using lock) found
    (by simp [reference]; omega)], ?_⟩
  cases last with
  | false =>
    refine ⟨by simp [startsAt], by simp [previous], by simp [followed], by simp [state], by simp [h'], by simp [v],
      fun _ => ⟨by simp [run], by simp [counter], by simp [latched], ⟨?_, ?_⟩, ?_, ?_⟩, nofun⟩
    all_goals cases x <;> simp [State.followedBy, State.setCtx]
  | true =>
    obtain ⟨state', v', run', last', counter', parity'⟩ := State.fieldStart_follow state false
    have context : ((s.clockAt time).followedBy x d time).programCtx = d := by
      rw [State.programCtx, stays, show (s.clockAt time).tb.program = x from h.program.symm]
      cases x <;> rfl
    refine ⟨by simp [startsAt], by simp [previous], by simp [followed], by simp [state'], by simp [h'], by simp [v', v],
      nofun, fun _ => ⟨by simp [run'], by simp [last', run], by simp [counter', counter], fun still first => ?_⟩⟩
    simp [parity', context, v, still, first, followedParity]

end

/-- Settles O51: the line starts by the lock state of their context, and in FOLLOW what an accepted one ends. -/
theorem lineStartsTracked : Obligations.LineStartsTracked := by
  intro s x time measured since absent
  have measure : (s.ctx x).Measures time measured := ⟨since, absent⟩
  have measuredAs := LockContext.measurePeriod_eq measure
  obtain ⟨keeps, changes⟩ := State.lineEvent_lockFlag (s := s) (x := x) (time := time) (seq := none)
  refine ⟨s.lineEvent x time none, rfl, fun y other => State.lineEvent_other other, keeps, changes,
    fun lock => ?noSignal, fun lock => ?hunt, fun r std lock reference standard => ?verify,
    fun r p d line parity lock reference period hd within boundary => ?locked⟩
  case noSignal => rw [State.lineEvent_same, LockContext.lineEvent_noSignal _ _ lock]
  case hunt =>
    rw [State.lineEvent_same, LockContext.lineEvent_hunt _ _ lock, LockContext.huntLine_counts (.inr rfl), measuredAs]
  case verify =>
    have period := LockContext.periodFails_iff (time := time) reference standard
    rw [State.lineEvent_same, LockContext.lineEvent_verify _ _ lock]
    refine ⟨fun bad => ?_, fun good more => ?_⟩
    · rw [LockContext.verifyLine_fails (bad.imp period.2 fun full => .inl ⟨rfl, full⟩), measuredAs]
      rfl
    · rw [LockContext.verifyLine_advances (by rw [period]; omega) more, measuredAs]
  case locked =>
    have next : (s.ctx x).Advances line parity := ⟨within, boundary⟩
    have distance := LockContext.distance_eq (time := time) reference period hd
    rw [State.lineEvent_same, LockContext.lineEvent_locked _ _ lock]
    refine ⟨fun lo hi => ?accepted, fun lo hi jump zone => ?zone, fun lo hi jump outside => ?jump, fun far => ?far,
      fun lo hi new program following follows started late free => ?follow⟩
    case accepted =>
      rw [LockContext.lockedLine_accepted measure next (by omega), period]
    case zone =>
      rw [LockContext.lockedLine_within (by omega), LockContext.lockedFound_zone (by omega) zone, next.nextLine]
      exact ⟨rfl, rfl, rfl⟩
    case jump =>
      rw [LockContext.lockedLine_within (by omega), LockContext.lockedFound_jump (by omega) outside, next.nextLine]
      · obtain ⟨rfl, rfl⟩ := within (by omega)
        rfl
      · exact ⟨rfl, rfl, rfl⟩
    case far => rw [LockContext.lockedLine_outside (by omega)]
    case follow =>
      have event := (LockContext.lineEvent_locked time none lock).trans
        (LockContext.lockedLine_accepted measure next (by omega))
      obtain ⟨t, rfl, starts, previous, followed, state, h, v, inside, ends⟩ :=
        State.lineEvent_follows ⟨program, following, follows, started, late, free⟩ event rfl rfl reference new
      refine ⟨starts, previous, followed, state, h, v, fun more => inside (by simpa using more), fun last => ?_⟩
      obtain ⟨run, length, counter, follows⟩ := ends (by simpa using last)
      exact ⟨run, length, counter, fun still => follows still (boundary last).1⟩

end Sys2Proof.Machine
end

section
/-! Vertical sync sequences, each with the line start that begins it (sections 8.3 to 8.5). -/

namespace Sys2Proof.Machine

/-- VERIFY_PASS is the sequence of the other parity that ends VERIFY's fourth field (R130). -/
theorem execVerifyPass_passes {s : State} {x : Input} (time : Nat) {parity : Parity} (lock : (s.ctx x).lock = .verify)
    (fourth : 3 ≤ (s.ctx x).verified) (last : (s.ctx x).line + 1 = (s.ctx x).expected)
    (other : parity ≠ (s.ctx x).parity) :
    exec (.verifyPass x time) s = .next (s.lineEvent x time (some parity)) := by
  have due : (s.ctx x).passDue = true := by
    have enough : Config.verifyFields ≤ (s.ctx x).verified + 1 := Nat.succ_le_succ fourth
    simp [LockContext.passDue, lock, last, enough]
  rw [(Parity.eq_other_iff _ _).2 other]
  exact if_pos due

/-- A sequence that ends its field with the other parity is, for LOCKED, the line start that it begins with (R132). -/
theorem State.lineEvent_confirmed {s : State} {x : Input} (time : Nat) {parity : Parity}
    (lock : (s.ctx x).lock = .locked) (last : (s.ctx x).line + 1 = (s.ctx x).expected)
    (other : parity ≠ (s.ctx x).parity) : s.lineEvent x time (some parity) = s.lineEvent x time none := by
  rw [State.lineEvent, State.lineEvent, LockContext.lineEvent_locked _ _ lock, LockContext.lineEvent_locked _ _ lock,
    LockContext.lockedLine_confirmed last other]

/-- Settles O52: the vertical sync sequences by the lock state of their context. -/
theorem verticalSyncFound : Obligations.VerticalSyncFound := by
  intro s x time parity measured since absent
  have measuredAs := LockContext.measurePeriod_eq (c := s.ctx x) ⟨since, absent⟩
  obtain ⟨keeps, changes⟩ := State.lineEvent_lockFlag (s := s) (x := x) (time := time) (seq := some parity)
  refine ⟨s.lineEvent x time (some parity), rfl, fun y other => State.lineEvent_other other, keeps, changes,
    fun lock => ?noSignal, fun lock entry => ?atEntry, fun lock later => ⟨fun counted => ?reference,
      fun n std counted field => ?found⟩, fun r std lock reference standard => ⟨fun wrong => ?fails, fun last other =>
      ⟨fun few => ?passes, fun fourth => ⟨?fourth, execVerifyPass_passes time lock fourth last other⟩⟩⟩,
    fun r p d lock reference period hd => ⟨fun far => ?far,
      fun last other => congrArg _ (State.lineEvent_confirmed time lock last other).symm, fun lo hi jump => ?jump⟩⟩
  all_goals rw [State.lineEvent_same]
  case noSignal => rw [LockContext.lineEvent_noSignal _ _ lock]
  case atEntry =>
    rw [LockContext.lineEvent_hunt _ _ lock, LockContext.huntLine_counts (.inl entry), measuredAs]
  case reference =>
    rw [LockContext.lineEvent_hunt _ _ lock, LockContext.huntLine_reference later counted, measuredAs]
  case found =>
    rw [LockContext.lineEvent_hunt _ _ lock, LockContext.huntLine_verify later counted field, measuredAs]
    rfl
  case fails =>
    rw [LockContext.lineEvent_verify _ _ lock, LockContext.verifyLine_fails (.inr (.inr ⟨parity, rfl, wrong⟩)),
      measuredAs]
    rfl
  case passes =>
    rw [LockContext.lineEvent_verify _ _ lock, LockContext.verifyLine_passes reference standard last other, measuredAs,
      if_pos few]
  case fourth =>
    rw [LockContext.lineEvent_verify _ _ lock, LockContext.verifyLine_passes reference standard last other, measuredAs,
      if_neg (Nat.not_lt.2 fourth)]
    rfl
  case far =>
    have distance := LockContext.distance_eq (time := time) reference period hd
    rw [LockContext.lineEvent_locked _ _ lock, LockContext.lockedLine_outside (by omega)]
  case jump =>
    have distance := LockContext.distance_eq (time := time) reference period hd
    rw [LockContext.lineEvent_locked _ _ lock, LockContext.lockedLine_verticalJump (by omega) jump]
    rfl

end Sys2Proof.Machine
end

section
/-! HOLDOVER entered, run through and left, and the timebase as its input leaves or enters LOCKED (sections 8.5 to 8.7,
9.3 and 9.4). -/

namespace Sys2Proof.Machine

/-! ### The rows of HOLDOVER (R135, R136) -/

section
variable {s : State} {x : Input}

/-- HOLDOVER_RELOCK is the eighth good line start (R135). -/
theorem execHoldoverRelock_relocks {time : Nat} (lock : (s.ctx x).lock = .holdover)
    (close : (s.ctx x).distance time ≤ 6) (eighth : 8 ≤ (s.ctx x).run + 1) : exec (.holdoverRelock x time) s = .next (s.lineEvent x time none) := by
  have enough : Config.goodLimit ≤ (s.ctx x).run + 1 := eighth
  exact if_pos (by simp [LockContext.relockDue, lock, close, enough])

/-- HOLDOVER_LIMIT enters HUNT where the next line start reaches the limit (R136). -/
theorem execHoldoverLimit_reached {std : Standard} (standard : (s.ctx x).standard = some std)
    (lock : (s.ctx x).lock = .holdover) (limit : std.holdoverLimit ≤ (s.ctx x).heldLines + 1) :
    exec (.holdoverLimit x) s = .next (s.tracked x { ctx := (s.ctx x).enterHunt s.now, vsync := false }) :=
  if_pos (by simp [LockContext.limitDue, lock, LockContext.lineStandard, standard, limit])

/-- What an event leaves, where the context it brings is known: LOCK by whether the lock state changed (R138). -/
theorem State.tracked_leaves {T : Tracked} {d : LockContext} (h : T.ctx = d) :
    (d.lock = (s.ctx x).lock → (s.tracked x T).events.lock = s.events.lock ∧ (s.tracked x T).ctx x = d) ∧
      (d.lock ≠ (s.ctx x).lock → (s.tracked x T).events.lock = true ∧ (s.tracked x T).ctx x = d) := by
  subst h
  exact ⟨fun h => ⟨State.tracked_keepsLock h, State.tracked_same _ _ _⟩,
    fun h => ⟨State.tracked_changesLock h, State.tracked_same _ _ _⟩⟩

theorem State.lineEvent_leaves {time : Nat} {seq : Option Parity} {d : LockContext}
    (h : ((s.ctx x).lineEvent time seq).ctx = d) :
    (d.lock = (s.ctx x).lock →
      (s.lineEvent x time seq).events.lock = s.events.lock ∧ (s.lineEvent x time seq).ctx x = d) ∧
    (d.lock ≠ (s.ctx x).lock → (s.lineEvent x time seq).events.lock = true ∧ (s.lineEvent x time seq).ctx x = d) := by
  have leaves := State.tracked_leaves (s := s.clockAt time) (x := x) h
  rwa [State.clockAt_ctx] at leaves

end

/-! ### The timebase (R143, R146, R152) -/

section
variable {s t : State} {e : Instr} {x : Input}

/-- Whatever event takes the program input out of LOCKED takes FOLLOW and SLEW to COAST. -/
theorem EventOf.leavesLocked (event : EventOf x e) (ran : exec e s = .next t) (program : x = s.tb.program)
    (waits : HeldSelectWaits s) (free : ∀ mode, s.tb.switch ≠ .scheduled x mode) (locked : (s.ctx x).lock = .locked)
    (left : (t.ctx x).lock ≠ .locked) (following : s.tb.state = .follow ∨ s.tb.state = .slew) :
    t = ({ s.setCtx x (t.ctx x) with now := t.now } : State).thrownToCoast (t.ctx x).period := by
  obtain rfl | ⟨time, T, -, rfl⟩ := event.tracks ran
  · exact absurd locked left
  · rw [State.tracked_same] at left
    rw [State.tracked_same, (State.tracked_frame _ _ _).1]
    refine (State.tracked_leavesLocked (s := s.clockAt time) waits program free (by simpa using locked) left
      following).trans ?_
    cases x <;> rfl

/-- Whatever event takes the program input to LOCKED takes FREE RUN and COAST to SLEW or FOLLOW, and at a boundary ends
the computer's field where its line stands beside it. -/
theorem EventOf.entersLocked (event : EventOf x e) (ran : exec e s = .next t) (program : x = s.tb.program)
    (free : ∀ mode, s.tb.switch ≠ .scheduled x mode) (unlocked : (s.ctx x).lock ≠ .locked)
    (entered : (t.ctx x).lock = .locked) {std : Standard} (standard : (t.ctx x).standard = some std)
    (running : s.tb.state = .freeRun ∨ s.tb.state = .coast) (own : s.tb.lineFollows = false) {u : State}
    (hu : u = ({ s.setCtx x (t.ctx x) with now := t.now } : State).relockedTo (t.ctx x) std) :
    t = (if (t.ctx x).line = 0 ∧ u.endsAtBoundary x then u.fieldStart false else u).settleHeldSelect := by
  obtain rfl | ⟨time, T, tracks, rfl⟩ := event.tracks ran
  · exact absurd entered unlocked
  · rw [State.tracked_same] at entered standard hu ⊢
    have same : u = ((s.clockAt time).setCtx x T.ctx).relockedTo T.ctx std := by
      rw [hu, (State.tracked_frame _ _ _).1]
      cases x <;> rfl
    rw [same]
    exact State.tracked_entersLocked (s := s.clockAt time) (by simpa using tracks) program free
      (by simpa using unlocked) entered standard running own

end

/-- In FOLLOW the computer's line stands beside the latest line start of an input where the two lie no more than half a
nominal line apart (R142). -/
theorem State.endsAtBoundary_iff {u : State} {x : Input} :
    u.endsAtBoundary x = true ↔ u.tb.state = .follow ∧ u.tb.linesRun ≠ 0 ∧
      ∀ r, (u.ctx x).reference = some r → 2 * ((r : Int) - u.tb.lineStartAt).natAbs ≤ u.tb.standard.nominal := by
  simp only [State.endsAtBoundary, State.beside, Bool.and_eq_true, decide_eq_true_eq, and_assoc]
  cases (u.ctx x).reference <;> simp

/-- Settles O53: the lines of HOLDOVER and the missing ones of LOCKED by what their context's event leaves; the
timebase's changes by the event's inversion. -/
theorem holdoverEntersAndLeaves : Obligations.HoldoverEntersAndLeaves := by
  refine ⟨fun s x r p line parity std reference period standard within boundary => ?lines,
    fun s t e x event ran program law free => ⟨fun locked left following => ?leaves,
      fun std tb zero u unlocked entered standard running own htb hzero hu => ?enters⟩, rfl, rfl⟩
  case lines =>
    have next : (s.ctx x).Advances line parity := ⟨within, boundary⟩
    refine ⟨fun lock => ?missing, fun lock => ?missingHeld,
      fun time good d seq line' parity' lock hd hgood plain phased => ?held, fun lock limit => ?limit⟩
    case missing =>
      have event := congrArg Tracked.ctx (LockContext.missingLine_locked (moment := s.now) lock reference period next)
      refine ⟨_, rfl, fun y other => State.tracked_other other, fun few => ?_, fun third => ?_⟩
      · exact (State.tracked_leaves (event.trans (if_pos few))).1 rfl
      · exact (State.tracked_leaves (event.trans (if_neg (Nat.not_lt.2 third)))).2 (by simp [lock])
    case missingHeld =>
      have event := LockContext.missingLine_holdover (moment := s.now) lock reference period next
      refine ⟨_, rfl, fun y other => State.tracked_other other, fun short => ?_, fun limit => ?_⟩
      · have counted := event.trans (LockContext.holdoverEnd_runsOn standard short)
        exact (State.tracked_leaves (congrArg Tracked.ctx counted)).1 rfl
      · have reached := event.trans (LockContext.holdoverEnd_limit standard limit)
        exact (State.tracked_leaves (congrArg Tracked.ctx reached)).2 (by simp [lock, LockContext.enterHunt])
    case limit =>
      refine ⟨_, execHoldoverLimit_reached standard lock limit, fun y other => State.tracked_other other, ?_⟩
      exact (State.tracked_leaves rfl).2 (by simp [lock, LockContext.enterHunt])
    case held =>
      have distance := LockContext.distance_eq (time := time) reference period hd
      have count : good = if (s.ctx x).distance time ≤ 6 then (s.ctx x).run + 1 else 0 := by
        rw [hgood]
        by_cases close : -6 ≤ d ∧ d ≤ 6
        · rw [if_pos close, if_pos (by omega)]
        · rw [if_neg close, if_neg (by omega)]
      have held := LockContext.lineEvent_holdover time seq lock
      refine ⟨s.lineEvent x time seq, by cases seq <;> rfl, fun y other => State.lineEvent_other other, fun far => ?far,
        fun lo hi few short => ?counted, fun lo hi eighth => ?relock, fun lo hi few limit => ?reached⟩
      case far =>
        rw [LockContext.holdoverLine_outside (by omega)] at held
        exact ((State.lineEvent_leaves (congrArg Tracked.ctx held)).1 rfl).symm
      all_goals
        obtain ⟨v, inWindow⟩ := LockContext.holdoverLine_within next (by omega) count plain phased
        rw [inWindow] at held
      case counted =>
        rw [if_neg (Nat.not_le.2 few)] at held
        have counted := held.trans (LockContext.holdoverEnd_runsOn standard short)
        exact (State.lineEvent_leaves (congrArg Tracked.ctx counted)).1 rfl
      case relock =>
        rw [if_pos eighth] at held
        obtain ⟨flag, context⟩ :=
          (State.lineEvent_leaves (congrArg Tracked.ctx held)).2 (by simp [lock, LockContext.enterLocked])
        refine ⟨flag, context, fun none => ?_⟩
        subst none
        by_cases close : (s.ctx x).distance time ≤ 6
        · rw [if_pos close] at count
          exact execHoldoverRelock_relocks lock close (count ▸ eighth)
        · rw [if_neg close] at count
          omega
      case reached =>
        rw [if_neg (Nat.not_le.2 few)] at held
        have reached := held.trans (LockContext.holdoverEnd_limit standard limit)
        exact (State.lineEvent_leaves (congrArg Tracked.ctx reached)).2 (by simp [lock, LockContext.enterHunt])
  case leaves =>
    refine (event.leavesLocked ran program law.waits free locked left following).trans ?_
    cases x <;> rfl
  case enters =>
    have relocked : u = ({ s.setCtx x (t.ctx x) with now := t.now } : State).relockedTo (t.ctx x) std := by
      subst htb hzero
      rw [hu]
      cases x <;> rfl
    have handed := event.entersLocked ran program free unlocked entered standard running own relocked
    have context : u.ctx x = t.ctx x := by
      rw [hu]
      cases x <;> rfl
    have ends : u.endsAtBoundary x = true ↔ zero = true ∧ s.tb.linesRun ≠ 0 ∧
        ∀ r, (t.ctx x).reference = some r → 2 * ((r : Int) - s.tb.lineStartAt).natAbs ≤ std.nominal := by
      rw [State.endsAtBoundary_iff, context, hu, htb]
      cases zero <;> simp [Timebase.measure]
    refine ⟨fun ⟨settled, run, first, beside⟩ => ?field, fun runsOn => ?runsOn⟩
    case field =>
      rw [if_pos ⟨first, ends.2 ⟨settled, run, beside⟩⟩,
        State.settleHeldSelect_waiting (u.fieldStart_heldSelect false).waits] at handed
      exact congrArg _ handed.symm
    case runsOn =>
      rw [if_neg ?_] at handed
      · exact congrArg _ handed.symm
      · rintro ⟨first, boundary⟩
        obtain ⟨settled, run, beside⟩ := ends.1 boundary
        rcases runsOn with h | h | h | ⟨r, reference, apart⟩
        · exact Bool.false_ne_true (h.symm.trans settled)
        · exact run h
        · exact h first
        · exact absurd (beside r reference) (by omega)

end Sys2Proof.Machine
end

section
/-! The laws of the Program Timebase over every step (chapter 9): FOLLOW and SLEW only while the program input is
LOCKED, the ranges of R141, and where the residuals are 0. -/

namespace Sys2Proof.Machine

/-! ### FOLLOW and SLEW (R146) -/

/-- QUERY INPUT with reset leaves every lock state as it is (R140). -/
theorem queryInputEffect_lock (s : State) (y : Input) : ((queryInputEffect s).ctx y).lock = (s.ctx y).lock := by
  unfold queryInputEffect
  split
  · rfl
  · next x _ =>
    split
    · rfl
    · show ((s.setCtx x _).ctx y).lock = _
      rw [State.setCtx_ctx]
      split
      · next same => subst same; split <;> rfl
      · rfl

/-- Of the commands, QUERY INPUT alone touches a context, and none touches the timebase's state or the program input. -/
theorem commandEffect_followLaw (x : Bool) (code : BitVec 5) {s : State} (hs : FollowLaw s) :
    FollowLaw (commandEffect x code s) := by
  apply commandEffect_cases (P := fun e => FollowLaw (e s))
  case queryInput =>
    have program : (queryInputEffect s).tb.program = s.tb.program := by simp
    refine FollowLaw_congr hs (by simp) ?_
    rw [State.programCtx, program, queryInputEffect_lock]
    rfl
  case select =>
    unfold selectEffect
    split
    · split
      · exact hs
      · split
        · exact FollowLaw_same hs (by simp) (by simp) (by simp) (by simp)
        · exact hs
    · exact hs
  case setGeometry =>
    unfold setGeometryEffect
    split <;> exact hs
  all_goals intros; exact FollowLaw_same hs (by simp) (by simp) (by simp) (by simp)

/-- Every command keeps the law of FOLLOW and SLEW: the events of the inputs and the computer's lines by
`State.timing_followLaw`, and no other command but power-on moves the timebase's state, the program input or a lock
state. -/
theorem exec_followLaw {c : Instr} {s t : State} (hs : FollowLaw s) (h : exec c s = .next t) : FollowLaw t := by
  obtain ⟨cuts, slews, lineEnd, -⟩ := s.timing_followLaw hs
  refine exec_ind (P := FollowLaw) h ?self ?powerOn ?busReset ?release ?overrun ?refuse ?taken ?stored ?flags ?mask
    ?pointer ?read ?readRefused ?written ?field ?adoption ?expiry ?autoRetire ?blink ?guard ?applyHeld ?timeout ?settle
    ?beginLine ?takingPoint ?grant ?answerMask ?answerImage ?acknowledge ?busTimeout ?tracked ?cut ?slew ?lineEnd
  case powerOn => exact fun _ => FollowLaw_free ⟨nofun, nofun⟩
  case busReset => exact hs
  case taken => exact fun code ie _ => commandEffect_followLaw _ code (s := s.take code ie) hs
  case written =>
    intro _ _ _ hw
    have frame := State.writePointed_frame hw
    exact FollowLaw_same hs (by simp [frame]) (by simp [frame]) (by simp [frame]) (by simp [frame])
  case field => exact s.fieldStart_followLaw false hs
  case tracked =>
    intro x time t _
    obtain ⟨-, -, -, tracks⟩ := State.timing_followLaw (s.clockAt time) hs
    exact tracks x t
  case cut => exact fun x _ => cuts x
  case slew => exact fun x _ => slews x
  case lineEnd => exact lineEnd
  all_goals intros; exact FollowLaw_same hs (by simp) (by simp) (by simp) (by simp)

/-- Settles O9: every command keeps the law, and neither the queue nor the clock touches what it speaks of. -/
theorem stepKeepsFollowLaw : Obligations.StepKeepsFollowLaw :=
  step_keeps (fun _ _ _ hs h => exec_followLaw hs h) (fun _ _ hs => hs) (fun _ hs => hs)

/-! ### The ranges of the timebase (R92, R141) -/

/-- Every command keeps the ranges of the timebase: SET GEOMETRY checks its arguments, field starts latch what is in
range, the events of the inputs and the computer's lines keep them by `State.timing_timebaseLaw`, and power-on sets
values in range. -/
theorem exec_timebaseLaw {c : Instr} {s t : State} (hs : TimebaseLaw s) (h : exec c s = .next t) : TimebaseLaw t := by
  obtain ⟨cuts, slews, lineEnd, -⟩ := s.timing_timebaseLaw hs
  refine exec_ind (P := TimebaseLaw) h ?self ?powerOn ?busReset ?release ?overrun ?refuse ?taken ?stored ?flags ?mask
    ?pointer ?read ?readRefused ?written ?field ?adoption ?expiry ?autoRetire ?blink ?guard ?applyHeld ?timeout ?settle
    ?beginLine ?takingPoint ?grant ?answerMask ?answerImage ?acknowledge ?busTimeout ?tracked ?cut ?slew ?lineEnd
  case powerOn =>
    have start : TimebaseLaw State.reset := by
      unfold TimebaseLaw
      decide
    exact fun _ => TimebaseLaw_congr start rfl rfl rfl rfl rfl rfl
  case busReset => exact hs
  case taken => exact fun code ie _ => commandEffect_timebaseLaw _ code (s.take code ie) hs
  case written =>
    intro _ _ _ hw
    have frame := State.writePointed_frame hw
    exact TimebaseLaw_congr hs (by simp [frame]) (by simp [frame]) (by simp [frame]) (by simp [frame])
      (by simp [frame]) (by simp [frame])
  case field => exact s.fieldStart_timebaseLaw false hs
  case settle => exact s.settleHeldSelect_timebaseLaw hs
  case tracked =>
    intro x time t _
    obtain ⟨-, -, -, tracks⟩ := State.timing_timebaseLaw (s.clockAt time) hs
    exact tracks x t
  case cut => exact fun x _ => cuts x
  case slew => exact fun x _ => slews x
  case lineEnd => exact lineEnd
  all_goals
    intros
    exact TimebaseLaw_congr hs (by simp) (by simp) (by simp) (by simp) (by simp) (by simp)

/-! ### Where the residuals are 0, and whom a switch is scheduled for (R143, R144, R149) -/

/-- The law reads six items of the timebase. -/
theorem ResidualLaw_congr {s t : State} (hs : ResidualLaw s) (state : t.tb.state = s.tb.state) (h : t.tb.h = s.tb.h)
    (v : t.tb.v = s.tb.v) (follows : t.tb.lineFollows = s.tb.lineFollows) (switch : t.tb.switch = s.tb.switch)
    (program : t.tb.program = s.tb.program) : ResidualLaw t := by
  unfold ResidualLaw
  rw [state, h, v, follows, switch, program]
  exact hs

/-- A scheduled switch is for the input that is not on program (R149). -/
def SwitchElsewhere (s : State) : Prop :=
  ∀ x mode, s.tb.switch = .scheduled x mode → x ≠ s.tb.program

theorem ResidualLaw.switchElsewhere {s : State} (hs : ResidualLaw s) : SwitchElsewhere s := by
  obtain ⟨-, -, elsewhere⟩ := hs
  exact elsewhere

/-- In SLEW the law speaks of the switch alone. -/
theorem ResidualLaw_slew {s : State} (state : s.tb.state = .slew) (elsewhere : SwitchElsewhere s) : ResidualLaw s := by
  refine ⟨fun h => ?_, fun h => ?_, elsewhere⟩ <;> simp [state] at h

/-- In COAST the line in progress must run to its own length. -/
theorem ResidualLaw_coast {s : State} (state : s.tb.state = .coast) (own : s.tb.lineFollows = false)
    (elsewhere : SwitchElsewhere s) : ResidualLaw s :=
  ⟨fun h => by simp [state] at h, fun _ => own, elsewhere⟩

/-- In FOLLOW both residuals must be 0. -/
theorem ResidualLaw_follow {s : State} (state : s.tb.state = .follow) (zero : s.tb.h = 0 ∧ s.tb.v = 0)
    (elsewhere : SwitchElsewhere s) : ResidualLaw s :=
  ⟨fun _ => zero, fun h => by simp [state] at h, elsewhere⟩

section
variable {s : State}

/-- A SELECT that is examined leaves the switch item, or schedules a switch to the other input (R149). -/
theorem selectVerdict_switch (s : State) (x : Input) (mode : SwitchMode) (confirm : Bool) :
    (selectVerdict s x mode confirm).2 = s.tb.switch ∨
      ((selectVerdict s x mode confirm).2 = .scheduled x mode ∧ x ≠ s.tb.program) := by
  unfold selectVerdict
  split
  · exact .inl rfl
  · next other => (repeat' split) <;> simp [other]

theorem State.judgeSelect_switchElsewhere (hs : SwitchElsewhere s) (x : Input) (mode : SwitchMode) (confirm : Bool) :
    SwitchElsewhere (s.judgeSelect x mode confirm) := by
  intro y m scheduled
  rw [State.judgeSelect_verdict] at scheduled ⊢
  replace scheduled : (selectVerdict s x mode confirm).2 = .scheduled y m := scheduled
  rcases selectVerdict_switch s x mode confirm with stands | ⟨made, other⟩
  · exact hs y m (stands.symm.trans scheduled)
  · rw [made] at scheduled
    cases scheduled
    exact other

theorem State.judgeSelect_residualLaw (hs : ResidualLaw s) (x : Input) (mode : SwitchMode) (confirm : Bool) :
    ResidualLaw (s.judgeSelect x mode confirm) := by
  have elsewhere := State.judgeSelect_switchElsewhere hs.switchElsewhere x mode confirm
  obtain ⟨zero, own, -⟩ := hs
  exact ⟨by simpa using zero, by simpa using own, elsewhere⟩

theorem State.examineHeld_residualLaw (hs : ResidualLaw s) (q : HeldSelect) : ResidualLaw (s.examineHeld q) :=
  State.judgeSelect_residualLaw (s := { s with tb := { s.tb with heldSelect := none } }) hs _ _ _

theorem State.settleHeldSelect_residualLaw (hs : ResidualLaw s) : ResidualLaw s.settleHeldSelect := by
  unfold State.settleHeldSelect
  split
  · exact hs
  · split
    · exact State.examineHeld_residualLaw hs _
    · exact hs

theorem State.heldSelectStep_residualLaw (hs : ResidualLaw s) : ResidualLaw s.heldSelectStep := by
  unfold State.heldSelectStep
  split
  · exact hs
  · split
    · exact State.examineHeld_residualLaw hs _
    · split <;> exact hs

theorem State.enterFollow_switchElsewhere (hs : SwitchElsewhere s) : SwitchElsewhere s.enterFollow := by
  intro x mode scheduled
  replace scheduled : (if s.tb.switch = .made then SwitchItem.none else s.tb.switch) = .scheduled x mode := scheduled
  split at scheduled
  · cases scheduled
  · exact hs x mode scheduled

/-- Entry to FOLLOW with both residuals 0 (R152). -/
theorem State.enterFollow_residualLaw (elsewhere : SwitchElsewhere s) (zero : s.tb.h = 0 ∧ s.tb.v = 0) :
    ResidualLaw s.enterFollow :=
  ResidualLaw_follow rfl zero (State.enterFollow_switchElsewhere elsewhere)

theorem State.enterCoast_residualLaw (elsewhere : SwitchElsewhere s) : ResidualLaw s.enterCoast :=
  ResidualLaw_coast rfl rfl elsewhere

theorem State.slewOrFollow_residualLaw (elsewhere : SwitchElsewhere s) : ResidualLaw s.slewOrFollow := by
  unfold State.slewOrFollow
  split
  · next zero => exact State.enterFollow_residualLaw elsewhere zero
  · exact ResidualLaw_slew rfl elsewhere

theorem State.settleSlew_residualLaw (hs : ResidualLaw s) : ResidualLaw s.settleSlew := by
  unfold State.settleSlew
  split
  · next zero => exact State.enterFollow_residualLaw hs.switchElsewhere zero.2
  · exact hs

theorem State.fieldStart_residualLaw (hs : ResidualLaw s) (cut : Bool) : ResidualLaw (s.fieldStart cut) := by
  have slewed : ResidualLaw s.slewVertical := by
    unfold State.slewVertical
    split
    · next slewing => exact State.settleSlew_residualLaw (ResidualLaw_slew slewing hs.switchElsewhere)
    · exact hs
  have begun : ResidualLaw s.beginField := ResidualLaw_congr slewed rfl rfl rfl rfl rfl rfl
  exact State.heldSelectStep_residualLaw
    (ResidualLaw_congr begun (by simp) (by simp) (by simp) (by simp) (by simp) (by simp))

/-- In FREE RUN and COAST a line that starts is made to run to its own length (R143). -/
theorem State.lineAt_residualLaw (hs : ResidualLaw s) (time : Nat) : ResidualLaw (s.lineAt time) := by
  obtain ⟨zero, -, elsewhere⟩ := hs
  refine ⟨zero, fun running => ?_, elsewhere⟩
  show s.newLineFollows = false
  rcases running with running | running <;> simp_all [State.newLineFollows]

/-- At the end of a computer line h moves in SLEW alone (R145). -/
theorem State.endLine_residualLaw (hs : ResidualLaw s) : ResidualLaw s.endLine := by
  by_cases slewing : s.tb.state = .slew
  · exact ResidualLaw_slew slewing hs.switchElsewhere
  · exact ResidualLaw_congr hs rfl (by simp [State.endLine, slewing]) rfl rfl rfl rfl

theorem State.cutTo_residualLaw (s : State) (x : Input) : ResidualLaw (s.cutTo x) := by
  unfold State.cutTo
  dsimp only
  split
  · exact ResidualLaw_follow rfl ⟨rfl, rfl⟩ nofun
  · exact ResidualLaw_coast rfl rfl nofun

theorem State.slewTo_residualLaw (s : State) (x : Input) : ResidualLaw (s.slewTo x) := by
  unfold State.slewTo
  dsimp only
  split
  · exact State.slewOrFollow_residualLaw nofun
  · exact State.enterCoast_residualLaw nofun

theorem State.recutFieldStart_residualLaw (hs : ResidualLaw s) : ResidualLaw s.recutFieldStart :=
  State.settleHeldSelect_residualLaw (ResidualLaw_congr (State.lineAt_residualLaw hs s.tb.lineStartAt)
    (by simp) (by simp) (by simp) (by simp) (by simp) (by simp))

theorem State.withdrawSwitch_residualLaw (hs : ResidualLaw s) (x : Input) : ResidualLaw (s.withdrawSwitch x) := by
  unfold State.withdrawSwitch
  split
  · split
    · obtain ⟨zero, own, -⟩ := hs
      exact ⟨zero, own, nofun⟩
    · exact hs
  · exact hs
  · exact hs

theorem State.programLockChanged_residualLaw (hs : ResidualLaw s) (old : LockState) :
    ResidualLaw (s.programLockChanged old) := by
  unfold State.programLockChanged
  split
  · split
    · exact State.enterCoast_residualLaw hs.switchElsewhere
    · exact hs
  · split
    · split
      · exact State.slewOrFollow_residualLaw hs.switchElsewhere
      · exact hs
    · exact hs

/-- What follows a change of a lock state keeps the law (R138, R146, R149). -/
theorem State.lockChanged_residualLaw (hs : ResidualLaw s) (x : Input) (old : LockState) :
    ResidualLaw (s.lockChanged x old) := by
  have withdrawn : ResidualLaw (if (s.ctx x).lock = .hunt ∨ (s.ctx x).lock = .noSignal then
      s.signalLock.withdrawSwitch x else s.signalLock) := by
    split
    · exact State.withdrawSwitch_residualLaw (s := s.signalLock) hs x
    · exact hs
  unfold State.lockChanged
  dsimp only
  split
  · exact hs
  · split
    · exact State.programLockChanged_residualLaw withdrawn old
    · exact withdrawn

theorem State.setCtx_residualLaw (hs : ResidualLaw s) (x : Input) (c : LockContext) : ResidualLaw (s.setCtx x c) := by
  cases x <;> exact hs

/-- The events of the inputs and the end of a computer line keep the law. -/
theorem State.timing_residualLaw (hs : ResidualLaw s) :
    (∀ x, ResidualLaw (s.cutSwitch x)) ∧ (∀ x, ResidualLaw (s.slewSwitch x)) ∧ ResidualLaw s.computerLineEnd ∧
      (∀ x t, ResidualLaw (s.tracked x t)) :=
  State.timing_ops_ind (fun u x _ => u.cutTo_residualLaw x) (fun u x _ => u.slewTo_residualLaw x)
    (fun u x c hu => State.lockChanged_residualLaw (State.setCtx_residualLaw hu x c) x (u.ctx x).lock)
    (fun _ t hu => State.lineAt_residualLaw hu t) (fun _ t hu => State.lineAt_residualLaw hu t)
    (fun _ hu => State.endLine_residualLaw hu)
    (fun u x hu => State.lineAt_residualLaw hu ((u.ctx x).reference.getD u.now)) (fun _ _ hu => hu)
    (fun _ hu => State.settleSlew_residualLaw hu) (fun _ cut hu => State.fieldStart_residualLaw hu cut)
    (fun _ hu => State.recutFieldStart_residualLaw hu) (fun _ hu => State.settleHeldSelect_residualLaw hu) s hs

/-- Of the commands, SELECT alone touches what the law reads, and it schedules a switch to the other input alone. -/
theorem commandEffect_residualLaw (x : Bool) (code : BitVec 5) (hs : ResidualLaw s) :
    ResidualLaw (commandEffect x code s) := by
  apply commandEffect_cases (P := fun e => ResidualLaw (e s))
  case select =>
    unfold selectEffect
    split
    · split
      · exact hs
      · split
        · exact State.judgeSelect_residualLaw hs _ _ _
        · exact hs
    · exact hs
  case setGeometry =>
    unfold setGeometryEffect
    split <;> exact hs
  all_goals
    intros
    exact ResidualLaw_congr hs (by simp) (by simp) (by simp) (by simp) (by simp) (by simp)

end

/-- Every command keeps the law: SELECT and the timebase's own events by the lemmas above, power-on starts in FREE RUN
with both residuals 0, and no other command touches what the law reads. -/
theorem exec_residualLaw {c : Instr} {s t : State} (hs : ResidualLaw s) (h : exec c s = .next t) : ResidualLaw t := by
  obtain ⟨cuts, slews, lineEnd, -⟩ := State.timing_residualLaw hs
  refine exec_ind (P := ResidualLaw) h ?self ?powerOn ?busReset ?release ?overrun ?refuse ?taken ?stored ?flags ?mask
    ?pointer ?read ?readRefused ?written ?field ?adoption ?expiry ?autoRetire ?blink ?guard ?applyHeld ?timeout ?settle
    ?beginLine ?takingPoint ?grant ?answerMask ?answerImage ?acknowledge ?busTimeout ?tracked ?cut ?slew ?lineEnd
  case powerOn => exact fun _ => ⟨fun _ => ⟨rfl, rfl⟩, fun _ => rfl, nofun⟩
  case busReset => exact hs
  case taken => exact fun code ie _ => commandEffect_residualLaw _ code (s := s.take code ie) hs
  case written =>
    intro _ _ _ hw
    have frame := State.writePointed_frame hw
    exact ResidualLaw_congr hs (by simp [frame]) (by simp [frame]) (by simp [frame]) (by simp [frame])
      (by simp [frame]) (by simp [frame])
  case field => exact State.fieldStart_residualLaw hs false
  case settle => exact State.settleHeldSelect_residualLaw hs
  case tracked =>
    intro x time t _
    obtain ⟨-, -, -, tracks⟩ := State.timing_residualLaw (s := s.clockAt time) hs
    exact tracks x t
  case cut => exact fun x _ => cuts x
  case slew => exact fun x _ => slews x
  case lineEnd => exact lineEnd
  all_goals
    intros
    exact ResidualLaw_congr hs (by simp) (by simp) (by simp) (by simp) (by simp) (by simp)

/-- Settles O12: every command keeps both laws, and neither the queue nor the clock touches what they speak of. -/
theorem stepKeepsTimebaseLaw : Obligations.StepKeepsTimebaseLaw := fun s t h =>
  ⟨fun hs => step_keeps (fun _ _ _ hs h => exec_timebaseLaw hs h) (fun _ _ hs => hs) (fun _ hs => hs) s t hs h,
    fun hs => step_keeps (fun _ _ _ hs h => exec_residualLaw hs h) (fun _ _ hs => hs) (fun _ hs => hs) s t hs h⟩

end Sys2Proof.Machine
end

section
/-! SELECT (sections 9.6 and 9.7): examined or held as it is taken, and the two rows that end a held one. -/

namespace Sys2Proof.Machine

/-! ### SELECT taken (R149) -/

theorem modeOf_modeWord (mode : SwitchMode) : modeOf (modeWord mode) = some mode := by
  cases mode <;> rfl

theorem modeOf_bad {w : Word} (h : 1 < w.toNat) : modeOf w = none := by
  unfold modeOf
  split
  · omega
  · omega
  · rfl

theorem flagWord_range (b : Bool) : ¬ 1 < (flagWord b).toNat := by
  cases b <;> decide

theorem flagWord_set (b : Bool) : decide (flagWord b = 1#16) = b := by
  cases b <;> rfl

/-- A SELECT with an argument out of range is refused (R149, R160). -/
theorem selectEffect_badArgument {s : State}
    (h : 1 < s.cmd.arg0.toNat ∨ 1 < s.cmd.arg1.toNat ∨ 1 < s.cmd.arg2.toNat) :
    selectEffect s = s.completeZero .badArgument := by
  unfold selectEffect
  split
  · next x mode input moded =>
    rcases h with h | h | h
    · rw [inputOf_bad h] at input
      cases input
    · rw [modeOf_bad h] at moded
      cases moded
    · exact if_pos h
  · rfl

/-- A SELECT with arguments in range is examined, or held while a switch is in flight (R149, R153). -/
theorem selectEffect_arguments {s : State} {x : Input} {mode : SwitchMode} {confirm : Bool}
    (input : s.cmd.arg0 = inputWord x) (moded : s.cmd.arg1 = modeWord mode) (flag : s.cmd.arg2 = flagWord confirm) :
    selectEffect s =
      if s.tb.switch = .none then s.judgeSelect x mode confirm
      else { s with tb := { s.tb with
        heldSelect := some { input := x, mode := mode, confirm := confirm, count := 0 } } } := by
  unfold selectEffect
  rw [input, moded, flag, inputOf_inputWord, modeOf_modeWord, flagWord_set]
  exact if_neg (flagWord_range confirm)

/-- Settles O24: SELECT's arguments, and for those in range the switch in flight, decide what it does; the table of R149
does not read what taking a command changes. -/
theorem selectExaminedOrHeld : Obligations.SelectExaminedOrHeld := by
  intro s ie accepts
  have taken := exec_accepted (.select ie) (fun _ => rfl) accepts
  refine ⟨fun wrong => ?_, fun x mode confirm input moded flag => ⟨fun idle => ?_, fun flight => ?_⟩⟩
  · rw [taken, selectEffect_badArgument (s := Taken s 14#5 ie) wrong]
    rfl
  · have same : selectVerdict (Taken s 14#5 ie) x mode confirm = selectVerdict s x mode confirm := rfl
    replace idle : (Taken s 14#5 ie).tb.switch = .none := idle
    rw [taken, selectEffect_arguments (s := Taken s 14#5 ie) input moded flag, if_pos idle,
      State.judgeSelect_verdict, same, State.completeSelect, inputCode_programWord]
    rfl
  · replace flight : (Taken s 14#5 ie).tb.switch ≠ .none := flight
    rw [taken, selectEffect_arguments (s := Taken s 14#5 ie) input moded flag, if_neg flight]
    rfl

/-! ### The held SELECT ends (R153) -/

/-- A held SELECT that is examined completes by the table of R149. -/
theorem State.examineHeld_verdict (s : State) (q : HeldSelect) :
    s.examineHeld q =
      { Finished s (selectVerdict s q.input q.mode q.confirm).1 (programWord s) 0#16 with
        tb := { s.tb with
          heldSelect := none, switch := (selectVerdict s q.input q.mode q.confirm).2 } } := by
  have same : selectVerdict { s with tb := { s.tb with heldSelect := none } } q.input q.mode q.confirm =
      selectVerdict s q.input q.mode q.confirm := rfl
  rw [State.examineHeld, State.judgeSelect_verdict, same, State.completeSelect, inputCode_programWord]
  rfl

theorem State.timeoutHeld_eq (s : State) :
    s.timeoutHeld = { Finished s .timeout (programWord s) 0#16 with tb := { s.tb with heldSelect := none } } := by
  rw [State.timeoutHeld, State.completeSelect, inputCode_programWord]
  rfl

/-- Settles O42: the two rows by the held SELECT's count and by SWITCHING. -/
theorem heldSelectEnds : Obligations.HeldSelectEnds := by
  intro s q held
  refine ⟨fun flight last => ?_, fun idle => ?_, fun flight => ?_⟩
  · have due : s.tb.switch ≠ .none ∧ Config.heldSelectLimit ≤ q.count + 1 := ⟨flight, Nat.succ_le_succ (Nat.le_of_eq last.symm)⟩
    have times : exec .heldSelectTimeout s = .next s.timeoutHeld := by
      show execHeldSelectTimeout s = _
      simp only [execHeldSelectTimeout, held, if_pos due]
    rw [times, State.timeoutHeld_eq]
  · have examines : s.settleHeldSelect = s.examineHeld q := by
      simp only [State.settleHeldSelect, held, if_pos idle]
    rw [← State.examineHeld_verdict, ← examines]
    rfl
  · exact congrArg Host.Outcome.next (State.settleHeldSelect_waiting fun _ _ => flight)

end Sys2Proof.Machine
end

section
/-! The residuals as they are measured (section 9.3). -/

namespace Sys2Proof.Machine

/-- A horizontal offset and its residual differ by whole lines, and the residual lies within half a line (R144). -/
theorem reduceH_spec {nominal : Nat} (pos : 0 < nominal) (d : Int) :
    (∃ n : Int, d = reduceH nominal d + n * nominal) ∧ -(nominal : Int) ≤ 2 * reduceH nominal d ∧
      2 * reduceH nominal d < nominal := by
  have whole := Int.emod_add_ediv_mul d nominal
  have low := Int.emod_nonneg d (show (nominal : Int) ≠ 0 by omega)
  have high := Int.emod_lt_of_pos d (show (0 : Int) < nominal by omega)
  unfold reduceH
  split
  · refine ⟨⟨d / nominal + 1, ?_⟩, by omega, by omega⟩
    rw [Int.add_mul, Int.one_mul]
    omega
  · refine ⟨⟨d / nominal, ?_⟩, by omega, by omega⟩
    omega

/-- A vertical offset and its residual differ by whole fields, and the residual lies within half a field (R144). -/
theorem reduceV_spec {lines : Nat} (pos : 0 < lines) (d : Int) :
    (∃ m : Int, d = reduceV lines d + m * lines) ∧ -(lines : Int) < 2 * reduceV lines d ∧
      2 * reduceV lines d ≤ lines := by
  have whole := Int.emod_add_ediv_mul d lines
  have low := Int.emod_nonneg d (show (lines : Int) ≠ 0 by omega)
  have high := Int.emod_lt_of_pos d (show (0 : Int) < lines by omega)
  unfold reduceV
  split
  · refine ⟨⟨d / lines + 1, ?_⟩, by omega, by omega⟩
    rw [Int.add_mul, Int.one_mul]
    omega
  · refine ⟨⟨d / lines, ?_⟩, by omega, by omega⟩
    omega

/-- The line beside the computer's is the input's line and the whole lines taken off the horizontal offset (log 15). -/
theorem Timebase.lineBeside_eq {t : Timebase} {c : LockContext} {n : Int} (pos : 0 < t.standard.nominal)
    (whole : t.offsetH c = t.measureH c + n * t.standard.nominal) : t.lineBeside c = c.line + n := by
  have nonzero : (t.standard.nominal : Int) ≠ 0 := by omega
  have taken : t.offsetH c - t.measureH c = n * t.standard.nominal := by omega
  rw [Timebase.lineBeside, taken, Int.mul_ediv_cancel _ nonzero]

theorem Standard.nominal_pos (std : Standard) : 0 < std.nominal := by
  cases std <;> decide

theorem LockContext.expected_pos (c : LockContext) : 0 < c.expected := by
  obtain ⟨low, -⟩ := c.expected_range
  omega

/-- Settles O55: both residuals are reductions of their offsets, and the lines taken off the horizontal one stand in the
vertical one's. -/
theorem residualsMeasured : Obligations.ResidualsMeasured := by
  intro tb c r reference
  obtain ⟨⟨n, lines⟩, hLow, hHigh⟩ := reduceH_spec tb.standard.nominal_pos (tb.offsetH c)
  obtain ⟨⟨m, fields⟩, vLow, vHigh⟩ := reduceV_spec c.expected_pos (tb.offsetV c)
  have offset : tb.offsetH c = (tb.lineStartAt : Int) - r := by simp [Timebase.offsetH, reference]
  have beside : tb.offsetV c = (c.line : Int) + n - tb.linesRun := by
    rw [Timebase.offsetV, Timebase.lineBeside_eq tb.standard.nominal_pos lines]
  exact ⟨⟨n, offset ▸ lines, m, beside ▸ fields⟩, hLow, hHigh, vLow, vHigh⟩

end Sys2Proof.Machine
end

section
/-! The line starts of an input (section 8.7): a Feed vertical sync is handed on exactly where one brings the line
number of a LOCKED or HOLDOVER context to 0. -/

namespace Sys2Proof.Machine

/-- What a row that brings a line start, found or put in, can make of a context. -/
inductive LineTracks (c : LockContext) : Tracked → Prop where
  | line (time : Nat) (seq : Option Parity) : LineTracks c (c.lineEvent time seq)
  | missing (moment : Nat) : LineTracks c (c.missingLine moment)

/-- A row of a line start does nothing, or what its context makes of the line start, at its time. -/
theorem LineEventOf.tracks {x : Input} {e : Instr} {s t : State} (h : LineEventOf x e) (ran : exec e s = .next t) :
    t = s ∨ ∃ time T, LineTracks (s.ctx x) T ∧ t = (s.clockAt time).tracked x T := by
  have next {u : State} (stands : exec e s = .next u) : t = u := by
    rw [stands] at ran
    exact (Host.Outcome.next.inj ran).symm
  cases h with
  | lineStart time => exact .inr ⟨time, _, .line time none, next rfl⟩
  | verticalSyncSequence time parity => exact .inr ⟨time, _, .line time (some parity), next rfl⟩
  | verifyPass time =>
    by_cases due : (s.ctx x).passDue = true
    · exact .inr ⟨time, _, .line time _, next (if_pos due)⟩
    · exact .inl (next (if_neg due))
  | missingLineStart =>
    refine .inr ⟨0, _, .missing s.now, ?_⟩
    rw [State.clockAt_zero]
    exact next rfl
  | holdoverRelock time =>
    by_cases due : (s.ctx x).relockDue time = true
    · exact .inr ⟨time, _, .line time none, next (if_pos due)⟩
    · exact .inl (next (if_neg due))

/-- A line start changes nothing and hands nothing on, or it changes the context, and hands on a Feed vertical sync
exactly where the line number comes to 0 (R137). -/
def HandsOnAtLineZero (c : LockContext) (t : Tracked) : Prop :=
  (t.ctx = c ∧ t.vsync = false) ∨ (t.ctx ≠ c ∧ t.vsync = decide (t.ctx.line = 0))

section
variable {c d : LockContext}

/-- The next line is another line, or line 0 of a field of the other parity. -/
theorem LockContext.nextLine_moves (c : LockContext) :
    c.nextLine.1.line ≠ c.line ∨ c.nextLine.1.parity ≠ c.parity := by
  unfold LockContext.nextLine
  split
  · refine .inr ?_
    cases c.parity <;> exact nofun
  · exact .inl (Nat.succ_ne_self c.line)

/-- A context whose line and parity are those of another one's next line is not that other one. -/
theorem LockContext.ne_of_nextLine {e : LockContext} (line : d.line = c.line) (parity : d.parity = c.parity)
    (eLine : e.line = d.nextLine.1.line) (eParity : e.parity = d.nextLine.1.parity) : e ≠ c := by
  rintro rfl
  rcases d.nextLine_moves with moved | moved
  · exact moved (by rw [← eLine, line])
  · exact moved (by rw [← eParity, parity])

theorem LockContext.ne_of_lock (h : d.lock ≠ c.lock) : d ≠ c :=
  fun same => h (congrArg LockContext.lock same)

@[simp] theorem LockContext.nextLine_heldLines (c : LockContext) : c.nextLine.1.heldLines = c.heldLines := by
  unfold LockContext.nextLine
  split <;> rfl

theorem LockContext.huntLine_lock (time : Nat) (seq : Option Parity) (h : c.lock = .hunt) :
    (c.huntLine time seq).ctx.lock = .hunt ∨ (c.huntLine time seq).ctx.lock = .verify := by
  have measured : (c.measurePeriod time).lock = .hunt := h
  unfold LockContext.huntLine
  dsimp only
  split
  · exact .inl measured
  · exact .inl measured
  · split
    · exact .inr rfl
    · split
      · exact .inr rfl
      · exact .inl measured

theorem LockContext.verifyLine_lock (time : Nat) (seq : Option Parity) (h : c.lock = .verify) :
    (c.verifyLine time seq).ctx.lock ≠ .holdover := by
  have measured : (c.measurePeriod time).lock ≠ .holdover := by
    rw [show (c.measurePeriod time).lock = .verify from h]
    decide
  unfold LockContext.verifyLine
  dsimp only
  split
  · exact nofun
  · split
    · split
      · exact measured
      · exact nofun
    · split
      · exact nofun
      · split
        · exact measured
        · exact nofun

theorem LockContext.holdoverEnd_stands {v : Bool} {moment : Nat} (h : (c.holdoverEnd v moment).ctx.lock ≠ .hunt) :
    c.holdoverEnd v moment = { ctx := c, vsync := v } := by
  unfold LockContext.holdoverEnd at h ⊢
  split
  · next limit =>
    rw [if_pos limit] at h
    exact absurd rfl h
  · rfl

theorem LockContext.lockedFound_parity (c : LockContext) (time : Nat) : (c.lockedFound time).parity = c.parity := by
  unfold LockContext.lockedFound
  split
  · cases c.found <;> rfl
  · split <;> rfl

/-- A line start in LOCKED (R132, R133): out of the window it is ignored; a sequence that confirms the boundary, or
makes a vertical jump, comes at line 0. -/
theorem LockContext.lockedLine_handsOn (time : Nat) (seq : Option Parity) (h : c.lock = .locked) :
    HandsOnAtLineZero c (c.lockedLine time seq) := by
  have moved : (c.lockedFound time).nextLine.1 ≠ c :=
    LockContext.ne_of_nextLine (c.lockedFound_line time).1 (c.lockedFound_parity time) rfl rfl
  unfold LockContext.lockedLine
  split
  · exact .inl ⟨rfl, rfl⟩
  · dsimp only
    split
    · exact .inr ⟨moved, LockContext.nextLine_marks _⟩
    · next p =>
      split
      · next confirmed =>
        obtain ⟨last, other⟩ := (LockContext.confirmedBy_iff p).1 confirmed
        obtain ⟨line, expected⟩ := c.lockedFound_line time
        have top : (c.lockedFound time).nextLine.1.line = 0 := by
          unfold LockContext.nextLine
          rw [if_pos (by rw [line, expected, last])]
        exact .inr ⟨moved, by simp [top]⟩
      · exact .inr ⟨LockContext.ne_of_lock (by rw [h]; exact nofun), rfl⟩

/-- A line start in HOLDOVER (R135): each one within the window is counted, and a sequence comes at line 0. -/
theorem LockContext.holdoverLine_handsOn (time : Nat) (seq : Option Parity) (h : c.lock = .holdover)
    (running : (c.holdoverLine time seq).ctx.lock ≠ .hunt) : HandsOnAtLineZero c (c.holdoverLine time seq) := by
  have counted {e : LockContext} (more : e.heldLines = c.heldLines + 1) : e ≠ c := by
    rintro rfl
    exact Nat.succ_ne_self _ more.symm
  have relocked (e : LockContext) : e.enterLocked ≠ c := LockContext.ne_of_lock (by rw [h]; exact nofun)
  revert running
  unfold LockContext.holdoverLine
  dsimp only
  split
  · exact fun _ => .inl ⟨rfl, rfl⟩
  · generalize (if c.distance time ≤ Config.jumpTolerance then c.run + 1 else 0) = good
    cases seq with
    | none =>
      dsimp only
      split
      · exact fun _ => .inr ⟨relocked _, LockContext.nextLine_marks _⟩
      · intro running
        rw [LockContext.holdoverEnd_stands running]
        exact .inr ⟨counted (LockContext.nextLine_heldLines _), LockContext.nextLine_marks _⟩
    | some p =>
      dsimp only
      split
      · exact fun _ => .inr ⟨relocked _, rfl⟩
      · intro running
        rw [LockContext.holdoverEnd_stands running]
        exact .inr ⟨counted (LockContext.nextLine_heldLines _), rfl⟩

/-- A missing line start is counted like a found one, in LOCKED and in HOLDOVER (R134, R135). -/
theorem LockContext.missingLine_handsOn (moment : Nat) (running : (c.missingLine moment).ctx.lock ≠ .hunt) :
    HandsOnAtLineZero c (c.missingLine moment) := by
  revert running
  unfold LockContext.missingLine
  split
  · exact fun _ => .inl ⟨rfl, rfl⟩
  · next t _ =>
    split
    · dsimp only
      split
      · exact fun _ => .inr ⟨LockContext.ne_of_nextLine (c := c)
          (d := { c with reference := some t, found := false, run := c.run + 1 }) rfl rfl rfl rfl,
          LockContext.nextLine_marks _⟩
      · exact fun _ => .inr ⟨LockContext.ne_of_nextLine (c := c)
          (d := { c with reference := some t, found := false, run := c.run + 1 }) rfl rfl rfl rfl,
          LockContext.nextLine_marks _⟩
    · intro running
      dsimp only at running ⊢
      rw [LockContext.holdoverEnd_stands running]
      exact .inr ⟨LockContext.ne_of_nextLine (c := c)
        (d := { c with reference := some t, found := false, run := 0, heldLines := c.heldLines + 1 }) rfl rfl rfl rfl,
        LockContext.nextLine_marks _⟩
    · exact fun _ => .inl ⟨rfl, rfl⟩
    · exact fun _ => .inl ⟨rfl, rfl⟩
    · exact fun _ => .inl ⟨rfl, rfl⟩

/-- Of a context that is LOCKED or in HOLDOVER after a line start, that line start handed on a Feed vertical sync
exactly where it brought the line number to 0 (R137). -/
theorem LineTracks.handsOn {t : Tracked} (h : LineTracks c t)
    (running : t.ctx.lock = .locked ∨ t.ctx.lock = .holdover) : HandsOnAtLineZero c t := by
  have noHunt : t.ctx.lock ≠ .hunt := by
    rcases running with e | e <;> simp [e]
  cases h with
  | missing moment => exact LockContext.missingLine_handsOn moment noHunt
  | line time seq =>
    cases lock : c.lock with
    | noSignal =>
      rw [LockContext.lineEvent_noSignal time seq lock, lock] at running
      rcases running with e | e <;> cases e
    | hunt =>
      rw [LockContext.lineEvent_hunt time seq lock] at running
      rcases LockContext.huntLine_lock time seq lock with e | e <;> simp [e] at running
    | verify =>
      rw [LockContext.lineEvent_verify time seq lock] at running ⊢
      have entered := running.resolve_right (LockContext.verifyLine_lock time seq lock)
      exact .inr ⟨LockContext.ne_of_lock (by rw [entered, lock]; decide),
        LockContext.verifyLine_entersLocked lock entered⟩
    | locked =>
      rw [LockContext.lineEvent_locked time seq lock]
      exact LockContext.lockedLine_handsOn time seq lock
    | holdover =>
      rw [LockContext.lineEvent_holdover time seq lock] at noHunt ⊢
      exact LockContext.holdoverLine_handsOn time seq lock noHunt

end

end Sys2Proof.Machine
end

section
/-! The end of a computer line (sections 9.2 to 9.4): by its own length, and at the program input's line starts. -/

namespace Sys2Proof.Machine

/-! ### The line that starts (R143, R145) -/

section
variable {s : State}

/-- A computer line that starts is made under the timebase's state. -/
theorem State.lineAt_madeUnder (s : State) (time : Nat) : LineMadeUnder (s.lineAt time) := by
  refine ⟨fun running => ?_, fun following => ?_, fun p slewing period => ?_⟩
  · show s.newLineLength = s.tb.runPeriod ∧ s.newLineSlew = 0 ∧ s.newLineFollows = false
    replace running : s.tb.state = .freeRun ∨ s.tb.state = .coast := running
    rcases running with e | e <;> simp [State.newLineLength, State.newLineSlew, State.newLineFollows, e]
  · show s.newLineFollows = true
    replace following : s.tb.state = .follow := following
    simp [State.newLineFollows, following]
  · replace slewing : s.tb.state = .slew := slewing
    replace period : s.programCtx.period = some p := period
    show (0 < s.tb.h → s.newLineLength = p - 1 ∧ s.newLineSlew = -1 ∧ s.newLineFollows = false) ∧
      (s.tb.h < 0 → s.newLineLength = p + 1 ∧ s.newLineSlew = 1 ∧ s.newLineFollows = false) ∧
      (s.tb.h = 0 → s.newLineFollows = true)
    refine ⟨fun late => ?_, fun early => ?_, fun level => ?_⟩
    · have off : s.tb.h ≠ 0 := by omega
      simp [State.newLineLength, State.newLineSlew, State.newLineFollows, slewing, period, late, off]
    · have off : s.tb.h ≠ 0 := by omega
      have notLate : ¬0 < s.tb.h := by omega
      simp [State.newLineLength, State.newLineSlew, State.newLineFollows, slewing, period, early, off, notLate]
    · simp [State.newLineFollows, slewing, level]

/-- The timebase makes its lines to follow the program input: in FOLLOW, and in SLEW while h is 0 (R143, R145). -/
def State.Following (s : State) : Prop :=
  s.tb.state = .follow ∨ (s.tb.state = .slew ∧ s.tb.h = 0)

/-- A line that starts while the timebase follows ends at the program input's next line start; its length is the input's
measured line period meanwhile. -/
theorem State.lineAt_following (h : s.Following) (time : Nat) :
    s.lineAt time = { s with tb := { s.tb with
      lineStartAt := time, lineLength := s.programCtx.period.getD s.tb.standard.nominal, lineSlew := 0,
      lineFollows := true } } := by
  have made : s.newLineLength = s.programCtx.period.getD s.tb.standard.nominal ∧ s.newLineSlew = 0 ∧
      s.newLineFollows = true := by
    rcases h with following | ⟨slewing, level⟩
    · simp [State.newLineLength, State.newLineSlew, State.newLineFollows, following]
    · simp [State.newLineLength, State.newLineSlew, State.newLineFollows, slewing, level]
  obtain ⟨length, slew, follows⟩ := made
  rw [State.lineAt, length, slew, follows]

/-- While the timebase follows, the end of a line counts one more line and moves nothing else. -/
theorem State.endLine_following (h : s.Following) :
    s.endLine = { s with tb := { s.tb with linesRun := s.tb.linesRun + 1 } } := by
  have still : s.endLine.tb.h = s.tb.h := by
    rcases h with following | ⟨-, level⟩
    · simp [State.endLine, following]
    · simp [State.endLine, level]
  have counted : s.endLine = { s with tb := { s.tb with linesRun := s.tb.linesRun + 1, h := s.endLine.tb.h } } := rfl
  rw [counted, still]

/-! ### The last line of a field (R142, R143, R145) -/

/-- In FREE RUN and COAST a field has the regular length of its parity. -/
theorem State.fieldLength_regular (h : s.tb.state = .freeRun ∨ s.tb.state = .coast) :
    s.fieldLength = s.tb.standard.fieldLines s.tb.parity := by
  unfold State.fieldLength
  rcases h with e | e <;> rw [e]

/-- In SLEW a field has the input's length, less or more the lines by which v moves. -/
theorem State.fieldLength_slew (h : s.tb.state = .slew) (n : Nat) :
    s.fieldLength ≤ n ↔ (s.tb.inputLines : Int) - s.tb.v
      + (if 0 < s.tb.v then s.tb.v - min 4 s.tb.v else s.tb.v + min 4 (-s.tb.v)) ≤ n := by
  have toward : towardZero Config.slewLines s.tb.v =
      if 0 < s.tb.v then s.tb.v - min 4 s.tb.v else s.tb.v + min 4 (-s.tb.v) := rfl
  unfold State.fieldLength
  rw [h, toward]
  dsimp only
  omega

/-- A line beside an input's latest line start, in samples. -/
theorem State.beside_iff (s : State) (x : Input) (time : Nat) :
    s.beside x time = true ↔
      ∀ r, (s.ctx x).reference = some r → 2 * ((r : Int) - time).natAbs ≤ s.tb.standard.nominal := by
  unfold State.beside
  rw [decide_eq_true_eq]
  cases (s.ctx x).reference <;> simp

theorem State.lineEndsField_counted (h : s.tb.state ≠ .follow) :
    s.lineEndsField = true ↔ s.fieldLength ≤ s.tb.linesRun + 1 := by
  rw [State.lineEndsField, if_neg h, decide_eq_true_eq]

/-- In FOLLOW a line of its own length ends the field beside the boundary just marked (log 15). -/
theorem State.lineEndsField_follow (h : s.tb.state = .follow) :
    s.lineEndsField = true ↔ s.tb.lineFollows = false ∧ (s.ctx s.tb.program).line = 0 ∧
      ∀ r : Nat, (s.ctx s.tb.program).reference = some r →
        2 * ((r : Int) - (s.tb.lineStartAt + s.tb.lineLength)).natAbs ≤ s.tb.standard.nominal := by
  rw [State.lineEndsField, if_pos h, Bool.and_eq_true, Bool.and_eq_true, State.beside_iff, and_assoc,
    decide_eq_true_eq, Bool.not_eq_true']
  push_cast
  rfl

/-! ### A line of its own length (R143, R145) -/

theorem State.fieldStart_settled (s : State) (cut : Bool) :
    (s.fieldStart cut).settleHeldSelect = s.fieldStart cut :=
  State.settleHeldSelect_waiting (s.fieldStart_heldSelect cut).waits

theorem State.computerLineEnd_last (h : s.lineEndsField = true) :
    s.computerLineEnd = s.nextComputerLine.fieldStart false := by
  rw [State.computerLineEnd, if_pos h, State.fieldStart_settled]

theorem State.computerLineEnd_within (h : s.lineEndsField = false) :
    s.computerLineEnd = s.nextComputerLine.settleHeldSelect := by
  rw [State.computerLineEnd, h]
  rfl

/-- The samples by which h has moved at the end of a line (R145, log 39). -/
theorem State.endLine_residual (s : State) :
    (s.tb.state = .slew → 0 < s.tb.h → s.tb.lineSlew < 0 → s.endLine.tb.h = s.tb.h - 1) ∧
    (s.tb.state = .slew → s.tb.h < 0 → 0 < s.tb.lineSlew → s.endLine.tb.h = s.tb.h + 1) ∧
    (s.tb.state ≠ .slew ∨ s.tb.h = 0 ∨ s.tb.lineSlew = 0 ∨ (0 < s.tb.h ↔ 0 < s.tb.lineSlew) →
      s.endLine.tb.h = s.tb.h) := by
  unfold State.endLine
  dsimp only
  refine ⟨fun slewing late shorter => if_pos ⟨slewing, late, shorter⟩, fun slewing early longer => ?_, fun still => ?_⟩
  · rw [if_neg fun h => by omega, if_pos ⟨slewing, early, longer⟩]
  · by_cases slewing : s.tb.state = .slew
    · replace still := still.resolve_left (not_not_intro slewing)
      rw [if_neg fun ⟨_, late, shorter⟩ => by omega, if_neg fun ⟨_, early, longer⟩ => by omega]
    · rw [if_neg fun h => slewing h.1, if_neg fun h => slewing h.1]

/-- At the end of a line with both residuals at 0 SLEW turns into FOLLOW, with a made switch over; else the timebase's
state, the event flags and the switch stand (R145, R152). -/
theorem State.nextComputerLine_settles (s : State) :
    (s.tb.state = .slew → s.nextComputerLine.tb.h = 0 → s.tb.v = 0 → s.nextComputerLine.tb.state = .follow ∧
      s.nextComputerLine.events = { s.events with timebase := true } ∧
      s.nextComputerLine.tb.switch = if s.tb.switch = .made then .none else s.tb.switch) ∧
    (s.tb.state ≠ .slew ∨ s.nextComputerLine.tb.h ≠ 0 ∨ s.tb.v ≠ 0 → s.nextComputerLine.tb.state = s.tb.state ∧
      s.nextComputerLine.events = s.events ∧ s.nextComputerLine.tb.switch = s.tb.switch) := by
  have residual : s.nextComputerLine.tb.h = s.endLine.tb.h := by simp [State.nextComputerLine]
  rw [residual, State.nextComputerLine]
  refine ⟨fun slewing level top => ?_, fun moves => ?_⟩
  · have settles : s.endLine.settleSlew = s.endLine.enterFollow := if_pos ⟨slewing, level, top⟩
    rw [settles]
    refine ⟨rfl, ?_, rfl⟩
    simp [State.enterFollow, State.setTimebaseState, slewing]
  · have stands : s.endLine.settleSlew = s.endLine := by
      refine if_neg fun ⟨slewing, level, top⟩ => ?_
      rcases moves with h | h | h
      · exact h slewing
      · exact h level
      · exact h top
    rw [stands]
    exact ⟨rfl, rfl, rfl⟩

/-- In FREE RUN and COAST a line that is not the field's last is followed by one at the running line period (R143). -/
theorem State.computerLineEnd_running (running : s.tb.state = .freeRun ∨ s.tb.state = .coast) (law : HeldSelectLaw s)
    (more : s.tb.linesRun + 1 < s.tb.standard.fieldLines s.tb.parity) :
    s.computerLineEnd = { s with tb := { s.tb with
      lineStartAt := s.tb.lineStartAt + s.tb.lineLength, previousLineAt := s.tb.lineStartAt,
      linesRun := s.tb.linesRun + 1, lineLength := s.tb.runPeriod, lineSlew := 0, lineFollows := false } } := by
  have notFollow : s.tb.state ≠ .follow := by
    rcases running with e | e <;> simp [e]
  have notSlew : s.tb.state ≠ .slew := by
    rcases running with e | e <;> simp [e]
  have within : s.lineEndsField = false := by
    rw [Bool.eq_false_iff, Ne, State.lineEndsField_counted notFollow, State.fieldLength_regular running]
    omega
  have ended : s.endLine = { s with tb := { s.tb with linesRun := s.tb.linesRun + 1 } } := by
    simp [State.endLine, notSlew]
  have stands : s.endLine.settleSlew = s.endLine := if_neg fun h => notSlew h.1
  have next : s.nextComputerLine = { s with tb := { s.tb with
      lineStartAt := s.tb.lineStartAt + s.tb.lineLength, previousLineAt := s.tb.lineStartAt,
      linesRun := s.tb.linesRun + 1, lineLength := s.tb.runPeriod, lineSlew := 0, lineFollows := false } } := by
    rw [State.nextComputerLine, stands, ended]
    rcases running with e | e <;>
      simp [State.startLine, State.lineAt, State.newLineLength, State.newLineSlew, State.newLineFollows, e]
  rw [State.computerLineEnd_within within, next]
  exact State.settleHeldSelect_waiting law.waits

end

/-! ### A line start of the program input (R142, R143, R145) -/

section
variable {s : State} {x : Input} {old : Option Nat} {r : Nat}

/-- A new line start of the program input, while the computer's line follows it: one half a line or less from the
computer's line start sets that right, and any other ends the computer's line, and in SLEW with the last line the
field. -/
theorem State.followLine_eq (program : x = s.tb.program) (follows : s.tb.lineFollows = true)
    (reference : (s.ctx x).reference = some r) (new : old ≠ some r) :
    s.followLine x old =
      if s.beside x s.tb.lineStartAt then s.lineAt r
      else if s.tb.state = .slew ∧ s.fieldLength ≤ s.tb.linesRun + 1 then
        (s.endLine.startLine r).fieldStart false
      else s.endLine.startLine r := by
  have follow : ¬ (¬ (x = s.tb.program ∧ s.tb.lineFollows = true) ∨ old = some r) := by
    rintro (h | h)
    · exact h ⟨program, follows⟩
    · exact new h
  unfold State.followLine
  rw [reference]
  exact if_neg follow

/-- A Feed vertical sync of the program input for which no switch is scheduled ends the field in FOLLOW where lines have
run and the line stands beside it (R142, R143). -/
theorem State.handOn_program (program : x = s.tb.program) (free : ∀ mode, s.tb.switch ≠ .scheduled x mode) :
    s.handOn x = if s.endsAtBoundary x then s.fieldStart false else s := by
  rw [State.handOn_unscheduled free]
  simp [program]

/-- What a line start at which the computer's line stands hands on: in FOLLOW the boundary ends the field where lines
have run (R142, R143). -/
theorem State.handOn_aligned (program : x = s.tb.program) (elsewhere : SwitchElsewhere s)
    (aligned : (s.ctx x).reference = some s.tb.lineStartAt) (vsync : Bool) :
    (if vsync then s.handOn x else s).settleHeldSelect =
      if s.tb.state = .follow ∧ s.tb.linesRun ≠ 0 ∧ vsync = true then s.fieldStart false else s.settleHeldSelect := by
  have free (mode : SwitchMode) : s.tb.switch ≠ .scheduled x mode := fun scheduled => elsewhere x mode scheduled program
  have beside : s.beside x s.tb.lineStartAt = true := by simp [State.beside, aligned]
  cases vsync with
  | false => simp
  | true =>
    rw [if_pos rfl, State.handOn_program program free, State.endsAtBoundary, beside]
    by_cases ends : s.tb.state = .follow ∧ s.tb.linesRun ≠ 0
    · simp [ends, State.fieldStart_settled]
    · rw [if_neg (by simpa using ends), if_neg (by simpa using ends)]

theorem State.heldSelectStep_switchElsewhere (hs : SwitchElsewhere s) : SwitchElsewhere s.heldSelectStep := by
  unfold State.heldSelectStep State.examineHeld
  split
  · exact hs
  · split
    · exact State.judgeSelect_switchElsewhere (s := { s with tb := { s.tb with heldSelect := none } }) hs _ _ _
    · split <;> exact hs

/-- A field start schedules no switch to the input on program. -/
theorem State.fieldStart_switchElsewhere (hs : SwitchElsewhere s) (cut : Bool) :
    SwitchElsewhere (s.fieldStart cut) := by
  have slewed : SwitchElsewhere s.slewVertical := by
    unfold State.slewVertical State.settleSlew
    split
    · split
      · exact State.enterFollow_switchElsewhere hs
      · exact hs
    · exact hs
  refine State.heldSelectStep_switchElsewhere fun y mode scheduled => ?_
  have begun : SwitchElsewhere s.beginField := slewed
  simpa using begun y mode (by simpa using scheduled)

@[simp] theorem State.fieldStart_linesRun (s : State) (cut : Bool) : (s.fieldStart cut).tb.linesRun = 0 := by
  have begun : s.beginField.tb.linesRun = 0 := rfl
  simp [State.fieldStart, begun]

/-- A field start leaves no field to be ended at the same line start. -/
theorem State.fieldStart_handOn (program : x = s.tb.program) (elsewhere : SwitchElsewhere s) :
    (s.fieldStart false).handOn x = s.fieldStart false := by
  have free (mode : SwitchMode) : (s.fieldStart false).tb.switch ≠ .scheduled x mode := fun scheduled =>
    State.fieldStart_switchElsewhere elsewhere false x mode scheduled (by simpa using program)
  rw [State.handOn_program (by simpa using program) free, if_neg]
  simp [State.endsAtBoundary]

theorem State.setCtx_programCtx (program : x = s.tb.program) (c : LockContext) : (s.setCtx x c).programCtx = c := by
  have same : (s.setCtx x c).tb.program = x := by simp [program]
  rw [State.programCtx, same, State.setCtx_same]

variable {T : Tracked}

/-- A new line start of the LOCKED program input while the computer's line follows it, and no switch waits on it: the
premises that the statements about such a line start share (R143). -/
structure State.FollowsTo (s : State) (x : Input) (T : Tracked) (r : Nat) : Prop where
  program : x = s.tb.program
  lock : T.ctx.lock = (s.ctx x).lock
  follows : s.tb.lineFollows = true
  following : s.Following
  elsewhere : SwitchElsewhere s
  reference : T.ctx.reference = some r
  new : (s.ctx x).reference ≠ some r
  vsync : T.vsync = decide (T.ctx.line = 0)

theorem State.FollowsTo.followLine (h : s.FollowsTo x T r) :
    (s.setCtx x T.ctx).followLine x (s.ctx x).reference =
      if (s.setCtx x T.ctx).beside x s.tb.lineStartAt then (s.setCtx x T.ctx).lineAt r
      else if s.tb.state = .slew ∧ s.fieldLength ≤ s.tb.linesRun + 1 then
        ((s.setCtx x T.ctx).endLine.startLine r).fieldStart false
      else (s.setCtx x T.ctx).endLine.startLine r := by
  have timebase : (s.setCtx x T.ctx).tb = s.tb := by simp
  have length : (s.setCtx x T.ctx).fieldLength = s.fieldLength := by simp [State.fieldLength]
  rw [State.followLine_eq (by rw [timebase]; exact h.program) (by rw [timebase]; exact h.follows)
    (by rw [State.setCtx_same]; exact h.reference) h.new, length, timebase]

/-- A line start that is not beside the computer's ends the computer's line. In FOLLOW it ends the field too where it is
the input's boundary, and in SLEW where the line is the field's last (R142, R143, R145). -/
theorem State.tracked_endsLine (h : s.FollowsTo x T r)
    (apart : (s.setCtx x T.ctx).beside x s.tb.lineStartAt = false) :
    ((s.tb.state = .follow ∧ T.ctx.line = 0) ∨ (s.tb.state = .slew ∧ s.fieldLength ≤ s.tb.linesRun + 1) →
      s.tracked x T = ((s.setCtx x T.ctx).endLine.startLine r).fieldStart false) ∧
    (¬ ((s.tb.state = .follow ∧ T.ctx.line = 0) ∨ (s.tb.state = .slew ∧ s.fieldLength ≤ s.tb.linesRun + 1)) →
      s.tracked x T = ((s.setCtx x T.ctx).endLine.startLine r).settleHeldSelect) := by
  rw [State.tracked_unchanged h.lock, h.followLine, apart, if_neg Bool.false_ne_true]
  generalize hu : (s.setCtx x T.ctx).endLine.startLine r = u
  have program : x = u.tb.program := by simpa [← hu] using h.program
  have elsewhere : SwitchElsewhere u := by
    intro y mode
    simpa [← hu] using h.elsewhere y mode
  by_cases last : s.tb.state = .slew ∧ s.fieldLength ≤ s.tb.linesRun + 1
  · rw [if_pos last, State.fieldStart_handOn program elsewhere, ite_self, State.fieldStart_settled]
    exact ⟨fun _ => rfl, fun more => absurd (.inr last) more⟩
  · have starts : u.tb.lineStartAt = r := by
      rw [← hu]
      rfl
    have aligned : (u.ctx x).reference = some u.tb.lineStartAt := by
      rw [starts, ← hu]
      simp [h.reference]
    have state : u.tb.state = s.tb.state := by simp [← hu]
    have run : u.tb.linesRun ≠ 0 := by
      rw [← hu]
      exact Nat.succ_ne_zero _
    rw [if_neg last, State.handOn_aligned program elsewhere aligned, state, h.vsync]
    refine ⟨fun ends => if_pos ?_, fun more => if_neg ?_⟩
    · simpa [run] using ends.resolve_right last
    · simpa [run, last] using more

/-- A line start beside the computer's sets that right, and in FOLLOW ends the field where it is the input's boundary
and lines have run (R142, R143, log 15). -/
theorem State.tracked_setsRight (h : s.FollowsTo x T r)
    (beside : (s.setCtx x T.ctx).beside x s.tb.lineStartAt = true) :
    (s.tb.state = .follow ∧ s.tb.linesRun ≠ 0 ∧ T.ctx.line = 0 →
      s.tracked x T = ((s.setCtx x T.ctx).lineAt r).fieldStart false) ∧
    (¬ (s.tb.state = .follow ∧ s.tb.linesRun ≠ 0 ∧ T.ctx.line = 0) →
      s.tracked x T = ((s.setCtx x T.ctx).lineAt r).settleHeldSelect) := by
  rw [State.tracked_unchanged h.lock, h.followLine, if_pos beside]
  generalize hu : (s.setCtx x T.ctx).lineAt r = u
  have program : x = u.tb.program := by simpa [← hu] using h.program
  have elsewhere : SwitchElsewhere u := by
    intro y mode
    simpa [← hu] using h.elsewhere y mode
  have aligned : (u.ctx x).reference = some u.tb.lineStartAt := by simp [← hu, h.reference]
  have state : u.tb.state = s.tb.state := by simp [← hu]
  have run : u.tb.linesRun = s.tb.linesRun := by simp [← hu]
  rw [State.handOn_aligned program elsewhere aligned, state, run, h.vsync]
  exact ⟨fun ends => if_pos (by simpa using ends), fun more => if_neg (by simpa using more)⟩

/-- The computer's line set to start at a line start of the input it follows. -/
theorem State.FollowsTo.lineAt_eq (h : s.FollowsTo x T r) :
    (s.setCtx x T.ctx).lineAt r = { s.setCtx x T.ctx with tb := { s.tb with
      lineStartAt := r, lineLength := T.ctx.period.getD s.tb.standard.nominal, lineSlew := 0
      lineFollows := true } } := by
  have following : (s.setCtx x T.ctx).Following := by simpa [State.Following] using h.following
  rw [State.lineAt_following following, State.setCtx_programCtx h.program]
  simp

/-- The computer's line that begins at a line start of the input it follows. -/
theorem State.FollowsTo.nextLine_eq (h : s.FollowsTo x T r) :
    (s.setCtx x T.ctx).endLine.startLine r = { s.setCtx x T.ctx with tb := { s.tb with
      lineStartAt := r, previousLineAt := s.tb.lineStartAt, linesRun := s.tb.linesRun + 1,
      lineLength := T.ctx.period.getD s.tb.standard.nominal, lineSlew := 0, lineFollows := true } } := by
  have following : (s.setCtx x T.ctx).Following := by simpa [State.Following] using h.following
  have context : (s.setCtx x T.ctx).endLine.programCtx = T.ctx := State.setCtx_programCtx h.program T.ctx
  have still : (s.setCtx x T.ctx).endLine.Following := by
    rw [State.endLine_following following]
    exact following
  rw [State.startLine, State.lineAt_following still, context, State.endLine_following following]
  simp

end

/-- The row of a line start that the computer's line follows, at the time at which the row is taken. -/
theorem LineEventOf.follows {s t : State} {e : Instr} {x : Input} {r : Nat} (event : LineEventOf x e)
    (ran : exec e s = .next t) (program : x = s.tb.program) (locked : (s.ctx x).lock = .locked)
    (stays : (t.ctx x).lock = .locked) (follows : s.tb.lineFollows = true) (following : s.Following)
    (free : ∀ mode, s.tb.switch ≠ .scheduled x mode) (reference : (t.ctx x).reference = some r)
    (new : (s.ctx x).reference ≠ some r) :
    ∃ time T, t = (s.clockAt time).tracked x T ∧ (s.clockAt time).FollowsTo x T r := by
  obtain rfl | ⟨time, T, tracks, rfl⟩ := event.tracks ran
  · exact absurd reference new
  · rw [State.tracked_same] at stays reference
    have changed : T.ctx ≠ s.ctx x := by
      rintro same
      exact new (same ▸ reference)
    rcases tracks.handsOn (.inl stays) with ⟨same, -⟩ | ⟨-, vsync⟩
    · exact absurd same changed
    · exact ⟨time, T, rfl, program, by simp [stays, locked], follows, following,
        fun y mode scheduled same => free mode (program.trans same.symm ▸ scheduled), reference,
        by simpa using new, vsync⟩

/-- Settles O56: the computer's own line ends, their last lines by the timebase's state, and a line start of the program
input by whether it stands beside the computer's. -/
theorem computerLineEnds : Obligations.ComputerLineEnds := by
  refine ⟨fun s => ?ownLength, fun s running law more => congrArg _ (State.computerLineEnd_running running law more),
    fun s t u e x r event ran program locked stays follows following free reference new started late hu last hFollow
      hSlew => ?endsLine,
    fun s t u e x r event ran program locked stays follows following free reference new near hu => ?setsRight⟩
  case ownLength =>
    have residual : s.nextComputerLine.tb.h = s.endLine.tb.h := by simp [State.nextComputerLine]
    obtain ⟨later, earlier, still⟩ := s.endLine_residual
    obtain ⟨settles, stands⟩ := s.nextComputerLine_settles
    rw [← residual] at later earlier still
    refine ⟨s.nextComputerLine, s.computerLineEnd, rfl, rfl, by simp [State.nextComputerLine, State.startLine], ?run,
      later, earlier, still, settles, stands,
      State.lineAt_madeUnder s.endLine.settleSlew (s.tb.lineStartAt + s.tb.lineLength), by simp, by simp, by simp,
      by simp, by simp, by simp, by simp, by simp, by simp, ⟨by simp, by simp⟩,
      ⟨by simp, by simp, by simp, by simp, by simp, by simp⟩, by simp, by simp, by simp, by simp,
      fun last regular slewed followed => ?last⟩
    case run => simp [State.nextComputerLine, State.endLine]
    case last =>
      have ends : last = true ↔ s.lineEndsField = true := by
        cases state : s.tb.state with
        | freeRun =>
          rw [regular (.inl state), State.lineEndsField_counted (by simp [state]),
            State.fieldLength_regular (.inl state)]
        | coast =>
          rw [regular (.inr state), State.lineEndsField_counted (by simp [state]),
            State.fieldLength_regular (.inr state)]
        | slew =>
          rw [slewed state, State.lineEndsField_counted (by simp [state]), State.fieldLength_slew state]
          push_cast
          rfl
        | follow => rw [followed state, State.lineEndsField_follow state]
      refine ⟨fun isLast => ?_, fun more => ?_⟩
      · rw [State.computerLineEnd_last (ends.1 isLast)]
        rfl
      · rw [State.computerLineEnd_within (by simpa [more] using ends)]
        rfl
  case endsLine =>
    obtain ⟨time, T, rfl, h⟩ := event.follows ran program locked stays follows following free reference new
    rw [State.tracked_same] at hu hFollow
    have starts : u = ((s.clockAt time).setCtx x T.ctx).endLine.startLine r := by
      rw [h.nextLine_eq, hu, (State.tracked_frame _ _ _).1]
      cases x <;> rfl
    have apart : ((s.clockAt time).setCtx x T.ctx).beside x s.tb.lineStartAt = false := by
      rw [Bool.eq_false_iff, Ne, State.beside_iff, State.setCtx_same]
      intro near
      have half := near r h.reference
      simp at half
      omega
    have ends : last = true ↔
        (s.tb.state = .follow ∧ T.ctx.line = 0) ∨ (s.tb.state = .slew ∧ s.fieldLength ≤ s.tb.linesRun + 1) := by
      rcases following with state | ⟨state, -⟩
      · simp [hFollow state, state]
      · rw [hSlew state, State.fieldLength_slew state]
        simp [state]
    obtain ⟨endsField, goesOn⟩ := State.tracked_endsLine h apart
    rw [starts]
    refine ⟨fun isLast => congrArg Host.Outcome.next (endsField (ends.1 isLast)).symm, fun more =>
      congrArg Host.Outcome.next (goesOn fun isLast => ?_).symm⟩
    exact Bool.false_ne_true (more.symm.trans (ends.2 isLast))
  case setsRight =>
    obtain ⟨time, T, rfl, h⟩ := event.follows ran program locked stays follows following free reference new
    rw [State.tracked_same] at hu ⊢
    have starts : u = ((s.clockAt time).setCtx x T.ctx).lineAt r := by
      rw [h.lineAt_eq, hu, (State.tracked_frame _ _ _).1]
      cases x <;> rfl
    have beside : ((s.clockAt time).setCtx x T.ctx).beside x s.tb.lineStartAt = true := by
      rw [State.beside_iff, State.setCtx_same]
      intro r' reference'
      cases h.reference.symm.trans reference'
      simpa using near
    obtain ⟨endsField, goesOn⟩ := State.tracked_setsRight h beside
    rw [starts]
    refine ⟨fun state run top => congrArg Host.Outcome.next (endsField ⟨state, run, top⟩).symm, fun stands =>
      congrArg Host.Outcome.next (goesOn fun ⟨state, run, top⟩ => ?_).symm⟩
    rcases stands with e | e | e
    · exact nomatch state.symm.trans e
    · exact run e
    · exact e top

end Sys2Proof.Machine
end

section
/-! What a field start outside SLEW leaves of the timebase, and what becomes of a held SELECT (sections 9.4, 9.5 and
9.7). -/

namespace Sys2Proof.Machine

/-! ### TIMEBASE stands (R146) -/

theorem OnlyWindow.timebase {s t : State} (h : OnlyWindow s t) : t.events.timebase = s.events.timebase := by
  unfold OnlyWindow at h
  rw [h]

section
variable (s : State)

theorem State.heldSelectStep_timebaseFlag : s.heldSelectStep.events.timebase = s.events.timebase := by
  unfold State.heldSelectStep State.examineHeld
  split
  · rfl
  · split
    · rw [State.judgeSelect_verdict]
      rfl
    · split <;> rfl

theorem State.guardStep_timebaseFlag : s.guardStep.events.timebase = s.events.timebase := by
  unfold State.guardStep
  split
  · rfl
  · split <;> rfl

theorem State.applyHeld_timebaseFlag : s.applyHeld.events.timebase = s.events.timebase := by
  unfold State.applyHeld
  split
  · rfl
  all_goals
    simp only [State.applyPush, State.applyLift, State.applyRaise, State.applyLower, State.applyClearAir,
      State.applyRetire]
    (repeat' split) <;> rfl

theorem State.recordStep_timebaseFlag : s.recordStep.events.timebase = s.events.timebase := by
  have published (u : State) : u.publicationStep.events.timebase = u.events.timebase := rfl
  have counted : s.countStep.events.timebase = s.events.timebase := rfl
  rw [State.recordStep, published, State.stackStep, State.applyHeld_timebaseFlag, State.guardStep_timebaseFlag,
    (State.removeAll_onlyWindow _ _).timebase, counted]

/-- After the timebase's own work nothing of a field start touches TIMEBASE. -/
theorem State.fieldStart_timebaseFlag (cut : Bool) :
    (s.fieldStart cut).events.timebase = s.beginField.events.timebase := by
  have converted (u : State) : (u.convertStep.blankingStep cut).events.timebase = u.events.timebase := rfl
  rw [State.fieldStart, State.heldSelectStep_timebaseFlag, State.markFrom_events,
    (State.engineStep_onlyWindow _).timebase, converted, State.recordStep_timebaseFlag]

/-! ### The new field (R142, R147) -/

/-- What a field start outside SLEW leaves of the timebase: its state and residuals stand, a new field begins, and the
five values are latched. -/
theorem State.fieldStart_steady {s : State} (steady : s.tb.state ≠ .slew) (cut : Bool) :
    (s.fieldStart cut).tb.state = s.tb.state ∧ (s.fieldStart cut).tb.v = s.tb.v ∧
      (s.fieldStart cut).tb.lastField = s.tb.linesRun ∧
      (s.fieldStart cut).tb.fieldCounter = s.tb.fieldCounter + 1#16 ∧
      (s.fieldStart cut).tb.latched =
        { scale := s.tb.setScale, trim := s.tb.setTrim, h := s.tb.h, v := s.tb.v, standard := s.tb.standard } ∧
      (s.fieldStart cut).events.timebase = s.events.timebase := by
  have still : s.slewVertical = s := if_neg steady
  have begun : s.beginField.tb.state = s.tb.state ∧ s.beginField.tb.v = s.tb.v ∧
      s.beginField.tb.lastField = s.tb.linesRun ∧ s.beginField.tb.fieldCounter = s.tb.fieldCounter + 1#16 ∧
      s.beginField.tb.latched =
        { scale := s.tb.setScale, trim := s.tb.setTrim, h := s.tb.h, v := s.tb.v, standard := s.tb.standard } ∧
      s.beginField.events.timebase = s.events.timebase := by
    rw [State.beginField, still]
    exact ⟨rfl, rfl, rfl, rfl, rfl, rfl⟩
  rw [State.fieldStart_timebaseFlag]
  simpa [State.fieldStart] using begun

/-- The law of the line in progress reads these items. -/
theorem LineMadeUnder_congr {s t : State} (made : LineMadeUnder s)
    (line : t.tb.lineLength = s.tb.lineLength ∧ t.tb.lineSlew = s.tb.lineSlew ∧ t.tb.lineFollows = s.tb.lineFollows)
    (state : t.tb.state = s.tb.state) (period : t.tb.runPeriod = s.tb.runPeriod) (h : t.tb.h = s.tb.h)
    (context : t.programCtx = s.programCtx) : LineMadeUnder t := by
  obtain ⟨length, slew, follows⟩ := line
  unfold LineMadeUnder
  rw [length, slew, follows, state, period, h, context]
  exact made

/-- A field start outside SLEW leaves the line in progress, and what it was made under. -/
theorem State.fieldStart_madeUnder {s : State} (steady : s.tb.state ≠ .slew) (made : LineMadeUnder s) (cut : Bool) :
    LineMadeUnder (s.fieldStart cut) := by
  obtain ⟨state, -⟩ := State.fieldStart_steady steady cut
  refine LineMadeUnder_congr made (by simp) state (by simp) (by simp) ?_
  have program : (s.fieldStart cut).tb.program = s.tb.program := by simp
  rw [State.programCtx, program]
  cases e : s.tb.program <;> simp [State.programCtx, State.ctx, e]

/-! ### The held SELECT (R149, R153) -/

/-- The table of R149 reads the program input, the contexts, the standard, the timebase's state and the switch. -/
theorem selectVerdict_congr {s t : State} (program : t.tb.program = s.tb.program)
    (contexts : ∀ y, t.ctx y = s.ctx y) (standard : t.tb.standard = s.tb.standard) (state : t.tb.state = s.tb.state)
    (switch : t.tb.switch = s.tb.switch) (x : Input) (mode : SwitchMode) (confirm : Bool) :
    selectVerdict t x mode confirm = selectVerdict s x mode confirm := by
  unfold selectVerdict
  rw [program, contexts, standard, state, switch]

theorem programWord_congr {s t : State} (program : t.tb.program = s.tb.program) : programWord t = programWord s := by
  unfold programWord
  rw [program]

/-- What becomes of a held SELECT is judged by the table of R149, and where it is not examined by the program input. -/
theorem HeldSelectAfter.congr {s s' : State} {switch : SwitchItem} {q : HeldSelect} {t : State}
    (h : HeldSelectAfter s switch q t) (program : s'.tb.program = s.tb.program)
    (verdict : switch = .none →
      selectVerdict s' q.input q.mode q.confirm = selectVerdict s q.input q.mode q.confirm) :
    HeldSelectAfter s' switch q t := by
  obtain ⟨examined, counted, timedOut⟩ := h
  unfold HeldSelectAfter
  rw [programWord_congr program]
  refine ⟨fun idle => ?_, counted, timedOut⟩
  rw [verdict idle]
  exact examined idle

/-- A held SELECT at a field start (R153). -/
theorem State.heldSelectStep_after {w : State} {q : HeldSelect} (held : w.tb.heldSelect = some q) :
    HeldSelectAfter w w.tb.switch q w.heldSelectStep := by
  unfold State.heldSelectStep
  rw [held]
  refine ⟨fun idle => ?_, fun flight few => ?_, fun flight last => ?_⟩
  · dsimp only
    rw [if_pos idle, State.examineHeld_verdict]
    exact ⟨rfl, rfl, rfl, rfl, rfl, rfl, rfl⟩
  · have counts : ¬ Config.heldSelectLimit ≤ q.count + 1 := Nat.not_le.2 (Nat.succ_lt_succ (Nat.lt_succ_of_le few))
    dsimp only
    rw [if_neg flight, if_neg counts]
    exact ⟨rfl, rfl⟩
  · have limit : Config.heldSelectLimit ≤ q.count + 1 := Nat.succ_le_succ last
    dsimp only
    rw [if_neg flight, if_pos limit, State.timeoutHeld_eq]
    exact ⟨rfl, rfl, rfl, rfl, rfl, rfl, rfl⟩

/-- The field start as far as the held SELECT. -/
def State.beforeHeldSelect (s : State) (cut : Bool) : State :=
  (s.beforeEngine cut).engineStep.markFrom s.beginField.recordStep

theorem State.fieldStart_heldSelectStep (s : State) (cut : Bool) :
    s.fieldStart cut = (s.beforeHeldSelect cut).heldSelectStep := rfl

theorem State.beforeHeldSelect_steady {s : State} (steady : s.tb.state ≠ .slew) (cut : Bool) :
    (s.beforeHeldSelect cut).tb.program = s.tb.program ∧ (∀ y, (s.beforeHeldSelect cut).ctx y = s.ctx y) ∧
      (s.beforeHeldSelect cut).tb.standard = s.tb.standard ∧ (s.beforeHeldSelect cut).tb.state = s.tb.state ∧
      (s.beforeHeldSelect cut).tb.switch = s.tb.switch ∧
      (s.beforeHeldSelect cut).tb.heldSelect = s.tb.heldSelect := by
  have still : s.slewVertical = s := if_neg steady
  have begun : s.beginField.tb.state = s.tb.state ∧ s.beginField.tb.switch = s.tb.switch := by
    rw [State.beginField, still]
    exact ⟨rfl, rfl⟩
  obtain ⟨state, switch⟩ := begun
  refine ⟨?_, fun y => ?_, ?_, ?_, ?_, ?_⟩
  case refine_2 => cases y <;> simp [State.beforeHeldSelect, State.beforeEngine, State.ctx]
  all_goals simp [State.beforeHeldSelect, State.beforeEngine, state, switch]

/-- Outside SLEW a field start leaves no SELECT held where none was, with the switch as it was; and a held one is
examined, counted or timed out by the switch as it was. -/
theorem State.fieldStart_heldSelectAfter {s : State} (steady : s.tb.state ≠ .slew) (cut : Bool) :
    (s.tb.heldSelect = none → (s.fieldStart cut).tb.heldSelect = none ∧ (s.fieldStart cut).tb.switch = s.tb.switch) ∧
      ∀ q, s.tb.heldSelect = some q → HeldSelectAfter s s.tb.switch q (s.fieldStart cut) := by
  obtain ⟨program, contexts, standard, state, switch, held⟩ := State.beforeHeldSelect_steady steady cut
  refine ⟨fun none => ?_, fun q waits => ?_⟩
  · have stands : (s.beforeHeldSelect cut).heldSelectStep = s.beforeHeldSelect cut := by
      rw [State.heldSelectStep, held, none]
    rw [State.fieldStart_heldSelectStep, stands]
    exact ⟨held.trans none, switch⟩
  · rw [← switch]
    refine (State.heldSelectStep_after (held.trans waits)).congr program.symm fun _ => ?_
    exact selectVerdict_congr program.symm (fun y => (contexts y).symm) standard.symm state.symm switch.symm _ _ _

end

/-! ### Cut blanking and the engine (R92, R106, R123) -/

section
variable {s : State}

theorem State.fieldStart_blanks (s : State) : (s.fieldStart true).keyer.cutBlanking = 2 := by
  have blanked (u : State) : (u.blankingStep true).keyer.cutBlanking = 2 := rfl
  simp [State.fieldStart, blanked]

/-- While the cut blanking counts no MASK window is drawn (R111). -/
theorem State.needOrder_blanked (blanked : s.keyer.cutBlanking ≠ 0) (line : Nat) : s.needOrder line = [] := by
  refine List.eq_nil_iff_forall_not_mem.2 fun i listed => ?_
  obtain ⟨-, drawn⟩ := State.needOrder_mem listed
  obtain ⟨_, _, _, _, _, _, _, _, shown⟩ := (State.drawnMask_iff s line i).1 drawn
  exact blanked shown

/-- A line opened while the cut blanking counts has no descriptor and sets no flag (R112). -/
theorem State.openLine_blanked (blanked : s.keyer.cutBlanking ≠ 0) (line : Nat) :
    (s.openLine line).engine.descs = [] ∧ (s.openLine line).slots = s.slots ∧ (s.openLine line).events = s.events := by
  have none (u : State) (same : u.keyer = s.keyer) : u.needOrder line = [] :=
    State.needOrder_blanked (by rwa [same]) line
  refine ⟨?_, ?_, ?_⟩
  · simp [State.openLine, State.buildDescs, none]
  · simp [State.openLine, State.raiseLate, none]
  · simp [State.openLine, State.raiseLate, none]

/-- The engine's work at a field start while the cut blanking counts: nothing to fetch, and no flag set. -/
theorem State.engineStep_blanked (blanked : s.keyer.cutBlanking ≠ 0) :
    s.engineStep.engine.descs = [] ∧ s.engineStep.slots = s.slots ∧ s.engineStep.events = s.events := by
  cases reset : s.resetLine with
  | true =>
    rw [State.engineStep_reset reset]
    exact ⟨rfl, rfl, rfl⟩
  | false =>
    have turned : s.lineTurned.engine.descs = [] ∧ s.lineTurned.slots = s.slots ∧ s.lineTurned.events = s.events := by
      unfold State.lineTurned
      split
      · exact State.openLine_blanked (s := s.lineClosed) blanked _
      · exact ⟨rfl, rfl, rfl⟩
    rw [State.engineStep_running reset, State.arbitrate_engine]
    simpa using turned

/-- At a CUT's own field start the engine has nothing left to fetch or to take (R106, R123). -/
theorem State.fieldStart_cutEngine (s : State) :
    (s.fieldStart true).engine.descs = [] ∧ (s.fieldStart true).engine.silo = [] := by
  have blanked : (s.beforeEngine true).keyer.cutBlanking ≠ 0 := by
    have counts : (s.beforeEngine true).keyer.cutBlanking = 2 := rfl
    omega
  obtain ⟨descs, -, -⟩ := State.engineStep_blanked blanked
  obtain ⟨silo, -, -⟩ := (s.beforeEngine true).engineStep_discards
  rw [State.fieldStart_engine]
  exact ⟨descs, silo⟩

end

end Sys2Proof.Machine
end

section
/-! The two source switches (sections 9.6 and 9.7), and the line starts that make them. -/

namespace Sys2Proof.Machine

section
variable {s : State} {x : Input} {std : Standard}

/-! ### The new input (R150, R151) -/

/-- From FREE RUN the timebase takes the new input's standard, and else it keeps its own. -/
theorem State.takeInput_standard (free : s.tb.state = .freeRun → (s.ctx x).standard = some std)
    (runs : s.tb.state ≠ .freeRun → std = s.tb.standard) : (s.takeInput x).tb.standard = std := by
  show (if s.tb.state = .freeRun then (s.ctx x).standard.getD s.tb.standard else s.tb.standard) = std
  split
  · next h => rw [free h, Option.getD_some]
  · next h => exact (runs h).symm

/-! ### The timebase after a CUT, before its field start (R150) -/

/-- A CUT to a LOCKED input enters FOLLOW with the switch over. -/
theorem State.cutTo_locked (standard : (s.takeInput x).tb.standard = std) (locked : (s.ctx x).lock = .locked) :
    s.cutTo x = { s with
      tb := { s.tb with program := x, standard := std, h := 0, v := 0, state := .follow, switch := .none }
      events := { s.events with timebase := true } } := by
  unfold State.cutTo
  dsimp only
  rw [if_pos locked, standard]
  rfl

/-- A CUT to an input that is not LOCKED enters COAST at that input's measured line period, with the switch made. -/
theorem State.cutTo_unlocked (standard : (s.takeInput x).tb.standard = std) (unlocked : (s.ctx x).lock ≠ .locked) :
    s.cutTo x = { s with
      tb := { s.tb with
        program := x, standard := std, h := 0, v := 0, state := .coast, switch := .made
        runPeriod := (s.ctx x).period.getD s.tb.runPeriod, lineFollows := false }
      events := { s.events with timebase := s.events.timebase || decide (s.tb.state ≠ .coast) } } := by
  unfold State.cutTo
  dsimp only
  rw [if_neg unlocked, State.enterCoast, State.setTimebaseState, standard]
  rfl

/-- What a CUT makes of the timebase, whichever state it enters. -/
structure CutTaken (s : State) (x : Input) (std : Standard) (c : State) : Prop where
  program : c.tb.program = x
  standard : c.tb.standard = std
  h : c.tb.h = 0
  v : c.tb.v = 0
  steady : c.tb.state ≠ .slew
  window : c.events.window = s.events.window

theorem State.cutTo_taken (standard : (s.takeInput x).tb.standard = std) : CutTaken s x std (s.cutTo x) := by
  by_cases locked : (s.ctx x).lock = .locked
  · rw [State.cutTo_locked standard locked]
    exact ⟨rfl, rfl, rfl, rfl, nofun, rfl⟩
  · rw [State.cutTo_unlocked standard locked]
    exact ⟨rfl, rfl, rfl, rfl, nofun, rfl⟩

/-- A switch in flight goes on, whatever becomes of the SELECT that waits on it. -/
theorem HeldSelectAfter.switch {s t : State} {switch : SwitchItem} {q : HeldSelect}
    (h : HeldSelectAfter s switch q t) (flight : switch ≠ .none) : t.tb.switch = switch := by
  obtain ⟨-, counted, timedOut⟩ := h
  rcases Nat.lt_or_ge q.count 47 with few | many
  · obtain ⟨-, stands⟩ := counted flight (Nat.le_of_lt_succ few)
    exact stands
  · obtain ⟨-, stands, -⟩ := timedOut flight many
    exact stands

/-- What a CUT has made once its field start is over, whether it made that field start or came at one (R150). Its
state, its running line period and TIMEBASE are those that the switch itself gave. -/
structure CutMade (s : State) (x : Input) (r : Nat) (std : Standard) (t : State) : Prop where
  program : t.tb.program = x
  standard : t.tb.standard = std
  h : t.tb.h = 0
  v : t.tb.v = 0
  linesRun : t.tb.linesRun = 0
  lineStartAt : t.tb.lineStartAt = r
  parity : t.tb.parity = (s.ctx x).parity
  latched : t.tb.latched = { scale := s.tb.setScale, trim := s.tb.setTrim, h := 0, v := 0, standard := std }
  blanking : t.keyer.cutBlanking = 2
  descs : t.engine.descs = []
  silo : t.engine.silo = []
  line : LineMadeUnder t
  state : t.tb.state = (s.cutTo x).tb.state
  runPeriod : t.tb.runPeriod = (s.cutTo x).tb.runPeriod
  timebase : t.events.timebase = (s.cutTo x).events.timebase
  unheld : s.tb.heldSelect = none → t.tb.heldSelect = none ∧ t.tb.switch = (s.cutTo x).tb.switch
  flight : (s.cutTo x).tb.switch ≠ .none → t.tb.switch = (s.cutTo x).tb.switch
  examined : ∀ q, s.tb.heldSelect = some q → (s.cutTo x).tb.switch = .none → HeldSelectAfter (s.cutTo x) .none q t

/-! ### A CUT partway through a field (R150) -/

/-- The state in which a CUT partway through a field makes its field start. -/
def State.cutAt (s : State) (x : Input) : State :=
  (s.cutTo x).cutLine x

theorem State.cutSwitch_partway {r : Nat} (reference : (s.ctx x).reference = some r)
    (partway : s.tb.linesRun ≠ 0 ∨ s.tb.lineStartAt ≠ r) :
    s.cutSwitch x =
      { (s.cutAt x).fieldStart true with
        tb := { ((s.cutAt x).fieldStart true).tb with parity := (s.ctx x).parity } } := by
  have running : s.fieldJustStarted x = false := by
    rw [State.fieldJustStarted, reference]
    rcases partway with h | h
    · simp [h]
    · simp [Ne.symm h]
  unfold State.cutSwitch State.cutAt
  rw [running]
  dsimp only
  rw [if_neg Bool.false_ne_true]

theorem State.cutAt_lineStartAt {r : Nat} (reference : (s.ctx x).reference = some r) :
    (s.cutAt x).tb.lineStartAt = r := by
  show (((s.cutTo x).ctx x).reference.getD _) = r
  rw [State.cutTo_ctx, reference, Option.getD_some]

theorem State.cutAt_madeUnder (s : State) (x : Input) : LineMadeUnder (s.cutAt x) :=
  State.lineAt_madeUnder { s.cutTo x with tb := { (s.cutTo x).tb with linesRun := (s.cutTo x).tb.linesRun + 1 } }
    (((s.cutTo x).ctx x).reference.getD (s.cutTo x).now)

/-- The lines and the field counter at a CUT's own field start: the line cut short has run. -/
theorem State.cutAt_field (steady : (s.cutTo x).tb.state ≠ .slew) :
    ((s.cutAt x).fieldStart true).tb.fieldCounter = s.tb.fieldCounter + 1#16 ∧
      ((s.cutAt x).fieldStart true).tb.lastField = s.tb.linesRun + 1 ∧
      ((s.cutAt x).fieldStart true).tb.previousLineAt = s.tb.lineStartAt := by
  have steady' : (s.cutAt x).tb.state ≠ .slew := steady
  obtain ⟨-, -, last, counter, -⟩ := State.fieldStart_steady steady' true
  have cut : (s.cutAt x).tb.linesRun = s.tb.linesRun + 1 ∧ (s.cutAt x).tb.previousLineAt = s.tb.lineStartAt := by
    simp [State.cutAt, State.cutLine, State.startLine]
  refine ⟨counter.trans (by simp [State.cutAt]), last.trans cut.1, ?_⟩
  simpa using cut.2

/-- The field counter, the length of the field cut short and the start of its line, after a CUT partway. -/
theorem State.cutSwitch_field {r : Nat} (standard : (s.takeInput x).tb.standard = std)
    (reference : (s.ctx x).reference = some r) (partway : s.tb.linesRun ≠ 0 ∨ s.tb.lineStartAt ≠ r) :
    (s.cutSwitch x).tb.fieldCounter = s.tb.fieldCounter + 1#16 ∧ (s.cutSwitch x).tb.lastField = s.tb.linesRun + 1 ∧
      (s.cutSwitch x).tb.previousLineAt = s.tb.lineStartAt := by
  have field := State.cutAt_field (State.cutTo_taken standard).steady
  rw [State.cutSwitch_partway reference partway]
  generalize (s.cutAt x).fieldStart true = f at *
  exact field

/-- What becomes of a held SELECT at a CUT's own field start is judged by the state that the switch gave. -/
theorem State.cutAt_heldSelect (steady : (s.cutTo x).tb.state ≠ .slew) :
    (s.tb.heldSelect = none → ((s.cutAt x).fieldStart true).tb.heldSelect = none ∧
      ((s.cutAt x).fieldStart true).tb.switch = (s.cutTo x).tb.switch) ∧
    ∀ q, s.tb.heldSelect = some q →
      HeldSelectAfter (s.cutTo x) (s.cutTo x).tb.switch q ((s.cutAt x).fieldStart true) := by
  have steady' : (s.cutAt x).tb.state ≠ .slew := steady
  have held : (s.cutAt x).tb.heldSelect = s.tb.heldSelect := by simp [State.cutAt]
  obtain ⟨free, after⟩ := State.fieldStart_heldSelectAfter steady' true
  refine ⟨fun none => free (held.trans none), fun q waits => ?_⟩
  exact (after q (held.trans waits)).congr rfl fun _ =>
    selectVerdict_congr (by simp [State.cutAt]) (by simp [State.cutAt]) (by simp [State.cutAt])
      (by simp [State.cutAt]) (by simp [State.cutAt]) _ _ _

theorem State.cutSwitch_partway_made {r : Nat} (standard : (s.takeInput x).tb.standard = std)
    (reference : (s.ctx x).reference = some r) (partway : s.tb.linesRun ≠ 0 ∨ s.tb.lineStartAt ≠ r) :
    CutMade s x r std (s.cutSwitch x) := by
  have taken := State.cutTo_taken standard
  have steady : (s.cutAt x).tb.state ≠ .slew := taken.steady
  obtain ⟨state, v, -, -, latched, timebase⟩ := State.fieldStart_steady steady true
  obtain ⟨descs, silo⟩ := (s.cutAt x).fieldStart_cutEngine
  obtain ⟨free, after⟩ := State.cutAt_heldSelect taken.steady
  have frame := State.fieldStart_tbFrame (s.cutAt x) true
  have run := State.fieldStart_linesRun (s.cutAt x) true
  have blanking := State.fieldStart_blanks (s.cutAt x)
  have line := State.fieldStart_madeUnder steady (s.cutAt_madeUnder x) true
  have starts := State.cutAt_lineStartAt reference
  rw [State.cutSwitch_partway reference partway]
  generalize (s.cutAt x).fieldStart true = f at *
  obtain ⟨hStandard, hProgram, hH, hPeriod, -, -, hStart, -⟩ := frame
  exact {
    program := hProgram.trans (by simp [State.cutAt, taken.program])
    standard := hStandard.trans (by simp [State.cutAt, taken.standard])
    h := hH.trans (by simp [State.cutAt, taken.h])
    v := v.trans (by simp [State.cutAt, taken.v])
    linesRun := run
    lineStartAt := hStart.trans starts
    parity := rfl
    latched := latched.trans (by simp [State.cutAt, taken.h, taken.v, taken.standard])
    blanking := blanking
    descs := descs
    silo := silo
    line := line
    state := state
    runPeriod := hPeriod.trans (by simp [State.cutAt])
    timebase := timebase
    unheld := free
    flight := fun made => by
      cases held : s.tb.heldSelect with
      | none => exact (free held).2
      | some q => exact (after q held).switch made
    examined := fun q waits idle => idle ▸ after q waits }

/-! ### A CUT at the field start that has just come (R150, log 16) -/

/-- The latched values and the records, with the superseded conversion taken back and made anew. -/
def State.reconverted (s : State) : State :=
  (s.lineAt s.tb.lineStartAt).unmark.latch.convertStep.blankingStep true

theorem State.recutFieldStart_eq (s : State) : s.recutFieldStart = s.reconverted.engineStep.settleHeldSelect := rfl

theorem State.cutSwitch_justStarted (fresh : s.tb.linesRun = 0)
    (reference : (s.ctx x).reference = some s.tb.lineStartAt) :
    s.cutSwitch x =
      { (s.cutTo x).recutFieldStart with
        tb := { (s.cutTo x).recutFieldStart.tb with parity := (s.ctx x).parity } } := by
  have started : s.fieldJustStarted x = true := by simp [State.fieldJustStarted, fresh, reference]
  unfold State.cutSwitch
  rw [started]
  rfl

/-- The conversion made anew, and the engine's work with nothing to draw: no LATE is set (R106, R112). -/
theorem State.recutFieldStart_windows (s : State) :
    s.recutFieldStart.engine.descs = [] ∧ s.recutFieldStart.engine.silo = [] ∧
      s.recutFieldStart.slots = s.reconverted.slots ∧
      s.recutFieldStart.events.timebase = s.reconverted.events.timebase ∧
      s.recutFieldStart.events.window = s.reconverted.events.window := by
  have blanked : s.reconverted.keyer.cutBlanking ≠ 0 := by
    have counts : s.reconverted.keyer.cutBlanking = 2 := rfl
    omega
  obtain ⟨descs, slots, events⟩ := State.engineStep_blanked blanked
  obtain ⟨silo, -, -⟩ := s.reconverted.engineStep_discards
  rw [State.recutFieldStart_eq, State.settleHeldSelect_timebaseFlag, State.settleHeldSelect_window, events]
  simpa [slots, silo] using descs

theorem State.reconverted_slot (s : State) (i : SlotId) :
    s.reconverted.slot i = (s.unmark.slot i).convert s.reconverted.tb.latched := by
  have unmarked : (s.lineAt s.tb.lineStartAt).unmark.slot i = s.unmark.slot i := by
    rw [State.unmark_slot, State.unmark_slot]
    rfl
  have converted : s.reconverted.slot i =
      ((s.lineAt s.tb.lineStartAt).unmark.latch.slot i).convert s.reconverted.tb.latched := by
    rw [State.reconverted, State.blankingStep_slot, State.convertStep, State.mapSlots_slot]
    rfl
  rw [converted, State.latch_slot, unmarked]

/-- A CUT that comes at a field start leaves the timebase's own work of it, and latches anew. -/
theorem State.recutFieldStart_timebase (s : State) :
    s.recutFieldStart.tb.latched =
        { scale := s.tb.setScale, trim := s.tb.setTrim, h := s.tb.h, v := s.tb.v, standard := s.tb.standard } ∧
      s.recutFieldStart.keyer.cutBlanking = 2 ∧ s.recutFieldStart.events.timebase = s.events.timebase ∧
      LineMadeUnder s.recutFieldStart := by
  obtain ⟨-, -, -, flag, -⟩ := s.recutFieldStart_windows
  have latched (u : State) : u.latch.tb.latched =
      { scale := u.tb.setScale, trim := u.tb.setTrim, h := u.tb.h, v := u.tb.v, standard := u.tb.standard } := rfl
  have blanked (u : State) : (u.blankingStep true).keyer.cutBlanking = 2 := rfl
  refine ⟨?_, ?_, ?_, ?_⟩
  · simp [State.recutFieldStart_eq, State.reconverted, latched]
  · simp [State.recutFieldStart_eq, State.reconverted, blanked]
  · rw [flag]
    show (s.lineAt s.tb.lineStartAt).unmark.events.timebase = s.events.timebase
    unfold State.unmark
    split <;> rfl
  · refine LineMadeUnder_congr (s.lineAt_madeUnder s.tb.lineStartAt) ⟨?_, ?_, ?_⟩ (by simp) (by simp) (by simp) ?_
    · simp [State.recutFieldStart_eq, State.reconverted]
    · simp [State.recutFieldStart_eq, State.reconverted]
    · simp [State.recutFieldStart_eq, State.reconverted]
    · have program : s.recutFieldStart.tb.program = s.tb.program := by simp
      rw [State.programCtx, program]
      cases e : s.tb.program <;> simp [State.programCtx, State.ctx, e]

/-- Where SWITCHING is clear the held SELECT is then examined, and else it waits on. -/
theorem State.recutFieldStart_heldSelect (s : State) :
    (s.tb.heldSelect = none →
      s.recutFieldStart.tb.heldSelect = none ∧ s.recutFieldStart.tb.switch = s.tb.switch ∧
        s.recutFieldStart.cmd = s.cmd) ∧
    (s.tb.switch ≠ .none →
      s.recutFieldStart.tb.heldSelect = s.tb.heldSelect ∧ s.recutFieldStart.tb.switch = s.tb.switch) ∧
    ∀ q, s.tb.heldSelect = some q → s.tb.switch = .none → HeldSelectAfter s .none q s.recutFieldStart := by
  have frame : s.reconverted.engineStep.tb.heldSelect = s.tb.heldSelect ∧
      s.reconverted.engineStep.tb.switch = s.tb.switch ∧ s.reconverted.engineStep.cmd = s.cmd := by
    simp [State.reconverted]
  obtain ⟨held, switch, cmd⟩ := frame
  rw [State.recutFieldStart_eq]
  refine ⟨fun none => ?_, fun flight => ?_, fun q waits idle => ?_⟩
  · rw [State.settleHeldSelect_none (held.trans none)]
    exact ⟨held.trans none, switch, cmd⟩
  · rw [State.settleHeldSelect_waiting fun _ _ => by rwa [switch]]
    exact ⟨held, switch⟩
  · refine (State.settleHeldSelect_examines (switch.trans idle) (held.trans waits)).congr (by simp [State.reconverted])
      fun _ => ?_
    refine selectVerdict_congr (by simp [State.reconverted]) (fun y => ?_) (by simp [State.reconverted])
      (by simp [State.reconverted]) switch.symm _ _ _
    cases y <;> simp [State.reconverted, State.ctx]

theorem State.cutSwitch_justStarted_made (standard : (s.takeInput x).tb.standard = std) (fresh : s.tb.linesRun = 0)
    (reference : (s.ctx x).reference = some s.tb.lineStartAt) :
    CutMade s x s.tb.lineStartAt std (s.cutSwitch x) := by
  have taken := State.cutTo_taken standard
  obtain ⟨latched, blanking, timebase, line⟩ := (s.cutTo x).recutFieldStart_timebase
  obtain ⟨descs, silo, -⟩ := (s.cutTo x).recutFieldStart_windows
  obtain ⟨free, flight, examined⟩ := (s.cutTo x).recutFieldStart_heldSelect
  have frame := (s.cutTo x).recutFieldStart_tbFrame
  have held : (s.cutTo x).tb.heldSelect = s.tb.heldSelect := by simp
  rw [State.cutSwitch_justStarted fresh reference]
  generalize (s.cutTo x).recutFieldStart = f at *
  obtain ⟨hState, hStandard, hProgram, hH, hV, hPeriod, -, -, -, -, -, hRun, -, hStart, -⟩ := frame
  exact {
    program := hProgram.trans taken.program
    standard := hStandard.trans taken.standard
    h := hH.trans taken.h
    v := hV.trans taken.v
    linesRun := hRun.trans (by simp [fresh])
    lineStartAt := hStart.trans (by simp)
    parity := rfl
    latched := latched.trans (by simp [taken.h, taken.v, taken.standard])
    blanking := blanking
    descs := descs
    silo := silo
    line := line
    state := hState
    runPeriod := hPeriod
    timebase := timebase
    unheld := fun none => by
      obtain ⟨stays, switch, -⟩ := free (held.trans none)
      exact ⟨stays, switch⟩
    flight := fun made => by
      obtain ⟨-, switch⟩ := flight made
      exact switch
    examined := fun q waits idle => examined q (held.trans waits) idle }

/-- The conversion of a converted record as it was marked before a conversion that is superseded (R87, R112): CONVERT
and LATE stand where they are marked too, and CONVERT is set against the marked off-raster history. -/
theorem Slot.unmark_convert {r m : Slot} {cp : Copy} (v : Latched) (converted : r.state.converted = true)
    (active : r.active = some cp) :
    ((r.unmark m).convert v).geometry = derive cp v ∧
      (((r.unmark m).convert v).attention.late = true ↔ r.attention.late = true ∧ m.attention.late = true) ∧
      (((r.unmark m).convert v).attention.convert = true ↔
        (r.attention.convert = true ∧ m.attention.convert = true) ∨
          (cp[1].getLsbD 4 = true ∧ cp[1].getLsbD 6 = false ∧ (derive cp v).offRaster = true ∧
            m.geometry.offRaster = false)) := by
  have again : (r.unmark m).convert v =
      { r with
        geometry := derive cp v
        attention :=
          if cp.strict && (derive cp v).offRaster && !m.geometry.offRaster && !cp.quiet then
            (r.attention.meet m.attention).set .convert
          else r.attention.meet m.attention } := by
    simp [Slot.convert, Slot.unmark, active, converted, convertRaised]
  rw [again]
  refine ⟨rfl, ?_, ?_⟩
  · dsimp only
    split <;> simp [Attention.set, Attention.meet]
  · dsimp only
    split
    · next raised =>
      simp only [Copy.strict, Copy.quiet, Bool.and_eq_true, Bool.not_eq_true'] at raised
      obtain ⟨⟨⟨strict, off⟩, history⟩, loud⟩ := raised
      exact iff_of_true rfl (.inr ⟨strict, loud, off, history⟩)
    · next quiet =>
      simp only [Copy.strict, Copy.quiet, Bool.and_eq_true, Bool.not_eq_true'] at quiet
      refine ⟨fun both => .inl (by simpa [Attention.meet] using both), ?_⟩
      rintro (both | ⟨strict, loud, off, history⟩)
      · simpa [Attention.meet] using both
      · exact absurd ⟨⟨⟨strict, off⟩, history⟩, loud⟩ quiet

/-- The records that a CUT at a field start leaves: as they were marked, and converted anew. -/
theorem State.cutSwitch_slot {m : FieldMarks} (fresh : s.tb.linesRun = 0)
    (reference : (s.ctx x).reference = some s.tb.lineStartAt) (marks : s.marks = some m) (i : SlotId) :
    (s.cutSwitch x).slot i = ((s.slot i).unmark m.records[i]).convert (s.cutSwitch x).tb.latched := by
  obtain ⟨-, -, slots, -⟩ := (s.cutTo x).recutFieldStart_windows
  have slot : (s.cutTo x).recutFieldStart.slot i = (s.cutTo x).reconverted.slot i := by rw [State.slot, slots]; rfl
  have latched : (s.cutTo x).reconverted.tb.latched = (s.cutTo x).recutFieldStart.tb.latched := by
    simp [State.recutFieldStart_eq]
  have unmarked : (s.cutTo x).unmark.slot i = (s.slot i).unmark m.records[i] := by
    have marked : (s.cutTo x).marks = some m := by simp [marks]
    have stands : (s.cutTo x).slot i = s.slot i := by simp [State.slot]
    rw [State.unmark_slot, marked, ← stands]
  rw [State.reconverted_slot, unmarked, latched] at slot
  rw [State.cutSwitch_justStarted fresh reference]
  exact slot

/-- WINDOW under a CUT at a field start: it stands where it is marked too (R171, log 16). -/
theorem State.cutSwitch_window {m : FieldMarks} (standard : (s.takeInput x).tb.standard = std)
    (fresh : s.tb.linesRun = 0) (reference : (s.ctx x).reference = some s.tb.lineStartAt) (marks : s.marks = some m)
    (marked : m.window = true) (window : s.events.window = true) : (s.cutSwitch x).events.window = true := by
  obtain ⟨-, -, -, -, recut⟩ := (s.cutTo x).recutFieldStart_windows
  have same : (s.cutTo x).marks = some m := by simp [marks]
  have stands : (s.cutTo x).events.window = true := (State.cutTo_taken standard).window.trans window
  have unmarked : ((s.cutTo x).lineAt (s.cutTo x).tb.lineStartAt).unmark.events.window = true := by
    have lined : ((s.cutTo x).lineAt (s.cutTo x).tb.lineStartAt).marks = some m := same
    unfold State.unmark
    rw [lined]
    exact Bool.and_eq_true_iff.2 ⟨stands, marked⟩
  rw [State.cutSwitch_justStarted fresh reference]
  refine recut.trans ?_
  exact Bool.or_eq_true_iff.2 (.inl unmarked)

/-- A CUT at a field start leaves that field start's other work (R150). -/
theorem State.cutSwitch_justStarted_frame (fresh : s.tb.linesRun = 0)
    (reference : (s.ctx x).reference = some s.tb.lineStartAt) :
    (s.cutSwitch x).tb.fieldCounter = s.tb.fieldCounter ∧ (s.cutSwitch x).stack = s.stack ∧
      (s.cutSwitch x).held = s.held ∧ (s.cutSwitch x).guard = s.guard ∧
      (s.tb.heldSelect = none → (s.cutSwitch x).cmd = s.cmd) := by
  obtain ⟨free, -⟩ := (s.cutTo x).recutFieldStart_heldSelect
  have held : (s.cutTo x).tb.heldSelect = s.tb.heldSelect := by simp
  have cmd : (s.cutTo x).cmd = s.cmd := by simp
  have kept : (s.cutTo x).recutFieldStart.tb.fieldCounter = s.tb.fieldCounter ∧
      (s.cutTo x).recutFieldStart.stack = s.stack ∧ (s.cutTo x).recutFieldStart.held = s.held ∧
      (s.cutTo x).recutFieldStart.guard = s.guard := by simp
  obtain ⟨counter, stack, request, guard⟩ := kept
  rw [State.cutSwitch_justStarted fresh reference]
  refine ⟨counter, stack, request, guard, fun none => ?_⟩
  obtain ⟨-, -, stands⟩ := free (held.trans none)
  exact stands.trans cmd

end

/-! ### A CUT, whenever it comes -/

section
variable {s : State} {x : Input} {std : Standard} {r : Nat}

theorem State.cutSwitch_made (standard : (s.takeInput x).tb.standard = std) (reference : (s.ctx x).reference = some r) :
    CutMade s x r std (s.cutSwitch x) := by
  by_cases partway : s.tb.linesRun ≠ 0 ∨ s.tb.lineStartAt ≠ r
  · exact State.cutSwitch_partway_made standard reference partway
  · obtain ⟨fresh, rfl⟩ : s.tb.linesRun = 0 ∧ s.tb.lineStartAt = r := by omega
    exact State.cutSwitch_justStarted_made standard fresh reference

/-- The timebase that judges a SELECT held at a switch: the new input, its standard, and the state entered. -/
def State.judging (s : State) (x : Input) (std : Standard) (state : TimebaseState) : State :=
  { s with tb := { s.tb with state := state, standard := std, program := x, switch := .none } }

/-- A CUT to a LOCKED input (R150): FOLLOW, TIMEBASE set, and a held SELECT examined at once. -/
theorem CutMade.locked {t : State} (made : CutMade s x r std t) (standard : (s.takeInput x).tb.standard = std)
    (locked : (s.ctx x).lock = .locked) :
    t.tb.state = .follow ∧ t.events.timebase = true ∧
      (s.tb.heldSelect = none → t.tb.heldSelect = none ∧ t.tb.switch = .none) ∧
      ∀ q, s.tb.heldSelect = some q → HeldSelectAfter (s.judging x std .follow) .none q t := by
  obtain ⟨-, -, -, -, -, -, -, -, -, -, -, -, state, -, timebase, free, -, examined⟩ := made
  rw [State.cutTo_locked standard locked] at state timebase free examined
  refine ⟨state, timebase, free, fun q waits => ?_⟩
  exact (examined q waits rfl).congr rfl fun _ => selectVerdict_congr rfl (fun _ => rfl) rfl rfl rfl _ _ _

/-- A CUT to an input that is not LOCKED (R150): COAST at its measured line period, with the switch made. -/
theorem CutMade.unlocked {t : State} (made : CutMade s x r std t) (standard : (s.takeInput x).tb.standard = std)
    (unlocked : (s.ctx x).lock ≠ .locked) :
    t.tb.state = .coast ∧ t.tb.switch = .made ∧ t.tb.runPeriod = (s.ctx x).period.getD s.tb.runPeriod ∧
      t.events.timebase = (s.events.timebase || decide (s.tb.state ≠ .coast)) ∧
      (s.tb.heldSelect = none → t.tb.heldSelect = none) := by
  obtain ⟨-, -, -, -, -, -, -, -, -, -, -, -, state, period, timebase, free, flight, -⟩ := made
  rw [State.cutTo_unlocked standard unlocked] at state period timebase free flight
  refine ⟨state, flight nofun, period, timebase, fun none => ?_⟩
  obtain ⟨stays, -⟩ := free none
  exact stays

/-- A held SELECT at a CUT to an input that is not LOCKED is counted at the CUT's own field start, and waits on where
the CUT makes none (R150, R153). -/
theorem State.cutSwitch_unlocked_held (standard : (s.takeInput x).tb.standard = std)
    (reference : (s.ctx x).reference = some r) (unlocked : (s.ctx x).lock ≠ .locked) :
    (∀ q, s.tb.heldSelect = some q → s.tb.linesRun ≠ 0 ∨ s.tb.lineStartAt ≠ r →
        HeldSelectAfter (s.judging x std .coast) .made q (s.cutSwitch x)) ∧
      (s.tb.linesRun = 0 → s.tb.lineStartAt = r → (s.cutSwitch x).tb.heldSelect = s.tb.heldSelect) := by
  refine ⟨fun q waits partway => ?_, fun fresh start => ?_⟩
  · obtain ⟨-, after⟩ := State.cutAt_heldSelect (State.cutTo_taken standard).steady
    have judged := after q waits
    rw [State.cutTo_unlocked standard unlocked] at judged
    rw [State.cutSwitch_partway reference partway]
    generalize (s.cutAt x).fieldStart true = f at *
    exact judged.congr rfl nofun
  · subst start
    obtain ⟨-, flight, -⟩ := (s.cutTo x).recutFieldStart_heldSelect
    have held : (s.cutTo x).tb.heldSelect = s.tb.heldSelect := by simp
    have made : (s.cutTo x).tb.switch ≠ .none := by
      rw [State.cutTo_unlocked standard unlocked]
      exact nofun
    obtain ⟨stays, -⟩ := flight made
    rw [State.cutSwitch_justStarted fresh reference]
    exact stays.trans held

theorem exec_cutSwitch_scheduled (scheduled : s.tb.switch = .scheduled x .cut) :
    exec .cutSwitch s = .next (s.cutSwitch x) := by
  show execCutSwitch s = _
  unfold execCutSwitch
  rw [scheduled]

end

end Sys2Proof.Machine
end

section
/-! The SLEW switch (section 9.7), and the line start of the scheduled input that makes a switch (section 9.6). -/

namespace Sys2Proof.Machine

/-! ### The timebase after a SLEW switch (R151) -/

section
variable {s : State} {x : Input} {std : Standard} {tb : Timebase}

theorem State.takeInput_eq (standard : (s.takeInput x).tb.standard = std) :
    s.takeInput x = { s with tb := { s.tb with program := x, standard := std } } := by
  rw [← standard]
  rfl

/-- A SLEW switch to an input that is not LOCKED enters COAST at that input's measured line period, with the residuals
measured against it. -/
theorem State.slewTo_unlocked (standard : (s.takeInput x).tb.standard = std)
    (measured : tb = { s.tb with standard := std })
    (unlocked : (s.ctx x).lock ≠ .locked) :
    s.slewTo x = { s with
      tb := { s.tb with
        program := x, standard := std, h := tb.measureH (s.ctx x), v := tb.measureV (s.ctx x)
        state := .coast, switch := .made
        runPeriod := (s.ctx x).period.getD s.tb.runPeriod, lineFollows := false }
      events := { s.events with timebase := s.events.timebase || decide (s.tb.state ≠ .coast) } } := by
  subst measured
  unfold State.slewTo
  rw [State.takeInput_eq standard, if_neg unlocked]
  rfl

/-- The timebase that a SLEW switch to a LOCKED input enters SLEW or FOLLOW with. -/
def Timebase.slewing (tb : Timebase) (x : Input) (c : LockContext) : Timebase :=
  { tb.measure c with program := x, switch := .made, lineFollows := false }

theorem State.slewTo_locked (standard : (s.takeInput x).tb.standard = std)
    (measured : tb = { s.tb with standard := std })
    (locked : (s.ctx x).lock = .locked) :
    s.slewTo x = { s with tb := tb.slewing x (s.ctx x) }.slewOrFollow := by
  subst measured
  unfold State.slewTo
  rw [State.takeInput_eq standard, if_pos locked]
  rfl

/-- With a residual to take off it enters SLEW, with the switch made. -/
theorem State.slewTo_slews (standard : (s.takeInput x).tb.standard = std)
    (measured : tb = { s.tb with standard := std })
    (locked : (s.ctx x).lock = .locked) (off : tb.measureH (s.ctx x) ≠ 0 ∨ tb.measureV (s.ctx x) ≠ 0) :
    s.slewTo x = { s with
      tb := { tb.slewing x (s.ctx x) with state := .slew }
      events := { s.events with timebase := s.events.timebase || decide (s.tb.state ≠ .slew) } } := by
  have some : ¬((tb.slewing x (s.ctx x)).h = 0 ∧ (tb.slewing x (s.ctx x)).v = 0) :=
    fun ⟨h, v⟩ => off.elim (absurd h) (absurd v)
  rw [State.slewTo_locked standard measured locked, State.slewOrFollow, if_neg some, measured]
  rfl

/-- With no residual it enters FOLLOW, with the switch over. -/
theorem State.slewTo_follows (standard : (s.takeInput x).tb.standard = std)
    (measured : tb = { s.tb with standard := std })
    (locked : (s.ctx x).lock = .locked) (h : tb.measureH (s.ctx x) = 0) (v : tb.measureV (s.ctx x) = 0) :
    s.slewTo x = { s with
      tb := { tb.slewing x (s.ctx x) with state := .follow, switch := .none }
      events := { s.events with timebase := s.events.timebase || decide (s.tb.state ≠ .follow) } } := by
  have both : (tb.slewing x (s.ctx x)).h = 0 ∧ (tb.slewing x (s.ctx x)).v = 0 := ⟨h, v⟩
  rw [State.slewTo_locked standard measured locked, State.slewOrFollow, if_pos both, measured]
  rfl

/-- What a SLEW switch makes of the timebase, whichever state it enters. -/
theorem State.slewTo_taken (standard : (s.takeInput x).tb.standard = std)
    (measured : tb = { s.tb with standard := std }) :
    (s.slewTo x).tb.program = x ∧ (s.slewTo x).tb.standard = std ∧ (s.slewTo x).tb.h = tb.measureH (s.ctx x) ∧
      (s.slewTo x).tb.v = tb.measureV (s.ctx x) ∧ (s.slewTo x).tb.lineFollows = false := by
  by_cases locked : (s.ctx x).lock = .locked
  · by_cases off : tb.measureH (s.ctx x) ≠ 0 ∨ tb.measureV (s.ctx x) ≠ 0
    · rw [State.slewTo_slews standard measured locked off, measured]
      exact ⟨rfl, rfl, rfl, rfl, rfl⟩
    · obtain ⟨h, v⟩ : tb.measureH (s.ctx x) = 0 ∧ tb.measureV (s.ctx x) = 0 := by omega
      rw [State.slewTo_follows standard measured locked h v, measured]
      exact ⟨rfl, rfl, rfl, rfl, rfl⟩
  · rw [State.slewTo_unlocked standard measured locked]
    exact ⟨rfl, rfl, rfl, rfl, rfl⟩

/-! ### The SLEW switch (R151, R153) -/

/-- While the switch is in flight a held SELECT waits on, and the host sees nothing but the events. -/
theorem State.slewSwitch_flight (standard : (s.takeInput x).tb.standard = std)
    (measured : tb = { s.tb with standard := std })
    (flight : (s.ctx x).lock ≠ .locked ∨ tb.measureH (s.ctx x) ≠ 0 ∨ tb.measureV (s.ctx x) ≠ 0) :
    (s.slewSwitch x).tb.switch = .made ∧ (s.slewSwitch x).tb.heldSelect = s.tb.heldSelect ∧
      SameHostSide s (s.slewSwitch x) := by
  have made : (s.slewTo x).tb.switch = .made := by
    by_cases locked : (s.ctx x).lock = .locked
    · rw [State.slewTo_slews standard measured locked (flight.resolve_left (not_not_intro locked))]
      rfl
    · rw [State.slewTo_unlocked standard measured locked]
  have waits : s.slewSwitch x = s.slewTo x :=
    State.settleHeldSelect_waiting fun _ _ => by rw [made]; exact nofun
  rw [waits]
  exact ⟨made, by simp, by simp [SameHostSide]⟩

theorem State.slewSwitch_slews (standard : (s.takeInput x).tb.standard = std)
    (measured : tb = { s.tb with standard := std }) (locked : (s.ctx x).lock = .locked)
    (off : tb.measureH (s.ctx x) ≠ 0 ∨ tb.measureV (s.ctx x) ≠ 0) :
    (s.slewSwitch x).tb.state = .slew ∧
      (s.slewSwitch x).events.timebase = (s.events.timebase || decide (s.tb.state ≠ .slew)) := by
  have state : (s.slewSwitch x).tb.state = (s.slewTo x).tb.state := by simp [State.slewSwitch]
  rw [state, State.slewSwitch, State.settleHeldSelect_timebaseFlag,
    State.slewTo_slews standard measured locked off]
  exact ⟨rfl, rfl⟩

theorem State.slewSwitch_coasts (standard : (s.takeInput x).tb.standard = std) (unlocked : (s.ctx x).lock ≠ .locked) :
    (s.slewSwitch x).tb.state = .coast ∧ (s.slewSwitch x).tb.parity = s.tb.parity ∧
      (s.slewSwitch x).tb.runPeriod = (s.ctx x).period.getD s.tb.runPeriod ∧
      (s.slewSwitch x).events.timebase = (s.events.timebase || decide (s.tb.state ≠ .coast)) := by
  have settled : (s.slewSwitch x).tb.state = (s.slewTo x).tb.state ∧
      (s.slewSwitch x).tb.parity = (s.slewTo x).tb.parity ∧
      (s.slewSwitch x).tb.runPeriod = (s.slewTo x).tb.runPeriod := by simp [State.slewSwitch]
  obtain ⟨state, parity, period⟩ := settled
  rw [state, parity, period, State.slewSwitch, State.settleHeldSelect_timebaseFlag,
    State.slewTo_unlocked standard rfl unlocked]
  exact ⟨rfl, rfl, rfl, rfl⟩

theorem State.slewSwitch_follows (standard : (s.takeInput x).tb.standard = std)
    (measured : tb = { s.tb with standard := std }) (locked : (s.ctx x).lock = .locked)
    (h : tb.measureH (s.ctx x) = 0) (v : tb.measureV (s.ctx x) = 0) :
    (s.slewSwitch x).tb.state = .follow ∧
      (s.slewSwitch x).events.timebase = (s.events.timebase || decide (s.tb.state ≠ .follow)) ∧
      (s.tb.heldSelect = none → (s.slewSwitch x).tb.heldSelect = none ∧ (s.slewSwitch x).tb.switch = .none) ∧
      ∀ q, s.tb.heldSelect = some q → HeldSelectAfter (s.judging x std .follow) .none q (s.slewSwitch x) := by
  have state : (s.slewSwitch x).tb.state = (s.slewTo x).tb.state := by simp [State.slewSwitch]
  have held : (s.slewTo x).tb.heldSelect = s.tb.heldSelect := by simp
  have follows := State.slewTo_follows standard measured locked h v
  have idle : (s.slewTo x).tb.switch = .none := by rw [follows]
  refine ⟨?_, ?_, fun none => ?_, fun q waits => ?_⟩
  · rw [state, follows]
  · rw [State.slewSwitch, State.settleHeldSelect_timebaseFlag, follows]
  · rw [State.slewSwitch, State.settleHeldSelect_none (held.trans none)]
    exact ⟨held.trans none, idle⟩
  · refine (State.settleHeldSelect_examines idle (held.trans waits)).congr ?_ fun _ => ?_
    · rw [follows]
      rfl
    · rw [follows, measured]
      exact selectVerdict_congr rfl (fun _ => rfl) rfl rfl rfl _ _ _

theorem exec_slewSwitch_scheduled (scheduled : s.tb.switch = .scheduled x .slew) :
    exec .slewSwitch s = .next (s.slewSwitch x) := by
  show execSlewSwitch s = _
  unfold execSlewSwitch
  rw [scheduled]

end

/-! ### The line start that makes a scheduled switch (R137, R149) -/

section
variable {s : State} {x : Input} {mode : SwitchMode} {c : LockContext}

/-- A scheduled input that stays LOCKED or in HOLDOVER, or comes there, moves neither the program nor the switch: LOCK
is set where its lock state changes. -/
def State.scheduledMoves (s : State) (x : Input) (c : LockContext) : State :=
  { s.setCtx x c with events := { s.events with lock := s.events.lock || decide (c.lock ≠ (s.ctx x).lock) } }

theorem State.scheduledMoves_ctx : (s.scheduledMoves x c).ctx x = c := by
  cases x <;> rfl

theorem State.scheduledMoves_tb : (s.scheduledMoves x c).tb = s.tb := by
  simp [State.scheduledMoves]

theorem State.lockChanged_scheduled (other : x ≠ s.tb.program) (running : c.lock = .locked ∨ c.lock = .holdover) :
    (s.setCtx x c).lockChanged x (s.ctx x).lock = s.scheduledMoves x c := by
  have found : ¬(c.lock = .hunt ∨ c.lock = .noSignal) := by
    rcases running with e | e <;> simp [e]
  unfold State.lockChanged
  dsimp only
  rw [State.setCtx_same, if_neg found]
  split
  · next same =>
    cases x <;> simp [State.scheduledMoves, State.setCtx, same]
  · next changed =>
    have elsewhere : x ≠ (s.setCtx x c).tb.program := by simpa using other
    rw [if_neg elsewhere]
    cases x <;> simp [State.scheduledMoves, State.setCtx, State.signalLock, changed]

/-- A scheduled switch is made at the Feed vertical sync of its input. -/
theorem State.handOn_scheduled (scheduled : s.tb.switch = .scheduled x mode) : s.handOn x = s.makeSwitch x mode := by
  unfold State.handOn
  rw [scheduled]
  exact if_pos rfl

theorem State.cutSwitch_waits (s : State) (x : Input) : HeldSelectWaits (s.cutSwitch x) := by
  have parity {u : State} {p : Parity} (waits : HeldSelectWaits u) :
      HeldSelectWaits { u with tb := { u.tb with parity := p } } := waits
  unfold State.cutSwitch
  dsimp only
  split
  · exact parity (State.settleHeldSelect_waits _)
  · exact parity (State.fieldStart_heldSelect _ _).waits

theorem State.makeSwitch_waits (s : State) (x : Input) (mode : SwitchMode) : HeldSelectWaits (s.makeSwitch x mode) := by
  cases mode with
  | cut => exact s.cutSwitch_waits x
  | slew => exact State.settleHeldSelect_waits _

/-- What an event of a scheduled input hands on, where the input is LOCKED or in HOLDOVER after it. -/
theorem State.tracked_scheduled {T : Tracked} (other : x ≠ s.tb.program) (scheduled : s.tb.switch = .scheduled x mode)
    (running : T.ctx.lock = .locked ∨ T.ctx.lock = .holdover) :
    s.tracked x T =
      if T.vsync then (s.scheduledMoves x T.ctx).makeSwitch x mode else s.scheduledMoves x T.ctx := by
  have switch : (s.scheduledMoves x T.ctx).tb.switch = .scheduled x mode := by
    rw [State.scheduledMoves_tb, scheduled]
  have elsewhere : x ≠ (s.scheduledMoves x T.ctx).tb.program := by rwa [State.scheduledMoves_tb]
  unfold State.tracked
  dsimp only
  rw [State.lockChanged_scheduled other running, State.followLine_stands (.inr (.inl elsewhere))]
  split
  · rw [State.handOn_scheduled switch, State.settleHeldSelect_waiting (State.makeSwitch_waits _ _ _)]
  · refine State.settleHeldSelect_waiting fun _ _ => ?_
    rw [switch]
    exact nofun

end

section
variable {s t : State} {e : Instr} {x : Input} {mode : SwitchMode}

/-- Where nothing of the scheduled input changes, nothing moves. -/
theorem State.scheduledMoves_self (s : State) (x : Input) : s.scheduledMoves x (s.ctx x) = s := by
  cases x <;> simp [State.scheduledMoves, State.setCtx, State.ctx]

/-- A line start of a scheduled input that leaves it LOCKED or in HOLDOVER makes the switch where it brings the line
number to 0, and else does no more than move its context and set LOCK (R137, R138, R149). -/
theorem LineEventOf.scheduled (line : LineEventOf x e) (ran : exec e s = .next t) (other : x ≠ s.tb.program)
    (scheduled : s.tb.switch = .scheduled x mode) (running : (t.ctx x).lock = .locked ∨ (t.ctx x).lock = .holdover) :
    (t.ctx x ≠ s.ctx x → (t.ctx x).line = 0 →
      t = ({ s with now := t.now }.scheduledMoves x (t.ctx x)).makeSwitch x mode) ∧
    (t.ctx x = s.ctx x ∨ (t.ctx x).line ≠ 0 → t = { s with now := t.now }.scheduledMoves x (t.ctx x)) := by
  rcases line.tracks ran with rfl | ⟨time, T, tracks, rfl⟩
  · refine ⟨fun changed => absurd rfl changed, fun _ => ?_⟩
    exact (t.scheduledMoves_self x).symm
  · have now : ((s.clockAt time).tracked x T).now = (s.clockAt time).now := by
      obtain ⟨now, -⟩ := (s.clockAt time).tracked_frame x T
      exact now
    have clock : { s with now := (s.clockAt time).now } = s.clockAt time := rfl
    rw [State.tracked_same] at running ⊢
    rw [now, clock, State.tracked_scheduled (s := s.clockAt time) other scheduled running]
    rcases tracks.handsOn running with ⟨same, quiet⟩ | ⟨changed, vsync⟩
    · exact ⟨fun moved => absurd same moved, fun _ => by simp [quiet]⟩
    · refine ⟨fun _ top => by simp [vsync, top], fun stays => ?_⟩
      have below : T.ctx.line ≠ 0 := stays.resolve_left changed
      simp [vsync, below]

end

/-- Settles O54: by the line starts of the scheduled input, which hand on a Feed vertical sync exactly at line 0, and by
what each switch makes of the timebase, before and after the field start of a CUT. -/
theorem switchesAreMade : Obligations.SwitchesAreMade := by
  refine ⟨fun s t w e x mode line ran other scheduled running moved => ?_,
    fun s x r std reference free runs => ⟨fun scheduled => ?_, fun h v tb scheduled measured hAt vAt => ?_⟩⟩
  · obtain ⟨made, stands⟩ := line.scheduled ran other scheduled running
    have same : w = { s with now := t.now }.scheduledMoves x (t.ctx x) := by
      rw [moved]
      cases x <;> rfl
    rw [← same] at made stands
    have waiting : w.tb.switch = .scheduled x mode := by rw [same, State.scheduledMoves_tb, scheduled]
    refine ⟨fun changed top => ?_, stands⟩
    rw [made changed top]
    cases mode with
    | cut => exact exec_cutSwitch_scheduled waiting
    | slew => exact exec_slewSwitch_scheduled waiting
  · have standard := State.takeInput_standard free runs
    have made := State.cutSwitch_made standard reference
    obtain ⟨-, -, feedA, feedB, port, mask, -⟩ := s.cutSwitch_frame x
    refine ⟨s.cutSwitch x, exec_cutSwitch_scheduled scheduled, made.program, made.standard, made.h, made.v,
      made.linesRun, made.lineStartAt, made.parity, made.latched, made.blanking, made.descs, made.silo, made.line,
      feedA, feedB, port, mask, fun partway => ?_, fun fresh start => ?_, made.locked standard, fun unlocked => ?_⟩
    · exact State.cutSwitch_field standard reference partway
    · subst start
      obtain ⟨counter, stack, held, guard, cmd⟩ := State.cutSwitch_justStarted_frame fresh reference
      refine ⟨counter, stack, held, guard, cmd, fun m marks => State.cutSwitch_window standard fresh reference marks,
        fun m i cp marks converted active => ?_⟩
      rw [State.cutSwitch_slot fresh reference marks]
      obtain ⟨geometry, late, convert⟩ :=
        Slot.unmark_convert (m := m.records[i]) (s.cutSwitch x).tb.latched converted active
      refine ⟨geometry, late, ?_⟩
      rw [geometry]
      exact convert
    · obtain ⟨state, switch, period, timebase, unheld⟩ := made.unlocked standard unlocked
      obtain ⟨counted, stays⟩ := State.cutSwitch_unlocked_held standard reference unlocked
      exact ⟨state, switch, period, timebase, unheld, counted, stays⟩
  · subst hAt vAt
    have standard := State.takeInput_standard free runs
    have taken : (s.slewSwitch x).tb.program = x ∧ (s.slewSwitch x).tb.standard = std ∧
        (s.slewSwitch x).tb.h = tb.measureH (s.ctx x) ∧ (s.slewSwitch x).tb.v = tb.measureV (s.ctx x) ∧
        (s.slewSwitch x).tb.lineFollows = false := by
      simpa [State.slewSwitch] using State.slewTo_taken standard measured
    obtain ⟨program, standard', h, v, own⟩ := taken
    refine ⟨s.slewSwitch x, exec_slewSwitch_scheduled scheduled, program, standard', h, v, ?_, ?_, ?_, ?_, own, ?_, ?_,
      ?_, ?_, ?_, ?_, ?_, ?_, ?_, ?_, ?_, ?_, State.slewSwitch_flight standard measured,
      State.slewSwitch_slews standard measured, State.slewSwitch_coasts standard,
      State.slewSwitch_follows standard measured⟩
    all_goals simp [State.slewSwitch, SameTable]

end Sys2Proof.Machine
end

section
/-! The law of READY over every step (R158): at most one command is in progress, and READY is clear exactly while one
is. -/

namespace Sys2Proof.Machine

/-- While READY is set no command is in progress. -/
theorem ReadyLaw_ready {s : State} (h : ReadyLaw s) (ready : s.cmd.ready = true) :
    s.held = none ∧ s.tb.heldSelect = none ∧ s.port.transfer = none := by
  rw [ReadyLaw_iff] at h
  simp only [ready, Bool.true_eq_false, false_and, or_false, true_and] at h
  exact h

/-- A command taken completes, is held or starts a transfer; as READY was set, nothing else was in progress. -/
theorem State.taken_readyLaw {s : State} (hs : ReadyLaw s) (code : BitVec 5) (ie : Bool) (ha : Accepts s) :
    ReadyLaw (commandEffect s.guard.expired code (s.take code ie)) := by
  obtain ⟨held, select, transfer⟩ := ReadyLaw_ready hs ha.1
  exact commandEffect_readyLaw _ code _ (s.take_ready code ie) held select transfer

/-- The 48th field start of a held SELECT completes it, and nothing else was in progress (R153). -/
theorem State.timeoutHeld_readyLaw {s : State} (hs : ReadyLaw s) (waits : s.tb.heldSelect.isSome = true) :
    ReadyLaw s.timeoutHeld := by
  obtain ⟨q, waits⟩ := Option.isSome_iff_exists.1 waits
  obtain ⟨held, transfer⟩ := ReadyLaw_heldSelect hs waits
  exact ReadyLaw_idle rfl held rfl transfer

/-- The events of the inputs and the end of a computer line keep the law. -/
theorem State.timing_readyLaw {s : State} (hs : ReadyLaw s) :
    (∀ x, ReadyLaw (s.cutSwitch x)) ∧ (∀ x, ReadyLaw (s.slewSwitch x)) ∧ ReadyLaw s.computerLineEnd ∧
      (∀ x t, ReadyLaw (s.tracked x t)) :=
  State.timing_ind (fun _ _ retimed => retimed.readyLaw) State.fieldStart_readyLaw State.recutFieldStart_readyLaw
    State.settleHeldSelect_readyLaw s hs

/-- Every command keeps the law: a command taken comes into progress alone, what ends one completes it, the two resets
end all, and no other command touches READY or what is in progress. -/
theorem exec_readyLaw {c : Instr} {s t : State} (hs : ReadyLaw s) (h : exec c s = .next t) : ReadyLaw t := by
  obtain ⟨cuts, slews, lineEnd, -⟩ := State.timing_readyLaw hs
  refine exec_ind (P := ReadyLaw) h ?self ?powerOn ?busReset ?release ?overrun ?refuse ?taken ?stored ?flags ?mask
    ?pointer ?read ?readRefused ?written ?field ?adoption ?expiry ?autoRetire ?blink ?guard ?applyHeld ?timeout ?settle
    ?beginLine ?takingPoint ?grant ?answerMask ?answerImage ?acknowledge ?busTimeout ?tracked ?cut ?slew ?lineEnd
  case powerOn => exact fun _ => ReadyLaw_idle rfl rfl rfl rfl
  case busReset => exact ReadyLaw_idle rfl rfl rfl rfl
  case taken => exact State.taken_readyLaw hs
  case written =>
    intro _ _ _ hw
    have frame := State.writePointed_frame hw
    exact ReadyLaw_congr hs (by simp [frame]) (by simp [frame]) (by simp [frame]) (by simp [frame])
  case field => exact s.fieldStart_readyLaw false hs
  case applyHeld => exact s.applyHeld_readyLaw hs
  case timeout => exact State.timeoutHeld_readyLaw hs
  case settle => exact s.settleHeldSelect_readyLaw hs
  case answerImage => exact fun w => s.answerImage_readyLaw w hs
  case acknowledge => exact s.acknowledgeImage_readyLaw hs
  case busTimeout => exact s.busTimeout_readyLaw hs
  case tracked =>
    intro x time t _
    obtain ⟨-, -, -, tracks⟩ := State.timing_readyLaw (s := s.clockAt time) hs
    exact tracks x t
  case cut => exact fun x _ => cuts x
  case slew => exact fun x _ => slews x
  case lineEnd => exact lineEnd
  all_goals intros; exact ReadyLaw_congr hs (by simp) (by simp) (by simp) (by simp)

/-- Settles O8: every command keeps the law, and neither the queue nor the clock touches what it speaks of. -/
theorem stepKeepsReadyLaw : Obligations.StepKeepsReadyLaw :=
  step_keeps (fun _ _ _ hs h => exec_readyLaw hs h) (fun _ _ hs => hs) (fun _ hs => hs)

end Sys2Proof.Machine
end

section
/-! The command group of the register window: writes of its words, and the start of an image transfer (R154, R157,
R158, R164, R165, R167). -/

namespace Sys2Proof.Machine

/-! ### Writes (R154, R157, R158, R167) -/

section
variable {s : State}

/-- The command word written with READY set takes IE and the function field (R157). -/
theorem State.writeCommandWord_update {v : Word} (accepts : Accepts s) (update : v.getLsbD 7 = true) :
    s.writeCommandWord v = { s with cmd := { s.cmd with func := BitVec.ofNat 5 v.toNat, ie := v.getLsbD 5 } } := by
  simp [State.writeCommandWord, accepts.1, accepts.2, update, State.updateCommandWord]

theorem State.writeArgument_accepts (accepts : Accepts s) (store : CommandUnit → CommandUnit) :
    s.writeArgument store = { s with cmd := store s.cmd } := by
  simp [State.writeArgument, accepts.1, accepts.2]

/-- While READY is clear, a write of any word of the command group is an overrun (R158). -/
theorem State.writeGroup_overrun (busy : s.cmd.ready = false) (released : s.resetLine = false) (w : CommandGroup)
    (v : Word) : s.writeGroup w v = s.overrun := by
  cases w <;> simp [State.writeGroup, State.writeCommandWord, State.writeArgument, busy, released]

/-- While the computer's reset line is asserted, a write of any word of the command group is ignored (R167). -/
theorem State.writeGroup_held (held : s.resetLine = true) (w : CommandGroup) (v : Word) : s.writeGroup w v = s := by
  cases w <;> simp [State.writeGroup, State.writeCommandWord, State.writeArgument, held]

/-- A word that is not an argument is read-only: its write is ignored (R154). -/
theorem State.writePlain_readOnly {w : PlainWord} (v : Word) (arg0 : w ≠ .arg0) (arg1 : w ≠ .arg1)
    (arg2 : w ≠ .arg2) : s.writePlain w v = s := by
  cases w
  case arg0 => exact absurd rfl arg0
  case arg1 => exact absurd rfl arg1
  case arg2 => exact absurd rfl arg2
  all_goals rfl

theorem State.writePlain_held (held : s.resetLine = true) (w : PlainWord) (v : Word) : s.writePlain w v = s := by
  cases w
  case arg0 => exact State.writeGroup_held held .arg0 v
  case arg1 => exact State.writeGroup_held held .arg1 v
  case arg2 => exact State.writeGroup_held held .arg2 v
  all_goals rfl

end

/-- Settles O27: the writes of each group of words, by whether READY is set and the reset line asserted. -/
theorem commandGroupWrites : Obligations.CommandGroupWrites := by
  intro s v
  refine ⟨fun accepts => ⟨fun update => ?_, ?_, ?_, ?_⟩, fun busy released => ⟨fun w => ?_, ?_⟩,
    fun held => ⟨?_, fun w => ?_, fun w => ?_⟩, fun w arg0 arg1 arg2 => ?_⟩
  · exact congrArg _ (State.writeCommandWord_update accepts update)
  · exact congrArg _ (State.writeArgument_accepts accepts (fun u => { u with arg0 := v }))
  · exact congrArg _ (State.writeArgument_accepts accepts (fun u => { u with arg1 := v }))
  · exact congrArg _ (State.writeArgument_accepts accepts (fun u => { u with arg2 := v }))
  · exact congrArg _ (State.writeGroup_overrun busy released w v)
  · exact congrArg _ (State.writeGroup_overrun busy released .command v)
  · exact congrArg _ (State.writeGroup_held held .command v)
  · exact congrArg _ (State.writeGroup_held held w v)
  · exact congrArg _ (State.writePlain_held held w v)
  · exact congrArg _ (State.writePlain_readOnly v arg0 arg1 arg2)

/-! ### The start of an image transfer (R164, R165) -/

section
variable {s : State}

theorem startTransfer_bad (toMemory : Bool)
    (bad : 255 < s.cmd.arg0.toNat ∨ s.cmd.arg2 = 0#16 ∨ 576 < s.cmd.arg2.toNat) :
    startTransfer toMemory s = s.completeZero .badArgument := by
  refine if_neg fun inRange => ?_
  simp only [imageArguments, Bool.and_eq_true, decide_eq_true_eq, Config.imageWords] at inRange
  obtain ⟨⟨bank, words⟩, count⟩ := inRange
  rcases bad with bad | bad | bad
  · omega
  · simp [bad] at words
  · omega

/-- With words of a transfer left, the arbiter has an operation unless an owed mask word finds the silo full (R121). -/
theorem State.nextOperation_transfer {tr : Transfer} (transfer : s.port.transfer = some tr) (left : tr.left ≠ 0) :
    s.nextOperation.isSome = true ↔ s.engine.owed = none ∨ s.engine.silo.length < 16 := by
  cases owed : s.engine.owed with
  | none => simp [State.nextOperation, owed, transfer, left]
  | some word =>
    by_cases room : s.engine.silo.length + 1 ≤ Config.siloDepth
    · simp only [State.nextOperation, owed, if_pos room, Option.isSome_some, true_iff]
      exact .inr room
    · simp only [State.nextOperation, owed, if_neg room, Option.isSome_none, Bool.false_eq_true, reduceCtorEq, false_or,
        false_iff]
      exact room

/-- What the arbiter makes of the channel when words of a transfer are left: a channel with no operation in flight
requests the bus, or stands idle (R115, R121). -/
theorem State.arbitrate_transfer {tr : Transfer} (transfer : s.port.transfer = some tr) (left : tr.left ≠ 0) :
    s.arbitrate = { s with engine := { s.engine with channel :=
      if s.engine.channel = .idle ∨ s.engine.channel = .awaiting then
        if s.engine.owed = none ∨ s.engine.silo.length < 16 then .awaiting else .idle
      else s.engine.channel } } := by
  have same (c : Channel) (h : s.engine.channel = c) : { s with engine := { s.engine with channel := c } } = s := by
    rw [← h]
  have ready := State.nextOperation_transfer transfer left
  cases channel : s.engine.channel with
  | idle =>
    by_cases operation : s.engine.owed = none ∨ s.engine.silo.length < 16
    · simp [State.arbitrate, channel, ready, operation]
    · simp [State.arbitrate, channel, ready, operation, same _ channel]
  | awaiting =>
    by_cases operation : s.engine.owed = none ∨ s.engine.silo.length < 16
    · simp [State.arbitrate, channel, ready, operation, same _ channel]
    · simp [State.arbitrate, channel, ready, operation]
  | maskRead => simp [State.arbitrate, channel, same _ channel]
  | imageRead => simp [State.arbitrate, channel, same _ channel]
  | imageWrite => simp [State.arbitrate, channel, same _ channel]

theorem startTransfer_starts (toMemory : Bool) (bank : s.cmd.arg0.toNat ≤ 255) (words : 1 ≤ s.cmd.arg2.toNat)
    (count : s.cmd.arg2.toNat ≤ 576) : startTransfer toMemory s =
      { s with
        port := { s.port with transfer := some (StartedTransfer s toMemory) }
        engine := { s.engine with channel :=
          if s.engine.channel = .idle ∨ s.engine.channel = .awaiting then
            if s.engine.owed = none ∨ s.engine.silo.length < 16 then .awaiting else .idle
          else s.engine.channel } } := by
  have inRange : imageArguments s.cmd.arg0 s.cmd.arg2 = true := by
    simp [imageArguments, Config.imageWords, bank, words, count]
  have left : (StartedTransfer s toMemory).left ≠ 0 := Nat.ne_of_gt words
  exact (if_pos inRange).trans (State.arbitrate_transfer rfl left)

end

/-- Settles O26: the general checks, and the start of a transfer with the arbiter's work on its first word. -/
theorem imageTransfersStart : Obligations.ImageTransfersStart := by
  intro s ie accepts
  rw [exec_accepted (.imageIn ie) (fun _ => rfl) accepts, exec_accepted (.imageOut ie) (fun _ => rfl) accepts]
  refine ⟨fun bad => ⟨?_, ?_⟩, fun bank words count channel handed => ?_⟩
  · exact congrArg _ (startTransfer_bad (s := Taken s 16#5 ie) false bad)
  · exact congrArg _ (startTransfer_bad (s := Taken s 17#5 ie) true bad)
  · subst handed
    exact ⟨congrArg _ (startTransfer_starts (s := Taken s 16#5 ie) false bank words count),
      congrArg _ (startTransfer_starts (s := Taken s 17#5 ie) true bank words count)⟩

end Sys2Proof.Machine
end

section
/-! The words of an image transfer (R164, R165): a word moved or refused, and the engine's next operation. -/

namespace Sys2Proof.Machine

/-- An engine that holds the bus does at once what it does at a grant (R115). -/
theorem exec_busGrant_of_held {s t : State} (held : t = { s with engine := { s.engine with channel := .awaiting } }) :
    exec .busGrant t = .next s.nextOnBus :=
  held ▸ exec_busGrant_held s

section
variable {s u : State} {tr : Transfer}

/-- A word before the last leaves the transfer in progress, its counts and memory position advanced (R164, R165). -/
theorem State.wordMoved_further (further : 2 ≤ tr.left) : u.wordMoved tr =
    { u with
      port := { u.port with
        transfer := some
          { toMemory := tr.toMemory, position := tr.position + 1#24, left := tr.left - 1, moved := tr.moved + 1 } } } :=
  if_neg (Nat.not_le.2 further)

/-- The last word completes the transfer with the count moved (R164, R165). -/
theorem State.wordMoved_last (last : tr.left = 1) : u.wordMoved tr =
    { Finished u .ok (BitVec.ofNat 16 (tr.moved + 1)) 0#16 with port := { u.port with transfer := none } } :=
  if_pos (Nat.le_of_eq last)

/-- A command that steps the pointer, counts a word as moved and lets the arbiter choose the next operation moves a
word of the transfer, whatever it has made of one record. -/
theorem wordMoves_of_moved {c : Instr} {i : SlotId} {r : Slot}
    (runs : exec c s = .next ((WithSlot s i r).stepPointer.wordMoved tr).nextOnBus) :
    WordMoves s c tr (WithSlot s i r) := by
  refine ⟨_, runs, ?table, ?pointer, fun further => ?further, fun last => ?last⟩
  case table => simp [SameTable]
  case pointer =>
    simp only [State.nextOnBus_frame, State.wordMoved]
    split <;> rfl
  case further =>
    rw [State.wordMoved_further further]
    refine ⟨?_, ?_, ?_, exec_busGrant_of_held rfl⟩
    all_goals simp [State.stepPointer, WithSlot]
  case last =>
    rw [State.wordMoved_last last]
    refine ⟨?_, ?_, ?_, exec_busGrant_of_held rfl⟩
    all_goals simp [Finished, State.stepPointer, WithSlot]

variable (transfer : s.port.transfer = some tr)
include transfer

theorem exec_imageInWordAnswer {a : Position} {since : Nat} (channel : s.engine.channel = .imageRead a since)
    (word : Word) : exec (.imageInWordAnswer word) s = .next (s.wordArrived tr word).nextOnBus := by
  simp only [exec, execImageInWordAnswer, State.answerImage, channel, transfer]

theorem exec_imageOutWordAck {a : Position} {data : Word} {since : Nat}
    (channel : s.engine.channel = .imageWrite a data since) :
    exec .imageOutWordAck s = .next (s.stepPointer.wordMoved tr).nextOnBus := by
  simp only [exec, execImageOutWordAck, State.acknowledgeImage, channel, transfer]

end

/-- A word that the record refuses ends the transfer with PARTIAL and ACCESS set (R164). -/
theorem State.wordArrived_refused {s : State} {tr : Transfer} {word : Word} (refused : s.writePointed word = none) :
    s.wordArrived tr word =
      { Finished s .partialDone (BitVec.ofNat 16 tr.moved) 0#16 with
        port := { s.port with transfer := none }
        events := { s.events with done := true, access := true } } := by
  simp only [State.wordArrived, refused]
  rfl

/-- A word that the record takes is counted as moved (R164). -/
theorem State.wordArrived_written {s f : State} {tr : Transfer} {word : Word} (written : s.writePointed word = some f) :
    s.wordArrived tr word = f.wordMoved tr := by
  simp only [State.wordArrived, written]

/-- Settles O48: the word is written or refused as a write of the data word is, and the engine goes on as at a grant. -/
theorem imageWordsMove : Obligations.ImageWordsMove := by
  intro s word tr i transfer hi
  subst hi
  refine ⟨fun a since channel => ⟨fun r written => ?moved, fun locked => ?refused⟩,
    fun a data since channel => ?acknowledged⟩
  case moved =>
    have taken : s.writePointed word = some (WithSlot s s.port.pointer.slot r).stepPointer := by
      rcases written with ⟨k, staging, live, unlocked, rfl⟩ | ⟨flags, rfl⟩
      · exact State.writePointed_staging k word staging live unlocked
      · exact State.writePointed_attention word flags
    refine wordMoves_of_moved ?_
    rw [exec_imageInWordAnswer transfer channel, State.wordArrived_written taken]
  case refused =>
    have refused : s.writePointed word = none :=
      State.writePointed_refused word (or_comm.1 (or_assoc.2 locked))
    rw [exec_imageInWordAnswer transfer channel, State.wordArrived_refused refused]
    refine ⟨_, rfl, exec_busGrant_of_held rfl, ?_, ?_, ?_, ?_⟩
    · simp [SameTable, Finished]
    all_goals simp [Finished]
  case acknowledged =>
    have moves := wordMoves_of_moved (i := s.port.pointer.slot) (r := s.slot s.port.pointer.slot)
      ((exec_imageOutWordAck transfer channel).trans (by rw [WithSlot_self]))
    rwa [WithSlot_self] at moves

end Sys2Proof.Machine
end

section
/-! The access pointer and the data word (R155, R156, R161, R162): the pointer's word, its step, and what a read of the
data word returns. -/

namespace Sys2Proof.Machine

theorem bit_le_one (b : Bool) : bit b ≤ 1 := by
  cases b <;> decide

/-! ### The pointer's word (R155, R161) -/

theorem StepMode.code_le (m : StepMode) : m.code ≤ 2 := by
  cases m <;> decide

/-- The fields of the pointer's word lie side by side, so the word holds their sum (R155). -/
theorem Pointer.toWord_toNat (p : Pointer) :
    p.toWord.toNat = p.word.val + 256 * p.slot.val + 8192 * p.mode.code + 32768 * bit p.wrap := by
  have mode := p.mode.code_le
  have wrap := bit_le_one p.wrap
  rw [Pointer.toWord, BitVec.toNat_ofNat, Nat.mod_eq_of_lt (by omega)]

/-- A word whose fields are those of a pointer names that pointer (R161). -/
theorem parsePointer_eq {v : Word} {p : Pointer} (word : bits v 0 5 = p.word.val) (slot : bits v 8 5 = p.slot.val)
    (mode : bits v 13 2 = p.mode.code) (wrap : v.getLsbD 15 = p.wrap) : parsePointer v = some p := by
  have slotInRange : bits v 8 5 < 24 := slot ▸ p.slot.isLt
  have wordInRange : bits v 0 5 < 24 := word ▸ p.word.isLt
  obtain ⟨pslot, pword, pmode, pwrap⟩ := p
  have sameSlot : (⟨bits v 8 5, slotInRange⟩ : SlotId) = pslot := Fin.ext slot
  have sameWord : (⟨bits v 0 5, wordInRange⟩ : Fin 24) = pword := Fin.ext word
  subst wrap
  simp only [parsePointer, dif_pos slotInRange, dif_pos wordInRange, mode, sameSlot, sameWord]
  cases pmode <;> rfl

/-- A word with a field out of range names no pointer (R161). -/
theorem parsePointer_none {v : Word} (bad : 24 ≤ bits v 0 5 ∨ 24 ≤ bits v 8 5 ∨ bits v 13 2 = 3) :
    parsePointer v = none := by
  unfold parsePointer
  split
  · split
    · have mode : bits v 13 2 = 3 := by omega
      simp only [mode]
    · rfl
  · rfl

/-- Bit 15 is the top bit of a word. -/
theorem getLsbD_fifteen (v : Word) : v.getLsbD 15 = decide (32768 ≤ v.toNat) := by
  have := v.isLt
  rw [BitVec.getLsbD, Nat.testBit_eq_decide_div_mod_eq, decide_eq_decide]
  omega

/-- The pointer's word names the pointer that it shows (R155, R161). -/
theorem parsePointer_toWord (p : Pointer) : parsePointer p.toWord = some p := by
  have fields := p.toWord_toNat
  have mode := p.mode.code_le
  have wrap := bit_le_one p.wrap
  refine parsePointer_eq ?_ ?_ ?_ ?_
  · rw [bits, fields]
    omega
  · rw [bits, fields]
    omega
  · rw [bits, fields]
    omega
  · rw [getLsbD_fifteen, fields]
    cases p.wrap
    · simp [bit]
      omega
    · simp [bit]

section
variable {s : State} {v : Word}

theorem State.writePointer_stored {p : Pointer} (released : s.resetLine = false) (free : s.port.transfer = none)
    (names : parsePointer v = some p) : s.writePointer v = { s with port := { s.port with pointer := p } } := by
  simp [State.writePointer, released, free, names]

theorem State.writePointer_refused (released : s.resetLine = false)
    (bad : s.port.transfer.isSome = true ∨ parsePointer v = none) : s.writePointer v = s.refuseAccess := by
  simp only [State.writePointer, released, Bool.false_eq_true, if_false]
  split
  · next free names => simp [free, names] at bad
  · rfl

end

/-- Settles O30: a write replaces the pointer by the one it names, or is refused, and a read returns the
pointer's word. -/
theorem accessPointerWrites : Obligations.AccessPointerWrites := by
  intro s v
  refine ⟨fun held => ?_, fun p released free word slot mode wrap => ?_, fun released bad => ?_, parsePointer_toWord,
    rfl, s.port.pointer.toWord_toNat⟩
  · exact congrArg _ (if_pos held)
  · refine congrArg _ (State.writePointer_stored released free (parsePointer_eq ?_ slot mode wrap))
    simpa [bits] using word
  · refine congrArg _ (State.writePointer_refused released (bad.imp id fun bad => parsePointer_none ?_))
    simpa [bits] using bad

/-! ### The step of the pointer (R161) -/

section
variable {p : Pointer}

theorem Pointer.step_up (mode : p.mode = .up) : p.step =
    if p.word.val = 23 then { p with word := 0, slot := if p.wrap then p.slot else p.slot + 1 }
    else { p with word := p.word + 1 } := by
  simp only [Pointer.step, mode]

theorem Pointer.step_down (mode : p.mode = .down) : p.step =
    if p.word.val = 0 then { p with word := 23, slot := if p.wrap then p.slot else p.slot - 1 }
    else { p with word := p.word - 1 } := by
  simp only [Pointer.step, mode]

theorem Pointer.step_hold (mode : p.mode = .hold) : p.step = p := by
  simp only [Pointer.step, mode]

/-- A step keeps the step mode and the carry mode. -/
theorem Pointer.step_modes (p : Pointer) : p.step.mode = p.mode ∧ p.step.wrap = p.wrap := by
  unfold Pointer.step
  split
  · split <;> exact ⟨rfl, rfl⟩
  · split <;> exact ⟨rfl, rfl⟩
  · exact ⟨rfl, rfl⟩

end

/-! ### The live words (R6 to R8, R156) -/

section
variable {s : State} {i : SlotId}

theorem RecState.code_le (x : RecState) : x.code ≤ 4 := by
  cases x <;> decide

/-- The items of live word 16 lie side by side, so a word of them holds their sum (R156). -/
theorem statusItems_toNat (x : RecState) (pending : Bool) {n place : Nat} (countdown : n ≤ 255)
    (position : place ≤ 4096 * 7 + 32768) :
    (BitVec.ofNat 16 (x.code + 8 * bit pending + 16 * (n % 256) + place)).toNat =
      x.code + 8 * bit pending + 16 * n + place := by
  have code := x.code_le
  have indicator := bit_le_one pending
  rw [BitVec.toNat_ofNat, Nat.mod_eq_of_lt (a := n) (by omega), Nat.mod_eq_of_lt (by omega)]

/-- Live word 16 of a record off the stack (R6, R156). -/
theorem State.statusWord_offStack (countdown : (s.slot i).pending.getD 0 ≤ 255) (off : i ∉ s.stack) :
    (s.statusWord i).toNat =
      (s.slot i).state.code + 8 * bit (s.slot i).pending.isSome + 16 * (s.slot i).pending.getD 0 := by
  simp only [State.statusWord, State.layer, if_neg off]
  exact statusItems_toNat _ _ countdown (Nat.zero_le _)

/-- Live word 16 of a record on the stack shows the number of entries above it (R1, R6, R156). -/
theorem State.statusWord_onStack (countdown : (s.slot i).pending.getD 0 ≤ 255) {above below : List SlotId}
    (stack : s.stack = above ++ i :: below) (first : i ∉ above) (depth : above.length ≤ 7) :
    (s.statusWord i).toNat =
      (s.slot i).state.code + 8 * bit (s.slot i).pending.isSome + 16 * (s.slot i).pending.getD 0
        + 4096 * above.length + 32768 := by
  have on : i ∈ s.stack := by simp [stack]
  have place : s.stack.idxOf i = above.length := by rw [stack, idxOf_below first]
  simp only [State.statusWord, State.layer, if_pos on, place, Nat.mod_eq_of_lt (Nat.lt_succ_of_le depth)]
  have position : 4096 * above.length + 32768 ≤ 4096 * 7 + 32768 := by omega
  rw [statusItems_toNat _ _ countdown position, Nat.add_assoc _ (4096 * above.length)]

theorem Counters.toWord_toNat {n : Counters} (mix : n.mix ≤ 63) :
    n.toWord.toNat = n.mix + 256 * bit n.hidden + 512 * bit n.halted := by
  have hidden := bit_le_one n.hidden
  have halted := bit_le_one n.halted
  rw [Counters.toWord, BitVec.toNat_ofNat, Nat.mod_eq_of_lt (a := n.mix) (by omega), Nat.mod_eq_of_lt (by omega)]

/-- A record that is not FREE shows its staging copy in words 0 to 15 (R162). -/
theorem State.recordWord_staging (live : (s.slot i).state ≠ .free) {w : Fin 24} (k : Fin 16)
    (staging : w.val = k.val) : s.recordWord i w = (s.slot i).staging[k.val] := by
  simp [State.recordWord, live, staging]

/-- A record that is not FREE shows its live words in words 16 to 23 (R6 to R8, R162). -/
theorem State.recordWord_live (live : (s.slot i).state ≠ .free) :
    s.recordWord i 16 = s.statusWord i ∧ s.recordWord i 17 = (s.slot i).attention.toWord ∧
      s.recordWord i 18 = BitVec.ofInt 16 (s.slot i).geometry.left ∧
      s.recordWord i 19 = BitVec.ofInt 16 (s.slot i).geometry.right ∧
      s.recordWord i 20 = BitVec.ofInt 16 (s.slot i).geometry.top ∧
      s.recordWord i 21 = BitVec.ofInt 16 (s.slot i).geometry.bottom ∧
      s.recordWord i 22 = (s.slot i).counters.toWord ∧
      s.recordWord i 23 = BitVec.ofNat 16 (s.slot i).counters.lifetime := by
  refine ⟨?_, ?_, ?_, ?_, ?_, ?_, ?_, ?_⟩ <;> exact if_neg live

end

/-! ### Reads of the data word (R162, R167) -/

/-- A read of the data word returns the word at the pointer and steps it (R162). -/
theorem exec_accessDataRead_free {s : State} (released : s.resetLine = false) (free : s.port.transfer = none) :
    exec .accessDataRead s = .next
      { s with port := { s.port with readData := s.pointedWord, pointer := s.port.pointer.step } } := by
  simp [exec, execAccessDataRead, State.readData, State.dataWord, State.stepPointer, released, free]

/-- While a transfer is in flight a read of the data word is refused (R162). -/
theorem exec_accessDataRead_transfer {s : State} (released : s.resetLine = false)
    (flight : s.port.transfer.isSome = true) :
    exec .accessDataRead s = .next
      { s with port := { s.port with readData := 0#16 }, events := { s.events with access := true } } := by
  simp [exec, execAccessDataRead, State.readData, State.dataWord, State.refuseAccess, released, flight]

/-- While the computer's reset line is asserted a read of the data word changes nothing but the read latch (R167,
log 22). -/
theorem exec_accessDataRead_held {s : State} (held : s.resetLine = true) :
    exec .accessDataRead s = .next { s with port := { s.port with readData := s.dataWord } } := by
  simp [exec, execAccessDataRead, State.readData, held]

/-- A read of the data word latches the word that the state shows, whatever the reset line. -/
theorem State.readData_latch (s : State) : s.readData.port.readData = s.dataWord := by
  unfold State.readData
  dsimp only
  split
  · rfl
  · split <;> rfl

theorem State.dataWord_free {s : State} (free : (s.slot s.port.pointer.slot).state = .free) : s.dataWord = 0#16 := by
  unfold State.dataWord
  split
  · rfl
  · exact State.recordWord_free free _

/-- Settles O31: what a read returns and changes with the reset line asserted, with a transfer in flight and without
one; the words of a record; and the step of the pointer. -/
theorem accessDataReads : Obligations.AccessDataReads := by
  refine ⟨fun s held => ?held, fun s code released named =>
    ⟨exec_accessDataRead_transfer released, fun free => ?read, fun p => ?step⟩⟩
  case held =>
    have same : State.dataWord { s with resetLine := false } = s.dataWord := rfl
    exact ⟨s.dataWord, _, exec_accessDataRead_held held, rfl, ((State.readData_latch _).trans same).symm,
      State.dataWord_free⟩
  case read =>
    have codes : code = (s.slot s.port.pointer.slot).state.code := named
    have pointed {w : Fin 24} (word : s.port.pointer.word = w) :
        s.pointedWord = s.recordWord s.port.pointer.slot w := by
      rw [← word]
      rfl
    refine ⟨s.pointedWord, _, exec_accessDataRead_free released free, rfl,
      fun empty => State.recordWord_free empty _, fun live => ?_⟩
    obtain ⟨status, flags, left, right, top, bottom, counters, lifetime⟩ := State.recordWord_live live
    refine ⟨fun k staging => State.recordWord_staging live k staging, fun n word range countdown => ?status,
      fun word => (pointed word).trans flags, fun word => (pointed word).trans left,
      fun word => (pointed word).trans right, fun word => (pointed word).trans top,
      fun word => (pointed word).trans bottom, fun word mix => ?counters, fun word => (pointed word).trans lifetime⟩
    case status =>
      subst countdown codes
      rw [pointed word, status]
      exact ⟨State.statusWord_offStack range, fun above below => State.statusWord_onStack range⟩
    case counters =>
      rw [pointed word, counters]
      exact Counters.toWord_toNat mix
  case step =>
    refine ⟨Pointer.step_hold, fun mode inside => ?_, fun mode last => ?_, fun mode inside => ?_, fun mode first => ?_,
      p.step_modes⟩
    · rw [Pointer.step_up mode, if_neg (Nat.ne_of_lt inside)]
      exact ⟨rfl, Nat.mod_eq_of_lt (Nat.succ_lt_succ inside)⟩
    · rw [Pointer.step_up mode, if_pos last]
      refine ⟨rfl, ?_⟩
      split <;> rfl
    · rw [Pointer.step_down mode, if_neg (Nat.ne_of_gt inside)]
      refine ⟨rfl, ?_⟩
      show (23 + p.word.val) % 24 = p.word.val - 1
      omega
    · rw [Pointer.step_down mode, if_pos first]
      refine ⟨rfl, ?_⟩
      split
      · rfl
      · exact congrArg (· % 24) (Nat.add_comm 23 p.slot.val)

end Sys2Proof.Machine
end

section
/-! Reads of the register window (R21, R139, R148, R154, R155, R157): the command word, the attention summary and the
status words. -/

namespace Sys2Proof.Machine

/-! ### The command word (R155, R157) -/

/-- A completion's place in a list that holds the completions in the order of their codes is its code. -/
theorem Completion.code_of_getElem? {l : List Completion} (ordered : l.map Completion.code = List.range l.length)
    {n : Nat} {c : Completion} (at' : l[n]? = some c) : c.code = n := by
  have code : (l.map Completion.code)[n]? = some c.code := by rw [List.getElem?_map, at']; rfl
  rw [ordered] at code
  obtain ⟨_, place⟩ := List.getElem?_eq_some_iff.1 code
  rw [← place, List.getElem_range]

theorem Completion.code_le (c : Completion) : c.code ≤ 20 := by
  cases c <;> decide

/-- The fields of the command word lie side by side, so the word holds their sum (R155). -/
theorem CommandUnit.toWord_toNat (u : CommandUnit) :
    u.toWord.toNat = u.func.toNat + 32 * bit u.ie + 128 * bit u.ready + 256 * u.completion.code := by
  have func : u.func.toNat < 32 := u.func.isLt
  have ie := bit_le_one u.ie
  have ready := bit_le_one u.ready
  have code := u.completion.code_le
  rw [CommandUnit.toWord, BitVec.toNat_ofNat, Nat.mod_eq_of_lt (by omega)]

/-! ### The attention summary (R21) -/

/-- A power of two above a number adds its one bit to the number's. -/
theorem add_two_pow_testBit {a n : Nat} (below : a < 2 ^ n) (k : Nat) :
    (a + 2 ^ n).testBit k = true ↔ a.testBit k = true ∨ n = k := by
  have disjoint : a + 2 ^ n = 2 ^ n ||| a := by
    have sum := Nat.two_pow_add_eq_or_of_lt below 1
    rwa [Nat.mul_one, Nat.add_comm] at sum
  rw [disjoint, Nat.testBit_or, Nat.testBit_two_pow, Bool.or_eq_true, decide_eq_true_eq, or_comm]

/-- A sum of powers of two at rising places has one bit for each of them, above the bits of what it starts from. -/
theorem foldl_two_pow_testBit {place : SlotId → Nat} (k : Nat) {l : List SlotId} {a : Nat}
    (rising : l.Pairwise fun i j => place i < place j) (below : ∀ i ∈ l, a < 2 ^ place i) :
    (l.foldl (fun a i => a + 2 ^ place i) a).testBit k = true ↔ a.testBit k = true ∨ ∃ i ∈ l, place i = k := by
  induction l generalizing a with
  | nil => simp only [List.foldl_nil, List.not_mem_nil, false_and, exists_false, or_false]
  | cons i l ih =>
    obtain ⟨first, rest⟩ := List.pairwise_cons.1 rising
    have start : a < 2 ^ place i := below i List.mem_cons_self
    have above : ∀ j ∈ l, a + 2 ^ place i < 2 ^ place j := fun j member => by
      have doubled : 2 ^ (place i + 1) ≤ 2 ^ place j := Nat.pow_le_pow_right Nat.two_pos (first j member)
      rw [Nat.pow_succ] at doubled
      omega
    rw [List.foldl_cons, ih rest above, add_two_pow_testBit start, or_assoc]
    simp only [List.mem_cons, or_and_right, exists_or, exists_eq_left]

/-- A word made of one bit for each chosen slot, at places that rise with the slots, has exactly these bits. -/
theorem chosenBits_getLsbD {chosen : SlotId → Bool} {place : SlotId → Nat}
    (rising : ∀ i j, chosen i = true → chosen j = true → i < j → place i < place j) (k : Nat) :
    (BitVec.ofNat 16 (((List.finRange 24).filter chosen).foldl (fun a i => a + 2 ^ place i) 0)).getLsbD k = true ↔
      k < 16 ∧ ∃ i, chosen i = true ∧ place i = k := by
  have places : ((List.finRange 24).filter chosen).Pairwise fun i j => place i < place j :=
    List.pairwise_filter.2 ((List.pairwise_lt_finRange 24).imp fun below chosenI chosenJ =>
      rising _ _ chosenI chosenJ below)
  rw [BitVec.getLsbD_ofNat, Bool.and_eq_true, decide_eq_true_eq,
    foldl_two_pow_testBit k places fun i _ => Nat.two_pow_pos _]
  simp only [Nat.zero_testBit, Bool.false_eq_true, false_or, List.mem_filter, List.mem_finRange, true_and]

section
variable (s : State)

/-- Bit n of word 8 is set exactly while a flag of slot n's record is (R21). -/
theorem State.summaryLow_getLsbD (k : Nat) :
    s.summaryLow.getLsbD k = true ↔ ∃ i : SlotId, i.val = k ∧ i.val < 16 ∧ (s.slot i).attention.any = true := by
  rw [State.summaryLow, chosenBits_getLsbD (fun _ _ _ _ below => below)]
  simp only [Bool.and_eq_true, decide_eq_true_eq]
  constructor
  · rintro ⟨-, i, chosen, place⟩
    exact ⟨i, place, chosen⟩
  · rintro ⟨i, place, chosen⟩
    exact ⟨place ▸ chosen.1, i, chosen, place⟩

/-- Bit n of word 9 is set exactly while a flag of slot 16 + n's record is (R21). -/
theorem State.summaryHigh_getLsbD (k : Nat) :
    s.summaryHigh.getLsbD k = true ↔ ∃ i : SlotId, i.val = 16 + k ∧ (s.slot i).attention.any = true := by
  rw [State.summaryHigh, chosenBits_getLsbD]
  · simp only [Bool.and_eq_true, decide_eq_true_eq]
    constructor
    · rintro ⟨-, i, ⟨high, flagged⟩, place⟩
      exact ⟨i, by omega, flagged⟩
    · rintro ⟨i, place, flagged⟩
      exact ⟨by omega, i, ⟨by omega, flagged⟩, by omega⟩
  · intro i j chosenI chosenJ below
    simp only [Bool.and_eq_true, decide_eq_true_eq] at chosenI chosenJ
    have rises : i.val < j.val := below
    omega

/-- The summary words hold a bit for each slot (R21). -/
theorem State.summary_slot (i : SlotId) :
    (if i.val < 16 then s.summaryLow.getLsbD i.val else s.summaryHigh.getLsbD (i.val - 16)) =
      (s.slot i).attention.any := by
  rw [Bool.eq_iff_iff]
  split
  · next low =>
    rw [State.summaryLow_getLsbD]
    constructor
    · rintro ⟨j, place, -, flagged⟩
      rwa [← Fin.ext place]
    · exact fun flagged => ⟨i, rfl, low, flagged⟩
  · next high =>
    rw [State.summaryHigh_getLsbD]
    constructor
    · rintro ⟨j, place, flagged⟩
      have same : j = i := Fin.ext (by omega)
      rwa [← same]
    · exact fun flagged => ⟨i, by omega, flagged⟩

/-- Word 9 has no bit for a slot past the last (R155). -/
theorem State.summaryHigh_top {k : Nat} (top : 8 ≤ k) : s.summaryHigh.getLsbD k = false := by
  rw [← Bool.not_eq_true, State.summaryHigh_getLsbD]
  rintro ⟨i, place, -⟩
  have := i.isLt
  omega

/-! ### The status words (R139, R148) -/

/-- The fields of the program status word lie side by side, so the word holds their sum (R155). -/
theorem State.programStatus_toNat : s.programStatus.toNat =
    inputCode s.tb.program + 2 * s.tb.state.code + 8 * bit (decide (s.tb.switch ≠ .none)) + 16 * s.tb.standard.bit
      + 32 * bit (decide (s.keyer.cutBlanking ≠ 0)) + 64 * bit s.guard.expired := by
  have program : inputCode s.tb.program ≤ 1 := by cases s.tb.program <;> decide
  have state : s.tb.state.code ≤ 3 := by cases s.tb.state <;> decide
  have standard : s.tb.standard.bit ≤ 1 := by cases s.tb.standard <;> decide
  have switching := bit_le_one (decide (s.tb.switch ≠ .none))
  have blanking := bit_le_one (decide (s.keyer.cutBlanking ≠ 0))
  have expired := bit_le_one s.guard.expired
  rw [State.programStatus, BitVec.toNat_ofNat, Nat.mod_eq_of_lt (by omega)]

end

/-- The fields of an input status word lie side by side, so the word holds their sum (R155). -/
theorem LockContext.statusWord_toNat (c : LockContext) :
    c.statusWord.toNat = c.lock.code + 8 * standardCode c.standard + 32 * bit c.sourceChanged := by
  have lock : c.lock.code ≤ 4 := by cases c.lock <;> decide
  have standard : standardCode c.standard ≤ 2 := by rcases c.standard with _ | _ | _ <;> decide
  have changed := bit_le_one c.sourceChanged
  rw [LockContext.statusWord, BitVec.toNat_ofNat, Nat.mod_eq_of_lt (by omega)]

/-- Settles O29: each word of the window, by the sum of its fields or by its bits. -/
theorem registerReads : Obligations.RegisterReads := by
  intro s
  refine ⟨fun n named => ?command, rfl, rfl, rfl, rfl, rfl, fun i => s.summary_slot i,
    fun k top => s.summaryHigh_top top, ?program, fun x w read => ?input, rfl⟩
  case command =>
    rw [← Completion.code_of_getElem? rfl named]
    exact s.cmd.toWord_toNat
  case program => exact s.programStatus_toNat
  case input =>
    have status : w = (s.ctx x).statusWord := by
      rw [read]
      cases x <;> rfl
    rw [status]
    exact (s.ctx x).statusWord_toNat

end Sys2Proof.Machine
end

section
/-! The Event Register and the interrupt line (R155, R167, R169, R170): the bits of the event words, the writes of the
flags and of the mask, and when the line is asserted. -/

namespace Sys2Proof.Machine

/-! ### The event words (R155) -/

/-- Bit 0 of a number made of a lowest bit and the bits above it. -/
theorem bit_add_testBit_zero (b : Bool) (n : Nat) : (bit b + 2 * n).testBit 0 = b := by
  rw [Nat.testBit_zero, Nat.add_mul_mod_self_left]
  cases b <;> rfl

/-- The further bits of a number made of a lowest bit and the bits above it. -/
theorem bit_add_testBit_succ (b : Bool) (n k : Nat) : (bit b + 2 * n).testBit (k + 1) = n.testBit k := by
  have low := bit_le_one b
  have above : (bit b + 2 * n) / 2 = n := by omega
  rw [Nat.testBit_succ, above]

/-- The number of a word of event bits, from bit 0 up. -/
theorem EventBits.toWord_eq_nested (e : EventBits) : e.toWord = BitVec.ofNat 16
    (bit e.done + 2 * (bit e.window + 2 * (bit e.lock + 2 * (bit e.timebase + 2 * (bit e.guard
      + 2 * (bit e.overrun + 2 * (bit e.access + 2 * 0))))))) := by
  refine congrArg (BitVec.ofNat 16) ?_
  omega

/-- The places of the event bits in their word; bits 7 to 15 are 0 (R155, R169). -/
theorem EventBits.toWord_getLsbD (e : EventBits) (k : Fin 16) : e.toWord.getLsbD k.val =
    (match k.val with
      | 0 => e.done | 1 => e.window | 2 => e.lock | 3 => e.timebase | 4 => e.guard | 5 => e.overrun | 6 => e.access
      | _ => false) := by
  rw [EventBits.toWord_eq_nested, BitVec.getLsbD_ofNat, decide_eq_true k.isLt, Bool.true_and]
  match k.val with
  | 0 => exact bit_add_testBit_zero _ _
  | 1 | 2 | 3 | 4 | 5 | 6 => simp only [bit_add_testBit_succ, bit_add_testBit_zero]
  | n + 7 => simp only [bit_add_testBit_succ, Nat.zero_testBit]

/-! ### Writes (R167, R169) -/

section
variable {s : State}

theorem State.writeEventFlags_released (released : s.resetLine = false) (v : Word) :
    s.writeEventFlags v = { s with events := s.events.clear (EventBits.ofWord v) } := by
  simp only [State.writeEventFlags, released, Bool.false_eq_true, if_false]

theorem State.writeEventMask_released (released : s.resetLine = false) (v : Word) :
    s.writeEventMask v = { s with mask := EventBits.ofWord v } := by
  simp only [State.writeEventMask, released, Bool.false_eq_true, if_false]

theorem State.writeEventFlags_held (held : s.resetLine = true) (v : Word) : s.writeEventFlags v = s := if_pos held

theorem State.writeEventMask_held (held : s.resetLine = true) (v : Word) : s.writeEventMask v = s := if_pos held

end

/-! ### The interrupt line (R170) -/

theorem EventBits.meets_iff (e m : EventBits) : e.meets m = true ↔
    (e.done = true ∧ m.done = true) ∨ (e.window = true ∧ m.window = true) ∨ (e.lock = true ∧ m.lock = true) ∨
      (e.timebase = true ∧ m.timebase = true) ∨ (e.guard = true ∧ m.guard = true) ∨
      (e.overrun = true ∧ m.overrun = true) ∨ (e.access = true ∧ m.access = true) := by
  simp only [EventBits.meets, Bool.or_eq_true, Bool.and_eq_true, or_assoc]

theorem State.interruptLine_iff (s : State) :
    s.interruptLine = true ↔ s.cmd.ie = true ∧ s.events.meets s.mask = true :=
  Bool.and_eq_true_iff

/-- With IE clear the line is deasserted, whatever the flags and the mask. -/
theorem State.interruptLine_disabled {s : State} (disabled : s.cmd.ie = false) : s.interruptLine = false := by
  rw [State.interruptLine, disabled, Bool.false_and]

/-- Settles O28: the writes by the reset line, the words by their bits, and the line by IE, which both resets clear. -/
theorem eventRegisterAndInterruptLine : Obligations.EventRegisterAndInterruptLine := by
  refine ⟨fun s v => ⟨fun released => ⟨?flags, ?mask⟩, fun held => ⟨?flagsHeld, ?maskHeld⟩, fun k e => ?bits, rfl, rfl⟩,
    fun s => ?line, fun s t h => ?powerOn, fun s t h => ?busReset⟩
  case flags => exact congrArg _ (State.writeEventFlags_released released v)
  case mask => exact congrArg _ (State.writeEventMask_released released v)
  case flagsHeld => exact congrArg _ (State.writeEventFlags_held held v)
  case maskHeld => exact congrArg _ (State.writeEventMask_held held v)
  case bits => exact e.toWord_getLsbD k
  case line => rw [s.interruptLine_iff, EventBits.meets_iff]
  case powerOn =>
    cases h
    exact State.interruptLine_disabled rfl
  case busReset =>
    cases h
    exact State.interruptLine_disabled rfl

end Sys2Proof.Machine
end

section
/-! The step, the totality of every command, and the machine after reset: what a step runs on a queue and on an empty
one, that each row of the table answers a next state and leaves the queue, and that the laws hold to begin with. -/

namespace Sys2Proof.Machine

/-! ### The step -/

theorem step_command {s : State} {c : Instr} {rest : List Instr} (front : s.pending = c :: rest) :
    step s = exec c { s with pending := rest } := by
  rw [step, front]

theorem step_idle {s : State} (empty : s.pending = []) : step s = s.idleStep := by
  rw [step, empty]

theorem State.idleStep_due {s : State} {c : Instr} (due : s.due = some c) : s.idleStep = exec c s := by
  rw [State.idleStep, due]

theorem State.idleStep_quiet {s : State} (quiet : s.due = none) : s.idleStep = .next { s with now := s.now + 1 } := by
  rw [State.idleStep, quiet]

/-- Settles O1: the queue's front decides what a step runs, and on an empty queue the timed event that is due. -/
theorem stepRunsTheFrontCommand : Obligations.StepRunsTheFrontCommand :=
  ⟨fun _ _ _ front => step_command front, fun _ _ empty due => (step_idle empty).trans (State.idleStep_due due),
    fun _ empty quiet => (step_idle empty).trans (State.idleStep_quiet quiet)⟩

/-! ### Every command answers a next state -/

/-- Every row of the table has a meaning in every state: a row whose own condition does not hold leaves the state as it
is, and no row ends in a fault or a refusal. -/
theorem exec_answers (c : Instr) (s : State) : ∃ t, exec c s = .next t := by
  cases c
  case adoption | lifetimeExpiry | expiryAutoRetire | blinkToggle | blinkHide | guardExpiry =>
    simp only [exec, execAdoption, execLifetimeExpiry, execExpiryAutoRetire, execBlinkToggle, execBlinkHide,
      execGuardExpiry]
    split <;> exact ⟨_, rfl⟩
  case pushApply | liftApply | raiseApply | lowerApply | clearAirApply | retireApply =>
    simp only [exec, execPushApply, execLiftApply, execRaiseApply, execLowerApply, execClearAirApply, execRetireApply]
    split <;> exact ⟨_, rfl⟩
  case busGrant | verifyPass | holdoverRelock | holdoverLimit | lossTimerExpiry | cutSwitch | slewSwitch =>
    simp only [exec, execBusGrant, execVerifyPass, execHoldoverRelock, execHoldoverLimit, execLossTimerExpiry,
      execCutSwitch, execSlewSwitch]
    split <;> exact ⟨_, rfl⟩
  case heldSelectTimeout =>
    simp only [exec, execHeldSelectTimeout]
    split
    · exact ⟨_, rfl⟩
    · split <;> exact ⟨_, rfl⟩
  all_goals exact ⟨_, rfl⟩

/-! ### Every command leaves the queue -/

theorem commandEffect_pending (x : Bool) (code : BitVec 5) (s : State) :
    (commandEffect x code s).pending = s.pending := by
  apply commandEffect_cases (P := fun e => (e s).pending = s.pending)
  all_goals intros; simp

/-- Commands come into the queue from outside and leave it at a step's beginning: no command's effect touches it. -/
theorem exec_pending {c : Instr} {s t : State} (h : exec c s = .next t) : t.pending = s.pending := by
  refine exec_ind (P := fun t => t.pending = s.pending) h ?self ?powerOn ?busReset ?release ?overrun ?refuse ?taken
    ?stored ?flags ?mask ?pointer ?read ?readRefused ?written ?field ?adoption ?expiry ?autoRetire ?blink ?guard
    ?applyHeld ?timeout ?settle ?beginLine ?takingPoint ?grant ?answerMask ?answerImage ?acknowledge ?busTimeout
    ?tracked ?cut ?slew ?lineEnd
  case powerOn => exact fun _ => rfl
  case busReset => rfl
  case taken => exact fun code ie _ => commandEffect_pending _ code (s.take code ie)
  case written => exact fun _ _ _ hw => by simp [State.writePointed_frame hw]
  all_goals intros; simp

/-- Settles O2: the rows answer one by one, and what each can make of the state leaves the queue. -/
theorem everyCommandAnswersNext : Obligations.EveryCommandAnswersNext := fun c s => by
  obtain ⟨t, answers⟩ := exec_answers c s
  exact ⟨t, answers, exec_pending answers⟩

/-! ### The machine after reset -/

/-- Power-on brings the machine after reset to itself. -/
theorem State.reset_powerOn : State.reset.powerOn = State.reset := rfl

theorem State.reset_windowLaws :
    StackLaw State.reset ∧ RecordLaw State.reset ∧ CopyLaw State.reset ∧ GeometryLaw State.reset :=
  (WindowsSound_iff _).1 (State.reset_powerOn ▸ State.reset.powerOn_sound)

theorem State.reset_readyLaw : ReadyLaw State.reset := ReadyLaw_idle rfl rfl rfl rfl

theorem State.reset_followLaw : FollowLaw State.reset := FollowLaw_free ⟨nofun, nofun⟩

theorem State.reset_contextLaw : ContextLaw State.reset := by
  rw [← State.reset_powerOn, ContextLaw_iff]
  intro x
  rw [State.powerOn_ctx]
  exact LockContext.powerOn_sound

/-- A stopped engine holds no word and no descriptor, and no read is in flight (R108, R124). -/
theorem State.reset_engineLaw : EngineLaw State.reset := ⟨Nat.zero_le _, nofun, Nat.zero_le _⟩

theorem State.reset_timebaseLaw : TimebaseLaw State.reset := by
  unfold TimebaseLaw
  decide

/-- In FREE RUN with both residuals 0, a line of its own length and no switch scheduled (R141). -/
theorem State.reset_residualLaw : ResidualLaw State.reset := ⟨fun _ => ⟨rfl, rfl⟩, fun _ => rfl, nofun⟩

theorem State.reset_guardLaw : GuardLaw State.reset := ⟨Nat.zero_le _, Nat.le_refl _, nofun⟩

theorem State.reset_heldSelectLaw : HeldSelectLaw State.reset := HeldSelectLaw_none rfl

/-- Settles O3: every record is blank and every block at its power-on values, law by law. -/
theorem resetMeetsEveryLaw : Obligations.ResetMeetsEveryLaw := by
  obtain ⟨stack, record, copy, geometry⟩ := State.reset_windowLaws
  exact ⟨stack, record, copy, geometry, State.reset_readyLaw, State.reset_followLaw, State.reset_contextLaw,
    State.reset_engineLaw, State.reset_timebaseLaw, State.reset_residualLaw, State.reset_guardLaw,
    State.reset_heldSelectLaw⟩

end Sys2Proof.Machine
end
